-- ==== Sys2Proof/Word.lean ====
section
/-! DEFINITION. The word and byte types of RS-CORE and the little-endian view of a word (20_memory.md R64). -/

namespace Sys2Proof

/-- A host data word, and every register of RS-CORE: DW = 32 bits (00_scope.md R7, 10_state.md R22). -/
abbrev Word := BitVec 32

/-- A byte lane of the data bus (20_memory.md R64). -/
abbrev Byte := BitVec 8

end Sys2Proof
end

