-- ==== Sys2Proof/Syntax.lean ====
section
/-! DEFINITION. The 28 commands of RS-CORE (30_encoding.md R95), one constructor per row of spec/opcode_table.json.
Operands stand in the order D, D2, D3, S1, S2 of the assembler syntax (30_encoding.md R98). -/

namespace Sys2Proof

/-- The index of an element register E0..E15 (30_encoding.md R91). -/
abbrev EReg := Fin 16

/-- The index of a polynomial register P0..P15 (30_encoding.md R91). -/
abbrev PReg := Fin 16

/-- A command. Fields that the opcode map marks as unused are no part of it (30_encoding.md R92). -/
inductive Instr where
  | nop
  | fzero (d : EReg)
  | fone (d : EReg)
  | fadd (d s1 s2 : EReg)
  | fneg (d s1 : EReg)
  | fmul (d s1 s2 : EReg)
  | finv (d s1 : EReg)
  | fpow (d s1 : EReg)
  | padd (d s1 s2 : PReg)
  | pneg (d s1 : PReg)
  | pmul (d s1 s2 : PReg)
  | pdiv (d d2 s1 s2 : PReg)
  | pgcd (d s1 s2 : PReg)
  | pgcdx (d d2 d3 s1 s2 : PReg)
  | peval (d : EReg) (s1 : PReg) (s2 : EReg)
  | pinterp (d : PReg)
  | ppowmod (d s1 s2 : PReg)
  | pirred (s1 : PReg)
  | preduce (d s1 : PReg)
  | genpoly (d : PReg)
  | encEval (s1 : PReg)
  | encGen (s1 s2 : PReg)
  | decLa (d : PReg)
  | decEe (d : PReg)
  | decBch (d s1 : PReg)
  | synd (d : PReg)
  | elp (d s1 : PReg)
  | lakey (d d2 : PReg)
deriving DecidableEq, Repr

end Sys2Proof
end

