-- ==== Sys2Proof/WellFormed.lean ====
section
/-! DEFINITION. The one well-formedness check of a command: a command that writes two or three polynomial registers
names distinct ones (30_encoding.md R94). Register indices are in range by their type. -/

namespace Sys2Proof

/-- The destination check of 30_encoding.md R94. -/
def Instr.wf : Instr → Bool
  | .nop => true
  | .fzero _ => true
  | .fone _ => true
  | .fadd _ _ _ => true
  | .fneg _ _ => true
  | .fmul _ _ _ => true
  | .finv _ _ => true
  | .fpow _ _ => true
  | .padd _ _ _ => true
  | .pneg _ _ => true
  | .pmul _ _ _ => true
  | .pdiv d d2 _ _ => d != d2
  | .pgcd _ _ _ => true
  | .pgcdx d d2 d3 _ _ => d != d2 && d != d3 && d2 != d3
  | .peval _ _ _ => true
  | .pinterp _ => true
  | .ppowmod _ _ _ => true
  | .pirred _ => true
  | .preduce _ _ => true
  | .genpoly _ => true
  | .encEval _ => true
  | .encGen _ _ => true
  | .decLa _ => true
  | .decEe _ => true
  | .decBch _ _ => true
  | .synd _ => true
  | .elp _ _ => true
  | .lakey d d2 => d != d2

end Sys2Proof
end

