-- ==== Sys2Proof/Decode.lean ====
section
/-! DEFINITION. Decoding a command word (30_encoding.md R90 to R96), total on all 32-bit words and refusing by name,
and the encoder written from the same table. -/

namespace Sys2Proof

/-- Why a word does not decode: every one of them completes with ILLEGAL (30_encoding.md R93, R94; 60_exceptions.md R267). -/
inductive DecodeError where
  /-- bits 31:28 are not 0000 (30_encoding.md R93) -/
  | reservedBits
  /-- an OPC outside the opcode map (30_encoding.md R93, R95) -/
  | undefinedOpcode
  /-- two destination fields of PDIV, PGCDX or LAKEY name one register (30_encoding.md R94) -/
  | destinationClash
deriving DecidableEq, Repr

/-- OPC, bits 7:0 (30_encoding.md R90). -/
def opcField (cw : Word) : Nat := cw.toNat % 256

/-- The 4-bit field whose lowest bit is number lo, as a register index (30_encoding.md R91). -/
def indexField (lo : Nat) (cw : Word) : Fin 16 := ⟨cw.toNat / 2 ^ lo % 16, Nat.mod_lt _ (by decide)⟩

/-- D, bits 11:8. -/
def fieldD (cw : Word) : Fin 16 := indexField 8 cw
/-- S1, bits 15:12. -/
def fieldS1 (cw : Word) : Fin 16 := indexField 12 cw
/-- S2, bits 19:16. -/
def fieldS2 (cw : Word) : Fin 16 := indexField 16 cw
/-- D2, bits 23:20. -/
def fieldD2 (cw : Word) : Fin 16 := indexField 20 cw
/-- D3, bits 27:24. -/
def fieldD3 (cw : Word) : Fin 16 := indexField 24 cw
/-- RSV, bits 31:28. -/
def fieldRsv (cw : Word) : Fin 16 := indexField 28 cw

/-- The opcode map of 30_encoding.md R95: the command of an OPC with its used fields read as register indices,
before the destination check. -/
def opcodeMap (cw : Word) : Option Instr :=
  match opcField cw with
  | 0x00 => some .nop
  | 0x01 => some (.fzero (fieldD cw))
  | 0x02 => some (.fone (fieldD cw))
  | 0x03 => some (.fadd (fieldD cw) (fieldS1 cw) (fieldS2 cw))
  | 0x04 => some (.fneg (fieldD cw) (fieldS1 cw))
  | 0x05 => some (.fmul (fieldD cw) (fieldS1 cw) (fieldS2 cw))
  | 0x06 => some (.finv (fieldD cw) (fieldS1 cw))
  | 0x07 => some (.fpow (fieldD cw) (fieldS1 cw))
  | 0x10 => some (.padd (fieldD cw) (fieldS1 cw) (fieldS2 cw))
  | 0x11 => some (.pneg (fieldD cw) (fieldS1 cw))
  | 0x12 => some (.pmul (fieldD cw) (fieldS1 cw) (fieldS2 cw))
  | 0x13 => some (.pdiv (fieldD cw) (fieldD2 cw) (fieldS1 cw) (fieldS2 cw))
  | 0x14 => some (.pgcd (fieldD cw) (fieldS1 cw) (fieldS2 cw))
  | 0x15 => some (.pgcdx (fieldD cw) (fieldD2 cw) (fieldD3 cw) (fieldS1 cw) (fieldS2 cw))
  | 0x16 => some (.peval (fieldD cw) (fieldS1 cw) (fieldS2 cw))
  | 0x17 => some (.pinterp (fieldD cw))
  | 0x18 => some (.ppowmod (fieldD cw) (fieldS1 cw) (fieldS2 cw))
  | 0x19 => some (.pirred (fieldS1 cw))
  | 0x1A => some (.preduce (fieldD cw) (fieldS1 cw))
  | 0x20 => some (.genpoly (fieldD cw))
  | 0x21 => some (.encEval (fieldS1 cw))
  | 0x22 => some (.encGen (fieldS1 cw) (fieldS2 cw))
  | 0x23 => some (.decLa (fieldD cw))
  | 0x24 => some (.decEe (fieldD cw))
  | 0x25 => some (.decBch (fieldD cw) (fieldS1 cw))
  | 0x26 => some (.synd (fieldD cw))
  | 0x27 => some (.elp (fieldD cw) (fieldS1 cw))
  | 0x28 => some (.lakey (fieldD cw) (fieldD2 cw))
  | _ => none

/-- Decoding, in the order of 30_encoding.md R96: RSV, then OPC, then the destination clash. -/
def decode (cw : Word) : Except DecodeError Instr :=
  if fieldRsv cw ≠ 0 then .error .reservedBits
  else
    match opcodeMap cw with
    | none => .error .undefinedOpcode
    | some i => if i.wf then .ok i else .error .destinationClash

/-- The instruction that the decoder reads from the table word w (host interface; every row has 32 bits). -/
def decodeTableWord (_nbits w : Nat) : Option Instr :=
  match decode (BitVec.ofNat 32 w) with
  | .ok i => some i
  | .error _ => none

/-- The command word of 30_encoding.md R90: cw = OPC | D<<8 | S1<<12 | S2<<16 | D2<<20 | D3<<24, with RSV = 0. -/
def packWord (opc : Nat) (d s1 s2 d2 d3 : Fin 16) : Word :=
  BitVec.ofNat 32 (opc + d * 2 ^ 8 + s1 * 2 ^ 12 + s2 * 2 ^ 16 + d2 * 2 ^ 20 + d3 * 2 ^ 24)

/-- OPC of each command (30_encoding.md R95). -/
def Instr.opc : Instr → Nat
  | .nop => 0x00
  | .fzero _ => 0x01
  | .fone _ => 0x02
  | .fadd _ _ _ => 0x03
  | .fneg _ _ => 0x04
  | .fmul _ _ _ => 0x05
  | .finv _ _ => 0x06
  | .fpow _ _ => 0x07
  | .padd _ _ _ => 0x10
  | .pneg _ _ => 0x11
  | .pmul _ _ _ => 0x12
  | .pdiv _ _ _ _ => 0x13
  | .pgcd _ _ _ => 0x14
  | .pgcdx _ _ _ _ _ => 0x15
  | .peval _ _ _ => 0x16
  | .pinterp _ => 0x17
  | .ppowmod _ _ _ => 0x18
  | .pirred _ => 0x19
  | .preduce _ _ => 0x1A
  | .genpoly _ => 0x20
  | .encEval _ => 0x21
  | .encGen _ _ => 0x22
  | .decLa _ => 0x23
  | .decEe _ => 0x24
  | .decBch _ _ => 0x25
  | .synd _ => 0x26
  | .elp _ _ => 0x27
  | .lakey _ _ => 0x28

/-- The word of a command, with every unused field 0 (30_encoding.md R90, R95). -/
def encode (i : Instr) : Word :=
  match i with
  | .nop => packWord i.opc 0 0 0 0 0
  | .fzero d => packWord i.opc d 0 0 0 0
  | .fone d => packWord i.opc d 0 0 0 0
  | .fadd d s1 s2 => packWord i.opc d s1 s2 0 0
  | .fneg d s1 => packWord i.opc d s1 0 0 0
  | .fmul d s1 s2 => packWord i.opc d s1 s2 0 0
  | .finv d s1 => packWord i.opc d s1 0 0 0
  | .fpow d s1 => packWord i.opc d s1 0 0 0
  | .padd d s1 s2 => packWord i.opc d s1 s2 0 0
  | .pneg d s1 => packWord i.opc d s1 0 0 0
  | .pmul d s1 s2 => packWord i.opc d s1 s2 0 0
  | .pdiv d d2 s1 s2 => packWord i.opc d s1 s2 d2 0
  | .pgcd d s1 s2 => packWord i.opc d s1 s2 0 0
  | .pgcdx d d2 d3 s1 s2 => packWord i.opc d s1 s2 d2 d3
  | .peval d s1 s2 => packWord i.opc d s1 s2 0 0
  | .pinterp d => packWord i.opc d 0 0 0 0
  | .ppowmod d s1 s2 => packWord i.opc d s1 s2 0 0
  | .pirred s1 => packWord i.opc 0 s1 0 0 0
  | .preduce d s1 => packWord i.opc d s1 0 0 0
  | .genpoly d => packWord i.opc d 0 0 0 0
  | .encEval s1 => packWord i.opc 0 s1 0 0 0
  | .encGen s1 s2 => packWord i.opc 0 s1 s2 0 0
  | .decLa d => packWord i.opc d 0 0 0 0
  | .decEe d => packWord i.opc d 0 0 0 0
  | .decBch d s1 => packWord i.opc d s1 0 0 0
  | .synd d => packWord i.opc d 0 0 0 0
  | .elp d s1 => packWord i.opc d s1 0 0 0
  | .lakey d d2 => packWord i.opc d 0 0 d2 0

end Sys2Proof
end

