-- ==== Sys2Proof/Config.lean ====
section
/-! DEFINITION. What the implementation fixes (00_scope.md R7, 10_state.md R23, 20_memory.md R62) and the free
values the spec leaves open (93_implementation_defined.md I2 to I5). -/

namespace Sys2Proof.Config

/-- M_MAX, the largest degree of the modulus, which is also the number of digit words of a slot (00_scope.md R7, 10_state.md R39). -/
abbrev mMax : Nat := 16

/-- L_MAX, the largest length of a polynomial register (00_scope.md R7). -/
abbrev lMax : Nat := 512

/-- N_MAX, the largest codeword length (00_scope.md R7). -/
abbrev nMax : Nat := 256

/-- What the ID register reads (10_state.md R23). -/
def idValue : Word := 0x52530001

/-- FREE VALUE (DESIGN CHOICE, log 3 and log 4): what a byte of an unwritten digit word of E, A, W or PC reads as.
The first two arguments count the events that left the word unspecified, the third is the byte's address in the
host window (70_reset_and_hazards.md R302, 10_state.md R44; 93_implementation_defined.md I3, I4, I5). -/
opaque unwrittenByte : Nat → Nat → Nat → Byte

/-- FREE VALUE (DESIGN CHOICE, log 6): digit j of the inverse of a nonzero element that has none, for the prime p, the
modulus f ([] in Z/pZ) and the element a; it can be asked for only when p is not prime or f is reducible
(41_field.md R124, R127; 93_implementation_defined.md I2). -/
opaque nonUnitInverse : (p : Nat) → (f a : List Nat) → (j : Nat) → Nat

/-- FREE VALUE (DESIGN CHOICE, log 7): digit j of the coefficient number c of the quotient when g is divided by an h
whose leading coefficient has no inverse; only when p is not prime or f is reducible
(42_poly.md R157; 93_implementation_defined.md I2). -/
opaque unstatedQuotient : (p : Nat) → (f : List Nat) → (g h : List (List Nat)) → (c j : Nat) → Nat

/-- FREE VALUE (DESIGN CHOICE, log 7): the same for the remainder. -/
opaque unstatedRemainder : (p : Nat) → (f : List Nat) → (g h : List (List Nat)) → (c j : Nat) → Nat

end Sys2Proof.Config
end

