-- ==== Sys2Proof/Machine/State.lean ====
section
/-! DEFINITION. The whole state of RS-CORE as plain data (10_state.md), the host's inputs still to come, and the state
after a power-on reset (70_reset_and_hazards.md R301). -/

namespace Sys2Proof.Machine

/-- Why the machine would stop with a fault. It has no constructor: an error of RS-CORE is recorded in STATUS.ERR and
never stops the machine (60_exceptions.md R260, R274), and a bus error is a response (R280). Nobody raises one. -/
inductive Fault where
deriving DecidableEq, Repr

/-- Why the model would give no meaning. -/
inductive Refusal where
  /-- raised by an arm of exec that has no meaning yet; no arm raises it; safe -/
  | notModelled (mnemonic : String)
deriving DecidableEq, Repr

/-- The field mode CTRL.FMODE (10_state.md R24). -/
inductive FMode where
  /-- 0: the active field is Z/pZ -/
  | zp
  /-- 1: the active field is Fq = (Z/pZ)[x]/⟨f⟩ -/
  | fq
deriving DecidableEq, Repr

/-- The error codes of STATUS.ERR (60_exceptions.md R261). -/
inductive ErrCode where
  /-- 0: completed without error -/
  | ok
  /-- 1: `DivisionByZero` (R262) -/
  | divZero
  /-- 2: `DimensionMismatch` (R263) -/
  | dim
  /-- 3: reserved, never raised (R264) -/
  | degenerate
  /-- 4: ConfigValid fails (R265) -/
  | config
  /-- 5: an operand that is not a reduced value (R266) -/
  | range
  /-- 6: the command word does not decode (R267) -/
  | illegal
deriving DecidableEq, Repr

/-- The sequencer (10_state.md R49). -/
inductive Sequencer where
  | idle
  /-- executing the latched command word -/
  | busy (cw : Word)
deriving DecidableEq, Repr

/-- A host bus transaction (20_memory.md R60): a 20-bit byte address, the width of the access in bits, and for a write
the data (log 11). -/
inductive BusAccess where
  | read (addr : BitVec 20) (bits : Nat)
  | write (addr : BitVec 20) (bits : Nat) (data : Word)
deriving DecidableEq, Repr

/-- The one response of a transaction (20_memory.md R60, R63). -/
inductive BusResponse where
  /-- OKAY of a read, with its data -/
  | readOkay (data : Word)
  /-- OKAY of a write -/
  | writeOkay
  /-- ERROR: misaligned, or not 32 bits wide -/
  | error
deriving DecidableEq, Repr

/-- What happens next (DESIGN CHOICE, log 1): the order of host accesses and of the sequencer's completion is an input
(20_memory.md R68, 70_reset_and_hazards.md R313). -/
inductive Event where
  /-- the host's next bus transaction arrives -/
  | bus (t : BusAccess)
  /-- the sequencer has the turn: a busy one completes its command -/
  | run
  /-- `rst_n` is held low and goes high again (70_reset_and_hazards.md R300) -/
  | powerOn
deriving DecidableEq, Repr

/-- The state of RS-CORE. The digit words of E, A, W and PC are in mem; every other register is a field of its own. -/
structure State where
  /-- CTRL.FMODE (R24) -/
  fmode : FMode
  /-- CTRL.IE (R24) -/
  ie : Bool
  /-- STATUS.DONE (R25) -/
  done : Bool
  /-- STATUS.ERR (R25, R48) -/
  err : ErrCode
  /-- STATUS.OVR (R25) -/
  ovr : Bool
  /-- STATUS.WIGN (R25) -/
  wign : Bool
  /-- the sequencer, whose being busy is STATUS.BUSY (R25, R49) -/
  seq : Sequencer
  /-- LASTCMD (R26) -/
  lastcmd : Word
  /-- PRIME (R27) -/
  prime : Word
  /-- FDEG (R28) -/
  fdeg : Word
  /-- NLEN (R29) -/
  nlen : Word
  /-- KLEN (R30) -/
  klen : Word
  /-- POWI (R31) -/
  powi : Word
  /-- EXP (R32) -/
  exp : Word
  /-- RES (R33) -/
  res : Word
  /-- FCOEF[0..16] (R35) -/
  fcoef : Vector Word 17
  /-- the digit words of ALPHA (R36) -/
  alpha : Vector Word 16
  /-- PLEN[0..15] (R43) -/
  plen : Vector Word 16
  /-- the written bytes of the digit words of E, A, W and PC by address in the host window (R39, R50; 20_memory.md R62),
  addresses strictly rising -/
  mem : List Host.Cell
  /-- the model's own: how often E, A and W lost their contents (log 3) -/
  powerOns : Nat
  /-- the model's own: how often all PC slots lost their contents (log 4) -/
  resets : Nat
  /-- the model's own: how often a command wrote each polynomial register (log 4) -/
  polyWrites : Vector Nat 16
  /-- the response of the last transaction served (20_memory.md R60; log 9) -/
  response : Option BusResponse
  /-- the model's own: what is still to happen, first to come first (log 1) -/
  events : List Event
deriving DecidableEq, Repr

/-- The state after a power-on reset (70_reset_and_hazards.md R301, R302, R305), with nothing to come from outside
(DESIGN CHOICE, log 12). -/
def State.reset : State where
  fmode := .zp
  ie := false
  done := false
  err := .ok
  ovr := false
  wign := false
  seq := .idle
  lastcmd := 0
  prime := 0
  fdeg := 0
  nlen := 0
  klen := 0
  powi := 0
  exp := 0
  res := 0
  fcoef := Vector.replicate 17 0
  alpha := Vector.replicate 16 0
  plen := Vector.replicate 16 0
  mem := []
  powerOns := 0
  resets := 0
  polyWrites := Vector.replicate 16 0
  response := none
  events := []

end Sys2Proof.Machine
end

