-- ==== Sys2Proof/Machine/Ops.lean ====
section
/-! DEFINITION. Named operations over the digit-word storage of E, A, W and PC (20_memory.md R61, R62, R64; 10_state.md
R39, R44, R50): byte and word access, the addresses of the slots, and what a reset leaves. -/

namespace Sys2Proof.Machine

/-- The written bytes of the digit words (10_state.md R50). -/
abbrev Memory := List Host.Cell

/-- The canonical form: addresses strictly rising. An unlisted address has no value, so no entry can equal one. -/
abbrev Memory.wf (m : Memory) : Prop := m.Pairwise fun x y => x.1 < y.1

/-- The byte listed at an address, if any. -/
def Memory.find : Memory → Nat → Option Byte
  | [], _ => none
  | (b, v) :: m, a => if a = b then some v else Memory.find m a

/-- Bytes at consecutive addresses from a on. -/
def cellsFrom : Nat → List Byte → Memory
  | _, [] => []
  | a, b :: bs => (a, b) :: cellsFrom (a + 1) bs

/-- Remove the len addresses from a on: they become unwritten. -/
def Memory.erase (m : Memory) (a len : Nat) : Memory := m.filter (fun c => c.1 < a) ++ m.filter fun c => a + len ≤ c.1

/-- The listed bytes of the len addresses from a on. -/
def Memory.window (m : Memory) (a len : Nat) : Memory := m.filter fun c => a ≤ c.1 && c.1 < a + len

/-- Store bytes at consecutive addresses from a on. -/
def Memory.store (m : Memory) (a : Nat) (bs : List Byte) : Memory :=
  m.filter (fun c => c.1 < a) ++ cellsFrom a bs ++ m.filter fun c => a + bs.length ≤ c.1

/-- addr(E[r], 0) (20_memory.md R62). -/
def eAddr (r : Nat) : Nat := 0x01000 + 0x40 * r
/-- addr(A[j], 0) (R62). -/
def aAddr (j : Nat) : Nat := 0x04000 + 0x40 * j
/-- addr(W[j], 0) (R62). -/
def wAddr (j : Nat) : Nat := 0x08000 + 0x40 * j
/-- addr(PC[r][c], 0) (R62). -/
def pcAddr (r c : Nat) : Nat := 0x10000 + 0x8000 * r + 0x40 * c
/-- The bytes of one polynomial register's 512 coefficient slots (R62). -/
def pcSize : Nat := 0x8000

/-- Whether a byte address belongs to a digit word of E, A, W or PC (R61). -/
def isDigitAddr (a : Nat) : Bool :=
  (0x01000 ≤ a && a < 0x01400) || (0x04000 ≤ a && a < 0x0C000) || (0x10000 ≤ a && a < 0x90000)

/-- The polynomial register whose coefficient slots hold the address. -/
def pcReg (a : Nat) : Fin 16 := ⟨(a - 0x10000) / 0x8000 % 16, Nat.mod_lt _ (by decide)⟩

/-- What the byte of an unwritten digit word reads as: a free value (logs 3 and 4). It changes only when the word loses its
contents: E, A and W at a power-on reset, PC[r] at any reset and when a command writes P[r]. -/
def unwritten (s : State) (a : Nat) : Byte :=
  if a < 0x10000 then Config.unwrittenByte s.powerOns 0 a
  else Config.unwrittenByte s.resets s.polyWrites[pcReg a] a

/-- The byte at a byte address of a digit word (20_memory.md R64). -/
def State.byte (s : State) (a : Nat) : Byte := (Memory.find s.mem a).getD (unwritten s a)

/-- A 32-bit word from its four byte lanes, lane 0 the least significant (R64). -/
def leWord (b0 b1 b2 b3 : Byte) : Word := b3 ++ b2 ++ b1 ++ b0

/-- The four byte lanes of a word, lane 0 first (R64). -/
def wordBytes (w : Word) : List Byte :=
  [w.extractLsb' 0 8, w.extractLsb' 8 8, w.extractLsb' 16 8, w.extractLsb' 24 8]

/-- The digit word at a byte address (R64). -/
def State.word (s : State) (a : Nat) : Word := leWord (s.byte a) (s.byte (a + 1)) (s.byte (a + 2)) (s.byte (a + 3))

/-- Store bytes of digit words: sets their written flags (10_state.md R50). -/
def State.storeBytes (s : State) (a : Nat) (bs : List Byte) : State := { s with mem := Memory.store s.mem a bs }

/-- Store one digit word (20_memory.md R63, R64). -/
def State.storeWord (s : State) (a : Nat) (w : Word) : State := s.storeBytes a (wordBytes w)

/-- The state with only the listed bytes of the len addresses from a on, which read there as in the whole state
(Laws: State.byte_focus). -/
def State.focus (s : State) (a len : Nat) : State := { s with mem := Memory.window s.mem a len }

/-- The digit words of the slot at a byte address, as integers (10_state.md R39). -/
def State.slotDigits (s : State) (a : Nat) : List Nat :=
  let slot := s.focus a (4 * Config.mMax)
  (List.range Config.mMax).map fun d => (slot.word (a + 4 * d)).toNat

/-- A soft reset (70_reset_and_hazards.md R301, R303, R304): the registers take their reset values, a command in flight is
aborted, E, A and W keep their words, and the PC slots become unspecified. What is still to come from the host, and the
model's other counters, stay. -/
def State.softReset (s : State) : State :=
  { State.reset with
    mem := Memory.erase s.mem (pcAddr 0 0) (16 * pcSize)
    powerOns := s.powerOns
    resets := s.resets + 1
    polyWrites := s.polyWrites
    response := s.response
    events := s.events }

/-- A power-on reset (R300, R301, R302): every register takes its reset value and every digit word is unspecified (log 10). -/
def State.powerOnReset (s : State) : State :=
  { State.reset with
    powerOns := s.powerOns + 1
    resets := s.resets + 1
    polyWrites := s.polyWrites
    events := s.events }

end Sys2Proof.Machine
end

