-- ==== Sys2Proof/Machine/Flags.lean ====
section
/-! DEFINITION. STATUS and CTRL as words, the interrupt output, and the two events of a command's life: accept and
complete (10_state.md R24, R25, R49; 60_exceptions.md R269 to R272). Completing with an error code is what RS-CORE has in
place of taking an exception (60_exceptions.md R260). -/

namespace Sys2Proof.Machine

/-- The value of a code in STATUS.ERR (60_exceptions.md R261). -/
def ErrCode.code : ErrCode → Nat
  | .ok => 0
  | .divZero => 1
  | .dim => 2
  | .degenerate => 3
  | .config => 4
  | .range => 5
  | .illegal => 6

/-- STATUS.BUSY (10_state.md R25, R49). -/
def State.busy (s : State) : Bool :=
  match s.seq with
  | .idle => false
  | .busy _ => true

/-- STATUS as the host reads it (10_state.md R25): reserved bits read 0. -/
def State.statusWord (s : State) : Word :=
  BitVec.ofNat 32 (s.busy.toNat + 2 * s.done.toNat + 16 * s.err.code + 256 * s.ovr.toNat + 512 * s.wign.toNat)

/-- CTRL as the host reads it (10_state.md R24): SRST and the reserved bits read 0. -/
def State.ctrlWord (s : State) : Word :=
  BitVec.ofNat 32 ((match s.fmode with | .zp => 0 | .fq => 1) + 2 * s.ie.toNat)

/-- irq = CTRL.IE AND STATUS.DONE (60_exceptions.md R271). -/
def State.irq (s : State) : Bool := s.ie && s.done

/-- The event flags of STATUS that a write clears where it has a 1: DONE, OVR and WIGN (10_state.md R25). -/
def State.clearStatus (s : State) (w : Word) : State :=
  { s with done := s.done && !w.getLsbD 1, ovr := s.ovr && !w.getLsbD 8, wign := s.wign && !w.getLsbD 9 }

/-- CTRL.IE is written (10_state.md R24). -/
def State.setIe (s : State) (b : Bool) : State := { s with ie := b }

/-- A CTRL write (10_state.md R24; 70_reset_and_hazards.md R300, R309): SRST starts a soft reset and the other bits are
ignored; else IE is updated, and FMODE too unless the sequencer is busy. -/
def State.writeCtrl (s : State) (w : Word) : State :=
  if w.getLsbD 31 then s.softReset
  else if s.busy then s.setIe (w.getLsbD 1)
  else { s with ie := w.getLsbD 1, fmode := if w.getLsbD 0 then .fq else .zp }

/-- Accept of a command word (10_state.md R49). -/
def State.accept (s : State) (cw : Word) : State := { s with lastcmd := cw, done := false, seq := .busy cw }

/-- Completion with a code (60_exceptions.md R270): ERR, DONE, BUSY and the sequencer; OVR, WIGN and LASTCMD stay. -/
def State.complete (s : State) (c : ErrCode) : State := { s with err := c, done := true, seq := .idle }

/-- STATUS.OVR is set: a CMD write arrived while busy (10_state.md R25; 70_reset_and_hazards.md R310). -/
def State.setOvr (s : State) : State := { s with ovr := true }

/-- STATUS.WIGN is set: another write arrived while busy (10_state.md R25; 70_reset_and_hazards.md R309). -/
def State.setWign (s : State) : State := { s with wign := true }

/-- The response of the transaction being served (20_memory.md R60; log 9). -/
def State.respond (s : State) (r : BusResponse) : State := { s with response := some r }

/-- What is still to come (log 1). -/
def State.setEvents (s : State) (es : List Event) : State := { s with events := es }

end Sys2Proof.Machine
end

