-- ==== Sys2Proof/Machine/Bus.lean ====
section
/-! DEFINITION. The host bus: the register at an address, reads, writes while idle and while busy, and the response of a
transaction (20_memory.md; 10_state.md section 2; 70_reset_and_hazards.md R309, R310). -/

namespace Sys2Proof.Machine

/-- The register at an aligned byte address of the host window (20_memory.md R61, R62; 10_state.md R22). -/
inductive Reg where
  | id | ctrl | status | cmd | prime | fdeg | nlen | klen | powi | exp | res
  | fcoef (j : Fin 17)
  | alpha (d : Fin 16)
  | plen (r : Fin 16)
  /-- a digit word of E, A, W or PC, by its byte address -/
  | digit (a : Nat)
  /-- no register: reads 0, writes ignored (20_memory.md R65, 10_state.md R34) -/
  | reserved
deriving DecidableEq, Repr

/-- The register of the control block at a byte address below 0x400 (10_state.md R22). -/
def controlReg (a : Nat) : Reg :=
  if a = 0x000 then .id
  else if a = 0x004 then .ctrl
  else if a = 0x008 then .status
  else if a = 0x00C then .cmd
  else if a = 0x010 then .prime
  else if a = 0x014 then .fdeg
  else if a = 0x018 then .nlen
  else if a = 0x01C then .klen
  else if a = 0x020 then .powi
  else if a = 0x024 then .exp
  else if a = 0x028 then .res
  else .reserved

/-- The address map (20_memory.md R61, R62). -/
def regAt (a : Nat) : Reg :=
  if a < 0x400 then controlReg a
  else if 0x400 ≤ a ∧ a < 0x444 then .fcoef ⟨(a - 0x400) / 4 % 17, Nat.mod_lt _ (by decide)⟩
  else if 0x500 ≤ a ∧ a < 0x540 then .alpha ⟨(a - 0x500) / 4 % 16, Nat.mod_lt _ (by decide)⟩
  else if 0x2000 ≤ a ∧ a < 0x2040 then .plen ⟨(a - 0x2000) / 4 % 16, Nat.mod_lt _ (by decide)⟩
  else if isDigitAddr a then .digit a
  else .reserved

/-- What a read returns (10_state.md R22 to R36, R39, R43; 20_memory.md R65). No read changes the state (R67). -/
def State.readReg (s : State) : Reg → Word
  | .id => Config.idValue
  | .ctrl => s.ctrlWord
  | .status => s.statusWord
  | .cmd => s.lastcmd
  | .prime => s.prime
  | .fdeg => s.fdeg
  | .nlen => s.nlen
  | .klen => s.klen
  | .powi => s.powi
  | .exp => s.exp
  | .res => s.res
  | .fcoef j => s.fcoef[j]
  | .alpha d => s.alpha[d]
  | .plen r => s.plen[r]
  | .digit a => s.word a
  | .reserved => 0

/-- A write while the sequencer is idle (10_state.md section 2; 20_memory.md R65, R67). -/
def State.writeIdle (s : State) (w : Word) : Reg → State
  | .id => s
  | .ctrl => s.writeCtrl w
  | .status => s.clearStatus w
  | .cmd => s.accept w
  | .prime => { s with prime := w }
  | .fdeg => { s with fdeg := w }
  | .nlen => { s with nlen := w }
  | .klen => { s with klen := w }
  | .powi => { s with powi := w }
  | .exp => { s with exp := w }
  | .res => s
  | .fcoef j => { s with fcoef := s.fcoef.set j w }
  | .alpha d => { s with alpha := s.alpha.set d w }
  | .plen r => { s with plen := s.plen.set r w }
  | .digit a => s.storeWord a w
  | .reserved => s

/-- A write while the sequencer is busy (70_reset_and_hazards.md R309, R310; 90_conflicts.md C7): STATUS and CTRL act, CMD
sets OVR, and any other address, reserved ones too, sets WIGN. -/
def State.writeBusy (s : State) (w : Word) : Reg → State
  | .ctrl => s.writeCtrl w
  | .status => s.clearStatus w
  | .cmd => s.setOvr
  | .id => s.setWign
  | .prime => s.setWign
  | .fdeg => s.setWign
  | .nlen => s.setWign
  | .klen => s.setWign
  | .powi => s.setWign
  | .exp => s.setWign
  | .res => s.setWign
  | .fcoef _ => s.setWign
  | .alpha _ => s.setWign
  | .plen _ => s.setWign
  | .digit _ => s.setWign
  | .reserved => s.setWign

/-- A host write to a register (R309 while busy). -/
def State.writeReg (s : State) (r : Reg) (w : Word) : State := if s.busy then s.writeBusy w r else s.writeIdle w r

/-- Whether an access is an aligned 32-bit word (20_memory.md R63). -/
def isWordAccess (addr : BitVec 20) (bits : Nat) : Bool := addr.toNat % 4 == 0 && bits == 32

/-- Serve one bus transaction and give its response (20_memory.md R60, R63, R65; 60_exceptions.md R280). -/
def State.serve (s : State) (t : BusAccess) : State :=
  match t with
  | .read addr bits =>
    if isWordAccess addr bits then s.respond (.readOkay (s.readReg (regAt addr.toNat)))
    else s.respond .error
  | .write addr bits data =>
    if isWordAccess addr bits then (s.writeReg (regAt addr.toNat) data).respond .writeOkay
    else s.respond .error

end Sys2Proof.Machine
end

