-- ==== Sys2Proof/Machine/Poly.lean ====
section
/-! DEFINITION. The polynomial functions over a field (42_poly.md section 1), written once for any field operations: the
polynomial unit uses them over the active field K, and the extension field uses them over Z/pZ (41_field.md R126, R127). -/

namespace Sys2Proof.Machine

/-- Apply a function that may raise to each item in order; the first error wins. -/
def mapRaise {β γ : Type} (f : β → Except ErrCode γ) : List β → Except ErrCode (List γ)
  | [] => .ok []
  | b :: bs =>
    match f b with
    | .error c => .error c
    | .ok v =>
      match mapRaise f bs with
      | .error c => .error c
      | .ok vs => .ok (v :: vs)

/-- The operations of a field whose elements are an α (00_scope.md R10). `inv` is asked for only on nonzero elements; the
two `unstated` fields give the coefficients of a division whose divisor has a leading coefficient without an inverse,
which no field has (log 7). -/
structure FieldOps (α : Type) where
  zero : α
  one : α
  add : α → α → α
  neg : α → α
  mul : α → α → α
  inv : α → α
  unstatedQuotient : List α → List α → Nat → α
  unstatedRemainder : List α → List α → Nat → α

variable {α : Type} [DecidableEq α] (K : FieldOps α)

/-- a −K b (R10). -/
def FieldOps.sub (a b : α) : α := K.add a (K.neg b)

/-- inv_K, which raises DIV_ZERO on 0K (41_field.md R124, R127). -/
def invK (a : α) : Except ErrCode α := if a = K.zero then .error .divZero else .ok (K.inv a)

/-- The square-and-multiply loop of 41_field.md R128 over the bits k−1 down to 0 of e. -/
def powLoop (a : α) (e : Nat) : Nat → α → α
  | 0, r => r
  | k + 1, r =>
    let r2 := K.mul r r
    powLoop a e k (if e.testBit k then K.mul r2 a else r2)

/-- a^e for e ≥ 0 (R128). -/
def powNat (a : α) (e : Nat) : α := powLoop K a e (e.log2 + 1) K.one

/-- pow_K(a, e) for any integer e: a negative exponent inverts first (R128). -/
def powK (a : α) (e : Int) : Except ErrCode α :=
  if e < 0 then
    match invK K a with
    | .error c => .error c
    | .ok b => .ok (powNat K b e.natAbs)
  else .ok (powNat K a e.natAbs)

/-- trim: remove trailing 0K coefficients (00_scope.md R11, 42_poly.md R150). -/
def trim : List α → List α
  | [] => []
  | a :: g =>
    match trim g with
    | [] => if a = K.zero then [] else [a]
    | b :: t => a :: b :: t

/-- coef(g, d): coefficient d, 0K beyond the length (00_scope.md R11). -/
def coef (g : List α) (d : Nat) : α := g.getD d K.zero

/-- lc(g), the leading coefficient of g ≠ [] (00_scope.md R11). -/
def lc (g : List α) : α := g.getLastD K.zero

/-- Σ, from left to right. -/
def sumK (l : List α) : α := l.foldl K.add K.zero

/-- padd (R151). -/
def padd (g h : List α) : List α :=
  trim K ((List.range (max g.length h.length)).map fun d => K.add (coef K g d) (coef K h d))

/-- pneg (R151). -/
def pneg (g : List α) : List α := trim K (g.map K.neg)

/-- psub (R151). -/
def psub (g h : List α) : List α := padd K g (pneg K h)

/-- pscale, the scalar combination (R151). -/
def pscale (c : α) (g : List α) : List α := trim K (g.map (K.mul c))

/-- Coefficient d of the convolution: Σ_{i+j=d} coef(g,i)·coef(h,j) (R152). -/
def convCoef (g h : List α) (d : Nat) : α :=
  sumK K ((List.range (min (d + 1) g.length)).map fun i => K.mul (coef K g i) (coef K h (d - i)))

/-- pmul, the full convolution (R152). -/
def pmul (g h : List α) : List α :=
  if g = [] ∨ h = [] then []
  else trim K ((List.range (g.length + h.length - 1)).map (convCoef K g h))

/-- x, the polynomial [0K, 1K] (00_scope.md R11). -/
def polyX : List α := [K.zero, K.one]

/-- The loop of pdivmod (R157): q holds the quotient's slots, r the remainder so far, ci the inverse of lc(h). -/
def divLoop (h : List α) (ci : α) : Nat → List α → List α → List α × List α
  | 0, q, r => (q, r)
  | fuel + 1, q, r =>
    if r ≠ [] ∧ h.length ≤ r.length then
      let s := r.length - h.length
      let c := K.mul (lc K r) ci
      divLoop h ci fuel (q.set s c) (psub K r (List.replicate s K.zero ++ pscale K c h))
    else (q, r)

/-- The quotient and remainder of g by h ≠ [] (R157). Each round of the loop shortens the remainder, so len(g) rounds are
enough. A shorter g is its own remainder. Else, where lc(h) has no inverse (p not prime or f reducible), the rule gives no
value: quotient and remainder are free, within the lengths of R157 (log 7). -/
def divCore (g h : List α) : List α × List α :=
  let ci := K.inv (lc K h)
  if K.mul (lc K h) ci = K.one ∨ g.length < h.length then
    let (q, r) := divLoop K h ci g.length (List.replicate (g.length + 1 - h.length) K.zero) g
    (trim K q, r)
  else
    (trim K ((List.range (g.length + 1 - h.length)).map (K.unstatedQuotient g h)),
     trim K ((List.range (h.length - 1)).map (K.unstatedRemainder g h)))

/-- pdivmod: (quotient, remainder), DIV_ZERO for the zero divisor (R157). -/
def pdivmod (g h : List α) : Except ErrCode (List α × List α) :=
  if h = [] then .error .divZero else .ok (divCore K g h)

/-- The Euclidean loop of pgcd (R158): the remainder gets shorter each round, so len(h) + 1 rounds are enough. -/
def gcdLoop : Nat → List α → List α → List α
  | 0, a, _ => a
  | fuel + 1, a, b => if b = [] then a else gcdLoop fuel b (divCore K a b).2

/-- pgcd, monic; DIV_ZERO for (0, 0) (R158). -/
def pgcd (g h : List α) : Except ErrCode (List α) :=
  let a := gcdLoop K (h.length + 1) g h
  if a = [] then .error .divZero else .ok (pscale K (K.inv (lc K a)) a)

/-- The two pairs of a row of an extended Euclidean recurrence: the remainder and the two Bézout coefficients (R159). -/
structure EuclidRow (α : Type) where
  rem : List α
  left : List α
  right : List α
deriving DecidableEq, Repr

/-- One round of the recurrence: the row after `cur` (R159, 43_codec.md R217). -/
def euclidNext (prev cur : EuclidRow α) : EuclidRow α :=
  let (q, r) := divCore K prev.rem cur.rem
  { rem := r
    left := psub K prev.left (pmul K q cur.left)
    right := psub K prev.right (pmul K q cur.right) }

/-- The rows (a0, r0, s0) and (a1, r1, s1) of pgcdx while a1 ≠ [] (R159). -/
def gcdxLoop : Nat → EuclidRow α → EuclidRow α → EuclidRow α
  | 0, prev, _ => prev
  | fuel + 1, prev, cur => if cur.rem = [] then prev else gcdxLoop fuel cur (euclidNext K prev cur)

/-- The last nonzero row of the extended Euclidean algorithm on (g, h), not yet monic (R159). -/
def gcdxCore (g h : List α) : EuclidRow α :=
  gcdxLoop K (h.length + 1) { rem := g, left := [K.one], right := [] } { rem := h, left := [], right := [K.one] }

/-- pgcdx: (d, r, s) with d monic; DIV_ZERO for (0, 0) (R159). -/
def pgcdx (g h : List α) : Except ErrCode (List α × List α × List α) :=
  let e := gcdxCore K g h
  if e.rem = [] then .error .divZero
  else
    let c := K.inv (lc K e.rem)
    .ok (pscale K c e.rem, pscale K c e.left, pscale K c e.right)

/-- The loop of peval: the accumulator and the running power of x0 (R160). -/
def evalLoop (x0 : α) : List α → α → α → α
  | [], acc, _ => acc
  | c :: g, acc, pw => evalLoop x0 g (K.add acc (K.mul c pw)) (K.mul pw x0)

/-- peval (R160). -/
def peval (g : List α) (x0 : α) : α := evalLoop K x0 g K.zero K.one

/-- The basis polynomial and its denominator for the point xi: the inner loop of pinterp over the other points (R161). -/
def basisLoop (xi : α) : List α → List α → α → List α × α
  | [], basis, den => (basis, den)
  | xj :: xs, basis, den => basisLoop xi xs (pmul K basis [K.neg xj, K.one]) (K.mul den (K.sub xi xj))

/-- The outer loop of pinterp over i (R161). -/
def interpLoop (xs ys : List α) : List Nat → List α → Except ErrCode (List α)
  | [], res => .ok res
  | i :: is, res =>
    let (basis, den) := basisLoop K (coef K xs i) (xs.eraseIdx i) [K.one] K.one
    match invK K den with
    | .error c => .error c
    | .ok di => interpLoop xs ys is (padd K res (pscale K (K.mul (coef K ys i) di) basis))

/-- pinterp: Lagrange interpolation through the pairs (xs[i], ys[i]) (R161). -/
def pinterp (xs ys : List α) : Except ErrCode (List α) := interpLoop K xs ys (List.range xs.length) []

/-- The loop of ppowmod (R162): e halves each round, so e.log2 + 1 rounds are enough. -/
def powmodLoop (h : List α) : Nat → Nat → List α → List α → List α
  | 0, _, r, _ => r
  | fuel + 1, e, r, b =>
    if e = 0 then r
    else
      powmodLoop h fuel (e / 2) (if e % 2 = 1 then (divCore K (pmul K r b) h).2 else r) (divCore K (pmul K b b) h).2

/-- g^e mod h for h ≠ [] (R162). -/
def powmodCore (g : List α) (e : Nat) (h : List α) : List α :=
  powmodLoop K h (e.log2 + 1) e (divCore K [K.one] h).2 (divCore K g h).2

/-- ppowmod; DIV_ZERO for the zero modulus (R162). -/
def ppowmod (g : List α) (e : Nat) (h : List α) : Except ErrCode (List α) :=
  if h = [] then .error .divZero else .ok (powmodCore K g e h)

/-- frob(h, j) = x^(q^j) mod h for h ≠ [], as j successive q-th powers (R163). -/
def frob (q : Nat) (h : List α) : Nat → List α
  | 0 => (divCore K (polyX K) h).2
  | j + 1 => powmodCore K (frob q h j) q h

/-- r is a prime number. -/
def isPrimeNat (r : Nat) : Bool := 2 ≤ r && (List.range r).all fun k => k < 2 || r % k != 0

/-- The primes that divide D ≥ 1, in increasing order (R164). -/
def primeDivisors (D : Nat) : List Nat := (List.range (D + 1)).filter fun r => isPrimeNat r && D % r == 0

/-- Rabin's second check for the prime r: gcd(x^(q^(D/r)) − x, h) is a unit (R164). -/
def rabinUnit (q : Nat) (h : List α) (r : Nat) : Bool :=
  match pgcd K (psub K (frob K q h ((h.length - 1) / r)) (polyX K)) h with
  | .error _ => false
  | .ok d => decide (d = [K.one])

/-- pirred: Rabin's test over a field of q elements; DIV_ZERO for [] (R164). -/
def pirred (q : Nat) (h : List α) : Except ErrCode Bool :=
  if h = [] then .error .divZero
  else
    let D := h.length - 1
    if D = 0 then .ok false
    else if (divCore K (psub K (frob K q h D) (polyX K)) h).2 ≠ [] then .ok false
    else .ok ((primeDivisors D).all (rabinUnit K q h))

end Sys2Proof.Machine
end

