-- ==== Sys2Proof/Machine/Field.lean ====
section
/-! DEFINITION. The active field K (41_field.md section 1): Z/pZ, and Fq = (Z/pZ)[x]/⟨f⟩ built on it. An element of K is
held as the canonical list of its digits (10_state.md R40, R41): a polynomial over Z/pZ of degree < m in Fq, and digit 0
alone in Z/pZ. -/

namespace Sys2Proof.Machine

/-- An element of the active field, as its canonical digit list: 0K is []. -/
abbrev Elem := List Nat

/-- A polynomial over the active field, as its coefficient list (00_scope.md R11). -/
abbrev Poly := List Elem

/-- Euclid's algorithm on (r0, r1) with the Bézout coefficient of the second number kept modulo p (R124). -/
def bezoutLoop (p : Nat) : Nat → Nat → Nat → Nat → Nat → Nat
  | 0, _, _, t0, _ => t0
  | fuel + 1, r0, r1, t0, t1 =>
    if r1 = 0 then t0
    else bezoutLoop p fuel r1 (r0 % r1) t1 ((t0 + r0 / r1 * (p - t1)) % p)

/-- The Bézout coefficient of a for (a, p), reduced mod p: the inverse of a where a has one (R124). -/
def bezoutInv (p a : Nat) : Nat := bezoutLoop p (p + 1) p a 0 1

/-- The operations of Z/pZ on the integers 0..p−1 (R121 to R124), as the layer below Fq. Its unstated coefficients are never
seen: Fq divides only by the monic f, and checks its inverse (R126, R127). -/
def zpOps (p : Nat) : FieldOps Nat where
  zero := 0
  one := 1
  add a b := (a + b) % p
  neg a := (p - a) % p
  mul a b := a * b % p
  inv := bezoutInv p
  unstatedQuotient _ _ _ := 0
  unstatedRemainder _ _ _ := 0

/-- The integer that an element of Z/pZ is. -/
def elemNat (a : Elem) : Nat := a.headD 0

/-- The element of Z/pZ that an integer in [0, p) is. -/
def natElem (n : Nat) : Elem := if n = 0 then [] else [n]

/-- The element whose m digits are digit 0, digit 1, …, each reduced mod p. -/
def elemOfFun (p m : Nat) (digit : Nat → Nat) : Elem := trim (zpOps p) ((List.range m).map fun j => digit j % p)

/-- inv_K of a nonzero element of Z/pZ (R124). Where a has no inverse (p not prime) the value is free (log 6). -/
def zpInv (p : Nat) (a : Elem) : Elem :=
  let b := bezoutInv p (elemNat a)
  if elemNat a * b % p = 1 then natElem b else elemOfFun p 1 (Config.nonUnitInverse p [] a)

/-- K = Z/pZ (R120 to R124). -/
def primeOps (p : Nat) : FieldOps Elem where
  zero := []
  one := [1]
  add a b := natElem ((elemNat a + elemNat b) % p)
  neg a := natElem ((p - elemNat a) % p)
  mul a b := natElem (elemNat a * elemNat b % p)
  inv := zpInv p
  unstatedQuotient g h c := elemOfFun p 1 (Config.unstatedQuotient p [] g h c)
  unstatedRemainder g h c := elemOfFun p 1 (Config.unstatedRemainder p [] g h c)

/-- FqMul: the product polynomial reduced modulo f by division (R126). -/
def fqMul (p : Nat) (f : List Nat) (a b : Elem) : Elem := (divCore (zpOps p) (pmul (zpOps p) a b) f).2

/-- inv_K of a nonzero element of Fq: the extended-gcd Bézout coefficient of a against f, reduced modulo f (R127). Where that
is no inverse (p not prime or f reducible) the value is free (log 6). -/
def fqInv (p : Nat) (f : List Nat) (a : Elem) : Elem :=
  let K := zpOps p
  let e := gcdxCore K a f
  let b := (divCore K (pscale K (K.inv (lc K e.rem)) e.left) f).2
  if fqMul p f a b = [1] then b else elemOfFun p (f.length - 1) (Config.nonUnitInverse p f a)

/-- K = Fq = (Z/pZ)[x]/⟨f⟩ (R120, R125 to R127). -/
def extOps (p : Nat) (f : List Nat) : FieldOps Elem where
  zero := []
  one := [1]
  add := padd (zpOps p)
  neg := pneg (zpOps p)
  mul := fqMul p f
  inv := fqInv p f
  unstatedQuotient g h c := elemOfFun p (f.length - 1) (Config.unstatedQuotient p f g h c)
  unstatedRemainder g h c := elemOfFun p (f.length - 1) (Config.unstatedRemainder p f g h c)

/-- Which field is active: p, and the modulus f for Fq (R120). -/
structure FieldCtx where
  p : Nat
  /-- none in Z/pZ; FCOEF[0..m] in Fq -/
  modulus : Option (List Nat)
deriving DecidableEq, Repr

/-- The operations of the active field (R120). -/
def FieldCtx.ops (F : FieldCtx) : FieldOps Elem :=
  match F.modulus with
  | none => primeOps F.p
  | some f => extOps F.p f

/-- How many digits an element has: 1 in Z/pZ, m = deg f in Fq (10_state.md R40). -/
def FieldCtx.digits (F : FieldCtx) : Nat :=
  match F.modulus with
  | none => 1
  | some f => f.length - 1

/-- q = |K| (00_scope.md R10). -/
def FieldCtx.card (F : FieldCtx) : Nat := F.p ^ F.digits

end Sys2Proof.Machine
end

