-- ==== Sys2Proof/Machine/Operands.lean ====
section
/-! DEFINITION. Reading the operands of a command (10_state.md R37, R38, R40, R43, R45, R46), writing its destinations
(R41, R44, R46), and the all-or-nothing commit of a command (60_exceptions.md R269). -/

namespace Sys2Proof.Machine

/-- FCOEF[0..16] as integers (10_state.md R35). -/
def State.coefList (s : State) : List Nat := s.fcoef.toList.map BitVec.toNat

/-- ConfigValid (10_state.md R37). -/
def State.configValid (s : State) : Bool :=
  2 ≤ s.prime.toNat &&
    match s.fmode with
    | .zp => true
    | .fq =>
      1 ≤ s.fdeg.toNat && s.fdeg.toNat ≤ Config.mMax && s.coefList.getD s.fdeg.toNat 0 == 1 &&
        (s.coefList.take s.fdeg.toNat).all fun c => c < s.prime.toNat

/-- The active field that the configuration registers select (41_field.md R120); FDEG and FCOEF are not read in Z/pZ. -/
def State.fieldCtx (s : State) : FieldCtx :=
  match s.fmode with
  | .zp => { p := s.prime.toNat, modulus := none }
  | .fq => { p := s.prime.toNat, modulus := some (s.coefList.take (s.fdeg.toNat + 1)) }

/-- The configuration check of the common prologue (41_field.md R138): the active field, or CONFIG. -/
def State.field (s : State) : Except ErrCode FieldCtx := if s.configValid then .ok s.fieldCtx else .error .config

/-- ShapeN: n = NLEN, or DIM (10_state.md R38). -/
def State.shapeN (s : State) : Except ErrCode Nat :=
  if 1 ≤ s.nlen.toNat ∧ s.nlen.toNat ≤ Config.nMax then .ok s.nlen.toNat else .error .dim

/-- ShapeNK: (n, k) = (NLEN, KLEN), or DIM (10_state.md R38). -/
def State.shapeNK (s : State) : Except ErrCode (Nat × Nat) :=
  match s.shapeN with
  | .error c => .error c
  | .ok n => if s.klen.toNat ≤ n then .ok (n, s.klen.toNat) else .error .dim

/-- The element that the 16 digits of a slot are, or RANGE: the digits below m are reduced and the others are 0 (R40). -/
def elemOfDigits (F : FieldCtx) (ds : List Nat) : Except ErrCode Elem :=
  if (ds.take F.digits).all (fun d => d < F.p) && (ds.drop F.digits).all fun d => d == 0 then
    .ok (trim (zpOps F.p) (ds.take F.digits))
  else .error .range

/-- ElemRead of the slot at a byte address (R40). -/
def State.readSlot (s : State) (F : FieldCtx) (a : Nat) : Except ErrCode Elem := elemOfDigits F (s.slotDigits a)

/-- E[r] (R42). -/
def State.readE (s : State) (F : FieldCtx) (r : EReg) : Except ErrCode Elem := s.readSlot F (eAddr r)

/-- ALPHA (R36, R40). -/
def State.readAlpha (s : State) (F : FieldCtx) : Except ErrCode Elem := elemOfDigits F (s.alpha.toList.map BitVec.toNat)

/-- P[r], PolyRead: RANGE when PLEN > 512 or a coefficient is not reduced; the result is canonical (R43). -/
def State.readP (s : State) (F : FieldCtx) (r : PReg) : Except ErrCode Poly :=
  let L := s.plen[r].toNat
  if L > Config.lMax then .error .range
  else
    match mapRaise (fun c => s.readSlot F (pcAddr r c)) (List.range L) with
    | .error c => .error c
    | .ok g => .ok (trim F.ops g)

/-- A[0..n−1], in increasing j (R45). -/
def State.readA (s : State) (F : FieldCtx) (n : Nat) : Except ErrCode (List Elem) :=
  mapRaise (fun j => s.readSlot F (aAddr j)) (List.range n)

/-- W[0..n−1], in increasing j (R46). -/
def State.readW (s : State) (F : FieldCtx) (n : Nat) : Except ErrCode (List Elem) :=
  mapRaise (fun j => s.readSlot F (wAddr j)) (List.range n)

/-- The 16 digits of an element, padded with 0 (R41). -/
def slotOfElem (v : Elem) : List Nat := (List.range Config.mMax).map fun d => v.getD d 0

/-- The 64 bytes of an element's slot (R41; 20_memory.md R64). -/
def slotBytes (v : Elem) : List Byte := (slotOfElem v).flatMap fun d => wordBytes (BitVec.ofNat 32 d)

/-- E[d] <- v, ElemWrite (R41, R42). -/
def State.writeE (s : State) (d : EReg) (v : Elem) : State := s.storeBytes (eAddr d) (slotBytes v)

/-- P[d] <- g, PolyWrite of a g that fits: the length word and len(g) slots; every slot of the register at or above len(g)
becomes unspecified (R44, R50; log 4). -/
def State.writeP (s : State) (d : PReg) (g : Poly) : State :=
  { s with
    plen := s.plen.set d (BitVec.ofNat 32 g.length)
    mem := Memory.store (Memory.erase s.mem (pcAddr d 0) pcSize) (pcAddr d 0) (g.flatMap slotBytes)
    polyWrites := s.polyWrites.set d (s.polyWrites[d] + 1) }

/-- W[0..n−1] <- the n elements (R46). -/
def State.writeW (s : State) (ws : List Elem) : State := s.storeBytes (wAddr 0) (ws.flatMap slotBytes)

/-- RES <- v (R33). -/
def State.writeRes (s : State) (v : Nat) : State := { s with res := BitVec.ofNat 32 v }

/-- A write that a command's rule names (60_exceptions.md R269). -/
inductive Write where
  | elem (d : EReg) (v : Elem)
  | poly (d : PReg) (g : Poly)
  | words (ws : List Elem)
  | res (v : Nat)
deriving DecidableEq, Repr

/-- A polynomial destination: DIM when the result is longer than 512 (10_state.md R44; 60_exceptions.md R263). -/
def polyDest (d : PReg) (g : Poly) : Except ErrCode Write :=
  if g.length > Config.lMax then .error .dim else .ok (.poly d g)

/-- One write of a command. -/
def State.applyWrite (s : State) : Write → State
  | .elem d v => s.writeE d v
  | .poly d g => s.writeP d g
  | .words ws => s.writeW ws
  | .res v => s.writeRes v

/-- All writes of a command, together (R269). -/
def State.commit (s : State) (ws : List Write) : State := ws.foldl State.applyWrite s

/-- The end of a command (R269, R270): its writes and OK, or its error code and no write. -/
def finish (s : State) (r : Except ErrCode (List Write)) : Host.Outcome State Fault Refusal :=
  match r with
  | .error c => .next (s.complete c)
  | .ok ws => .next ((s.commit ws).complete .ok)

end Sys2Proof.Machine
end

