-- ==== Sys2Proof/Machine/Linear.lean ====
section
/-! DEFINITION. The internal Gauss-Jordan elimination and the two solvers (43_codec.md R201 to R203). -/

namespace Sys2Proof.Machine

variable {α : Type} [DecidableEq α] (K : FieldOps α)

/-- A row of a matrix with its pivot column: piv[r] of R201. -/
structure MatRow (α : Type) where
  pivot : Option Nat
  entries : List α
deriving DecidableEq, Repr

/-- A row of the input matrix, not yet pivoted. -/
def freshRow (entries : List α) : MatRow α := { pivot := none, entries := entries }

/-- Subtract the multiple of the pivot row that makes entry j of u zero (R201). -/
def eliminate (j : Nat) (pivotRow : List α) (u : MatRow α) : MatRow α :=
  if coef K u.entries j = K.zero then u
  else
    let f := K.neg (coef K u.entries j)
    { u with entries := List.zipWith (fun a b => K.add a (K.mul f b)) u.entries pivotRow }

/-- Whether row r can be the pivot of column j: not yet pivoted, with a nonzero entry (R201). -/
def isCandidate (j : Nat) (r : MatRow α) : Bool := r.pivot == none && coef K r.entries j ≠ K.zero

/-- Column j of gauss: the least candidate row becomes the pivot row, scaled to 1K, and the column is cleared in every other
row; with no candidate nothing changes (R201). Rows are never swapped. -/
def gaussColumn (rows : List (MatRow α)) (j : Nat) : List (MatRow α) :=
  let before := rows.takeWhile fun r => !isCandidate K j r
  match rows.dropWhile fun r => !isCandidate K j r with
  | [] => rows
  | r :: after =>
    let scaled := r.entries.map (K.mul (K.inv (coef K r.entries j)))
    before.map (eliminate K j scaled) ++ { pivot := some j, entries := scaled } :: after.map (eliminate K j scaled)

/-- gauss(M, C) (R201). -/
def gauss (rows : List (List α)) (C : Nat) : List (MatRow α) :=
  (List.range C).foldl (gaussColumn K) (rows.map freshRow)

/-- Whether column c is a pivot column. -/
def isPivot (rows : List (MatRow α)) (c : Nat) : Bool := rows.any fun r => r.pivot == some c

/-- solve_hom(M, C): the free unknowns are 1K (R202). -/
def solveHom (rows : List (List α)) (C : Nat) : List α :=
  let M := gauss K rows C
  (List.range C).map fun c =>
    match M.find? fun r => r.pivot == some c with
    | none => K.one
    | some r => K.neg (sumK K (((List.range C).filter fun c' => !isPivot M c').map (coef K r.entries)))

/-- solve_inh(M, C): the solution with the free unknowns 0K, and whether every unknown is pivoted (R203). -/
def solveInh (rows : List (List α)) (C : Nat) : List α × Bool :=
  let M := gauss K rows C
  ((List.range C).map fun c =>
    match M.find? fun r => r.pivot == some c with
    | none => K.zero
    | some r => coef K r.entries C,
   (List.range C).all (isPivot M))

end Sys2Proof.Machine
end

