-- ==== Sys2Proof/Machine/ReedSolomon.lean ====
section
/-! DEFINITION. The Reed-Solomon functions of 43_codec.md: zero-locator, generator, syndromes, error locator, the
key system of the linear-algebra decoder, the extended-Euclidean recurrence, root search and magnitudes. -/

namespace Sys2Proof.Machine

variable {α : Type} [DecidableEq α] (K : FieldOps α)

/-- t = ⌊(n−k)/2⌋ (R200). -/
def maxErrors (n k : Nat) : Nat := (n - k) / 2

/-- w(x) = Π (x − a_j), built in increasing j (R204). -/
def zeroLocator (points : List α) : List α := points.foldl (fun w a => pmul K w [K.neg a, K.one]) [K.one]

/-- The loop of Gen over count exponents from j on (R206). -/
def genLoop (a : α) : Nat → Int → List α → Except ErrCode (List α)
  | 0, _, G => .ok G
  | count + 1, j, G =>
    match powK K a j with
    | .error c => .error c
    | .ok v => genLoop a count (j + 1) (pmul K G [K.neg v, K.one])

/-- Gen(n, k, α, i) (R206). -/
def genPoly (n k : Nat) (a : α) (i : Int) : Except ErrCode (List α) := genLoop K a (n - k) i [K.one]

/-- The syndromes S_l = r(α^(i+l)), l = 0..n−k−1 (R210). -/
def syndromes (n k : Nat) (a : α) (i : Int) (r : List α) : Except ErrCode (List α) :=
  mapRaise (fun l : Nat =>
    match powK K a (i + l) with
    | .error c => .error c
    | .ok v => .ok (peval K r v)) (List.range (n - k))

/-- The ν×ν Hankel system with its right-hand side (R212). -/
def hankelRows (S : List α) (v : Nat) : List (List α) :=
  (List.range v).map fun a => (List.range v).map (fun b => coef K S (a + b)) ++ [K.neg (coef K S (v + a))]

/-- elp(S, t): the first ν from t down to 1 whose system is nonsingular, else ([1K], 0) (R212). -/
def elpSolve (S : List α) : Nat → List α × Nat
  | 0 => ([K.one], 0)
  | v + 1 =>
    let (z, full) := solveInh K (hankelRows K S (v + 1)) (v + 1)
    if full then (trim K (K.one :: z.reverse), v + 1) else elpSolve S v

/-- What lakey returns: g, w, e and h (R214). -/
structure KeySolution (α : Type) where
  g : List α
  w : List α
  e : List α
  h : List α
deriving DecidableEq, Repr

/-- coef(g, d − j), with coef(·, negative) = 0K (R214). -/
def coefSub (g : List α) (d j : Nat) : α := if j ≤ d then coef K g (d - j) else K.zero

/-- The rows of the key system: the coefficient of x^d in g·e + w·h is 0K for d = k+t..n+t−1 (R214). -/
def keyRows (n k : Nat) (g w : List α) : List (List α) :=
  let t := maxErrors n k
  (List.range (n - k)).map fun l =>
    let d := k + t + l
    (List.range (t + 1)).map (coefSub K g d) ++ (List.range t).map (coefSub K w d)

/-- lakey(n, k, a, W) (R214). -/
def lakeySolve (n k : Nat) (points word : List α) : Except ErrCode (KeySolution α) :=
  match pinterp K points word with
  | .error c => .error c
  | .ok g =>
    let w := zeroLocator K points
    let t := maxErrors n k
    let z := solveHom K (keyRows K n k g w) (2 * t + 1)
    .ok { g := g, w := w, e := trim K (z.take (t + 1)), h := trim K (z.drop (t + 1)) }

/-- The message of the linear-algebra decoder: the quotient of g·e + w·h by e (R216). -/
def decodeLa (n k : Nat) (points word : List α) : Except ErrCode (List α) :=
  match lakeySolve K n k points word with
  | .error c => .error c
  | .ok s =>
    match pdivmod K (padd K (pmul K s.g s.e) (pmul K s.w s.h)) s.e with
    | .error c => .error c
    | .ok (q, _) => .ok q

/-- deg_u = k + ⌈(n−k+1)/2⌉ − 1 (R217). -/
def degU (n k : Nat) : Nat := k + (n - k + 2) / 2 - 1

/-- The loop of ee: while r1 ≠ [] and deg r1 ≥ deg_u (R217, 90_conflicts.md C1). -/
def eeLoop (du : Nat) : Nat → EuclidRow α → EuclidRow α → EuclidRow α
  | 0, _, cur => cur
  | fuel + 1, prev, cur => if cur.rem = [] ∨ cur.rem.length < du + 1 then cur else eeLoop du fuel cur (euclidNext K prev cur)

/-- The final row of ee: u1 is its remainder, e1 its coefficient of g, and left its coefficient of w (R217). -/
def eeRow (n k : Nat) (w g : List α) : EuclidRow α :=
  eeLoop K (degU n k) (g.length + 1) { rem := w, left := [K.one], right := [] } { rem := g, left := [], right := [K.one] }

/-- The message of the extended-Euclidean decoder: the quotient of u1 by e1 (R218). -/
def decodeEe (n k : Nat) (points word : List α) : Except ErrCode (List α) :=
  match pinterp K points word with
  | .error c => .error c
  | .ok g =>
    let row := eeRow K n k (zeroLocator K points) g
    match pdivmod K row.rem row.right with
    | .error c => .error c
    | .ok (q, _) => .ok q

/-- The positions j of the list at which the locator has the root α^(−j) (R219). -/
def rootPositions (a : α) (locator : List α) : List Nat → Except ErrCode (List Nat)
  | [] => .ok []
  | j :: js =>
    match powK K a (-(j : Int)) with
    | .error c => .error c
    | .ok v =>
      match rootPositions a locator js with
      | .error c => .error c
      | .ok rest => .ok (if peval K locator v = K.zero then j :: rest else rest)

/-- The ν rows of the magnitude system with their right-hand sides (R220). -/
def magnitudeRows (a : α) (i : Int) (S : List α) (positions : List Nat) (v : Nat) : Except ErrCode (List (List α)) :=
  mapRaise (fun l : Nat =>
    match mapRaise (fun j : Nat => powK K a ((i + l) * j)) positions with
    | .error c => .error c
    | .ok row => .ok (row ++ [coef K S l])) (List.range v)

/-- The error word E: magnitude Y_m at position j_m, 0K elsewhere (R220). -/
def errorWord (n : Nat) (positions : List Nat) (Y : List α) : List α :=
  (List.range n).map fun j =>
    match (positions.zip Y).find? fun jy => jy.1 == j with
    | none => K.zero
    | some jy => jy.2

/-- What the steps of the BCH decoder find: S, Λ, ν, J and E (R221). -/
structure BchSteps (α : Type) where
  S : List α
  locator : List α
  v : Nat
  positions : List Nat
  E : List α
deriving DecidableEq, Repr

/-- The steps of the BCH decoder up to the error word (R221). -/
def bchSteps (n k : Nat) (a : α) (i : Int) (r : List α) : Except ErrCode (BchSteps α) :=
  match syndromes K n k a i r with
  | .error c => .error c
  | .ok S =>
    let (locator, v) := elpSolve K S (maxErrors n k)
    match rootPositions K a locator (List.range n) with
    | .error c => .error c
    | .ok positions =>
      match magnitudeRows K a i S positions v with
      | .error c => .error c
      | .ok rows =>
        let (Y, _) := solveInh K rows positions.length
        .ok { S := S, locator := locator, v := v, positions := positions, E := errorWord K n positions Y }

/-- The message of the BCH decoder: the quotient of r − E by the generator G (R221). -/
def decodeBch (n k : Nat) (G : List α) (a : α) (i : Int) (r : List α) : Except ErrCode (List α) :=
  match bchSteps K n k a i r with
  | .error c => .error c
  | .ok b =>
    match pdivmod K (psub K r (trim K b.E)) G with
    | .error c => .error c
    | .ok (q, _) => .ok q

end Sys2Proof.Machine
end

