-- ==== Sys2Proof/Machine/Codec.lean ====
section
/-! DEFINITION. The commands of the Reed-Solomon codec (43_codec.md sections 2 to 5). -/

namespace Sys2Proof.Machine

/-- The received polynomial r = trim([W[0], ..., W[n−1]]) (R205). -/
def receivedPoly (F : FieldCtx) (ws : List Elem) : Poly := trim F.ops ws

/-- GENPOLY Pd (R207). -/
def execGenpoly (d : PReg) (s : State) : Host.Outcome State Fault Refusal :=
  finish s do
    let F ← s.field
    let (n, k) ← s.shapeNK
    let a ← s.readAlpha F
    let G ← genPoly F.ops n k a s.powi.toInt
    let w ← polyDest d G
    return [w]

/-- ENC_EVAL Ps1 (R208). -/
def execEncEval (s1 : PReg) (s : State) : Host.Outcome State Fault Refusal :=
  finish s do
    let F ← s.field
    let n ← s.shapeN
    let m ← s.readP F s1
    let xs ← s.readA F n
    return [.words (xs.map (peval F.ops m))]

/-- ENC_GEN Ps1, Ps2; DIM when the product is longer than n (R209). -/
def execEncGen (s1 s2 : PReg) (s : State) : Host.Outcome State Fault Refusal :=
  finish s do
    let F ← s.field
    let n ← s.shapeN
    let m ← s.readP F s1
    let G ← s.readP F s2
    let c := pmul F.ops m G
    if c.length > n then throw .dim
    return [.words ((List.range n).map (coef F.ops c))]

/-- DEC_LA Pd (R216). -/
def execDecLa (d : PReg) (s : State) : Host.Outcome State Fault Refusal :=
  finish s do
    let F ← s.field
    let (n, k) ← s.shapeNK
    let xs ← s.readA F n
    let ys ← s.readW F n
    let m ← decodeLa F.ops n k xs ys
    let w ← polyDest d m
    return [w]

/-- DEC_EE Pd (R218). -/
def execDecEe (d : PReg) (s : State) : Host.Outcome State Fault Refusal :=
  finish s do
    let F ← s.field
    let (n, k) ← s.shapeNK
    let xs ← s.readA F n
    let ys ← s.readW F n
    let m ← decodeEe F.ops n k xs ys
    let w ← polyDest d m
    return [w]

/-- DEC_BCH Pd, Ps1 (R221). -/
def execDecBch (d s1 : PReg) (s : State) : Host.Outcome State Fault Refusal :=
  finish s do
    let F ← s.field
    let (n, k) ← s.shapeNK
    let G ← s.readP F s1
    let a ← s.readAlpha F
    let ys ← s.readW F n
    let m ← decodeBch F.ops n k G a s.powi.toInt (receivedPoly F ys)
    let w ← polyDest d m
    return [w]

/-- SYND Pd: the syndrome vector as a canonical polynomial (R211). -/
def execSynd (d : PReg) (s : State) : Host.Outcome State Fault Refusal :=
  finish s do
    let F ← s.field
    let (n, k) ← s.shapeNK
    let a ← s.readAlpha F
    let ys ← s.readW F n
    let S ← syndromes F.ops n k a s.powi.toInt (receivedPoly F ys)
    let w ← polyDest d (trim F.ops S)
    return [w]

/-- ELP Pd, Ps1: the error locator, and its ν in RES (R213). -/
def execElp (d s1 : PReg) (s : State) : Host.Outcome State Fault Refusal :=
  finish s do
    let F ← s.field
    let (n, k) ← s.shapeNK
    let S ← s.readP F s1
    let (locator, v) := elpSolve F.ops S (maxErrors n k)
    let w ← polyDest d locator
    return [w, .res v]

/-- LAKEY Pd, Pd2: e and h of the linear-algebra decoder; ILLEGAL when Pd = Pd2 (R215; log 13). -/
def execLakey (d d2 : PReg) (s : State) : Host.Outcome State Fault Refusal :=
  finish s do
    if d = d2 then throw .illegal
    let F ← s.field
    let (n, k) ← s.shapeNK
    let xs ← s.readA F n
    let ys ← s.readW F n
    let sol ← lakeySolve F.ops n k xs ys
    let w ← polyDest d sol.e
    let w2 ← polyDest d2 sol.h
    return [w, w2]

end Sys2Proof.Machine
end

