-- ==== Sys2Proof/Machine/Ffu.lean ====
section
/-! DEFINITION. NOP and the commands of the finite-field arithmetic unit (41_field.md sections 2 and 3). -/

namespace Sys2Proof.Machine

/-- NOP: reads no configuration and writes no register (R130). -/
def execNop (s : State) : Host.Outcome State Fault Refusal := .next (s.complete .ok)

/-- FZERO Ed: E[D] <- 0K (R131). -/
def execFzero (d : EReg) (s : State) : Host.Outcome State Fault Refusal :=
  finish s do
    let F ← s.field
    return [.elem d F.ops.zero]

/-- FONE Ed: E[D] <- 1K (R132). -/
def execFone (d : EReg) (s : State) : Host.Outcome State Fault Refusal :=
  finish s do
    let F ← s.field
    return [.elem d F.ops.one]

/-- FADD Ed, Es1, Es2: E[D] <- a +K b (R133). -/
def execFadd (d s1 s2 : EReg) (s : State) : Host.Outcome State Fault Refusal :=
  finish s do
    let F ← s.field
    let a ← s.readE F s1
    let b ← s.readE F s2
    return [.elem d (F.ops.add a b)]

/-- FNEG Ed, Es1: E[D] <- −K a (R134). -/
def execFneg (d s1 : EReg) (s : State) : Host.Outcome State Fault Refusal :=
  finish s do
    let F ← s.field
    let a ← s.readE F s1
    return [.elem d (F.ops.neg a)]

/-- FMUL Ed, Es1, Es2: E[D] <- a ·K b (R135). -/
def execFmul (d s1 s2 : EReg) (s : State) : Host.Outcome State Fault Refusal :=
  finish s do
    let F ← s.field
    let a ← s.readE F s1
    let b ← s.readE F s2
    return [.elem d (F.ops.mul a b)]

/-- FINV Ed, Es1: E[D] <- inv_K(a); DIV_ZERO when a = 0K (R136). -/
def execFinv (d s1 : EReg) (s : State) : Host.Outcome State Fault Refusal :=
  finish s do
    let F ← s.field
    let a ← s.readE F s1
    let v ← invK F.ops a
    return [.elem d v]

/-- FPOW Ed, Es1: E[D] <- pow_K(a, sext_32(EXP)) (R137). -/
def execFpow (d s1 : EReg) (s : State) : Host.Outcome State Fault Refusal :=
  finish s do
    let F ← s.field
    let a ← s.readE F s1
    let v ← powK F.ops a s.exp.toInt
    return [.elem d v]

end Sys2Proof.Machine
end

