-- ==== Sys2Proof/Machine/Pu.lean ====
section
/-! DEFINITION. The commands of the polynomial unit (42_poly.md section 2). -/

namespace Sys2Proof.Machine

/-- PADD Pd, Ps1, Ps2 (R170). -/
def execPadd (d s1 s2 : PReg) (s : State) : Host.Outcome State Fault Refusal :=
  finish s do
    let F ← s.field
    let g ← s.readP F s1
    let h ← s.readP F s2
    let w ← polyDest d (padd F.ops g h)
    return [w]

/-- PNEG Pd, Ps1 (R171). -/
def execPneg (d s1 : PReg) (s : State) : Host.Outcome State Fault Refusal :=
  finish s do
    let F ← s.field
    let g ← s.readP F s1
    let w ← polyDest d (pneg F.ops g)
    return [w]

/-- PMUL Pd, Ps1, Ps2; DIM when the product is longer than 512 (R172). -/
def execPmul (d s1 s2 : PReg) (s : State) : Host.Outcome State Fault Refusal :=
  finish s do
    let F ← s.field
    let g ← s.readP F s1
    let h ← s.readP F s2
    let w ← polyDest d (pmul F.ops g h)
    return [w]

/-- PDIV Pd, Pd2, Ps1, Ps2: quotient and remainder; ILLEGAL when Pd = Pd2 (R173; log 13). -/
def execPdiv (d d2 s1 s2 : PReg) (s : State) : Host.Outcome State Fault Refusal :=
  finish s do
    if d = d2 then throw .illegal
    let F ← s.field
    let g ← s.readP F s1
    let h ← s.readP F s2
    let (q, r) ← pdivmod F.ops g h
    let w ← polyDest d q
    let w2 ← polyDest d2 r
    return [w, w2]

/-- PGCD Pd, Ps1, Ps2 (R174). -/
def execPgcd (d s1 s2 : PReg) (s : State) : Host.Outcome State Fault Refusal :=
  finish s do
    let F ← s.field
    let g ← s.readP F s1
    let h ← s.readP F s2
    let a ← pgcd F.ops g h
    let w ← polyDest d a
    return [w]

/-- PGCDX Pd, Pd2, Pd3, Ps1, Ps2: d, r and s; ILLEGAL on a destination clash (R175; log 13). -/
def execPgcdx (d d2 d3 s1 s2 : PReg) (s : State) : Host.Outcome State Fault Refusal :=
  finish s do
    if d = d2 ∨ d = d3 ∨ d2 = d3 then throw .illegal
    let F ← s.field
    let g ← s.readP F s1
    let h ← s.readP F s2
    let (a, u, v) ← pgcdx F.ops g h
    let w ← polyDest d a
    let w2 ← polyDest d2 u
    let w3 ← polyDest d3 v
    return [w, w2, w3]

/-- PEVAL Ed, Ps1, Es2 (R176). -/
def execPeval (d : EReg) (s1 : PReg) (s2 : EReg) (s : State) : Host.Outcome State Fault Refusal :=
  finish s do
    let F ← s.field
    let g ← s.readP F s1
    let x0 ← s.readE F s2
    return [.elem d (peval F.ops g x0)]

/-- PINTERP Pd, through the pairs (A[j], W[j]), j < n (R177). -/
def execPinterp (d : PReg) (s : State) : Host.Outcome State Fault Refusal :=
  finish s do
    let F ← s.field
    let n ← s.shapeN
    let xs ← s.readA F n
    let ys ← s.readW F n
    let g ← pinterp F.ops xs ys
    let w ← polyDest d g
    return [w]

/-- PPOWMOD Pd, Ps1, Ps2 by e = sext_32(EXP); RANGE when e < 0, before the modulus is looked at (R178). -/
def execPpowmod (d s1 s2 : PReg) (s : State) : Host.Outcome State Fault Refusal :=
  finish s do
    let F ← s.field
    let g ← s.readP F s1
    let h ← s.readP F s2
    if s.exp.toInt < 0 then throw .range
    let r ← ppowmod F.ops g s.exp.toInt.natAbs h
    let w ← polyDest d r
    return [w]

/-- PIRRED Ps1: RES <- 0 or 1 (R179). -/
def execPirred (s1 : PReg) (s : State) : Host.Outcome State Fault Refusal :=
  finish s do
    let F ← s.field
    let h ← s.readP F s1
    let b ← pirred F.ops F.card h
    return [.res b.toNat]

/-- PREDUCE Pd, Ps1: the canonical form, which reading already gives (R180). -/
def execPreduce (d s1 : PReg) (s : State) : Host.Outcome State Fault Refusal :=
  finish s do
    let F ← s.field
    let g ← s.readP F s1
    let w ← polyDest d g
    return [w]

end Sys2Proof.Machine
end

