-- ==== Sys2Proof/Machine/Dispatch.lean ====
section
/-! DEFINITION. One arm per command of 30_encoding.md R95. -/

namespace Sys2Proof.Machine

def exec (i : Instr) (s : State) : Host.Outcome State Fault Refusal :=
  match i with
  | .nop => Sys2Proof.Machine.execNop s
  | .fzero d => Sys2Proof.Machine.execFzero d s
  | .fone d => Sys2Proof.Machine.execFone d s
  | .fadd d s1 s2 => Sys2Proof.Machine.execFadd d s1 s2 s
  | .fneg d s1 => Sys2Proof.Machine.execFneg d s1 s
  | .fmul d s1 s2 => Sys2Proof.Machine.execFmul d s1 s2 s
  | .finv d s1 => Sys2Proof.Machine.execFinv d s1 s
  | .fpow d s1 => Sys2Proof.Machine.execFpow d s1 s
  | .padd d s1 s2 => Sys2Proof.Machine.execPadd d s1 s2 s
  | .pneg d s1 => Sys2Proof.Machine.execPneg d s1 s
  | .pmul d s1 s2 => Sys2Proof.Machine.execPmul d s1 s2 s
  | .pdiv d d2 s1 s2 => Sys2Proof.Machine.execPdiv d d2 s1 s2 s
  | .pgcd d s1 s2 => Sys2Proof.Machine.execPgcd d s1 s2 s
  | .pgcdx d d2 d3 s1 s2 => Sys2Proof.Machine.execPgcdx d d2 d3 s1 s2 s
  | .peval d s1 s2 => Sys2Proof.Machine.execPeval d s1 s2 s
  | .pinterp d => Sys2Proof.Machine.execPinterp d s
  | .ppowmod d s1 s2 => Sys2Proof.Machine.execPpowmod d s1 s2 s
  | .pirred s1 => Sys2Proof.Machine.execPirred s1 s
  | .preduce d s1 => Sys2Proof.Machine.execPreduce d s1 s
  | .genpoly d => Sys2Proof.Machine.execGenpoly d s
  | .encEval s1 => Sys2Proof.Machine.execEncEval s1 s
  | .encGen s1 s2 => Sys2Proof.Machine.execEncGen s1 s2 s
  | .decLa d => Sys2Proof.Machine.execDecLa d s
  | .decEe d => Sys2Proof.Machine.execDecEe d s
  | .decBch d s1 => Sys2Proof.Machine.execDecBch d s1 s
  | .synd d => Sys2Proof.Machine.execSynd d s
  | .elp d s1 => Sys2Proof.Machine.execElp d s1 s
  | .lakey d d2 => Sys2Proof.Machine.execLakey d d2 s

end Sys2Proof.Machine
end

