-- ==== Sys2Proof/Machine/Step.lean ====
section
/-! DEFINITION. One step of the machine: the next event, or the sequencer's turn when nothing is to come
(10_state.md R20, R49; 20_memory.md R68; 70_reset_and_hazards.md R300, R313). -/

namespace Sys2Proof.Machine

/-- The sequencer's turn: an idle one does nothing; a busy one decodes its latched word, evaluates it on the state at
accept and completes (10_state.md R49; 60_exceptions.md R267, R269, R270). -/
def sequencerTurn (s : State) : Host.Outcome State Fault Refusal :=
  match s.seq with
  | .idle => .next s
  | .busy cw =>
    match decode cw with
    | .ok i => exec i s
    | .error _ => .next (s.complete .illegal)

/-- One event, on the state in which it is no longer to come. -/
def runEvent (s : State) : Event → Host.Outcome State Fault Refusal
  | .bus t => .next (s.serve t)
  | .run => sequencerTurn s
  | .powerOn => .next s.powerOnReset

/-- One step (logs 1 and 15). -/
def step (s : State) : Host.Outcome State Fault Refusal :=
  match s.events with
  | [] => sequencerTurn s
  | e :: rest => runEvent (s.setEvents rest) e

/-- The state in which the table word w has just been accepted and the next step is the sequencer's (log 2). -/
def State.withFetchWord (s : State) (_nbits w : Nat) : State :=
  (s.accept (BitVec.ofNat 32 w)).setEvents (.run :: s.events)

end Sys2Proof.Machine
end

