-- ==== Sys2Proof/Safety.lean ====
section
/-! DEFINITION. What counts as a safe run, and the words the statements use: the invariant of the machine, what a completion
and a frame are, what a slot or a register holds, and the outputs and operands that
30_encoding.md R95 gives each command. -/

namespace Sys2Proof

open Machine

/-! The invariant -/

/-- The written bytes are in canonical form and lie in digit words of the map (20_memory.md R61; 10_state.md R39). -/
def MemOk (s : State) : Prop := Memory.wf s.mem ∧ ∀ c ∈ s.mem, isDigitAddr c.1 = true

/-- While a command is in flight LASTCMD holds its word and DONE is 0 (10_state.md R25, R26, R49). -/
def FlightOk (s : State) : Prop :=
  match s.seq with
  | .idle => True
  | .busy cw => s.lastcmd = cw ∧ s.done = false

/-- STATUS.ERR holds a code that some command can raise: DEGENERATE is reserved (60_exceptions.md R261, R264). -/
def ErrOk (s : State) : Prop := s.err ≠ .degenerate

/-- The invariant of the machine. -/
structure Inv (s : State) : Prop where
  mem : MemOk s
  flight : FlightOk s
  err : ErrOk s

/-- A step that goes on, in a state with the invariant (60_exceptions.md R260: nothing stops the machine). -/
def SafeStep (s : State) : Prop := ∃ t, step s = .next t ∧ Inv t

/-! Completion and frames -/

/-- The state of the status after a completion with a code (60_exceptions.md R270). -/
def Completed (s t : State) (c : ErrCode) : Prop :=
  t.err = c ∧ t.done = true ∧ t.seq = .idle ∧ t.ovr = s.ovr ∧ t.wign = s.wign ∧ t.lastcmd = s.lastcmd

/-- Every register that no command writes is the same. -/
structure SameControl (s t : State) : Prop where
  fmode : t.fmode = s.fmode
  ie : t.ie = s.ie
  ovr : t.ovr = s.ovr
  wign : t.wign = s.wign
  lastcmd : t.lastcmd = s.lastcmd
  prime : t.prime = s.prime
  fdeg : t.fdeg = s.fdeg
  nlen : t.nlen = s.nlen
  klen : t.klen = s.klen
  powi : t.powi = s.powi
  exp : t.exp = s.exp
  fcoef : t.fcoef = s.fcoef
  alpha : t.alpha = s.alpha
  response : t.response = s.response
  events : t.events = s.events

/-- The element register a command writes: the outputs column of 30_encoding.md R95. -/
def elemDest : Instr → Option EReg
  | .fzero d => some d
  | .fone d => some d
  | .fadd d _ _ => some d
  | .fneg d _ => some d
  | .fmul d _ _ => some d
  | .finv d _ => some d
  | .fpow d _ => some d
  | .peval d _ _ => some d
  | _ => none

/-- The polynomial registers a command writes: the outputs column of 30_encoding.md R95. -/
def polyDests : Instr → List PReg
  | .padd d _ _ => [d]
  | .pneg d _ => [d]
  | .pmul d _ _ => [d]
  | .pdiv d d2 _ _ => [d, d2]
  | .pgcd d _ _ => [d]
  | .pgcdx d d2 d3 _ _ => [d, d2, d3]
  | .pinterp d => [d]
  | .ppowmod d _ _ => [d]
  | .preduce d _ => [d]
  | .genpoly d => [d]
  | .decLa d => [d]
  | .decEe d => [d]
  | .decBch d _ => [d]
  | .synd d => [d]
  | .elp d _ => [d]
  | .lakey d d2 => [d, d2]
  | _ => []

/-- Whether a command writes W[0..n−1] (30_encoding.md R95). -/
def writesWords : Instr → Bool
  | .encEval _ => true
  | .encGen _ _ => true
  | _ => false

/-- Whether a command writes RES (30_encoding.md R95; 10_state.md R33). -/
def writesRes : Instr → Bool
  | .pirred _ => true
  | .elp _ _ => true
  | _ => false

/-! Configuration and operands, in the spec's own words -/

/-- ConfigValid as 10_state.md R37 writes it. -/
def ConfigOk (s : State) : Prop :=
  2 ≤ s.prime.toNat ∧
    (s.fmode = .fq →
      1 ≤ s.fdeg.toNat ∧ s.fdeg.toNat ≤ 16 ∧ (s.fcoef.toList.getD s.fdeg.toNat 0).toNat = 1 ∧
        ∀ j, j < s.fdeg.toNat → (s.fcoef.toList.getD j 0).toNat < s.prime.toNat)

/-- ShapeN (10_state.md R38). -/
def ShapeN (s : State) : Prop := 1 ≤ s.nlen.toNat ∧ s.nlen.toNat ≤ 256

/-- ShapeNK (10_state.md R38). -/
def ShapeNK (s : State) : Prop := ShapeN s ∧ s.klen.toNat ≤ s.nlen.toNat

/-- The commands that need ShapeN (60_exceptions.md R263). -/
def needsShapeN : Instr → Bool
  | .pinterp _ => true
  | .encEval _ => true
  | .encGen _ _ => true
  | _ => false

/-- The commands that need ShapeNK (60_exceptions.md R263). -/
def needsShapeNK : Instr → Bool
  | .genpoly _ => true
  | .synd _ => true
  | .elp _ _ => true
  | .lakey _ _ => true
  | .decLa _ => true
  | .decEe _ => true
  | .decBch _ _ => true
  | _ => false

/-- How many digits of a slot an element uses: 1 in Z/pZ, FDEG in Fq (10_state.md R40). -/
def slotWidth (s : State) : Nat :=
  match s.fmode with
  | .zp => 1
  | .fq => s.fdeg.toNat

/-- Digit j of the slot at a byte address (10_state.md R39; 20_memory.md R62). -/
def digit (s : State) (a j : Nat) : Nat := (s.word (a + 4 * j)).toNat

/-- The slot holds a reduced element of K (10_state.md R40). -/
def ReducedSlot (s : State) (a : Nat) : Prop :=
  ∀ j, j < 16 → (j < slotWidth s → digit s a j < s.prime.toNat) ∧ (slotWidth s ≤ j → digit s a j = 0)

/-- ALPHA holds a reduced element of K (10_state.md R36, R40). -/
def ReducedAlpha (s : State) : Prop :=
  ∀ j : Fin 16, (j.val < slotWidth s → (s.alpha[j]).toNat < s.prime.toNat) ∧ (slotWidth s ≤ j.val → (s.alpha[j]).toNat = 0)

/-- P[r] is at most 512 long and every coefficient slot below its length is reduced (10_state.md R43). -/
def ReducedPoly (s : State) (r : PReg) : Prop :=
  s.plen[r].toNat ≤ 512 ∧ ∀ c, c < s.plen[r].toNat → ReducedSlot s (pcAddr r c)

/-- An operand of field elements that a command reads (30_encoding.md R95: the S1, S2 and other inputs columns). -/
inductive Operand where
  | e (r : EReg)
  | p (r : PReg)
  | alpha
  /-- A[0..n−1] -/
  | points
  /-- W[0..n−1] -/
  | word
deriving DecidableEq, Repr

/-- The operands of field elements of each command (30_encoding.md R95). -/
def operands : Instr → List Operand
  | .nop => []
  | .fzero _ => []
  | .fone _ => []
  | .fadd _ s1 s2 => [.e s1, .e s2]
  | .fneg _ s1 => [.e s1]
  | .fmul _ s1 s2 => [.e s1, .e s2]
  | .finv _ s1 => [.e s1]
  | .fpow _ s1 => [.e s1]
  | .padd _ s1 s2 => [.p s1, .p s2]
  | .pneg _ s1 => [.p s1]
  | .pmul _ s1 s2 => [.p s1, .p s2]
  | .pdiv _ _ s1 s2 => [.p s1, .p s2]
  | .pgcd _ s1 s2 => [.p s1, .p s2]
  | .pgcdx _ _ _ s1 s2 => [.p s1, .p s2]
  | .peval _ s1 s2 => [.p s1, .e s2]
  | .pinterp _ => [.points, .word]
  | .ppowmod _ s1 s2 => [.p s1, .p s2]
  | .pirred s1 => [.p s1]
  | .preduce _ s1 => [.p s1]
  | .genpoly _ => [.alpha]
  | .encEval s1 => [.p s1, .points]
  | .encGen s1 s2 => [.p s1, .p s2]
  | .decLa _ => [.points, .word]
  | .decEe _ => [.points, .word]
  | .decBch _ s1 => [.p s1, .alpha, .word]
  | .synd _ => [.alpha, .word]
  | .elp _ s1 => [.p s1]
  | .lakey _ _ => [.points, .word]

/-- The operand is not a reduced value (60_exceptions.md R266; 10_state.md R40, R43, R45, R46). -/
def Operand.Unreduced (s : State) : Operand → Prop
  | .e r => ¬ ReducedSlot s (eAddr r)
  | .p r => ¬ ReducedPoly s r
  | .alpha => ¬ ReducedAlpha s
  | .points => ∃ j, j < s.nlen.toNat ∧ ¬ ReducedSlot s (aAddr j)
  | .word => ∃ j, j < s.nlen.toNat ∧ ¬ ReducedSlot s (wAddr j)

/-- The machine computes in Z/pZ (10_state.md R24, R37). -/
def InZp (s : State) : Prop := s.fmode = .zp ∧ 2 ≤ s.prime.toNat

/-- The slot holds the integer v of Z/pZ (10_state.md R41). -/
def IsInt (s : State) (a v : Nat) : Prop := digit s a 0 = v ∧ ∀ j, 1 ≤ j → j < 16 → digit s a j = 0

/-- The slots from a byte address on hold the listed integers: A[0..], W[0..], or the coefficients of a polynomial register. -/
def SlotsAre (s : State) (a : Nat) (g : List Nat) : Prop := ∀ c, c < g.length → IsInt s (a + 64 * c) (g.getD c 0)

/-- P[r] holds the listed coefficients, integers of Z/pZ (10_state.md R43). -/
def PolyIs (s : State) (r : PReg) (g : List Nat) : Prop := s.plen[r].toNat = g.length ∧ SlotsAre s (pcAddr r 0) g

/-- Every integer of the list is reduced. -/
def AllBelow (p : Nat) (g : List Nat) : Prop := ∀ v ∈ g, v < p

/-- P[r] can be read as the listed coefficients (10_state.md R40, R43). -/
def ZpInput (s : State) (r : PReg) (g : List Nat) : Prop := PolyIs s r g ∧ g.length ≤ 512 ∧ AllBelow s.prime.toNat g

/-- The polynomial over Z/pZ with the listed coefficients, as a polynomial of Mathlib (00_scope.md R11). -/
noncomputable def zpPoly (p : Nat) (g : List Nat) : Polynomial (ZMod p) :=
  g.foldr (fun c acc => Polynomial.C (c : ZMod p) + Polynomial.X * acc) 0

/-- P[d] holds the canonical form of a polynomial over Z/pZ (42_poly.md R150). -/
def ZpOutput (t : State) (d : PReg) (p : Nat) (f : Polynomial (ZMod p)) : Prop :=
  ∃ r : List Nat, PolyIs t d r ∧ AllBelow p r ∧ r.getLast? ≠ some 0 ∧ zpPoly p r = f

end Sys2Proof
end

