-- ==== Sys2Proof/Certificates/Slice0/Obligations.lean ====
section
/-! DEFINITION. The statements about RS-CORE for the provers, one definition each; OBLIGATIONS.json lists them. -/

open Sys2Proof Sys2Proof.Machine

/-! Encoding -/

/-- No bit of an encoding is dropped: decoding the word of a well-formed command gives it back (30_encoding.md R90, R95). -/
def Obligations.DecodeEncodeRoundTrip : Prop :=
  ∀ i : Instr, i.wf = true → decode (encode i) = .ok i

/-- The words that 30_encoding.md R96 decodes, in its own order of checks: RSV, OPC, then the destination clash. -/
def Sys2Proof.LegalWord (cw : Word) : Prop :=
  cw.toNat / 2 ^ 28 = 0 ∧
    (cw.toNat % 256 ≤ 0x07 ∨ (0x10 ≤ cw.toNat % 256 ∧ cw.toNat % 256 ≤ 0x1A) ∨ (0x20 ≤ cw.toNat % 256 ∧ cw.toNat % 256 ≤ 0x28)) ∧
    (cw.toNat % 256 = 0x13 → cw.toNat / 2 ^ 8 % 16 ≠ cw.toNat / 2 ^ 20 % 16) ∧
    (cw.toNat % 256 = 0x15 →
      cw.toNat / 2 ^ 8 % 16 ≠ cw.toNat / 2 ^ 20 % 16 ∧ cw.toNat / 2 ^ 8 % 16 ≠ cw.toNat / 2 ^ 24 % 16 ∧
        cw.toNat / 2 ^ 20 % 16 ≠ cw.toNat / 2 ^ 24 % 16) ∧
    (cw.toNat % 256 = 0x28 → cw.toNat / 2 ^ 8 % 16 ≠ cw.toNat / 2 ^ 20 % 16)

/-- Which words decode (30_encoding.md R93, R94, R96). -/
def Obligations.DecodeAcceptsExactlyTheLegalWords : Prop :=
  ∀ cw : Word, (∃ i, decode cw = .ok i) ↔ LegalWord cw

/-- The lowest bits of the fields that the opcode map marks as used for an OPC (30_encoding.md R95). -/
def Sys2Proof.usedFields (opc : Nat) : List Nat :=
  if opc = 0x00 then []
  else if opc = 0x01 ∨ opc = 0x02 ∨ opc = 0x17 ∨ opc = 0x20 ∨ opc = 0x23 ∨ opc = 0x24 ∨ opc = 0x26 then [8]
  else if opc = 0x04 ∨ opc = 0x06 ∨ opc = 0x07 ∨ opc = 0x11 ∨ opc = 0x1A ∨ opc = 0x25 ∨ opc = 0x27 then [8, 12]
  else if opc = 0x19 ∨ opc = 0x21 then [12]
  else if opc = 0x22 then [12, 16]
  else if opc = 0x13 then [8, 12, 16, 20]
  else if opc = 0x15 then [8, 12, 16, 20, 24]
  else if opc = 0x28 then [8, 20]
  else [8, 12, 16]

/-- Unused fields are ignored, used ones are all that is read (30_encoding.md R92, R95). -/
def Obligations.UnusedFieldsAreIgnored : Prop :=
  ∀ cw cw' : Word, cw.toNat % 256 = cw'.toNat % 256 → cw.toNat / 2 ^ 28 = cw'.toNat / 2 ^ 28 →
    (∀ lo ∈ usedFields (cw.toNat % 256), cw.toNat / 2 ^ lo % 16 = cw'.toNat / 2 ^ lo % 16) → decode cw = decode cw'

/-- The spec's example words (30_encoding.md R95 and the examples of the command rules). -/
def Obligations.ExampleWordsDecode : Prop :=
  decode 0x00021303 = .ok (.fadd 3 1 2) ∧ decode 0x00310213 = .ok (.pdiv 2 3 0 1) ∧
    decode 0x04310215 = .ok (.pgcdx 2 3 4 0 1) ∧ decode 0x00010022 = .ok (.encGen 0 1) ∧
    decode 0x00600528 = .ok (.lakey 5 6) ∧ decode 0x00001225 = .ok (.decBch 2 1) ∧
    decode 0x00100113 = .error .destinationClash ∧ decode 0x10000001 = .error .reservedBits ∧
    decode 0x00000029 = .error .undefinedOpcode

/-! The step and the sequencer -/

/-- A step runs the decoded command (10_state.md R49); the event list is the model's choice (logs 1 and 2). -/
def Obligations.StepRunsTheDecodedCommand : Prop :=
  ∀ (s : State) (cw : Word) (i : Instr) (rest : List Event), decode cw = .ok i →
    (s.seq = .busy cw → s.events = [] → step s = exec i s) ∧
    (s.seq = .busy cw → s.events = .run :: rest → step s = exec i { s with events := rest }) ∧
    (∀ nbits : Nat, step (s.withFetchWord nbits cw.toNat) = exec i (s.accept cw))

/-- ILLEGAL (60_exceptions.md R267; 30_encoding.md R93, R94); the event list is the model's choice (logs 1 and 2). -/
def Obligations.IllegalWordCompletesWithIllegal : Prop :=
  ∀ (s : State) (cw : Word) (rest : List Event), ¬ LegalWord cw →
    (s.seq = .busy cw → s.events = [] → step s = .next { s with err := .illegal, done := true, seq := .idle }) ∧
    (s.seq = .busy cw → s.events = .run :: rest →
      step s = .next { s with err := .illegal, done := true, seq := .idle, events := rest }) ∧
    (∀ nbits : Nat, step (s.withFetchWord nbits cw.toNat) =
      .next { s with lastcmd := cw, err := .illegal, done := true, seq := .idle })

/-- Completion (60_exceptions.md R270), for all commands; DEGENERATE is never raised (R264). With p not prime or f reducible, where a
division may not end by its rule, that the command completes is the model's choice of logs 5 to 7 (DESIGN CHOICE). -/
def Obligations.EveryCommandCompletes : Prop :=
  ∀ (i : Instr) (s : State), ∃ (t : State) (c : ErrCode), exec i s = .next t ∧ Completed s t c ∧ c ≠ .degenerate

/-- All or nothing (60_exceptions.md R269). -/
def Obligations.AnErrorWritesNothingButStatus : Prop :=
  ∀ (i : Instr) (s t : State), exec i s = .next t → t.err ≠ .ok → t = { s with err := t.err, done := true, seq := .idle }

/-- No traps, no stops (60_exceptions.md R260, R274). With p not prime or f reducible, that a command neither stops nor is refused is
the model's choice of logs 5 to 7, and that a read of an unwritten word is not refused that of log 3 (DESIGN CHOICE). -/
def Obligations.NothingStopsTheMachine : Prop :=
  ∀ s : State, ∃ t, step s = .next t

/-- The invariant of the machine is kept by every step; the canonical form of the memory is the model's own (log 14). -/
def Obligations.EveryStepKeepsTheInvariant : Prop :=
  ∀ s t : State, Inv s → step s = .next t → Inv t

/-- The invariant holds at reset. -/
def Obligations.ResetHasTheInvariant : Prop :=
  Inv State.reset

/-- Commands write only what the outputs column names (30_encoding.md R95), never the control block. -/
def Obligations.NoCommandWritesTheControlRegisters : Prop :=
  ∀ (i : Instr) (s t : State), exec i s = .next t → SameControl s t

/-! Frames: what a command leaves unchanged, by the outputs column of 30_encoding.md R95 -/

/-- The frame of the commands with an element destination. -/
def Obligations.ElementCommandsChangeOnlyTheirElement : Prop :=
  ∀ (i : Instr) (d : EReg) (s t : State), elemDest i = some d → exec i s = .next t →
    SameControl s t ∧ t.plen = s.plen ∧ t.res = s.res ∧
      ∀ a, (a < eAddr d ∨ eAddr d + 64 ≤ a) → t.byte a = s.byte a

/-- The frame of the commands with polynomial destinations. -/
def Obligations.PolynomialCommandsChangeOnlyTheirPolynomials : Prop :=
  ∀ (i : Instr) (s t : State), polyDests i ≠ [] → exec i s = .next t →
    SameControl s t ∧ (writesRes i = false → t.res = s.res) ∧
      (∀ r : PReg, r ∉ polyDests i → t.plen[r] = s.plen[r]) ∧
      ∀ a, a < 0x90000 → (∀ d ∈ polyDests i, a < pcAddr d 0 ∨ pcAddr d 0 + 0x8000 ≤ a) → t.byte a = s.byte a

/-- The frame of the two encoders (10_state.md R46). -/
def Obligations.EncodersChangeOnlyTheCodeword : Prop :=
  ∀ (i : Instr) (s t : State), writesWords i = true → exec i s = .next t →
    SameControl s t ∧ t.plen = s.plen ∧ t.res = s.res ∧
      ∀ a, (a < wAddr 0 ∨ wAddr s.nlen.toNat ≤ a) → t.byte a = s.byte a

/-- What NOP does (41_field.md R130), and the frame of NOP and PIRRED (42_poly.md R179). -/
def Obligations.NopAndPirredWriteNoSlot : Prop :=
  (∀ s : State, exec .nop s = .next { s with err := .ok, done := true, seq := .idle }) ∧
  ∀ (i : Instr) (s t : State), elemDest i = none → polyDests i = [] → writesWords i = false → exec i s = .next t →
    SameControl s t ∧ t.plen = s.plen ∧ t.mem = s.mem ∧ (writesRes i = false → t.res = s.res) ∧ ∀ a, t.byte a = s.byte a

/-! Checks before a command computes: 60_exceptions.md R268 -/

/-- CONFIG (60_exceptions.md R265; 10_state.md R37). -/
def Obligations.InvalidConfigurationGivesConfig : Prop :=
  ∀ (i : Instr) (s : State), i.wf = true → i ≠ .nop → ¬ ConfigOk s →
    exec i s = .next { s with err := .config, done := true, seq := .idle }

/-- DIM from the shape check comes before any operand is read (60_exceptions.md R263, R268). -/
def Obligations.WrongShapeGivesDim : Prop :=
  ∀ (i : Instr) (s : State), i.wf = true → ConfigOk s →
    ((needsShapeN i = true ∧ ¬ ShapeN s) ∨ (needsShapeNK i = true ∧ ¬ ShapeNK s)) →
    exec i s = .next { s with err := .dim, done := true, seq := .idle }

/-- RANGE: an unreduced operand is never silently reduced, whichever command reads it (60_exceptions.md R266, R268; 10_state.md R40,
R43). -/
def Obligations.UnreducedOperandGivesRange : Prop :=
  ∀ (i : Instr) (s : State), i.wf = true → ConfigOk s → (needsShapeN i = true → ShapeN s) →
    (needsShapeNK i = true → ShapeNK s) → (∃ o ∈ operands i, o.Unreduced s) →
    exec i s = .next { s with err := .range, done := true, seq := .idle }

/-- The lengths of 43_codec.md R225: the DIM check of 10_state.md R44 never fires for them. With p not prime or f reducible this
rests on the model's choice of log 7 (DESIGN CHOICE): an unstated quotient or remainder keeps the lengths of 42_poly.md R157. -/
def Obligations.CodecResultsAlwaysFit : Prop :=
  ∀ (i : Instr) (s t : State), exec i s = .next t →
    ((needsShapeNK i = true ∧ ShapeNK s) ∨ (∃ d, i = .pinterp d ∧ ShapeN s)) → t.err ≠ .dim

/-! Field unit: 41_field.md -/

/-- Identities, sum and additive inverse (41_field.md R121, R122, R125, R131 to R134); digits above the degree are 0. -/
def Obligations.IdentitiesSumsAndNegations : Prop :=
  ∀ (s : State) (d s1 s2 : EReg), ConfigOk s →
    (∃ t, exec (.fzero d) s = .next t ∧ Completed s t .ok ∧ ∀ j, j < 16 → digit t (eAddr d) j = 0) ∧
    (∃ t, exec (.fone d) s = .next t ∧ Completed s t .ok ∧ IsInt t (eAddr d) 1) ∧
    (ReducedSlot s (eAddr s1) → ReducedSlot s (eAddr s2) →
      (∃ t, exec (.fadd d s1 s2) s = .next t ∧ Completed s t .ok ∧
        ∀ j, j < 16 → digit t (eAddr d) j = (digit s (eAddr s1) j + digit s (eAddr s2) j) % s.prime.toNat) ∧
      (∃ t, exec (.fneg d s1) s = .next t ∧ Completed s t .ok ∧
        ∀ j, j < 16 → digit t (eAddr d) j = (s.prime.toNat - digit s (eAddr s1) j) % s.prime.toNat))

/-- Prime-field product (41_field.md R123), never truncated. -/
def Obligations.FmulInZpIsTheProductModP : Prop :=
  ∀ (s : State) (d s1 s2 : EReg) (a b : Nat), InZp s → IsInt s (eAddr s1) a → IsInt s (eAddr s2) b →
    a < s.prime.toNat → b < s.prime.toNat →
    ∃ t, exec (.fmul d s1 s2) s = .next t ∧ Completed s t .ok ∧ IsInt t (eAddr d) (a * b % s.prime.toNat)

/-- The modulus f of Fq as a polynomial over Z/pZ (10_state.md R35). -/
noncomputable def Sys2Proof.modulusPoly (s : State) : Polynomial (ZMod s.prime.toNat) :=
  zpPoly s.prime.toNat ((s.fcoef.toList.take (s.fdeg.toNat + 1)).map BitVec.toNat)

/-- The element that a slot's digits are, as a polynomial over Z/pZ (10_state.md R40). -/
noncomputable def Sys2Proof.slotPoly (s : State) (p a : Nat) : Polynomial (ZMod p) :=
  zpPoly p ((List.range 16).map (digit s a))

/-- Extension-field product (41_field.md R126). -/
def Obligations.FmulInFqIsTheProductModF : Prop :=
  ∀ (s : State) (d s1 s2 : EReg), s.fmode = .fq → ConfigOk s → ReducedSlot s (eAddr s1) → ReducedSlot s (eAddr s2) →
    ∃ t, exec (.fmul d s1 s2) s = .next t ∧ Completed s t .ok ∧ ReducedSlot t (eAddr d) ∧
      slotPoly t s.prime.toNat (eAddr d) =
        (slotPoly s s.prime.toNat (eAddr s1) * slotPoly s s.prime.toNat (eAddr s2)) %ₘ modulusPoly s

/-- Prime-field inverse (41_field.md R124, R136). -/
def Obligations.FinvInZpIsTheInverse : Prop :=
  ∀ (s : State) (d s1 : EReg) (a : Nat), InZp s → s.prime.toNat.Prime → IsInt s (eAddr s1) a → a < s.prime.toNat →
    (a ≠ 0 → ∃ t b, exec (.finv d s1) s = .next t ∧ Completed s t .ok ∧ IsInt t (eAddr d) b ∧ b < s.prime.toNat ∧
      a * b % s.prime.toNat = 1) ∧
    (a = 0 → exec (.finv d s1) s = .next { s with err := .divZero, done := true, seq := .idle })

/-- Extension-field inverse (41_field.md R127); p prime and f irreducible are the host's obligations (R307). -/
def Obligations.FinvInFqIsTheInverse : Prop :=
  ∀ (s : State) (d s1 : EReg), s.fmode = .fq → ConfigOk s → s.prime.toNat.Prime → Irreducible (modulusPoly s) →
    ReducedSlot s (eAddr s1) → (∃ j, j < 16 ∧ digit s (eAddr s1) j ≠ 0) →
    ∃ t, exec (.finv d s1) s = .next t ∧ Completed s t .ok ∧ ReducedSlot t (eAddr d) ∧
      (slotPoly s s.prime.toNat (eAddr s1) * slotPoly t s.prime.toNat (eAddr d)) %ₘ modulusPoly s = 1

/-- Exponentiation (41_field.md R128, R137). -/
def Obligations.FpowInZpIsThePower : Prop :=
  ∀ (s : State) (d s1 : EReg) (a : Nat), InZp s → IsInt s (eAddr s1) a → a < s.prime.toNat →
    (0 ≤ s.exp.toInt → ∃ t, exec (.fpow d s1) s = .next t ∧ Completed s t .ok ∧
      IsInt t (eAddr d) (a ^ s.exp.toInt.toNat % s.prime.toNat)) ∧
    (s.exp.toInt < 0 → Nat.Coprime a s.prime.toNat → ∃ t b, exec (.fpow d s1) s = .next t ∧ Completed s t .ok ∧
      IsInt t (eAddr d) b ∧ b < s.prime.toNat ∧ b * a ^ (-s.exp.toInt).toNat % s.prime.toNat = 1) ∧
    (s.exp.toInt < 0 → a = 0 → exec (.fpow d s1) s = .next { s with err := .divZero, done := true, seq := .idle })

/-- When the field commands execute normally, and the DIV_ZERO of 0K inverted (41_field.md R133 to R137; 60_exceptions.md R262).
That FINV, and FPOW with EXP < 0, end with OK for a nonzero operand without an inverse, which needs p not prime or f reducible, is
the model's choice of logs 5 and 6 (DESIGN CHOICE), no rule of the spec. -/
def Obligations.FieldCommandsComplete : Prop :=
  ∀ (s : State) (F : FieldCtx) (d s1 : EReg) (a : Elem), s.field = .ok F → s.readE F s1 = .ok a →
    exec (.fneg d s1) s = .next ((s.writeE d (F.ops.neg a)).complete .ok) ∧
    (∀ (s2 : EReg) (b : Elem), s.readE F s2 = .ok b →
      exec (.fadd d s1 s2) s = .next ((s.writeE d (F.ops.add a b)).complete .ok) ∧
      exec (.fmul d s1 s2) s = .next ((s.writeE d (F.ops.mul a b)).complete .ok)) ∧
    (a ≠ F.ops.zero → exec (.finv d s1) s = .next ((s.writeE d (F.ops.inv a)).complete .ok)) ∧
    (a = F.ops.zero → exec (.finv d s1) s = .next { s with err := .divZero, done := true, seq := .idle }) ∧
    (0 ≤ s.exp.toInt → exec (.fpow d s1) s = .next ((s.writeE d (powNat F.ops a s.exp.toInt.natAbs)).complete .ok)) ∧
    (s.exp.toInt < 0 → a ≠ F.ops.zero →
      exec (.fpow d s1) s = .next ((s.writeE d (powNat F.ops (F.ops.inv a) s.exp.toInt.natAbs)).complete .ok)) ∧
    (s.exp.toInt < 0 → a = F.ops.zero →
      exec (.fpow d s1) s = .next { s with err := .divZero, done := true, seq := .idle })

/-- ElemWrite and ElemRead agree (10_state.md R40, R41). -/
def Obligations.WrittenElementReadsBack : Prop :=
  ∀ (s : State) (d r : EReg) (v : Elem), ConfigOk s → AllBelow s.prime.toNat v → v.length ≤ slotWidth s → v.getLast? ≠ some 0 →
    (s.writeE d v).readE s.fieldCtx d = .ok v ∧
    (r ≠ d → (s.writeE d v).readE s.fieldCtx r = s.readE s.fieldCtx r)

/-! Polynomial unit: 42_poly.md -/

/-- PolyWrite and PolyRead agree (10_state.md R43, R44). -/
def Obligations.WrittenPolynomialReadsBack : Prop :=
  ∀ (s : State) (d r : PReg) (g : Poly), ConfigOk s → g.length ≤ 512 → g.getLast? ≠ some [] →
    (∀ v ∈ g, AllBelow s.prime.toNat v ∧ v.length ≤ slotWidth s ∧ v.getLast? ≠ some 0) →
    (s.writeP d g).readP s.fieldCtx d = .ok g ∧
    (r ≠ d → (s.writeP d g).readP s.fieldCtx r = s.readP s.fieldCtx r)

/-- When PADD, PNEG, PMUL, PREDUCE and PEVAL execute normally (42_poly.md R170 to R172, R176, R180). -/
def Obligations.SumsAndProductsComplete : Prop :=
  ∀ (s : State) (F : FieldCtx) (d s1 : PReg) (g : Poly), s.field = .ok F → s.readP F s1 = .ok g →
    exec (.pneg d s1) s = .next ((s.writeP d (pneg F.ops g)).complete .ok) ∧
    exec (.preduce d s1) s = .next ((s.writeP d g).complete .ok) ∧
    (∀ (e e2 : EReg) (x0 : Elem), s.readE F e2 = .ok x0 →
      exec (.peval e s1 e2) s = .next ((s.writeE e (peval F.ops g x0)).complete .ok)) ∧
    (∀ (s2 : PReg) (h : Poly), s.readP F s2 = .ok h →
      exec (.padd d s1 s2) s = .next ((s.writeP d (padd F.ops g h)).complete .ok) ∧
      ((pmul F.ops g h).length ≤ 512 → exec (.pmul d s1 s2) s = .next ((s.writeP d (pmul F.ops g h)).complete .ok)) ∧
      (512 < (pmul F.ops g h).length →
        exec (.pmul d s1 s2) s = .next { s with err := .dim, done := true, seq := .idle }))

/-- When PDIV, PGCD, PGCDX, PPOWMOD and PIRRED execute normally, and their errors (42_poly.md R173 to R175, R178, R179;
60_exceptions.md R262, R266). With p not prime or f reducible a leading coefficient may have no inverse: that these commands then
end, within the lengths of 42_poly.md R157, is the model's choice of logs 5 to 7 (DESIGN CHOICE), no rule of the spec. -/
def Obligations.DivisionCommandsComplete : Prop :=
  ∀ (s : State) (F : FieldCtx) (d d2 d3 s1 s2 : PReg) (g h : Poly), s.field = .ok F → s.readP F s1 = .ok g → s.readP F s2 = .ok h →
    (d ≠ d2 → h ≠ [] → exec (.pdiv d d2 s1 s2) s =
      .next (((s.writeP d (divCore F.ops g h).1).writeP d2 (divCore F.ops g h).2).complete .ok)) ∧
    (d ≠ d2 → h = [] → exec (.pdiv d d2 s1 s2) s = .next { s with err := .divZero, done := true, seq := .idle }) ∧
    (∀ a, pgcd F.ops g h = .ok a → exec (.pgcd d s1 s2) s = .next ((s.writeP d a).complete .ok)) ∧
    (∀ a u v, d ≠ d2 → d ≠ d3 → d2 ≠ d3 → pgcdx F.ops g h = .ok (a, u, v) → a.length ≤ 512 → u.length ≤ 512 → v.length ≤ 512 →
      exec (.pgcdx d d2 d3 s1 s2) s = .next ((((s.writeP d a).writeP d2 u).writeP d3 v).complete .ok)) ∧
    (g = [] → h = [] → exec (.pgcd d s1 s2) s = .next { s with err := .divZero, done := true, seq := .idle }) ∧
    (d ≠ d2 → d ≠ d3 → d2 ≠ d3 → g = [] → h = [] →
      exec (.pgcdx d d2 d3 s1 s2) s = .next { s with err := .divZero, done := true, seq := .idle }) ∧
    (∀ r, 0 ≤ s.exp.toInt → ppowmod F.ops g s.exp.toInt.natAbs h = .ok r → r.length ≤ 512 →
      exec (.ppowmod d s1 s2) s = .next ((s.writeP d r).complete .ok)) ∧
    (s.exp.toInt < 0 → exec (.ppowmod d s1 s2) s = .next { s with err := .range, done := true, seq := .idle }) ∧
    (0 ≤ s.exp.toInt → h = [] → exec (.ppowmod d s1 s2) s = .next { s with err := .divZero, done := true, seq := .idle }) ∧
    (g = [] → exec (.pirred s1) s = .next { s with err := .divZero, done := true, seq := .idle }) ∧
    (∀ b, pirred F.ops F.card g = .ok b → exec (.pirred s1) s = .next ((s.writeRes b.toNat).complete .ok))

/-- The polynomial ring operations over Z/pZ (42_poly.md R151, R152), against Mathlib's polynomials. -/
def Obligations.PaddPnegPmulInZp : Prop :=
  ∀ (s : State) (d s1 s2 : PReg) (g h : List Nat), InZp s → ZpInput s s1 g → ZpInput s s2 h →
    (∃ t, exec (.padd d s1 s2) s = .next t ∧ Completed s t .ok ∧
      ZpOutput t d s.prime.toNat (zpPoly s.prime.toNat g + zpPoly s.prime.toNat h)) ∧
    (∃ t, exec (.pneg d s1) s = .next t ∧ Completed s t .ok ∧ ZpOutput t d s.prime.toNat (-zpPoly s.prime.toNat g)) ∧
    (g.length + h.length ≤ 513 → ∃ t, exec (.pmul d s1 s2) s = .next t ∧ Completed s t .ok ∧
      ZpOutput t d s.prime.toNat (zpPoly s.prime.toNat g * zpPoly s.prime.toNat h))

/-- The division identity (42_poly.md R157, R173). -/
def Obligations.PdivInZpIsTheDivisionWithRemainder : Prop :=
  ∀ (s : State) (d d2 s1 s2 : PReg) (g h : List Nat), InZp s → s.prime.toNat.Prime → d ≠ d2 → ZpInput s s1 g → ZpInput s s2 h →
    zpPoly s.prime.toNat h ≠ 0 →
    ∃ t Q R, exec (.pdiv d d2 s1 s2) s = .next t ∧ Completed s t .ok ∧ ZpOutput t d s.prime.toNat Q ∧
      ZpOutput t d2 s.prime.toNat R ∧ zpPoly s.prime.toNat g = Q * zpPoly s.prime.toNat h + R ∧
      R.degree < (zpPoly s.prime.toNat h).degree

/-- The extended gcd (42_poly.md R158, R159, R174, R175). -/
def Obligations.PgcdxInZpGivesBezout : Prop :=
  ∀ (s : State) (d d2 d3 s1 s2 : PReg) (g h : List Nat), InZp s → s.prime.toNat.Prime → d ≠ d2 → d ≠ d3 → d2 ≠ d3 →
    ZpInput s s1 g → ZpInput s s2 h →
    ((zpPoly s.prime.toNat g ≠ 0 ∨ zpPoly s.prime.toNat h ≠ 0) →
      ∃ t t' D U V, exec (.pgcdx d d2 d3 s1 s2) s = .next t ∧ Completed s t .ok ∧
        exec (.pgcd d s1 s2) s = .next t' ∧ Completed s t' .ok ∧
        ZpOutput t d s.prime.toNat D ∧ ZpOutput t d2 s.prime.toNat U ∧ ZpOutput t d3 s.prime.toNat V ∧
        ZpOutput t' d s.prime.toNat D ∧
        D.Monic ∧ D = U * zpPoly s.prime.toNat g + V * zpPoly s.prime.toNat h ∧
        D ∣ zpPoly s.prime.toNat g ∧ D ∣ zpPoly s.prime.toNat h) ∧
    (zpPoly s.prime.toNat g = 0 → zpPoly s.prime.toNat h = 0 →
      exec (.pgcdx d d2 d3 s1 s2) s = .next { s with err := .divZero, done := true, seq := .idle } ∧
      exec (.pgcd d s1 s2) s = .next { s with err := .divZero, done := true, seq := .idle })

/-- Evaluation (42_poly.md R160, R176). -/
def Obligations.PevalInZpEvaluates : Prop :=
  ∀ (s : State) (d : EReg) (s1 : PReg) (s2 : EReg) (g : List Nat) (x0 : Nat), InZp s → ZpInput s s1 g → IsInt s (eAddr s2) x0 →
    x0 < s.prime.toNat →
    ∃ t v, exec (.peval d s1 s2) s = .next t ∧ Completed s t .ok ∧ IsInt t (eAddr d) v ∧ v < s.prime.toNat ∧
      (v : ZMod s.prime.toNat) = (zpPoly s.prime.toNat g).eval (x0 : ZMod s.prime.toNat)

/-- A[0..n−1] holds the listed reduced points of Z/pZ, n = NLEN within its bounds (10_state.md R38, R45). -/
def Sys2Proof.ZpPoints (s : State) (xs : List Nat) : Prop :=
  ShapeN s ∧ xs.length = s.nlen.toNat ∧ SlotsAre s (aAddr 0) xs ∧ AllBelow s.prime.toNat xs

/-- W[0..n−1] holds the listed reduced elements of Z/pZ, n = NLEN within its bounds (10_state.md R38, R46). -/
def Sys2Proof.ZpWord (s : State) (ys : List Nat) : Prop :=
  ShapeN s ∧ ys.length = s.nlen.toNat ∧ SlotsAre s (wAddr 0) ys ∧ AllBelow s.prime.toNat ys

/-- ALPHA holds the reduced integer a of Z/pZ (10_state.md R36). -/
def Sys2Proof.ZpAlpha (s : State) (a : Nat) : Prop :=
  s.alpha.toList.map BitVec.toNat = a :: List.replicate 15 0 ∧ a < s.prime.toNat

/-- Lagrange interpolation (42_poly.md R161, R177). -/
def Obligations.PinterpInZpInterpolates : Prop :=
  ∀ (s : State) (d : PReg) (xs ys : List Nat), InZp s → s.prime.toNat.Prime → ZpPoints s xs → ZpWord s ys →
    (xs.Nodup → ∃ t P, exec (.pinterp d) s = .next t ∧ Completed s t .ok ∧ ZpOutput t d s.prime.toNat P ∧
      P.degree < xs.length ∧
      ∀ j, j < xs.length → P.eval ((xs.getD j 0 : Nat) : ZMod s.prime.toNat) = ((ys.getD j 0 : Nat) : ZMod s.prime.toNat)) ∧
    (¬ xs.Nodup → exec (.pinterp d) s = .next { s with err := .divZero, done := true, seq := .idle })

/-- Modular exponentiation (42_poly.md R162, R178). -/
def Obligations.PpowmodInZpIsThePowerModH : Prop :=
  ∀ (s : State) (d s1 s2 : PReg) (g h : List Nat), InZp s → s.prime.toNat.Prime → ZpInput s s1 g → ZpInput s s2 h →
    zpPoly s.prime.toNat h ≠ 0 → 0 ≤ s.exp.toInt →
    ∃ t R, exec (.ppowmod d s1 s2) s = .next t ∧ Completed s t .ok ∧ ZpOutput t d s.prime.toNat R ∧
      R.degree < (zpPoly s.prime.toNat h).degree ∧
      zpPoly s.prime.toNat h ∣ zpPoly s.prime.toNat g ^ s.exp.toInt.toNat - R

/-- Rabin's test on its corner cases (42_poly.md R164, R179). -/
def Obligations.PirredInZpCornerCases : Prop :=
  ∀ (s : State) (s1 : PReg) (g : List Nat), InZp s → s.prime.toNat.Prime → ZpInput s s1 g →
    ((zpPoly s.prime.toNat g).degree = 1 → ∃ t, exec (.pirred s1) s = .next t ∧ Completed s t .ok ∧ t.res = 1) ∧
    ((zpPoly s.prime.toNat g).degree = 0 → ∃ t, exec (.pirred s1) s = .next t ∧ Completed s t .ok ∧ t.res = 0) ∧
    (zpPoly s.prime.toNat g = 0 → exec (.pirred s1) s = .next { s with err := .divZero, done := true, seq := .idle })

/-- Rabin's test decides irreducibility (42_poly.md R163, R164, R179). -/
def Obligations.PirredInZpTestsIrreducibility : Prop :=
  ∀ (s : State) (s1 : PReg) (g : List Nat), InZp s → s.prime.toNat.Prime → ZpInput s s1 g → zpPoly s.prime.toNat g ≠ 0 →
    ∃ t, exec (.pirred s1) s = .next t ∧ Completed s t .ok ∧
      (Irreducible (zpPoly s.prime.toNat g) → t.res = 1) ∧ (¬ Irreducible (zpPoly s.prime.toNat g) → t.res = 0)

/-! Codec: 43_codec.md -/

/-- When the encoders execute normally (43_codec.md R208, R209). -/
def Obligations.EncodersComplete : Prop :=
  ∀ (s : State) (F : FieldCtx) (s1 : PReg) (n : Nat) (m : Poly), s.field = .ok F → s.shapeN = .ok n → s.readP F s1 = .ok m →
    (∀ xs : List Elem, s.readA F n = .ok xs →
      exec (.encEval s1) s = .next ((s.writeW (xs.map (peval F.ops m))).complete .ok)) ∧
    (∀ (s2 : PReg) (G : Poly), s.readP F s2 = .ok G →
      ((pmul F.ops m G).length ≤ n →
        exec (.encGen s1 s2) s = .next ((s.writeW ((List.range n).map (coef F.ops (pmul F.ops m G)))).complete .ok)) ∧
      (n < (pmul F.ops m G).length → exec (.encGen s1 s2) s = .next { s with err := .dim, done := true, seq := .idle }))

/-- When PINTERP and the evaluation-code decoders execute normally, and the codes they raise (42_poly.md R177; 43_codec.md R215, R216,
R218; 60_exceptions.md R262); the DIM check never fires (R225). With p not prime or f reducible, that they end and fit rests on the
model's choice of logs 5 to 7 (DESIGN CHOICE). -/
def Obligations.EvaluationDecodersComplete : Prop :=
  ∀ (s : State) (F : FieldCtx) (d : PReg) (n : Nat) (xs ys : List Elem), s.field = .ok F → s.shapeN = .ok n →
    s.readA F n = .ok xs → s.readW F n = .ok ys →
    (∀ g, pinterp F.ops xs ys = .ok g → exec (.pinterp d) s = .next ((s.writeP d g).complete .ok)) ∧
    (∀ c, pinterp F.ops xs ys = .error c → exec (.pinterp d) s = .next { s with err := c, done := true, seq := .idle }) ∧
    (¬ xs.Nodup → exec (.pinterp d) s = .next { s with err := .divZero, done := true, seq := .idle }) ∧
    ∀ (d2 : PReg) (k : Nat), s.shapeNK = .ok (n, k) →
      (∀ sol, d ≠ d2 → lakeySolve F.ops n k xs ys = .ok sol →
        exec (.lakey d d2) s = .next (((s.writeP d sol.e).writeP d2 sol.h).complete .ok)) ∧
      (∀ c, d ≠ d2 → lakeySolve F.ops n k xs ys = .error c →
        exec (.lakey d d2) s = .next { s with err := c, done := true, seq := .idle }) ∧
      (∀ m, decodeLa F.ops n k xs ys = .ok m → exec (.decLa d) s = .next ((s.writeP d m).complete .ok)) ∧
      (∀ c, decodeLa F.ops n k xs ys = .error c → exec (.decLa d) s = .next { s with err := c, done := true, seq := .idle }) ∧
      (∀ sol, lakeySolve F.ops n k xs ys = .ok sol → sol.e = [] →
        exec (.decLa d) s = .next { s with err := .divZero, done := true, seq := .idle }) ∧
      (∀ m, decodeEe F.ops n k xs ys = .ok m → exec (.decEe d) s = .next ((s.writeP d m).complete .ok)) ∧
      (∀ c, decodeEe F.ops n k xs ys = .error c → exec (.decEe d) s = .next { s with err := c, done := true, seq := .idle }) ∧
      (¬ xs.Nodup →
        (d ≠ d2 → exec (.lakey d d2) s = .next { s with err := .divZero, done := true, seq := .idle }) ∧
        exec (.decLa d) s = .next { s with err := .divZero, done := true, seq := .idle } ∧
        exec (.decEe d) s = .next { s with err := .divZero, done := true, seq := .idle })

/-- When the BCH commands execute normally, and the codes they raise (43_codec.md R207, R211, R213, R219, R221; 60_exceptions.md R262);
the DIM check never fires (R225). With p not prime or f reducible, that they end and fit rests on the model's choice of logs 5 to 7
(DESIGN CHOICE). -/
def Obligations.BchCommandsComplete : Prop :=
  ∀ (s : State) (F : FieldCtx) (d : PReg) (n k : Nat), s.field = .ok F → s.shapeNK = .ok (n, k) →
    (∀ a, s.readAlpha F = .ok a →
      (∀ g, genPoly F.ops n k a s.powi.toInt = .ok g → exec (.genpoly d) s = .next ((s.writeP d g).complete .ok)) ∧
      (∀ c, genPoly F.ops n k a s.powi.toInt = .error c →
        exec (.genpoly d) s = .next { s with err := c, done := true, seq := .idle }) ∧
      (a = F.ops.zero → s.powi.toInt < 0 → k < n →
        exec (.genpoly d) s = .next { s with err := .divZero, done := true, seq := .idle })) ∧
    (∀ a ys, s.readAlpha F = .ok a → s.readW F n = .ok ys →
      (∀ S, syndromes F.ops n k a s.powi.toInt (receivedPoly F ys) = .ok S →
        exec (.synd d) s = .next ((s.writeP d (trim F.ops S)).complete .ok)) ∧
      (∀ c, syndromes F.ops n k a s.powi.toInt (receivedPoly F ys) = .error c →
        exec (.synd d) s = .next { s with err := c, done := true, seq := .idle }) ∧
      (a = F.ops.zero → s.powi.toInt < 0 → k < n →
        exec (.synd d) s = .next { s with err := .divZero, done := true, seq := .idle })) ∧
    (∀ (s1 : PReg) (S : Poly), s.readP F s1 = .ok S →
      exec (.elp d s1) s = .next (((s.writeP d (elpSolve F.ops S (maxErrors n k)).1).writeRes
        (elpSolve F.ops S (maxErrors n k)).2).complete .ok)) ∧
    (∀ (s1 : PReg) (G : Poly) (a : Elem) (ys : List Elem), s.readP F s1 = .ok G → s.readAlpha F = .ok a → s.readW F n = .ok ys →
      (∀ m, decodeBch F.ops n k G a s.powi.toInt (receivedPoly F ys) = .ok m →
        exec (.decBch d s1) s = .next ((s.writeP d m).complete .ok)) ∧
      (∀ c, decodeBch F.ops n k G a s.powi.toInt (receivedPoly F ys) = .error c →
        exec (.decBch d s1) s = .next { s with err := c, done := true, seq := .idle }) ∧
      (G = [] ∨ (a = F.ops.zero ∧ (2 ≤ n ∨ (s.powi.toInt < 0 ∧ k < n))) →
        exec (.decBch d s1) s = .next { s with err := .divZero, done := true, seq := .idle }))

/-- Encoding by evaluation (43_codec.md R208). -/
def Obligations.EncEvalInZpEvaluatesAtThePoints : Prop :=
  ∀ (s : State) (s1 : PReg) (g xs : List Nat), InZp s → ZpInput s s1 g → ZpPoints s xs →
    ∃ t ws, exec (.encEval s1) s = .next t ∧ Completed s t .ok ∧ ws.length = xs.length ∧ SlotsAre t (wAddr 0) ws ∧
      AllBelow s.prime.toNat ws ∧
      (∀ j, j < xs.length → ((ws.getD j 0 : Nat) : ZMod s.prime.toNat) =
        (zpPoly s.prime.toNat g).eval ((xs.getD j 0 : Nat) : ZMod s.prime.toNat)) ∧
      ∀ a, wAddr xs.length ≤ a → t.byte a = s.byte a

/-- Encoding by the generator (43_codec.md R209). -/
def Obligations.EncGenInZpMultipliesByTheGenerator : Prop :=
  ∀ (s : State) (s1 s2 : PReg) (g h : List Nat), InZp s → ShapeN s → ZpInput s s1 g → ZpInput s s2 h →
    g.length + h.length ≤ s.nlen.toNat + 1 →
    ∃ t ws, exec (.encGen s1 s2) s = .next t ∧ Completed s t .ok ∧ ws.length = s.nlen.toNat ∧ SlotsAre t (wAddr 0) ws ∧
      AllBelow s.prime.toNat ws ∧ zpPoly s.prime.toNat ws = zpPoly s.prime.toNat g * zpPoly s.prime.toNat h

/-- The generator polynomial (43_codec.md R206, R207). -/
def Obligations.GenpolyInZpIsTheProductOfItsRoots : Prop :=
  ∀ (p : Nat) [Fact p.Prime] (s : State) (d : PReg) (a : Nat), InZp s → s.prime.toNat = p → ShapeNK s → ZpAlpha s a →
    ((a ≠ 0 ∨ 0 ≤ s.powi.toInt ∨ s.klen = s.nlen) → ∃ t, exec (.genpoly d) s = .next t ∧ Completed s t .ok ∧
      ZpOutput t d p (∏ l ∈ Finset.range (s.nlen.toNat - s.klen.toNat),
        (Polynomial.X - Polynomial.C ((a : ZMod p) ^ (s.powi.toInt + (l : Int)))))) ∧
    (a = 0 → s.powi.toInt < 0 → s.klen.toNat < s.nlen.toNat →
      exec (.genpoly d) s = .next { s with err := .divZero, done := true, seq := .idle })

/-- Syndromes (43_codec.md R210, R211). -/
def Obligations.SyndInZpEvaluatesAtThePowers : Prop :=
  ∀ (p : Nat) [Fact p.Prime] (s : State) (d : PReg) (a : Nat) (ys : List Nat), InZp s → s.prime.toNat = p → ShapeNK s →
    ZpAlpha s a → ZpWord s ys →
    ((a ≠ 0 ∨ 0 ≤ s.powi.toInt ∨ s.klen = s.nlen) → ∃ t S, exec (.synd d) s = .next t ∧ Completed s t .ok ∧ ZpOutput t d p S ∧
      ∀ l : Nat, S.coeff l = if l < s.nlen.toNat - s.klen.toNat then
        (zpPoly p ys).eval ((a : ZMod p) ^ (s.powi.toInt + (l : Int))) else 0) ∧
    (a = 0 → s.powi.toInt < 0 → s.klen.toNat < s.nlen.toNat →
      exec (.synd d) s = .next { s with err := .divZero, done := true, seq := .idle })

/-- In how many positions a word over Z/pZ differs from the values of a polynomial at the points (43_codec.md R222). -/
def Sys2Proof.errorCount (p : Nat) (msg xs ys : List Nat) : Nat :=
  ((List.range xs.length).filter fun j =>
    ys.getD j 0 % p != msg.foldr (fun c acc => c + xs.getD j 0 * acc) 0 % p).length

/-- The decoding guarantee of the linear-algebra decoder in Z/pZ (43_codec.md R222). -/
def Obligations.DecLaInZpCorrectsUpToTErrors : Prop :=
  ∀ (s : State) (d : PReg) (msg xs ys : List Nat), InZp s → s.prime.toNat.Prime → ShapeNK s → ZpPoints s xs → ZpWord s ys →
    xs.Nodup → msg.length ≤ s.klen.toNat → AllBelow s.prime.toNat msg →
    errorCount s.prime.toNat msg xs ys ≤ (s.nlen.toNat - s.klen.toNat) / 2 →
    ∃ t, exec (.decLa d) s = .next t ∧ Completed s t .ok ∧ ZpOutput t d s.prime.toNat (zpPoly s.prime.toNat msg)

/-- The decoding guarantee of the extended-Euclidean decoder in Z/pZ (43_codec.md R222). -/
def Obligations.DecEeInZpCorrectsUpToTErrors : Prop :=
  ∀ (s : State) (d : PReg) (msg xs ys : List Nat), InZp s → s.prime.toNat.Prime → ShapeNK s → ZpPoints s xs → ZpWord s ys →
    xs.Nodup → msg.length ≤ s.klen.toNat → AllBelow s.prime.toNat msg →
    errorCount s.prime.toNat msg xs ys ≤ (s.nlen.toNat - s.klen.toNat) / 2 →
    ∃ t, exec (.decEe d) s = .next t ∧ Completed s t .ok ∧ ZpOutput t d s.prime.toNat (zpPoly s.prime.toNat msg)

/-- The decoding guarantee of the BCH decoder in Z/pZ (43_codec.md R223). -/
def Obligations.DecBchInZpCorrectsUpToTErrors : Prop :=
  ∀ (p : Nat) [Fact p.Prime] (s : State) (d s1 : PReg) (a : Nat) (gen msg ys es : List Nat), InZp s → s.prime.toNat = p →
    ShapeNK s → ZpAlpha s a → a ≠ 0 →
    (∀ i j : Nat, i < j → j < s.nlen.toNat → (a : ZMod p) ^ i ≠ (a : ZMod p) ^ j) → ZpInput s s1 gen →
    zpPoly p gen = (∏ l ∈ Finset.range (s.nlen.toNat - s.klen.toNat),
      (Polynomial.X - Polynomial.C ((a : ZMod p) ^ (s.powi.toInt + (l : Int))))) →
    ZpWord s ys → msg.length ≤ s.klen.toNat → es.length ≤ s.nlen.toNat →
    (es.filter fun e => e % p != 0).length ≤ (s.nlen.toNat - s.klen.toNat) / 2 →
    zpPoly p ys = zpPoly p msg * zpPoly p gen + zpPoly p es →
    ∃ t, exec (.decBch d s1) s = .next t ∧ Completed s t .ok ∧ ZpOutput t d p (zpPoly p msg)

/-! The host bus: 20_memory.md, 10_state.md section 2, 70_reset_and_hazards.md -/

/-- Accept (10_state.md R49), CTRL (R24; 70_reset_and_hazards.md R309) and the W1C bits of STATUS (R25; 60_exceptions.md R272). -/
def Obligations.WritesToCtrlStatusAndCmd : Prop :=
  ∀ (s : State) (w : Word) (rest : List Event),
    (s.seq = .idle → s.events = .bus (.write 0x0000C 32 w) :: rest → step s = .next { s with
      lastcmd := w, done := false, seq := .busy w, response := some .writeOkay, events := rest }) ∧
    (w.getLsbD 31 = false → s.seq = .idle → s.events = .bus (.write 0x00004 32 w) :: rest → step s = .next { s with
      ie := w.getLsbD 1, fmode := if w.getLsbD 0 then .fq else .zp, response := some .writeOkay, events := rest }) ∧
    (∀ cw, w.getLsbD 31 = false → s.seq = .busy cw → s.events = .bus (.write 0x00004 32 w) :: rest →
      step s = .next { s with ie := w.getLsbD 1, response := some .writeOkay, events := rest }) ∧
    (s.events = .bus (.write 0x00008 32 w) :: rest →
      ∃ t, step s = .next t ∧
        t = { s with
          done := if w.getLsbD 1 then false else s.done
          ovr := if w.getLsbD 8 then false else s.ovr
          wign := if w.getLsbD 9 then false else s.wign
          response := some .writeOkay
          events := rest } ∧
        (w.getLsbD 1 = true → t.irq = false)) ∧
    (s.ctrlWord = BitVec.ofNat 32 ((if s.fmode = .fq then 1 else 0) + (if s.ie then 2 else 0)))

/-- OVR (70_reset_and_hazards.md R310). -/
def Obligations.CmdWriteWhileBusyOnlySetsOvr : Prop :=
  ∀ (s : State) (cw cw' : Word) (rest : List Event), s.seq = .busy cw → s.events = .bus (.write 0x0000C 32 cw') :: rest →
    step s = .next { s with ovr := true, response := some .writeOkay, events := rest }

/-- WIGN (70_reset_and_hazards.md R309; 90_conflicts.md C7). -/
def Obligations.OtherWritesWhileBusyOnlySetWign : Prop :=
  ∀ (s : State) (cw w : Word) (a : BitVec 20) (rest : List Event), s.seq = .busy cw → a.toNat % 4 = 0 →
    a ≠ 0x00004 → a ≠ 0x00008 → a ≠ 0x0000C → s.events = .bus (.write a 32 w) :: rest →
    step s = .next { s with wign := true, response := some .writeOkay, events := rest }

/-- The state a command reads cannot change between accept and complete (10_state.md R49; 70_reset_and_hazards.md R309). -/
def Obligations.HostCannotChangeInputsWhileBusy : Prop :=
  ∀ (s : State) (cw : Word) (a : BusAccess), s.seq = .busy cw →
    ((∃ w : Word, a = .write 0x00004 32 w ∧ w.getLsbD 31 = true) ∧ (s.serve a).seq = .idle) ∨
      ((s.serve a).seq = .busy cw ∧ (s.serve a).fmode = s.fmode ∧ (s.serve a).prime = s.prime ∧ (s.serve a).fdeg = s.fdeg ∧
        (s.serve a).nlen = s.nlen ∧ (s.serve a).klen = s.klen ∧ (s.serve a).powi = s.powi ∧ (s.serve a).exp = s.exp ∧
        (s.serve a).res = s.res ∧ (s.serve a).fcoef = s.fcoef ∧ (s.serve a).alpha = s.alpha ∧ (s.serve a).plen = s.plen ∧
        ∀ b, (s.serve a).byte b = s.byte b)

/-- The interrupt (60_exceptions.md R271). -/
def Obligations.CompletionRaisesTheInterrupt : Prop :=
  (∀ s : State, s.irq = true ↔ s.ie = true ∧ s.done = true) ∧
    (∀ (i : Instr) (s : State), ∃ t, exec i s = .next t ∧ t.done = true ∧ t.irq = s.ie) ∧
    ∀ (s : State) (cw : Word), s.seq = .busy cw →
      ∃ t, sequencerTurn s = .next t ∧ t.seq = .idle ∧ t.done = true ∧ t.irq = s.ie

/-- Bus errors (60_exceptions.md R280; 20_memory.md R63). -/
def Obligations.NonWordAccessIsABusError : Prop :=
  ∀ (s : State) (a : BitVec 20) (bits : Nat) (w : Word) (rest : List Event), (a.toNat % 4 ≠ 0 ∨ bits ≠ 32) →
    (s.events = .bus (.read a bits) :: rest → step s = .next { s with response := some .error, events := rest }) ∧
    (s.events = .bus (.write a bits w) :: rest → step s = .next { s with response := some .error, events := rest })

/-- The addresses of the window that belong to no register (20_memory.md R61; 10_state.md R22, R34). -/
def Sys2Proof.IsReserved (a : Nat) : Prop :=
  (0x02C ≤ a ∧ a < 0x400) ∨ (0x444 ≤ a ∧ a < 0x500) ∨ (0x540 ≤ a ∧ a < 0x1000) ∨ (0x1400 ≤ a ∧ a < 0x2000) ∨
    (0x2040 ≤ a ∧ a < 0x4000) ∨ (0xC000 ≤ a ∧ a < 0x10000) ∨ 0x90000 ≤ a

/-- The addresses of the digit words of E, of A and W, and of PC (20_memory.md R61). -/
def Sys2Proof.IsDigitWord (a : Nat) : Prop :=
  (0x1000 ≤ a ∧ a < 0x1400) ∨ (0x4000 ≤ a ∧ a < 0xC000) ∨ (0x10000 ≤ a ∧ a < 0x90000)

/-- The values of the codes in STATUS.ERR (60_exceptions.md R261). -/
def Sys2Proof.errValue : ErrCode → Nat
  | .ok => 0
  | .divZero => 1
  | .dim => 2
  | .degenerate => 3
  | .config => 4
  | .range => 5
  | .illegal => 6

/-- No read has a side effect (20_memory.md R67), what each register reads as, and the reserved addresses (R65; 10_state.md R34). -/
def Obligations.ReadsAndReservedAddresses : Prop :=
  ∀ (s : State) (a : BitVec 20) (rest : List Event), a.toNat % 4 = 0 →
    (s.events = .bus (.read a 32) :: rest →
      ∃ w, step s = .next { s with response := some (.readOkay w), events := rest } ∧
        (a = 0x00000 → w = 0x52530001) ∧ (a = 0x00004 → w = s.ctrlWord) ∧
        (a = 0x00008 → w.toNat = (if s.seq = .idle then 0 else 1) + (if s.done then 2 else 0) + 16 * errValue s.err +
          (if s.ovr then 256 else 0) + (if s.wign then 512 else 0)) ∧
        (a = 0x0000C → w = s.lastcmd) ∧ (a = 0x00010 → w = s.prime) ∧ (a = 0x00014 → w = s.fdeg) ∧
        (a = 0x00018 → w = s.nlen) ∧ (a = 0x0001C → w = s.klen) ∧ (a = 0x00020 → w = s.powi) ∧ (a = 0x00024 → w = s.exp) ∧
        (a = 0x00028 → w = s.res) ∧ (∀ j : Fin 17, a.toNat = 0x400 + 4 * j.val → w = s.fcoef[j]) ∧
        (∀ j : Fin 16, a.toNat = 0x500 + 4 * j.val → w = s.alpha[j]) ∧
        (∀ j : Fin 16, a.toNat = 0x2000 + 4 * j.val → w = s.plen[j]) ∧ (IsReserved a.toNat → w = 0) ∧
        (IsDigitWord a.toNat → w = s.word a.toNat ∧
          ∀ l, l < 4 → w.toNat / 2 ^ (8 * l) % 256 = (s.byte (a.toNat + l)).toNat)) ∧
    (∀ w : Word, (IsReserved a.toNat ∨ a = 0x00000 ∨ a = 0x00028) → s.seq = .idle → s.events = .bus (.write a 32 w) :: rest →
      step s = .next { s with response := some .writeOkay, events := rest })

/-- The read-write registers and their addresses (10_state.md R27 to R32, R35, R36, R43; 20_memory.md R62). -/
def Obligations.ControlRegistersHoldWhatIsWritten : Prop :=
  ∀ (s : State) (a : BitVec 20) (w : Word) (rest : List Event), s.seq = .idle → s.events = .bus (.write a 32 w) :: rest →
    (a = 0x00010 → step s = .next { s with prime := w, response := some .writeOkay, events := rest }) ∧
    (a = 0x00014 → step s = .next { s with fdeg := w, response := some .writeOkay, events := rest }) ∧
    (a = 0x00018 → step s = .next { s with nlen := w, response := some .writeOkay, events := rest }) ∧
    (a = 0x0001C → step s = .next { s with klen := w, response := some .writeOkay, events := rest }) ∧
    (a = 0x00020 → step s = .next { s with powi := w, response := some .writeOkay, events := rest }) ∧
    (a = 0x00024 → step s = .next { s with exp := w, response := some .writeOkay, events := rest }) ∧
    (∀ j : Fin 17, a.toNat = 0x400 + 4 * j.val →
      step s = .next { s with fcoef := s.fcoef.set j w, response := some .writeOkay, events := rest }) ∧
    (∀ j : Fin 16, a.toNat = 0x500 + 4 * j.val →
      step s = .next { s with alpha := s.alpha.set j w, response := some .writeOkay, events := rest }) ∧
    (∀ r : Fin 16, a.toNat = 0x2000 + 4 * r.val →
      step s = .next { s with plen := s.plen.set r w, response := some .writeOkay, events := rest })

/-- Digit words: read after write (20_memory.md R62 to R64, R68). -/
def Obligations.DigitWordsReadBackWhatIsWritten : Prop :=
  ∀ (s : State) (a : BitVec 20) (w : Word) (rest : List Event), s.seq = .idle → a.toNat % 4 = 0 →
    IsDigitWord a.toNat → s.events = .bus (.write a 32 w) :: rest →
    ∃ t, step s = .next t ∧ t = { s with mem := t.mem, response := some .writeOkay, events := rest } ∧
      (∀ l, l < 4 → (t.byte (a.toNat + l)).toNat = w.toNat / 2 ^ (8 * l) % 256) ∧
      (∀ b, (b < a.toNat ∨ a.toNat + 4 ≤ b) → t.byte b = s.byte b) ∧
      ∀ rest', step { t with events := .bus (.read a 32) :: rest' } =
        .next { t with response := some (.readOkay w), events := rest' }

/-- Soft reset (70_reset_and_hazards.md R300, R301, R303, R304); the written flags are which bytes are listed (10_state.md R50). -/
def Obligations.SoftResetState : Prop :=
  ∀ (s : State) (w : Word) (rest : List Event), w.getLsbD 31 = true → s.events = .bus (.write 0x00004 32 w) :: rest →
    ∃ t, step s = .next t ∧ t.response = some .writeOkay ∧ t.events = rest ∧ t.irq = false ∧ t.statusWord = 0 ∧
      t.ctrlWord = 0 ∧ t.seq = .idle ∧ t.lastcmd = 0 ∧ t.prime = 0 ∧ t.fdeg = 0 ∧ t.nlen = 0 ∧ t.klen = 0 ∧ t.powi = 0 ∧
      t.exp = 0 ∧ t.res = 0 ∧ t.fcoef = Vector.replicate 17 0 ∧ t.alpha = Vector.replicate 16 0 ∧
      t.plen = Vector.replicate 16 0 ∧
      (∀ a, a < 0x10000 → Memory.find t.mem a = Memory.find s.mem a ∧ t.byte a = s.byte a) ∧
      ∀ a, 0x10000 ≤ a → a < 0x90000 → Memory.find t.mem a = none

/-- Power-on reset (70_reset_and_hazards.md R300 to R302). -/
def Obligations.PowerOnResetState : Prop :=
  (∀ (s : State) (rest : List Event), s.events = .powerOn :: rest →
    ∃ t, step s = .next t ∧ t.events = rest ∧ t.irq = false ∧ t.statusWord = 0 ∧ t.ctrlWord = 0 ∧ t.seq = .idle ∧
      t.lastcmd = 0 ∧ t.prime = 0 ∧ t.fdeg = 0 ∧ t.nlen = 0 ∧ t.klen = 0 ∧ t.powi = 0 ∧ t.exp = 0 ∧ t.res = 0 ∧
      t.fcoef = Vector.replicate 17 0 ∧ t.alpha = Vector.replicate 16 0 ∧ t.plen = Vector.replicate 16 0 ∧ t.mem = []) ∧
    (State.reset.irq = false ∧ State.reset.statusWord = 0 ∧ State.reset.ctrlWord = 0 ∧ State.reset.seq = .idle ∧
      State.reset.lastcmd = 0 ∧ State.reset.prime = 0 ∧ State.reset.fdeg = 0 ∧ State.reset.nlen = 0 ∧ State.reset.klen = 0 ∧
      State.reset.powi = 0 ∧ State.reset.exp = 0 ∧ State.reset.res = 0 ∧ State.reset.fcoef = Vector.replicate 17 0 ∧
      State.reset.alpha = Vector.replicate 16 0 ∧ State.reset.plen = Vector.replicate 16 0 ∧ State.reset.mem = [])
end

