-- ==== Sys2Proof/Laws/State.lean ====
section
/-! SUPPORT. One lemma per field of State per named update, true by rfl, so that no later proof unfolds a record update;
and what State.reset holds. -/

namespace Sys2Proof.Machine

variable (s : State)

/-! Accept of a command word (10_state.md R49). -/

@[simp] theorem State.accept_fmode (cw : Word) : (s.accept cw).fmode = s.fmode := rfl
@[simp] theorem State.accept_ie (cw : Word) : (s.accept cw).ie = s.ie := rfl
@[simp] theorem State.accept_done (cw : Word) : (s.accept cw).done = false := rfl
@[simp] theorem State.accept_err (cw : Word) : (s.accept cw).err = s.err := rfl
@[simp] theorem State.accept_ovr (cw : Word) : (s.accept cw).ovr = s.ovr := rfl
@[simp] theorem State.accept_wign (cw : Word) : (s.accept cw).wign = s.wign := rfl
@[simp] theorem State.accept_seq (cw : Word) : (s.accept cw).seq = .busy cw := rfl
@[simp] theorem State.accept_lastcmd (cw : Word) : (s.accept cw).lastcmd = cw := rfl
@[simp] theorem State.accept_prime (cw : Word) : (s.accept cw).prime = s.prime := rfl
@[simp] theorem State.accept_fdeg (cw : Word) : (s.accept cw).fdeg = s.fdeg := rfl
@[simp] theorem State.accept_nlen (cw : Word) : (s.accept cw).nlen = s.nlen := rfl
@[simp] theorem State.accept_klen (cw : Word) : (s.accept cw).klen = s.klen := rfl
@[simp] theorem State.accept_powi (cw : Word) : (s.accept cw).powi = s.powi := rfl
@[simp] theorem State.accept_exp (cw : Word) : (s.accept cw).exp = s.exp := rfl
@[simp] theorem State.accept_res (cw : Word) : (s.accept cw).res = s.res := rfl
@[simp] theorem State.accept_fcoef (cw : Word) : (s.accept cw).fcoef = s.fcoef := rfl
@[simp] theorem State.accept_alpha (cw : Word) : (s.accept cw).alpha = s.alpha := rfl
@[simp] theorem State.accept_plen (cw : Word) : (s.accept cw).plen = s.plen := rfl
@[simp] theorem State.accept_mem (cw : Word) : (s.accept cw).mem = s.mem := rfl
@[simp] theorem State.accept_powerOns (cw : Word) : (s.accept cw).powerOns = s.powerOns := rfl
@[simp] theorem State.accept_resets (cw : Word) : (s.accept cw).resets = s.resets := rfl
@[simp] theorem State.accept_polyWrites (cw : Word) : (s.accept cw).polyWrites = s.polyWrites := rfl
@[simp] theorem State.accept_response (cw : Word) : (s.accept cw).response = s.response := rfl
@[simp] theorem State.accept_events (cw : Word) : (s.accept cw).events = s.events := rfl

/-! Completion with a code (60_exceptions.md R270). -/

@[simp] theorem State.complete_fmode (c : ErrCode) : (s.complete c).fmode = s.fmode := rfl
@[simp] theorem State.complete_ie (c : ErrCode) : (s.complete c).ie = s.ie := rfl
@[simp] theorem State.complete_done (c : ErrCode) : (s.complete c).done = true := rfl
@[simp] theorem State.complete_err (c : ErrCode) : (s.complete c).err = c := rfl
@[simp] theorem State.complete_ovr (c : ErrCode) : (s.complete c).ovr = s.ovr := rfl
@[simp] theorem State.complete_wign (c : ErrCode) : (s.complete c).wign = s.wign := rfl
@[simp] theorem State.complete_seq (c : ErrCode) : (s.complete c).seq = .idle := rfl
@[simp] theorem State.complete_lastcmd (c : ErrCode) : (s.complete c).lastcmd = s.lastcmd := rfl
@[simp] theorem State.complete_prime (c : ErrCode) : (s.complete c).prime = s.prime := rfl
@[simp] theorem State.complete_fdeg (c : ErrCode) : (s.complete c).fdeg = s.fdeg := rfl
@[simp] theorem State.complete_nlen (c : ErrCode) : (s.complete c).nlen = s.nlen := rfl
@[simp] theorem State.complete_klen (c : ErrCode) : (s.complete c).klen = s.klen := rfl
@[simp] theorem State.complete_powi (c : ErrCode) : (s.complete c).powi = s.powi := rfl
@[simp] theorem State.complete_exp (c : ErrCode) : (s.complete c).exp = s.exp := rfl
@[simp] theorem State.complete_res (c : ErrCode) : (s.complete c).res = s.res := rfl
@[simp] theorem State.complete_fcoef (c : ErrCode) : (s.complete c).fcoef = s.fcoef := rfl
@[simp] theorem State.complete_alpha (c : ErrCode) : (s.complete c).alpha = s.alpha := rfl
@[simp] theorem State.complete_plen (c : ErrCode) : (s.complete c).plen = s.plen := rfl
@[simp] theorem State.complete_mem (c : ErrCode) : (s.complete c).mem = s.mem := rfl
@[simp] theorem State.complete_powerOns (c : ErrCode) : (s.complete c).powerOns = s.powerOns := rfl
@[simp] theorem State.complete_resets (c : ErrCode) : (s.complete c).resets = s.resets := rfl
@[simp] theorem State.complete_polyWrites (c : ErrCode) : (s.complete c).polyWrites = s.polyWrites := rfl
@[simp] theorem State.complete_response (c : ErrCode) : (s.complete c).response = s.response := rfl
@[simp] theorem State.complete_events (c : ErrCode) : (s.complete c).events = s.events := rfl

/-! A STATUS write (10_state.md R25). -/

@[simp] theorem State.clearStatus_fmode (w : Word) : (s.clearStatus w).fmode = s.fmode := rfl
@[simp] theorem State.clearStatus_ie (w : Word) : (s.clearStatus w).ie = s.ie := rfl
@[simp] theorem State.clearStatus_done (w : Word) : (s.clearStatus w).done = (s.done && !w.getLsbD 1) := rfl
@[simp] theorem State.clearStatus_err (w : Word) : (s.clearStatus w).err = s.err := rfl
@[simp] theorem State.clearStatus_ovr (w : Word) : (s.clearStatus w).ovr = (s.ovr && !w.getLsbD 8) := rfl
@[simp] theorem State.clearStatus_wign (w : Word) : (s.clearStatus w).wign = (s.wign && !w.getLsbD 9) := rfl
@[simp] theorem State.clearStatus_seq (w : Word) : (s.clearStatus w).seq = s.seq := rfl
@[simp] theorem State.clearStatus_lastcmd (w : Word) : (s.clearStatus w).lastcmd = s.lastcmd := rfl
@[simp] theorem State.clearStatus_prime (w : Word) : (s.clearStatus w).prime = s.prime := rfl
@[simp] theorem State.clearStatus_fdeg (w : Word) : (s.clearStatus w).fdeg = s.fdeg := rfl
@[simp] theorem State.clearStatus_nlen (w : Word) : (s.clearStatus w).nlen = s.nlen := rfl
@[simp] theorem State.clearStatus_klen (w : Word) : (s.clearStatus w).klen = s.klen := rfl
@[simp] theorem State.clearStatus_powi (w : Word) : (s.clearStatus w).powi = s.powi := rfl
@[simp] theorem State.clearStatus_exp (w : Word) : (s.clearStatus w).exp = s.exp := rfl
@[simp] theorem State.clearStatus_res (w : Word) : (s.clearStatus w).res = s.res := rfl
@[simp] theorem State.clearStatus_fcoef (w : Word) : (s.clearStatus w).fcoef = s.fcoef := rfl
@[simp] theorem State.clearStatus_alpha (w : Word) : (s.clearStatus w).alpha = s.alpha := rfl
@[simp] theorem State.clearStatus_plen (w : Word) : (s.clearStatus w).plen = s.plen := rfl
@[simp] theorem State.clearStatus_mem (w : Word) : (s.clearStatus w).mem = s.mem := rfl
@[simp] theorem State.clearStatus_powerOns (w : Word) : (s.clearStatus w).powerOns = s.powerOns := rfl
@[simp] theorem State.clearStatus_resets (w : Word) : (s.clearStatus w).resets = s.resets := rfl
@[simp] theorem State.clearStatus_polyWrites (w : Word) : (s.clearStatus w).polyWrites = s.polyWrites := rfl
@[simp] theorem State.clearStatus_response (w : Word) : (s.clearStatus w).response = s.response := rfl
@[simp] theorem State.clearStatus_events (w : Word) : (s.clearStatus w).events = s.events := rfl

/-! IE is written (10_state.md R24). -/

@[simp] theorem State.setIe_fmode (b : Bool) : (s.setIe b).fmode = s.fmode := rfl
@[simp] theorem State.setIe_ie (b : Bool) : (s.setIe b).ie = b := rfl
@[simp] theorem State.setIe_done (b : Bool) : (s.setIe b).done = s.done := rfl
@[simp] theorem State.setIe_err (b : Bool) : (s.setIe b).err = s.err := rfl
@[simp] theorem State.setIe_ovr (b : Bool) : (s.setIe b).ovr = s.ovr := rfl
@[simp] theorem State.setIe_wign (b : Bool) : (s.setIe b).wign = s.wign := rfl
@[simp] theorem State.setIe_seq (b : Bool) : (s.setIe b).seq = s.seq := rfl
@[simp] theorem State.setIe_lastcmd (b : Bool) : (s.setIe b).lastcmd = s.lastcmd := rfl
@[simp] theorem State.setIe_prime (b : Bool) : (s.setIe b).prime = s.prime := rfl
@[simp] theorem State.setIe_fdeg (b : Bool) : (s.setIe b).fdeg = s.fdeg := rfl
@[simp] theorem State.setIe_nlen (b : Bool) : (s.setIe b).nlen = s.nlen := rfl
@[simp] theorem State.setIe_klen (b : Bool) : (s.setIe b).klen = s.klen := rfl
@[simp] theorem State.setIe_powi (b : Bool) : (s.setIe b).powi = s.powi := rfl
@[simp] theorem State.setIe_exp (b : Bool) : (s.setIe b).exp = s.exp := rfl
@[simp] theorem State.setIe_res (b : Bool) : (s.setIe b).res = s.res := rfl
@[simp] theorem State.setIe_fcoef (b : Bool) : (s.setIe b).fcoef = s.fcoef := rfl
@[simp] theorem State.setIe_alpha (b : Bool) : (s.setIe b).alpha = s.alpha := rfl
@[simp] theorem State.setIe_plen (b : Bool) : (s.setIe b).plen = s.plen := rfl
@[simp] theorem State.setIe_mem (b : Bool) : (s.setIe b).mem = s.mem := rfl
@[simp] theorem State.setIe_powerOns (b : Bool) : (s.setIe b).powerOns = s.powerOns := rfl
@[simp] theorem State.setIe_resets (b : Bool) : (s.setIe b).resets = s.resets := rfl
@[simp] theorem State.setIe_polyWrites (b : Bool) : (s.setIe b).polyWrites = s.polyWrites := rfl
@[simp] theorem State.setIe_response (b : Bool) : (s.setIe b).response = s.response := rfl
@[simp] theorem State.setIe_events (b : Bool) : (s.setIe b).events = s.events := rfl

/-! OVR is set (70_reset_and_hazards.md R310). -/

@[simp] theorem State.setOvr_fmode : s.setOvr.fmode = s.fmode := rfl
@[simp] theorem State.setOvr_ie : s.setOvr.ie = s.ie := rfl
@[simp] theorem State.setOvr_done : s.setOvr.done = s.done := rfl
@[simp] theorem State.setOvr_err : s.setOvr.err = s.err := rfl
@[simp] theorem State.setOvr_ovr : s.setOvr.ovr = true := rfl
@[simp] theorem State.setOvr_wign : s.setOvr.wign = s.wign := rfl
@[simp] theorem State.setOvr_seq : s.setOvr.seq = s.seq := rfl
@[simp] theorem State.setOvr_lastcmd : s.setOvr.lastcmd = s.lastcmd := rfl
@[simp] theorem State.setOvr_prime : s.setOvr.prime = s.prime := rfl
@[simp] theorem State.setOvr_fdeg : s.setOvr.fdeg = s.fdeg := rfl
@[simp] theorem State.setOvr_nlen : s.setOvr.nlen = s.nlen := rfl
@[simp] theorem State.setOvr_klen : s.setOvr.klen = s.klen := rfl
@[simp] theorem State.setOvr_powi : s.setOvr.powi = s.powi := rfl
@[simp] theorem State.setOvr_exp : s.setOvr.exp = s.exp := rfl
@[simp] theorem State.setOvr_res : s.setOvr.res = s.res := rfl
@[simp] theorem State.setOvr_fcoef : s.setOvr.fcoef = s.fcoef := rfl
@[simp] theorem State.setOvr_alpha : s.setOvr.alpha = s.alpha := rfl
@[simp] theorem State.setOvr_plen : s.setOvr.plen = s.plen := rfl
@[simp] theorem State.setOvr_mem : s.setOvr.mem = s.mem := rfl
@[simp] theorem State.setOvr_powerOns : s.setOvr.powerOns = s.powerOns := rfl
@[simp] theorem State.setOvr_resets : s.setOvr.resets = s.resets := rfl
@[simp] theorem State.setOvr_polyWrites : s.setOvr.polyWrites = s.polyWrites := rfl
@[simp] theorem State.setOvr_response : s.setOvr.response = s.response := rfl
@[simp] theorem State.setOvr_events : s.setOvr.events = s.events := rfl

/-! WIGN is set (70_reset_and_hazards.md R309). -/

@[simp] theorem State.setWign_fmode : s.setWign.fmode = s.fmode := rfl
@[simp] theorem State.setWign_ie : s.setWign.ie = s.ie := rfl
@[simp] theorem State.setWign_done : s.setWign.done = s.done := rfl
@[simp] theorem State.setWign_err : s.setWign.err = s.err := rfl
@[simp] theorem State.setWign_ovr : s.setWign.ovr = s.ovr := rfl
@[simp] theorem State.setWign_wign : s.setWign.wign = true := rfl
@[simp] theorem State.setWign_seq : s.setWign.seq = s.seq := rfl
@[simp] theorem State.setWign_lastcmd : s.setWign.lastcmd = s.lastcmd := rfl
@[simp] theorem State.setWign_prime : s.setWign.prime = s.prime := rfl
@[simp] theorem State.setWign_fdeg : s.setWign.fdeg = s.fdeg := rfl
@[simp] theorem State.setWign_nlen : s.setWign.nlen = s.nlen := rfl
@[simp] theorem State.setWign_klen : s.setWign.klen = s.klen := rfl
@[simp] theorem State.setWign_powi : s.setWign.powi = s.powi := rfl
@[simp] theorem State.setWign_exp : s.setWign.exp = s.exp := rfl
@[simp] theorem State.setWign_res : s.setWign.res = s.res := rfl
@[simp] theorem State.setWign_fcoef : s.setWign.fcoef = s.fcoef := rfl
@[simp] theorem State.setWign_alpha : s.setWign.alpha = s.alpha := rfl
@[simp] theorem State.setWign_plen : s.setWign.plen = s.plen := rfl
@[simp] theorem State.setWign_mem : s.setWign.mem = s.mem := rfl
@[simp] theorem State.setWign_powerOns : s.setWign.powerOns = s.powerOns := rfl
@[simp] theorem State.setWign_resets : s.setWign.resets = s.resets := rfl
@[simp] theorem State.setWign_polyWrites : s.setWign.polyWrites = s.polyWrites := rfl
@[simp] theorem State.setWign_response : s.setWign.response = s.response := rfl
@[simp] theorem State.setWign_events : s.setWign.events = s.events := rfl

/-! The response of a transaction (20_memory.md R60). -/

@[simp] theorem State.respond_fmode (r : BusResponse) : (s.respond r).fmode = s.fmode := rfl
@[simp] theorem State.respond_ie (r : BusResponse) : (s.respond r).ie = s.ie := rfl
@[simp] theorem State.respond_done (r : BusResponse) : (s.respond r).done = s.done := rfl
@[simp] theorem State.respond_err (r : BusResponse) : (s.respond r).err = s.err := rfl
@[simp] theorem State.respond_ovr (r : BusResponse) : (s.respond r).ovr = s.ovr := rfl
@[simp] theorem State.respond_wign (r : BusResponse) : (s.respond r).wign = s.wign := rfl
@[simp] theorem State.respond_seq (r : BusResponse) : (s.respond r).seq = s.seq := rfl
@[simp] theorem State.respond_lastcmd (r : BusResponse) : (s.respond r).lastcmd = s.lastcmd := rfl
@[simp] theorem State.respond_prime (r : BusResponse) : (s.respond r).prime = s.prime := rfl
@[simp] theorem State.respond_fdeg (r : BusResponse) : (s.respond r).fdeg = s.fdeg := rfl
@[simp] theorem State.respond_nlen (r : BusResponse) : (s.respond r).nlen = s.nlen := rfl
@[simp] theorem State.respond_klen (r : BusResponse) : (s.respond r).klen = s.klen := rfl
@[simp] theorem State.respond_powi (r : BusResponse) : (s.respond r).powi = s.powi := rfl
@[simp] theorem State.respond_exp (r : BusResponse) : (s.respond r).exp = s.exp := rfl
@[simp] theorem State.respond_res (r : BusResponse) : (s.respond r).res = s.res := rfl
@[simp] theorem State.respond_fcoef (r : BusResponse) : (s.respond r).fcoef = s.fcoef := rfl
@[simp] theorem State.respond_alpha (r : BusResponse) : (s.respond r).alpha = s.alpha := rfl
@[simp] theorem State.respond_plen (r : BusResponse) : (s.respond r).plen = s.plen := rfl
@[simp] theorem State.respond_mem (r : BusResponse) : (s.respond r).mem = s.mem := rfl
@[simp] theorem State.respond_powerOns (r : BusResponse) : (s.respond r).powerOns = s.powerOns := rfl
@[simp] theorem State.respond_resets (r : BusResponse) : (s.respond r).resets = s.resets := rfl
@[simp] theorem State.respond_polyWrites (r : BusResponse) : (s.respond r).polyWrites = s.polyWrites := rfl
@[simp] theorem State.respond_response (r : BusResponse) : (s.respond r).response = some r := rfl
@[simp] theorem State.respond_events (r : BusResponse) : (s.respond r).events = s.events := rfl

/-! What is still to come (log 1). -/

@[simp] theorem State.setEvents_fmode (es : List Event) : (s.setEvents es).fmode = s.fmode := rfl
@[simp] theorem State.setEvents_ie (es : List Event) : (s.setEvents es).ie = s.ie := rfl
@[simp] theorem State.setEvents_done (es : List Event) : (s.setEvents es).done = s.done := rfl
@[simp] theorem State.setEvents_err (es : List Event) : (s.setEvents es).err = s.err := rfl
@[simp] theorem State.setEvents_ovr (es : List Event) : (s.setEvents es).ovr = s.ovr := rfl
@[simp] theorem State.setEvents_wign (es : List Event) : (s.setEvents es).wign = s.wign := rfl
@[simp] theorem State.setEvents_seq (es : List Event) : (s.setEvents es).seq = s.seq := rfl
@[simp] theorem State.setEvents_lastcmd (es : List Event) : (s.setEvents es).lastcmd = s.lastcmd := rfl
@[simp] theorem State.setEvents_prime (es : List Event) : (s.setEvents es).prime = s.prime := rfl
@[simp] theorem State.setEvents_fdeg (es : List Event) : (s.setEvents es).fdeg = s.fdeg := rfl
@[simp] theorem State.setEvents_nlen (es : List Event) : (s.setEvents es).nlen = s.nlen := rfl
@[simp] theorem State.setEvents_klen (es : List Event) : (s.setEvents es).klen = s.klen := rfl
@[simp] theorem State.setEvents_powi (es : List Event) : (s.setEvents es).powi = s.powi := rfl
@[simp] theorem State.setEvents_exp (es : List Event) : (s.setEvents es).exp = s.exp := rfl
@[simp] theorem State.setEvents_res (es : List Event) : (s.setEvents es).res = s.res := rfl
@[simp] theorem State.setEvents_fcoef (es : List Event) : (s.setEvents es).fcoef = s.fcoef := rfl
@[simp] theorem State.setEvents_alpha (es : List Event) : (s.setEvents es).alpha = s.alpha := rfl
@[simp] theorem State.setEvents_plen (es : List Event) : (s.setEvents es).plen = s.plen := rfl
@[simp] theorem State.setEvents_mem (es : List Event) : (s.setEvents es).mem = s.mem := rfl
@[simp] theorem State.setEvents_powerOns (es : List Event) : (s.setEvents es).powerOns = s.powerOns := rfl
@[simp] theorem State.setEvents_resets (es : List Event) : (s.setEvents es).resets = s.resets := rfl
@[simp] theorem State.setEvents_polyWrites (es : List Event) : (s.setEvents es).polyWrites = s.polyWrites := rfl
@[simp] theorem State.setEvents_response (es : List Event) : (s.setEvents es).response = s.response := rfl
@[simp] theorem State.setEvents_events (es : List Event) : (s.setEvents es).events = es := rfl

/-! A store of digit-word bytes. -/

@[simp] theorem State.storeBytes_fmode (a : Nat) (bs : List Byte) : (s.storeBytes a bs).fmode = s.fmode := rfl
@[simp] theorem State.storeBytes_ie (a : Nat) (bs : List Byte) : (s.storeBytes a bs).ie = s.ie := rfl
@[simp] theorem State.storeBytes_done (a : Nat) (bs : List Byte) : (s.storeBytes a bs).done = s.done := rfl
@[simp] theorem State.storeBytes_err (a : Nat) (bs : List Byte) : (s.storeBytes a bs).err = s.err := rfl
@[simp] theorem State.storeBytes_ovr (a : Nat) (bs : List Byte) : (s.storeBytes a bs).ovr = s.ovr := rfl
@[simp] theorem State.storeBytes_wign (a : Nat) (bs : List Byte) : (s.storeBytes a bs).wign = s.wign := rfl
@[simp] theorem State.storeBytes_seq (a : Nat) (bs : List Byte) : (s.storeBytes a bs).seq = s.seq := rfl
@[simp] theorem State.storeBytes_lastcmd (a : Nat) (bs : List Byte) : (s.storeBytes a bs).lastcmd = s.lastcmd := rfl
@[simp] theorem State.storeBytes_prime (a : Nat) (bs : List Byte) : (s.storeBytes a bs).prime = s.prime := rfl
@[simp] theorem State.storeBytes_fdeg (a : Nat) (bs : List Byte) : (s.storeBytes a bs).fdeg = s.fdeg := rfl
@[simp] theorem State.storeBytes_nlen (a : Nat) (bs : List Byte) : (s.storeBytes a bs).nlen = s.nlen := rfl
@[simp] theorem State.storeBytes_klen (a : Nat) (bs : List Byte) : (s.storeBytes a bs).klen = s.klen := rfl
@[simp] theorem State.storeBytes_powi (a : Nat) (bs : List Byte) : (s.storeBytes a bs).powi = s.powi := rfl
@[simp] theorem State.storeBytes_exp (a : Nat) (bs : List Byte) : (s.storeBytes a bs).exp = s.exp := rfl
@[simp] theorem State.storeBytes_res (a : Nat) (bs : List Byte) : (s.storeBytes a bs).res = s.res := rfl
@[simp] theorem State.storeBytes_fcoef (a : Nat) (bs : List Byte) : (s.storeBytes a bs).fcoef = s.fcoef := rfl
@[simp] theorem State.storeBytes_alpha (a : Nat) (bs : List Byte) : (s.storeBytes a bs).alpha = s.alpha := rfl
@[simp] theorem State.storeBytes_plen (a : Nat) (bs : List Byte) : (s.storeBytes a bs).plen = s.plen := rfl
@[simp] theorem State.storeBytes_mem (a : Nat) (bs : List Byte) : (s.storeBytes a bs).mem = Memory.store s.mem a bs := rfl
@[simp] theorem State.storeBytes_powerOns (a : Nat) (bs : List Byte) : (s.storeBytes a bs).powerOns = s.powerOns := rfl
@[simp] theorem State.storeBytes_resets (a : Nat) (bs : List Byte) : (s.storeBytes a bs).resets = s.resets := rfl
@[simp] theorem State.storeBytes_polyWrites (a : Nat) (bs : List Byte) : (s.storeBytes a bs).polyWrites = s.polyWrites := rfl
@[simp] theorem State.storeBytes_response (a : Nat) (bs : List Byte) : (s.storeBytes a bs).response = s.response := rfl
@[simp] theorem State.storeBytes_events (a : Nat) (bs : List Byte) : (s.storeBytes a bs).events = s.events := rfl

/-! A store of one digit word. -/

@[simp] theorem State.storeWord_fmode (a : Nat) (w : Word) : (s.storeWord a w).fmode = s.fmode := rfl
@[simp] theorem State.storeWord_ie (a : Nat) (w : Word) : (s.storeWord a w).ie = s.ie := rfl
@[simp] theorem State.storeWord_done (a : Nat) (w : Word) : (s.storeWord a w).done = s.done := rfl
@[simp] theorem State.storeWord_err (a : Nat) (w : Word) : (s.storeWord a w).err = s.err := rfl
@[simp] theorem State.storeWord_ovr (a : Nat) (w : Word) : (s.storeWord a w).ovr = s.ovr := rfl
@[simp] theorem State.storeWord_wign (a : Nat) (w : Word) : (s.storeWord a w).wign = s.wign := rfl
@[simp] theorem State.storeWord_seq (a : Nat) (w : Word) : (s.storeWord a w).seq = s.seq := rfl
@[simp] theorem State.storeWord_lastcmd (a : Nat) (w : Word) : (s.storeWord a w).lastcmd = s.lastcmd := rfl
@[simp] theorem State.storeWord_prime (a : Nat) (w : Word) : (s.storeWord a w).prime = s.prime := rfl
@[simp] theorem State.storeWord_fdeg (a : Nat) (w : Word) : (s.storeWord a w).fdeg = s.fdeg := rfl
@[simp] theorem State.storeWord_nlen (a : Nat) (w : Word) : (s.storeWord a w).nlen = s.nlen := rfl
@[simp] theorem State.storeWord_klen (a : Nat) (w : Word) : (s.storeWord a w).klen = s.klen := rfl
@[simp] theorem State.storeWord_powi (a : Nat) (w : Word) : (s.storeWord a w).powi = s.powi := rfl
@[simp] theorem State.storeWord_exp (a : Nat) (w : Word) : (s.storeWord a w).exp = s.exp := rfl
@[simp] theorem State.storeWord_res (a : Nat) (w : Word) : (s.storeWord a w).res = s.res := rfl
@[simp] theorem State.storeWord_fcoef (a : Nat) (w : Word) : (s.storeWord a w).fcoef = s.fcoef := rfl
@[simp] theorem State.storeWord_alpha (a : Nat) (w : Word) : (s.storeWord a w).alpha = s.alpha := rfl
@[simp] theorem State.storeWord_plen (a : Nat) (w : Word) : (s.storeWord a w).plen = s.plen := rfl
@[simp] theorem State.storeWord_mem (a : Nat) (w : Word) : (s.storeWord a w).mem = Memory.store s.mem a (wordBytes w) := rfl
@[simp] theorem State.storeWord_powerOns (a : Nat) (w : Word) : (s.storeWord a w).powerOns = s.powerOns := rfl
@[simp] theorem State.storeWord_resets (a : Nat) (w : Word) : (s.storeWord a w).resets = s.resets := rfl
@[simp] theorem State.storeWord_polyWrites (a : Nat) (w : Word) : (s.storeWord a w).polyWrites = s.polyWrites := rfl
@[simp] theorem State.storeWord_response (a : Nat) (w : Word) : (s.storeWord a w).response = s.response := rfl
@[simp] theorem State.storeWord_events (a : Nat) (w : Word) : (s.storeWord a w).events = s.events := rfl

/-! The view of one range of bytes. -/

@[simp] theorem State.focus_fmode (a len : Nat) : (s.focus a len).fmode = s.fmode := rfl
@[simp] theorem State.focus_ie (a len : Nat) : (s.focus a len).ie = s.ie := rfl
@[simp] theorem State.focus_done (a len : Nat) : (s.focus a len).done = s.done := rfl
@[simp] theorem State.focus_err (a len : Nat) : (s.focus a len).err = s.err := rfl
@[simp] theorem State.focus_ovr (a len : Nat) : (s.focus a len).ovr = s.ovr := rfl
@[simp] theorem State.focus_wign (a len : Nat) : (s.focus a len).wign = s.wign := rfl
@[simp] theorem State.focus_seq (a len : Nat) : (s.focus a len).seq = s.seq := rfl
@[simp] theorem State.focus_lastcmd (a len : Nat) : (s.focus a len).lastcmd = s.lastcmd := rfl
@[simp] theorem State.focus_prime (a len : Nat) : (s.focus a len).prime = s.prime := rfl
@[simp] theorem State.focus_fdeg (a len : Nat) : (s.focus a len).fdeg = s.fdeg := rfl
@[simp] theorem State.focus_nlen (a len : Nat) : (s.focus a len).nlen = s.nlen := rfl
@[simp] theorem State.focus_klen (a len : Nat) : (s.focus a len).klen = s.klen := rfl
@[simp] theorem State.focus_powi (a len : Nat) : (s.focus a len).powi = s.powi := rfl
@[simp] theorem State.focus_exp (a len : Nat) : (s.focus a len).exp = s.exp := rfl
@[simp] theorem State.focus_res (a len : Nat) : (s.focus a len).res = s.res := rfl
@[simp] theorem State.focus_fcoef (a len : Nat) : (s.focus a len).fcoef = s.fcoef := rfl
@[simp] theorem State.focus_alpha (a len : Nat) : (s.focus a len).alpha = s.alpha := rfl
@[simp] theorem State.focus_plen (a len : Nat) : (s.focus a len).plen = s.plen := rfl
@[simp] theorem State.focus_mem (a len : Nat) : (s.focus a len).mem = Memory.window s.mem a len := rfl
@[simp] theorem State.focus_powerOns (a len : Nat) : (s.focus a len).powerOns = s.powerOns := rfl
@[simp] theorem State.focus_resets (a len : Nat) : (s.focus a len).resets = s.resets := rfl
@[simp] theorem State.focus_polyWrites (a len : Nat) : (s.focus a len).polyWrites = s.polyWrites := rfl
@[simp] theorem State.focus_response (a len : Nat) : (s.focus a len).response = s.response := rfl
@[simp] theorem State.focus_events (a len : Nat) : (s.focus a len).events = s.events := rfl

/-! ElemWrite of E[d] (10_state.md R41, R42). -/

@[simp] theorem State.writeE_fmode (d : EReg) (v : Elem) : (s.writeE d v).fmode = s.fmode := rfl
@[simp] theorem State.writeE_ie (d : EReg) (v : Elem) : (s.writeE d v).ie = s.ie := rfl
@[simp] theorem State.writeE_done (d : EReg) (v : Elem) : (s.writeE d v).done = s.done := rfl
@[simp] theorem State.writeE_err (d : EReg) (v : Elem) : (s.writeE d v).err = s.err := rfl
@[simp] theorem State.writeE_ovr (d : EReg) (v : Elem) : (s.writeE d v).ovr = s.ovr := rfl
@[simp] theorem State.writeE_wign (d : EReg) (v : Elem) : (s.writeE d v).wign = s.wign := rfl
@[simp] theorem State.writeE_seq (d : EReg) (v : Elem) : (s.writeE d v).seq = s.seq := rfl
@[simp] theorem State.writeE_lastcmd (d : EReg) (v : Elem) : (s.writeE d v).lastcmd = s.lastcmd := rfl
@[simp] theorem State.writeE_prime (d : EReg) (v : Elem) : (s.writeE d v).prime = s.prime := rfl
@[simp] theorem State.writeE_fdeg (d : EReg) (v : Elem) : (s.writeE d v).fdeg = s.fdeg := rfl
@[simp] theorem State.writeE_nlen (d : EReg) (v : Elem) : (s.writeE d v).nlen = s.nlen := rfl
@[simp] theorem State.writeE_klen (d : EReg) (v : Elem) : (s.writeE d v).klen = s.klen := rfl
@[simp] theorem State.writeE_powi (d : EReg) (v : Elem) : (s.writeE d v).powi = s.powi := rfl
@[simp] theorem State.writeE_exp (d : EReg) (v : Elem) : (s.writeE d v).exp = s.exp := rfl
@[simp] theorem State.writeE_res (d : EReg) (v : Elem) : (s.writeE d v).res = s.res := rfl
@[simp] theorem State.writeE_fcoef (d : EReg) (v : Elem) : (s.writeE d v).fcoef = s.fcoef := rfl
@[simp] theorem State.writeE_alpha (d : EReg) (v : Elem) : (s.writeE d v).alpha = s.alpha := rfl
@[simp] theorem State.writeE_plen (d : EReg) (v : Elem) : (s.writeE d v).plen = s.plen := rfl
@[simp] theorem State.writeE_mem (d : EReg) (v : Elem) : (s.writeE d v).mem = Memory.store s.mem (eAddr d) (slotBytes v) := rfl
@[simp] theorem State.writeE_powerOns (d : EReg) (v : Elem) : (s.writeE d v).powerOns = s.powerOns := rfl
@[simp] theorem State.writeE_resets (d : EReg) (v : Elem) : (s.writeE d v).resets = s.resets := rfl
@[simp] theorem State.writeE_polyWrites (d : EReg) (v : Elem) : (s.writeE d v).polyWrites = s.polyWrites := rfl
@[simp] theorem State.writeE_response (d : EReg) (v : Elem) : (s.writeE d v).response = s.response := rfl
@[simp] theorem State.writeE_events (d : EReg) (v : Elem) : (s.writeE d v).events = s.events := rfl

/-! PolyWrite of P[d] (10_state.md R44). -/

@[simp] theorem State.writeP_fmode (d : PReg) (g : Poly) : (s.writeP d g).fmode = s.fmode := rfl
@[simp] theorem State.writeP_ie (d : PReg) (g : Poly) : (s.writeP d g).ie = s.ie := rfl
@[simp] theorem State.writeP_done (d : PReg) (g : Poly) : (s.writeP d g).done = s.done := rfl
@[simp] theorem State.writeP_err (d : PReg) (g : Poly) : (s.writeP d g).err = s.err := rfl
@[simp] theorem State.writeP_ovr (d : PReg) (g : Poly) : (s.writeP d g).ovr = s.ovr := rfl
@[simp] theorem State.writeP_wign (d : PReg) (g : Poly) : (s.writeP d g).wign = s.wign := rfl
@[simp] theorem State.writeP_seq (d : PReg) (g : Poly) : (s.writeP d g).seq = s.seq := rfl
@[simp] theorem State.writeP_lastcmd (d : PReg) (g : Poly) : (s.writeP d g).lastcmd = s.lastcmd := rfl
@[simp] theorem State.writeP_prime (d : PReg) (g : Poly) : (s.writeP d g).prime = s.prime := rfl
@[simp] theorem State.writeP_fdeg (d : PReg) (g : Poly) : (s.writeP d g).fdeg = s.fdeg := rfl
@[simp] theorem State.writeP_nlen (d : PReg) (g : Poly) : (s.writeP d g).nlen = s.nlen := rfl
@[simp] theorem State.writeP_klen (d : PReg) (g : Poly) : (s.writeP d g).klen = s.klen := rfl
@[simp] theorem State.writeP_powi (d : PReg) (g : Poly) : (s.writeP d g).powi = s.powi := rfl
@[simp] theorem State.writeP_exp (d : PReg) (g : Poly) : (s.writeP d g).exp = s.exp := rfl
@[simp] theorem State.writeP_res (d : PReg) (g : Poly) : (s.writeP d g).res = s.res := rfl
@[simp] theorem State.writeP_fcoef (d : PReg) (g : Poly) : (s.writeP d g).fcoef = s.fcoef := rfl
@[simp] theorem State.writeP_alpha (d : PReg) (g : Poly) : (s.writeP d g).alpha = s.alpha := rfl
@[simp] theorem State.writeP_plen (d : PReg) (g : Poly) : (s.writeP d g).plen = s.plen.set d (BitVec.ofNat 32 g.length) := rfl
@[simp] theorem State.writeP_mem (d : PReg) (g : Poly) : (s.writeP d g).mem = Memory.store (Memory.erase s.mem (pcAddr d 0) pcSize) (pcAddr d 0) (g.flatMap slotBytes) := rfl
@[simp] theorem State.writeP_powerOns (d : PReg) (g : Poly) : (s.writeP d g).powerOns = s.powerOns := rfl
@[simp] theorem State.writeP_resets (d : PReg) (g : Poly) : (s.writeP d g).resets = s.resets := rfl
@[simp] theorem State.writeP_polyWrites (d : PReg) (g : Poly) : (s.writeP d g).polyWrites = s.polyWrites.set d (s.polyWrites[d] + 1) := rfl
@[simp] theorem State.writeP_response (d : PReg) (g : Poly) : (s.writeP d g).response = s.response := rfl
@[simp] theorem State.writeP_events (d : PReg) (g : Poly) : (s.writeP d g).events = s.events := rfl

/-! Writing W[0..n-1] (10_state.md R46). -/

@[simp] theorem State.writeW_fmode (ws : List Elem) : (s.writeW ws).fmode = s.fmode := rfl
@[simp] theorem State.writeW_ie (ws : List Elem) : (s.writeW ws).ie = s.ie := rfl
@[simp] theorem State.writeW_done (ws : List Elem) : (s.writeW ws).done = s.done := rfl
@[simp] theorem State.writeW_err (ws : List Elem) : (s.writeW ws).err = s.err := rfl
@[simp] theorem State.writeW_ovr (ws : List Elem) : (s.writeW ws).ovr = s.ovr := rfl
@[simp] theorem State.writeW_wign (ws : List Elem) : (s.writeW ws).wign = s.wign := rfl
@[simp] theorem State.writeW_seq (ws : List Elem) : (s.writeW ws).seq = s.seq := rfl
@[simp] theorem State.writeW_lastcmd (ws : List Elem) : (s.writeW ws).lastcmd = s.lastcmd := rfl
@[simp] theorem State.writeW_prime (ws : List Elem) : (s.writeW ws).prime = s.prime := rfl
@[simp] theorem State.writeW_fdeg (ws : List Elem) : (s.writeW ws).fdeg = s.fdeg := rfl
@[simp] theorem State.writeW_nlen (ws : List Elem) : (s.writeW ws).nlen = s.nlen := rfl
@[simp] theorem State.writeW_klen (ws : List Elem) : (s.writeW ws).klen = s.klen := rfl
@[simp] theorem State.writeW_powi (ws : List Elem) : (s.writeW ws).powi = s.powi := rfl
@[simp] theorem State.writeW_exp (ws : List Elem) : (s.writeW ws).exp = s.exp := rfl
@[simp] theorem State.writeW_res (ws : List Elem) : (s.writeW ws).res = s.res := rfl
@[simp] theorem State.writeW_fcoef (ws : List Elem) : (s.writeW ws).fcoef = s.fcoef := rfl
@[simp] theorem State.writeW_alpha (ws : List Elem) : (s.writeW ws).alpha = s.alpha := rfl
@[simp] theorem State.writeW_plen (ws : List Elem) : (s.writeW ws).plen = s.plen := rfl
@[simp] theorem State.writeW_mem (ws : List Elem) : (s.writeW ws).mem = Memory.store s.mem (wAddr 0) (ws.flatMap slotBytes) := rfl
@[simp] theorem State.writeW_powerOns (ws : List Elem) : (s.writeW ws).powerOns = s.powerOns := rfl
@[simp] theorem State.writeW_resets (ws : List Elem) : (s.writeW ws).resets = s.resets := rfl
@[simp] theorem State.writeW_polyWrites (ws : List Elem) : (s.writeW ws).polyWrites = s.polyWrites := rfl
@[simp] theorem State.writeW_response (ws : List Elem) : (s.writeW ws).response = s.response := rfl
@[simp] theorem State.writeW_events (ws : List Elem) : (s.writeW ws).events = s.events := rfl

/-! Writing RES (10_state.md R33). -/

@[simp] theorem State.writeRes_fmode (v : Nat) : (s.writeRes v).fmode = s.fmode := rfl
@[simp] theorem State.writeRes_ie (v : Nat) : (s.writeRes v).ie = s.ie := rfl
@[simp] theorem State.writeRes_done (v : Nat) : (s.writeRes v).done = s.done := rfl
@[simp] theorem State.writeRes_err (v : Nat) : (s.writeRes v).err = s.err := rfl
@[simp] theorem State.writeRes_ovr (v : Nat) : (s.writeRes v).ovr = s.ovr := rfl
@[simp] theorem State.writeRes_wign (v : Nat) : (s.writeRes v).wign = s.wign := rfl
@[simp] theorem State.writeRes_seq (v : Nat) : (s.writeRes v).seq = s.seq := rfl
@[simp] theorem State.writeRes_lastcmd (v : Nat) : (s.writeRes v).lastcmd = s.lastcmd := rfl
@[simp] theorem State.writeRes_prime (v : Nat) : (s.writeRes v).prime = s.prime := rfl
@[simp] theorem State.writeRes_fdeg (v : Nat) : (s.writeRes v).fdeg = s.fdeg := rfl
@[simp] theorem State.writeRes_nlen (v : Nat) : (s.writeRes v).nlen = s.nlen := rfl
@[simp] theorem State.writeRes_klen (v : Nat) : (s.writeRes v).klen = s.klen := rfl
@[simp] theorem State.writeRes_powi (v : Nat) : (s.writeRes v).powi = s.powi := rfl
@[simp] theorem State.writeRes_exp (v : Nat) : (s.writeRes v).exp = s.exp := rfl
@[simp] theorem State.writeRes_res (v : Nat) : (s.writeRes v).res = BitVec.ofNat 32 v := rfl
@[simp] theorem State.writeRes_fcoef (v : Nat) : (s.writeRes v).fcoef = s.fcoef := rfl
@[simp] theorem State.writeRes_alpha (v : Nat) : (s.writeRes v).alpha = s.alpha := rfl
@[simp] theorem State.writeRes_plen (v : Nat) : (s.writeRes v).plen = s.plen := rfl
@[simp] theorem State.writeRes_mem (v : Nat) : (s.writeRes v).mem = s.mem := rfl
@[simp] theorem State.writeRes_powerOns (v : Nat) : (s.writeRes v).powerOns = s.powerOns := rfl
@[simp] theorem State.writeRes_resets (v : Nat) : (s.writeRes v).resets = s.resets := rfl
@[simp] theorem State.writeRes_polyWrites (v : Nat) : (s.writeRes v).polyWrites = s.polyWrites := rfl
@[simp] theorem State.writeRes_response (v : Nat) : (s.writeRes v).response = s.response := rfl
@[simp] theorem State.writeRes_events (v : Nat) : (s.writeRes v).events = s.events := rfl

/-! A soft reset (70_reset_and_hazards.md R301, R304). -/

@[simp] theorem State.softReset_fmode : s.softReset.fmode = .zp := rfl
@[simp] theorem State.softReset_ie : s.softReset.ie = false := rfl
@[simp] theorem State.softReset_done : s.softReset.done = false := rfl
@[simp] theorem State.softReset_err : s.softReset.err = .ok := rfl
@[simp] theorem State.softReset_ovr : s.softReset.ovr = false := rfl
@[simp] theorem State.softReset_wign : s.softReset.wign = false := rfl
@[simp] theorem State.softReset_seq : s.softReset.seq = .idle := rfl
@[simp] theorem State.softReset_lastcmd : s.softReset.lastcmd = 0 := rfl
@[simp] theorem State.softReset_prime : s.softReset.prime = 0 := rfl
@[simp] theorem State.softReset_fdeg : s.softReset.fdeg = 0 := rfl
@[simp] theorem State.softReset_nlen : s.softReset.nlen = 0 := rfl
@[simp] theorem State.softReset_klen : s.softReset.klen = 0 := rfl
@[simp] theorem State.softReset_powi : s.softReset.powi = 0 := rfl
@[simp] theorem State.softReset_exp : s.softReset.exp = 0 := rfl
@[simp] theorem State.softReset_res : s.softReset.res = 0 := rfl
@[simp] theorem State.softReset_fcoef : s.softReset.fcoef = Vector.replicate 17 0 := rfl
@[simp] theorem State.softReset_alpha : s.softReset.alpha = Vector.replicate 16 0 := rfl
@[simp] theorem State.softReset_plen : s.softReset.plen = Vector.replicate 16 0 := rfl
@[simp] theorem State.softReset_mem : s.softReset.mem = Memory.erase s.mem (pcAddr 0 0) (16 * pcSize) := rfl
@[simp] theorem State.softReset_powerOns : s.softReset.powerOns = s.powerOns := rfl
@[simp] theorem State.softReset_resets : s.softReset.resets = s.resets + 1 := rfl
@[simp] theorem State.softReset_polyWrites : s.softReset.polyWrites = s.polyWrites := rfl
@[simp] theorem State.softReset_response : s.softReset.response = s.response := rfl
@[simp] theorem State.softReset_events : s.softReset.events = s.events := rfl

/-! A power-on reset (70_reset_and_hazards.md R301). -/

@[simp] theorem State.powerOnReset_fmode : s.powerOnReset.fmode = .zp := rfl
@[simp] theorem State.powerOnReset_ie : s.powerOnReset.ie = false := rfl
@[simp] theorem State.powerOnReset_done : s.powerOnReset.done = false := rfl
@[simp] theorem State.powerOnReset_err : s.powerOnReset.err = .ok := rfl
@[simp] theorem State.powerOnReset_ovr : s.powerOnReset.ovr = false := rfl
@[simp] theorem State.powerOnReset_wign : s.powerOnReset.wign = false := rfl
@[simp] theorem State.powerOnReset_seq : s.powerOnReset.seq = .idle := rfl
@[simp] theorem State.powerOnReset_lastcmd : s.powerOnReset.lastcmd = 0 := rfl
@[simp] theorem State.powerOnReset_prime : s.powerOnReset.prime = 0 := rfl
@[simp] theorem State.powerOnReset_fdeg : s.powerOnReset.fdeg = 0 := rfl
@[simp] theorem State.powerOnReset_nlen : s.powerOnReset.nlen = 0 := rfl
@[simp] theorem State.powerOnReset_klen : s.powerOnReset.klen = 0 := rfl
@[simp] theorem State.powerOnReset_powi : s.powerOnReset.powi = 0 := rfl
@[simp] theorem State.powerOnReset_exp : s.powerOnReset.exp = 0 := rfl
@[simp] theorem State.powerOnReset_res : s.powerOnReset.res = 0 := rfl
@[simp] theorem State.powerOnReset_fcoef : s.powerOnReset.fcoef = Vector.replicate 17 0 := rfl
@[simp] theorem State.powerOnReset_alpha : s.powerOnReset.alpha = Vector.replicate 16 0 := rfl
@[simp] theorem State.powerOnReset_plen : s.powerOnReset.plen = Vector.replicate 16 0 := rfl
@[simp] theorem State.powerOnReset_mem : s.powerOnReset.mem = [] := rfl
@[simp] theorem State.powerOnReset_powerOns : s.powerOnReset.powerOns = s.powerOns + 1 := rfl
@[simp] theorem State.powerOnReset_resets : s.powerOnReset.resets = s.resets + 1 := rfl
@[simp] theorem State.powerOnReset_polyWrites : s.powerOnReset.polyWrites = s.polyWrites := rfl
@[simp] theorem State.powerOnReset_response : s.powerOnReset.response = none := rfl
@[simp] theorem State.powerOnReset_events : s.powerOnReset.events = s.events := rfl

/-! The reset state (70_reset_and_hazards.md R301). -/

@[simp] theorem State.reset_fmode : State.reset.fmode = .zp := rfl
@[simp] theorem State.reset_ie : State.reset.ie = false := rfl
@[simp] theorem State.reset_done : State.reset.done = false := rfl
@[simp] theorem State.reset_err : State.reset.err = .ok := rfl
@[simp] theorem State.reset_ovr : State.reset.ovr = false := rfl
@[simp] theorem State.reset_wign : State.reset.wign = false := rfl
@[simp] theorem State.reset_seq : State.reset.seq = .idle := rfl
@[simp] theorem State.reset_lastcmd : State.reset.lastcmd = 0 := rfl
@[simp] theorem State.reset_prime : State.reset.prime = 0 := rfl
@[simp] theorem State.reset_fdeg : State.reset.fdeg = 0 := rfl
@[simp] theorem State.reset_nlen : State.reset.nlen = 0 := rfl
@[simp] theorem State.reset_klen : State.reset.klen = 0 := rfl
@[simp] theorem State.reset_powi : State.reset.powi = 0 := rfl
@[simp] theorem State.reset_exp : State.reset.exp = 0 := rfl
@[simp] theorem State.reset_res : State.reset.res = 0 := rfl
@[simp] theorem State.reset_fcoef : State.reset.fcoef = Vector.replicate 17 0 := rfl
@[simp] theorem State.reset_alpha : State.reset.alpha = Vector.replicate 16 0 := rfl
@[simp] theorem State.reset_plen : State.reset.plen = Vector.replicate 16 0 := rfl
@[simp] theorem State.reset_mem : State.reset.mem = [] := rfl
@[simp] theorem State.reset_powerOns : State.reset.powerOns = 0 := rfl
@[simp] theorem State.reset_resets : State.reset.resets = 0 := rfl
@[simp] theorem State.reset_polyWrites : State.reset.polyWrites = Vector.replicate 16 0 := rfl
@[simp] theorem State.reset_response : State.reset.response = none := rfl
@[simp] theorem State.reset_events : State.reset.events = [] := rfl

/-! The write list of a command. -/

@[simp] theorem State.commit_nil : s.commit [] = s := rfl

@[simp] theorem State.commit_cons (w : Write) (ws : List Write) : s.commit (w :: ws) = (s.applyWrite w).commit ws := rfl

@[simp] theorem State.applyWrite_elem (d : EReg) (v : Elem) : s.applyWrite (.elem d v) = s.writeE d v := rfl
@[simp] theorem State.applyWrite_poly (d : PReg) (g : Poly) : s.applyWrite (.poly d g) = s.writeP d g := rfl
@[simp] theorem State.applyWrite_words (ws : List Elem) : s.applyWrite (.words ws) = s.writeW ws := rfl
@[simp] theorem State.applyWrite_res (v : Nat) : s.applyWrite (.res v) = s.writeRes v := rfl

end Sys2Proof.Machine
end

