-- ==== Sys2Proof/Laws/Memory.lean ====
section
/-! SUPPORT. The laws of the digit-word storage: what a listed byte reads as after a store, an erase or a window, that every
operation keeps the canonical form, and the byte lanes of a word. -/

namespace Sys2Proof.Machine

@[simp] theorem Memory.find_nil (a : Nat) : Memory.find [] a = none := rfl

theorem Memory.find_cons (c : Host.Cell) (m : Memory) (a : Nat) :
    Memory.find (c :: m) a = if a = c.1 then some c.2 else Memory.find m a := rfl

theorem Memory.find_append (m n : Memory) (a : Nat) :
    Memory.find (m ++ n) a = (Memory.find m a).or (Memory.find n a) := by
  induction m with
  | nil => simp
  | cons c m ih =>
    simp only [List.cons_append, Memory.find_cons, ih]
    split <;> simp

theorem Memory.find_filter (p : Nat → Bool) (m : Memory) (a : Nat) :
    Memory.find (m.filter fun c => p c.1) a = if p a then Memory.find m a else none := by
  induction m with
  | nil => simp
  | cons c m ih =>
    rw [List.filter_cons]
    by_cases ha : a = c.1
    · by_cases hc : p c.1 <;> simp [Memory.find_cons, ha, hc, ha ▸ ih]
    · by_cases hc : p c.1 <;> simp [Memory.find_cons, ha, hc, ih]

theorem find_cellsFrom (a : Nat) (bs : List Byte) (b : Nat) :
    Memory.find (cellsFrom a bs) b = if a ≤ b then bs[b - a]? else none := by
  induction bs generalizing a with
  | nil => simp [cellsFrom]
  | cons v bs ih =>
    simp only [cellsFrom, Memory.find_cons, ih]
    by_cases h : b = a
    · simp [h]
    · by_cases h2 : a ≤ b
      · have h3 : a + 1 ≤ b := by omega
        have h4 : b - a = (b - (a + 1)) + 1 := by omega
        simp [h, h2, h3, h4]
      · have h3 : ¬ a + 1 ≤ b := by omega
        simp [h, h2, h3]

/-- A stored byte reads as it was stored. -/
theorem Memory.find_store_in (m : Memory) (a : Nat) (bs : List Byte) (i : Nat) (h : i < bs.length) :
    Memory.find (Memory.store m a bs) (a + i) = some bs[i] := by
  unfold Memory.store
  rw [List.append_assoc, Memory.find_append, Memory.find_append, Memory.find_filter (fun x => decide (x < a)),
    find_cellsFrom]
  simp [h]

/-- Outside the stored bytes nothing changes. -/
theorem Memory.find_store_out (m : Memory) (a : Nat) (bs : List Byte) (b : Nat) (h : b < a ∨ a + bs.length ≤ b) :
    Memory.find (Memory.store m a bs) b = Memory.find m b := by
  unfold Memory.store
  rw [List.append_assoc, Memory.find_append, Memory.find_append, Memory.find_filter (fun x => decide (x < a)),
    Memory.find_filter (fun x => decide (a + bs.length ≤ x)), find_cellsFrom]
  rcases h with h | h
  · have h1 : ¬ a + bs.length ≤ b := by omega
    have h2 : ¬ a ≤ b := by omega
    simp [h, h1, h2]
  · have h1 : ¬ b < a := by omega
    have h2 : bs[b - a]? = none := by rw [List.getElem?_eq_none_iff]; omega
    simp [h, h1, h2]

theorem Memory.find_erase (m : Memory) (a len b : Nat) :
    Memory.find (Memory.erase m a len) b = if b < a ∨ a + len ≤ b then Memory.find m b else none := by
  unfold Memory.erase
  rw [Memory.find_append, Memory.find_filter (fun x => decide (x < a)), Memory.find_filter (fun x => decide (a + len ≤ x))]
  by_cases h1 : b < a
  · have h2 : ¬ a + len ≤ b := by omega
    simp [h1, h2]
  · by_cases h2 : a + len ≤ b <;> simp [h1, h2]

theorem Memory.find_window (m : Memory) (a len b : Nat) :
    Memory.find (Memory.window m a len) b = if a ≤ b ∧ b < a + len then Memory.find m b else none := by
  unfold Memory.window
  rw [Memory.find_filter (fun x => decide (a ≤ x) && decide (x < a + len))]
  simp

theorem mem_cellsFrom (c : Host.Cell) (bs : List Byte) : ∀ a, c ∈ cellsFrom a bs → a ≤ c.1 ∧ c.1 < a + bs.length := by
  induction bs with
  | nil => intro a h; simp [cellsFrom] at h
  | cons v bs ih =>
    intro a h
    rcases List.mem_cons.1 h with h | h
    · subst h; simp
    · have := ih _ h; simp only [List.length_cons]; omega

theorem cellsFrom_wf (bs : List Byte) : ∀ a, Memory.wf (cellsFrom a bs) := by
  induction bs with
  | nil => intro a; exact List.Pairwise.nil
  | cons v bs ih =>
    intro a
    refine List.Pairwise.cons (fun c hc => ?_) (ih _)
    have := mem_cellsFrom c bs _ hc
    show a < c.1
    omega

theorem Memory.nil_wf : Memory.wf [] := List.Pairwise.nil

/-- Storing keeps the canonical form. -/
theorem Memory.store_wf {m : Memory} (h : Memory.wf m) (a : Nat) (bs : List Byte) : Memory.wf (Memory.store m a bs) := by
  unfold Memory.store
  refine List.pairwise_append.2 ⟨List.pairwise_append.2 ⟨h.filter _, cellsFrom_wf bs a, ?_⟩, h.filter _, ?_⟩
  · intro x hx y hy
    have h1 := (List.mem_filter.1 hx).2
    have h2 := mem_cellsFrom y bs a hy
    simp only [decide_eq_true_eq] at h1
    omega
  · intro x hx y hy
    have h2 := (List.mem_filter.1 hy).2
    simp only [decide_eq_true_eq] at h2
    rcases List.mem_append.1 hx with hx | hx
    · have h1 := (List.mem_filter.1 hx).2
      simp only [decide_eq_true_eq] at h1
      omega
    · have h1 := mem_cellsFrom x bs a hx
      omega

/-- Erasing keeps the canonical form. -/
theorem Memory.erase_wf {m : Memory} (h : Memory.wf m) (a len : Nat) : Memory.wf (Memory.erase m a len) := by
  unfold Memory.erase
  refine List.pairwise_append.2 ⟨h.filter _, h.filter _, ?_⟩
  intro x hx y hy
  have h1 := (List.mem_filter.1 hx).2
  have h2 := (List.mem_filter.1 hy).2
  simp only [decide_eq_true_eq] at h1 h2
  omega

/-- A window keeps the canonical form. -/
theorem Memory.window_wf {m : Memory} (h : Memory.wf m) (a len : Nat) : Memory.wf (Memory.window m a len) := h.filter _

/-- What a store lists: the old cells outside the range and the stored ones. -/
theorem Memory.mem_store {m : Memory} {a : Nat} {bs : List Byte} {c : Host.Cell} (h : c ∈ Memory.store m a bs) :
    c ∈ m ∨ (a ≤ c.1 ∧ c.1 < a + bs.length) := by
  unfold Memory.store at h
  rcases List.mem_append.1 h with h | h
  · rcases List.mem_append.1 h with h | h
    · exact .inl (List.mem_filter.1 h).1
    · exact .inr (mem_cellsFrom c bs a h)
  · exact .inl (List.mem_filter.1 h).1

/-- Erasing lists nothing new. -/
theorem Memory.mem_erase {m : Memory} {a len : Nat} {c : Host.Cell} (h : c ∈ Memory.erase m a len) : c ∈ m := by
  unfold Memory.erase at h
  rcases List.mem_append.1 h with h | h <;> exact (List.mem_filter.1 h).1

/-- The four byte lanes of a word give the word back (20_memory.md R64). -/
theorem leWord_wordBytes (w : Word) :
    leWord (w.extractLsb' 0 8) (w.extractLsb' 8 8) (w.extractLsb' 16 8) (w.extractLsb' 24 8) = w := by
  unfold leWord
  apply BitVec.eq_of_getLsbD_eq
  intro i hi
  simp only [BitVec.getLsbD_append, BitVec.getLsbD_extractLsb']
  by_cases h1 : i < 8
  · simp [h1]
  · by_cases h2 : i < 16
    · have h3 : i - 8 < 8 := by omega
      have h4 : 8 + (i - 8) = i := by omega
      simp [h1, h3, h4]
    · by_cases h5 : i < 24
      · have h6 : ¬ i - 8 < 8 := by omega
        have h7 : i - 8 - 8 < 8 := by omega
        have h8 : 16 + (i - 8 - 8) = i := by omega
        simp [h1, h6, h7, h8]
      · have h6 : ¬ i - 8 < 8 := by omega
        have h7 : ¬ i - 8 - 8 < 8 := by omega
        have h8 : 24 + (i - 8 - 8 - 8) = i := by omega
        simp [h1, h6, h7, h8]
        intro _
        omega

@[simp] theorem wordBytes_length (w : Word) : (wordBytes w).length = 4 := rfl

end Sys2Proof.Machine
end

