-- ==== Sys2Proof/Laws/Storage.lean ====
section
/-! SUPPORT. What the bytes, words and slots of E, A, W and PC read as after the named writes (10_state.md R39 to R46). -/

namespace Sys2Proof.Machine

/-! Bytes -/

theorem unwritten_congr {s t : State} (h1 : t.powerOns = s.powerOns) (h2 : t.resets = s.resets)
    (h3 : t.polyWrites = s.polyWrites) (a : Nat) : unwritten t a = unwritten s a := by
  unfold unwritten; rw [h1, h2, h3]

/-- A byte depends on what is listed at its address and on the three counters alone. -/
theorem State.byte_congr {s t : State} {a : Nat} (h : Memory.find t.mem a = Memory.find s.mem a)
    (h1 : t.powerOns = s.powerOns) (h2 : t.resets = s.resets) (h3 : t.polyWrites = s.polyWrites) :
    t.byte a = s.byte a := by
  unfold State.byte; rw [h, unwritten_congr h1 h2 h3]

theorem State.byte_storeBytes_in (s : State) (a : Nat) (bs : List Byte) (i : Nat) (h : i < bs.length) :
    (s.storeBytes a bs).byte (a + i) = bs[i] := by
  unfold State.byte
  rw [State.storeBytes_mem, Memory.find_store_in _ _ _ _ h]
  rfl

theorem State.byte_storeBytes_out (s : State) (a : Nat) (bs : List Byte) (b : Nat) (h : b < a ∨ a + bs.length ≤ b) :
    (s.storeBytes a bs).byte b = s.byte b :=
  State.byte_congr (by rw [State.storeBytes_mem, Memory.find_store_out _ _ _ _ h]) rfl rfl rfl

theorem State.byte_focus (s : State) (a len b : Nat) (h : a ≤ b ∧ b < a + len) : (s.focus a len).byte b = s.byte b :=
  State.byte_congr (by rw [State.focus_mem, Memory.find_window, if_pos h]) rfl rfl rfl

theorem State.byte_complete (s : State) (c : ErrCode) (a : Nat) : (s.complete c).byte a = s.byte a := rfl

theorem State.byte_writeRes (s : State) (v a : Nat) : (s.writeRes v).byte a = s.byte a := rfl

/-! Chunked lists -/

theorem flatMap_length_const {β γ : Type} (f : β → List γ) (n : Nat) (hf : ∀ b, (f b).length = n) (l : List β) :
    (l.flatMap f).length = n * l.length := by
  induction l with
  | nil => simp
  | cons b l ih => simp [hf, ih, Nat.mul_succ, Nat.add_comm]

/-- Element j of chunk i. -/
theorem flatMap_getElem?_chunk {β γ : Type} (f : β → List γ) (n : Nat) (hf : ∀ b, (f b).length = n) (l : List β) (i j : Nat)
    (hj : j < n) : (l.flatMap f)[n * i + j]? = l[i]?.bind fun b => (f b)[j]? := by
  induction l generalizing i with
  | nil => simp
  | cons b l ih =>
    cases i with
    | zero => simp [List.getElem?_append_left, hf, hj]
    | succ i =>
      have h : n * (i + 1) + j = n + (n * i + j) := by rw [Nat.mul_succ]; omega
      rw [List.flatMap_cons, List.getElem?_append_right (by rw [hf]; omega), hf, h, Nat.add_sub_cancel_left, ih]
      simp

@[simp] theorem slotOfElem_length (v : Elem) : (slotOfElem v).length = 16 := by simp [slotOfElem]

@[simp] theorem slotBytes_length (v : Elem) : (slotBytes v).length = 64 := by
  unfold slotBytes; rw [flatMap_length_const _ 4 (fun _ => rfl)]; simp

@[simp] theorem flatMap_slotBytes_length (g : List Elem) : (g.flatMap slotBytes).length = 64 * g.length :=
  flatMap_length_const _ 64 slotBytes_length g

/-! Words and slots -/

theorem State.word_congr {s t : State} {a : Nat} (h : ∀ i, i < 4 → t.byte (a + i) = s.byte (a + i)) : t.word a = s.word a := by
  unfold State.word
  have h0 := h 0 (by omega); have h1 := h 1 (by omega); have h2 := h 2 (by omega); have h3 := h 3 (by omega)
  simp only [Nat.add_zero] at h0
  rw [h0, h1, h2, h3]

/-- The digits of a slot, in the whole state. -/
theorem State.slotDigits_eq (s : State) (a : Nat) :
    s.slotDigits a = (List.range 16).map fun d => (s.word (a + 4 * d)).toNat := by
  unfold State.slotDigits
  apply List.map_congr_left
  intro d hd
  rw [List.mem_range] at hd
  rw [State.word_congr]
  intro i hi
  apply State.byte_focus
  simp only [Config.mMax] at hd ⊢
  omega

@[simp] theorem State.slotDigits_length (s : State) (a : Nat) : (s.slotDigits a).length = 16 := by
  rw [State.slotDigits_eq]; simp

theorem State.slotDigits_congr {s t : State} {a : Nat} (h : ∀ b, a ≤ b → b < a + 64 → t.byte b = s.byte b) :
    t.slotDigits a = s.slotDigits a := by
  rw [State.slotDigits_eq, State.slotDigits_eq]
  apply List.map_congr_left
  intro d hd
  rw [List.mem_range] at hd
  rw [State.word_congr]
  intro i hi
  exact h _ (by omega) (by omega)

/-- A digit word just stored reads as it was stored (20_memory.md R63, R64). -/
theorem State.word_storeWord_same (s : State) (a : Nat) (w : Word) : (s.storeWord a w).word a = w := by
  unfold State.word State.storeWord
  have h0 := State.byte_storeBytes_in s a (wordBytes w) 0 (by simp)
  have h1 := State.byte_storeBytes_in s a (wordBytes w) 1 (by simp)
  have h2 := State.byte_storeBytes_in s a (wordBytes w) 2 (by simp)
  have h3 := State.byte_storeBytes_in s a (wordBytes w) 3 (by simp)
  simp only [Nat.add_zero] at h0
  rw [h0, h1, h2, h3]
  exact leWord_wordBytes w

/-- Lane l of a word made of four bytes, lane 0 the least significant (20_memory.md R64). -/
theorem leWord_lane (b0 b1 b2 b3 : Byte) {l : Nat} (hl : l < 4) :
    (leWord b0 b1 b2 b3).toNat / 2 ^ (8 * l) % 256 = ([b0, b1, b2, b3].getD l 0).toNat := by
  have h : (leWord b0 b1 b2 b3).toNat = b0.toNat + 256 * b1.toNat + 65536 * b2.toNat + 16777216 * b3.toNat := by
    unfold leWord
    simp only [BitVec.toNat_append]
    rw [← Nat.shiftLeft_add_eq_or_of_lt (by omega), ← Nat.shiftLeft_add_eq_or_of_lt (by omega),
      ← Nat.shiftLeft_add_eq_or_of_lt (by omega)]
    simp only [Nat.shiftLeft_eq]
    omega
  rw [h]
  match l, hl with
  | 0, _ => simp; omega
  | 1, _ => simp; omega
  | 2, _ => simp; omega
  | 3, _ => simp; omega

/-- Lane l of a stored word stands at the address plus l (R64). -/
theorem State.byte_storeWord_lane (s : State) (a : Nat) (w : Word) {l : Nat} (hl : l < 4) :
    ((s.storeWord a w).byte (a + l)).toNat = w.toNat / 2 ^ (8 * l) % 256 := by
  have h := State.byte_storeBytes_in s a (wordBytes w) l (by simpa [wordBytes] using hl)
  unfold State.storeWord
  rw [h]
  match l, hl with
  | 0, _ => simp [wordBytes]
  | 1, _ => simp [wordBytes, Nat.shiftRight_eq_div_pow]
  | 2, _ => simp [wordBytes, Nat.shiftRight_eq_div_pow]
  | 3, _ => simp [wordBytes, Nat.shiftRight_eq_div_pow]

/-- A state whose bytes from a on are those of the listed elements' slots reads slot i as element i's digits. -/
theorem State.slotDigits_of_bytes {t : State} {a : Nat} {g : List Elem}
    (h : ∀ i (hi : i < (g.flatMap slotBytes).length), t.byte (a + i) = (g.flatMap slotBytes)[i]) (i : Nat) (v : Elem)
    (hv : g[i]? = some v) (hd : ∀ d ∈ v, d < 2 ^ 32) : t.slotDigits (a + 64 * i) = slotOfElem v := by
  have hi : i < g.length := (List.getElem?_eq_some_iff.1 hv).1
  rw [State.slotDigits_eq]
  apply List.map_congr_left
  intro d hd16
  rw [List.mem_range] at hd16
  have key : ∀ j, j < 4 → t.byte (a + 64 * i + 4 * d + j) = (wordBytes (BitVec.ofNat 32 (v.getD d 0))).getD j 0 := by
    intro j hj
    have hlt : 64 * i + (4 * d + j) < (g.flatMap slotBytes).length := by
      rw [flatMap_slotBytes_length]; omega
    have e1 := h _ hlt
    have e2 := flatMap_getElem?_chunk slotBytes 64 slotBytes_length g i (4 * d + j) (by omega)
    have e3 := flatMap_getElem?_chunk (fun d => wordBytes (BitVec.ofNat 32 d)) 4 (fun _ => rfl) (slotOfElem v) d j hj
    have e4 : (slotOfElem v)[d]? = some (v.getD d 0) := by
      unfold slotOfElem; rw [List.getElem?_map, List.getElem?_range hd16]; rfl
    rw [hv, Option.bind_some, show slotBytes v = (slotOfElem v).flatMap fun d => wordBytes (BitVec.ofNat 32 d) from rfl, e3, e4,
      Option.bind_some, List.getElem?_eq_getElem hlt] at e2
    have e5 : a + 64 * i + 4 * d + j = a + (64 * i + (4 * d + j)) := by omega
    rw [e5, e1, List.getD_eq_getElem?_getD, ← e2]
    rfl
  have hw : t.word (a + 64 * i + 4 * d) = BitVec.ofNat 32 (v.getD d 0) := by
    unfold State.word
    have k0 := key 0 (by omega); have k1 := key 1 (by omega); have k2 := key 2 (by omega); have k3 := key 3 (by omega)
    simp only [Nat.add_zero] at k0
    rw [k0, k1, k2, k3]
    exact leWord_wordBytes _
  rw [hw, BitVec.toNat_ofNat, Nat.mod_eq_of_lt]
  rw [List.getD_eq_getElem?_getD]
  cases hvd : v[d]? with
  | none => simp
  | some x => exact hd _ (List.mem_of_getElem? hvd)

/-! E[r] (10_state.md R42) -/

theorem State.byte_writeE_out (s : State) (d : EReg) (v : Elem) (b : Nat) (h : b < eAddr d ∨ eAddr d + 64 ≤ b) :
    (s.writeE d v).byte b = s.byte b :=
  State.byte_storeBytes_out s _ _ b (by rw [slotBytes_length]; exact h)

/-- E[d] after ElemWrite (R41). -/
theorem State.slotDigits_writeE_same (s : State) (d : EReg) (v : Elem) (hv : ∀ x ∈ v, x < 2 ^ 32) :
    (s.writeE d v).slotDigits (eAddr d) = slotOfElem v := by
  have h := State.slotDigits_of_bytes (t := s.writeE d v) (a := eAddr d) (g := [v])
    (fun i hi => by
      have := State.byte_storeBytes_in s (eAddr d) ([v].flatMap slotBytes) i hi
      simpa [State.writeE] using this) 0 v rfl hv
  simpa using h

/-- Any slot that is not E[d] keeps its digits. -/
theorem State.slotDigits_writeE_out (s : State) (d : EReg) (v : Elem) (a : Nat) (h : a + 64 ≤ eAddr d ∨ eAddr d + 64 ≤ a) :
    (s.writeE d v).slotDigits a = s.slotDigits a :=
  State.slotDigits_congr fun b h1 h2 => State.byte_writeE_out s d v b (by omega)

/-! W[0..n−1] (R46) -/

theorem State.byte_writeW_out (s : State) (ws : List Elem) (b : Nat) (h : b < wAddr 0 ∨ wAddr ws.length ≤ b) :
    (s.writeW ws).byte b = s.byte b :=
  State.byte_storeBytes_out s _ _ b (by rw [flatMap_slotBytes_length]; unfold wAddr at h ⊢; omega)

/-- W[j] after a command wrote W[0..n−1]. -/
theorem State.slotDigits_writeW (s : State) (ws : List Elem) (j : Nat) (v : Elem) (hj : ws[j]? = some v)
    (hv : ∀ x ∈ v, x < 2 ^ 32) : (s.writeW ws).slotDigits (wAddr j) = slotOfElem v := by
  have h := State.slotDigits_of_bytes (t := s.writeW ws) (a := wAddr 0) (g := ws)
    (fun i hi => State.byte_storeBytes_in s (wAddr 0) (ws.flatMap slotBytes) i hi) j v hj hv
  have e : wAddr 0 + 64 * j = wAddr j := by unfold wAddr; omega
  rwa [e] at h

/-! P[r] (R43, R44) -/

theorem pcReg_of_range {r : PReg} {b : Nat} (h1 : pcAddr r 0 ≤ b) (h2 : b < pcAddr r 0 + pcSize) : pcReg b = r := by
  unfold pcAddr pcSize at *
  apply Fin.ext
  show (b - 0x10000) / 0x8000 % 16 = r.val
  have := r.isLt
  omega

theorem pcReg_out_of_range {r : PReg} {b : Nat} (h0 : 0x10000 ≤ b) (h3 : b < 0x90000)
    (h : b < pcAddr r 0 ∨ pcAddr r 0 + pcSize ≤ b) : (pcReg b).val ≠ r.val := by
  unfold pcAddr pcSize at *
  show (b - 0x10000) / 0x8000 % 16 ≠ r.val
  have := r.isLt
  omega

/-- Writing P[d] changes no byte outside its 512 slots. -/
theorem State.byte_writeP_out (s : State) (d : PReg) (g : Poly) (hg : g.length ≤ 512) (b : Nat) (hb : b < 0x90000)
    (h : b < pcAddr d 0 ∨ pcAddr d 0 + pcSize ≤ b) : (s.writeP d g).byte b = s.byte b := by
  have hf : Memory.find (s.writeP d g).mem b = Memory.find s.mem b := by
    rw [State.writeP_mem, Memory.find_store_out, Memory.find_erase, if_pos h]
    rw [flatMap_slotBytes_length]
    unfold pcSize at h
    omega
  unfold State.byte
  rw [hf]
  congr 1
  unfold unwritten
  by_cases h0 : b < 0x10000
  · simp [h0]
  · have hne := pcReg_out_of_range (r := d) (by omega) hb h
    simp only [h0, if_false, State.writeP_resets, State.writeP_polyWrites, Fin.getElem_fin]
    rw [Vector.getElem_set_ne _ _ (Ne.symm hne)]

/-- Coefficient c of P[d] after PolyWrite (R44). -/
theorem State.slotDigits_writeP (s : State) (d : PReg) (g : Poly) (c : Nat) (v : Elem) (hc : g[c]? = some v)
    (hv : ∀ x ∈ v, x < 2 ^ 32) : (s.writeP d g).slotDigits (pcAddr d c) = slotOfElem v := by
  have h := State.slotDigits_of_bytes (t := s.writeP d g) (a := pcAddr d 0) (g := g)
    (fun i hi => by
      unfold State.byte
      rw [State.writeP_mem, Memory.find_store_in _ _ _ _ hi]
      rfl) c v hc hv
  have e : pcAddr d 0 + 64 * c = pcAddr d c := by unfold pcAddr; omega
  rwa [e] at h

/-- Any slot outside P[d] keeps its digits. -/
theorem State.slotDigits_writeP_out (s : State) (d : PReg) (g : Poly) (hg : g.length ≤ 512) (a : Nat) (ha : a + 64 ≤ 0x90000)
    (h : a + 64 ≤ pcAddr d 0 ∨ pcAddr d 0 + pcSize ≤ a) : (s.writeP d g).slotDigits a = s.slotDigits a :=
  State.slotDigits_congr fun b h1 h2 => State.byte_writeP_out s d g hg b (by omega) (by omega)

end Sys2Proof.Machine
end

