-- ==== Sys2Proof/Laws/Bus.lean ====
section
/-! SUPPORT. The address map as lemmas, and what serving one transaction can do (20_memory.md R60 to R65;
70_reset_and_hazards.md R309, R310). -/

namespace Sys2Proof.Machine

/-! Which register an address is (20_memory.md R61, R62) -/

theorem isDigitAddr_iff (a : Nat) : isDigitAddr a = true ↔
    (0x01000 ≤ a ∧ a < 0x01400) ∨ (0x04000 ≤ a ∧ a < 0x0C000) ∨ (0x10000 ≤ a ∧ a < 0x90000) := by
  simp [isDigitAddr, or_assoc]

theorem regAt_fcoef (j : Fin 17) : regAt (0x400 + 4 * j) = .fcoef j := by revert j; decide

theorem regAt_alpha (d : Fin 16) : regAt (0x500 + 4 * d) = .alpha d := by revert d; decide

theorem regAt_plen (r : Fin 16) : regAt (0x2000 + 4 * r) = .plen r := by revert r; decide

theorem regAt_of_digit {a : Nat} (h : isDigitAddr a = true) : regAt a = .digit a := by
  have := (isDigitAddr_iff a).1 h
  unfold regAt
  rw [if_neg (by omega), if_neg (by omega), if_neg (by omega), if_neg (by omega), if_pos h]

theorem ite_ne_of {β : Type} {p : Prop} [Decidable p] {x y z : β} (hx : x ≠ z) (hy : y ≠ z) : (if p then x else y) ≠ z := by
  by_cases h : p
  · rwa [if_pos h]
  · rwa [if_neg h]

theorem controlReg_ne_digit (a x : Nat) : controlReg a ≠ .digit x := by
  unfold controlReg
  repeat' refine ite_ne_of Reg.noConfusion ?_
  exact Reg.noConfusion

theorem regAt_eq_digit {a x : Nat} (h : regAt a = .digit x) : x = a ∧ isDigitAddr a = true := by
  by_cases hd : isDigitAddr a = true
  · rw [regAt_of_digit hd] at h
    exact ⟨(Reg.digit.inj h).symm, hd⟩
  · refine absurd h ?_
    unfold regAt
    rw [if_neg hd]
    exact ite_ne_of (controlReg_ne_digit a x)
      (ite_ne_of Reg.noConfusion (ite_ne_of Reg.noConfusion (ite_ne_of Reg.noConfusion Reg.noConfusion)))

/-- CTRL stands at 0x004 and nowhere else (20_memory.md R61). -/
theorem regAt_eq_ctrl {a : Nat} (h : regAt a = .ctrl) : a = 0x004 := by
  by_contra h4
  refine absurd h ?_
  unfold regAt controlReg
  rw [if_neg h4]
  repeat' first | exact Reg.noConfusion | refine ite_ne_of ?_ ?_

/-- Above the control block and outside every window of the map, an address is no register. -/
theorem regAt_reserved {a : Nat} (h1 : 0x400 ≤ a) (h2 : ¬ (0x400 ≤ a ∧ a < 0x444)) (h3 : ¬ (0x500 ≤ a ∧ a < 0x540))
    (h4 : ¬ (0x2000 ≤ a ∧ a < 0x2040)) (h5 : isDigitAddr a = false) : regAt a = .reserved := by
  unfold regAt
  rw [if_neg (by omega), if_neg h2, if_neg h3, if_neg h4, if_neg (by simp [h5])]

/-- In the control block, an address above RES is no register (10_state.md R34). -/
theorem regAt_control_reserved {a : Nat} (h1 : 0x2C ≤ a) (h2 : a < 0x400) : regAt a = .reserved := by
  unfold regAt controlReg
  rw [if_pos h2]
  repeat rw [if_neg (by omega)]

/-! Serving a transaction -/

theorem isWordAccess_iff (a : BitVec 20) (bits : Nat) : isWordAccess a bits = true ↔ a.toNat % 4 = 0 ∧ bits = 32 := by
  simp [isWordAccess]

variable (s : State)

theorem State.serve_read {a : BitVec 20} (h : a.toNat % 4 = 0) :
    s.serve (.read a 32) = s.respond (.readOkay (s.readReg (regAt a.toNat))) :=
  if_pos ((isWordAccess_iff a 32).2 ⟨h, rfl⟩)

theorem State.serve_write {a : BitVec 20} (h : a.toNat % 4 = 0) (w : Word) :
    s.serve (.write a 32 w) = (s.writeReg (regAt a.toNat) w).respond .writeOkay :=
  if_pos ((isWordAccess_iff a 32).2 ⟨h, rfl⟩)

theorem State.serve_read_error {a : BitVec 20} {bits : Nat} (h : a.toNat % 4 ≠ 0 ∨ bits ≠ 32) :
    s.serve (.read a bits) = s.respond .error :=
  if_neg (by rw [isWordAccess_iff]; omega)

theorem State.serve_write_error {a : BitVec 20} {bits : Nat} (h : a.toNat % 4 ≠ 0 ∨ bits ≠ 32) (w : Word) :
    s.serve (.write a bits w) = s.respond .error :=
  if_neg (by rw [isWordAccess_iff]; omega)

theorem State.busy_of_seq {s : State} {cw : Word} (h : s.seq = .busy cw) : s.busy = true := by
  unfold State.busy; rw [h]

theorem State.not_busy_of_idle {s : State} (h : s.seq = .idle) : ¬ s.busy = true := by
  unfold State.busy; rw [h]; exact Bool.false_ne_true

theorem State.writeReg_busy {s : State} {cw : Word} (h : s.seq = .busy cw) (r : Reg) (w : Word) :
    s.writeReg r w = s.writeBusy w r := if_pos (State.busy_of_seq h)

theorem State.writeReg_idle {s : State} (h : s.seq = .idle) (r : Reg) (w : Word) : s.writeReg r w = s.writeIdle w r :=
  if_neg (State.not_busy_of_idle h)

/-! A CTRL write (10_state.md R24; 70_reset_and_hazards.md R300, R309) -/

theorem State.writeCtrl_reset {w : Word} (h : w.getLsbD 31 = true) : s.writeCtrl w = s.softReset := if_pos h

theorem State.writeCtrl_busy {s : State} {cw : Word} (hs : s.seq = .busy cw) {w : Word} (h : w.getLsbD 31 = false) :
    s.writeCtrl w = s.setIe (w.getLsbD 1) :=
  (if_neg (by rw [h]; exact Bool.false_ne_true)).trans (if_pos (State.busy_of_seq hs))

theorem State.writeCtrl_idle {s : State} (hs : s.seq = .idle) {w : Word} (h : w.getLsbD 31 = false) :
    s.writeCtrl w = { s with ie := w.getLsbD 1, fmode := if w.getLsbD 0 then .fq else .zp } :=
  (if_neg (by rw [h]; exact Bool.false_ne_true)).trans (if_neg (State.not_busy_of_idle hs))

/-- While busy only a CTRL write with SRST = 1 is a soft reset; every other write leaves the command in flight
(70_reset_and_hazards.md R300, R309). -/
theorem State.writeBusy_not_reset {s : State} {cw : Word} (h : s.seq = .busy cw) {w : Word} {r : Reg}
    (hr : r = .ctrl → w.getLsbD 31 = false) :
    s.writeBusy w r = s.setIe (w.getLsbD 1) ∨ s.writeBusy w r = s.clearStatus w ∨ s.writeBusy w r = s.setOvr ∨
      s.writeBusy w r = s.setWign := by
  cases r with
  | ctrl => exact .inl (State.writeCtrl_busy h (hr rfl))
  | status => exact .inr (.inl rfl)
  | cmd => exact .inr (.inr (.inl rfl))
  | _ => exact .inr (.inr (.inr rfl))

/-- What a write while busy can do: a soft reset, new CTRL.IE, cleared status flags, OVR or WIGN; nothing else
(70_reset_and_hazards.md R309, R310). -/
theorem State.writeBusy_cases {s : State} {cw : Word} (h : s.seq = .busy cw) (w : Word) (r : Reg) :
    s.writeBusy w r = s.softReset ∨ s.writeBusy w r = s.setIe (w.getLsbD 1) ∨ s.writeBusy w r = s.clearStatus w ∨
      s.writeBusy w r = s.setOvr ∨ s.writeBusy w r = s.setWign := by
  by_cases hr : r = .ctrl ∧ w.getLsbD 31 = true
  · obtain ⟨rfl, hw⟩ := hr
    exact .inl (State.writeCtrl_reset s hw)
  · exact .inr (State.writeBusy_not_reset h fun h1 => Bool.eq_false_iff.2 fun h2 => hr ⟨h1, h2⟩)

end Sys2Proof.Machine
end

