-- ==== Sys2Proof/Laws/Decode.lean ====
section
/-! SUPPORT. The fields of a packed command word (30_encoding.md R90), one lemma per field. -/

namespace Sys2Proof

theorem Instr.opc_lt (i : Instr) : i.opc < 256 := by cases i <;> simp only [Instr.opc] <;> omega

variable {opc : Nat} (h : opc < 256) (d s1 s2 d2 d3 : Fin 16)

include h

theorem packWord_toNat : (packWord opc d s1 s2 d2 d3).toNat =
    opc + d * 2 ^ 8 + s1 * 2 ^ 12 + s2 * 2 ^ 16 + d2 * 2 ^ 20 + d3 * 2 ^ 24 := by
  unfold packWord
  rw [BitVec.toNat_ofNat]
  omega

theorem opcField_packWord : opcField (packWord opc d s1 s2 d2 d3) = opc := by
  unfold opcField; rw [packWord_toNat h]; omega

theorem fieldD_packWord : fieldD (packWord opc d s1 s2 d2 d3) = d := by
  apply Fin.ext; simp only [fieldD, indexField, packWord_toNat h]; omega

theorem fieldS1_packWord : fieldS1 (packWord opc d s1 s2 d2 d3) = s1 := by
  apply Fin.ext; simp only [fieldS1, indexField, packWord_toNat h]; omega

theorem fieldS2_packWord : fieldS2 (packWord opc d s1 s2 d2 d3) = s2 := by
  apply Fin.ext; simp only [fieldS2, indexField, packWord_toNat h]; omega

theorem fieldD2_packWord : fieldD2 (packWord opc d s1 s2 d2 d3) = d2 := by
  apply Fin.ext; simp only [fieldD2, indexField, packWord_toNat h]; omega

theorem fieldD3_packWord : fieldD3 (packWord opc d s1 s2 d2 d3) = d3 := by
  apply Fin.ext; simp only [fieldD3, indexField, packWord_toNat h]; omega

theorem fieldRsv_packWord : fieldRsv (packWord opc d s1 s2 d2 d3) = 0 := by
  apply Fin.ext; simp only [fieldRsv, indexField, packWord_toNat h, Fin.coe_ofNat_eq_mod]; omega

omit h in
/-- A word with RSV = 0 whose map entry is well formed decodes to it (30_encoding.md R96). -/
theorem decode_of_map {cw : Word} {i : Instr} (hr : fieldRsv cw = 0) (hm : opcodeMap cw = some i) (hw : i.wf = true) :
    decode cw = .ok i := by
  unfold decode; simp only [hr, hm, hw]; rfl

end Sys2Proof
end

