-- ==== Sys2Proof/Laws/Poly.lean ====
section
/-! SUPPORT. Small laws of the polynomial functions (42_poly.md section 1), for any field operations: coefficients, canonical
form and lengths. -/

namespace Sys2Proof.Machine

variable {α : Type} (K : FieldOps α)

/-! coef and trim (00_scope.md R11, 42_poly.md R150) -/

@[simp] theorem coef_nil (d : Nat) : coef K [] d = K.zero := rfl
@[simp] theorem coef_cons_zero (a : α) (g : List α) : coef K (a :: g) 0 = a := rfl
@[simp] theorem coef_cons_succ (a : α) (g : List α) (d : Nat) : coef K (a :: g) (d + 1) = coef K g d := rfl

theorem coef_of_length_le (g : List α) (d : Nat) (h : g.length ≤ d) : coef K g d = K.zero := by
  unfold coef
  rw [List.getD_eq_getElem?_getD, List.getElem?_eq_none_iff.2 h]
  rfl

theorem coef_of_lt (g : List α) (d : Nat) (h : d < g.length) : coef K g d = g[d] := by
  unfold coef
  rw [List.getD_eq_getElem?_getD, List.getElem?_eq_getElem h]
  rfl

theorem coef_map_range (f : Nat → α) (n d : Nat) :
    coef K ((List.range n).map f) d = if d < n then f d else K.zero := by
  by_cases h : d < n
  · rw [coef_of_lt K _ _ (by simpa using h)]; simp [h]
  · rw [coef_of_length_le K _ _ (by simpa using h)]; simp [h]

variable [DecidableEq α]

@[simp] theorem trim_nil : trim K [] = [] := rfl

theorem trim_cons (a : α) (g : List α) :
    trim K (a :: g) = if trim K g = [] then (if a = K.zero then [] else [a]) else a :: trim K g := by
  rw [trim]
  cases trim K g <;> simp

/-- Trimming changes no coefficient. -/
@[simp] theorem coef_trim (g : List α) (d : Nat) : coef K (trim K g) d = coef K g d := by
  induction g generalizing d with
  | nil => rfl
  | cons a g ih =>
    rw [trim_cons]
    by_cases h : trim K g = []
    · rw [if_pos h]
      have hz : ∀ d, coef K g d = K.zero := fun d => by rw [← ih d, h]; rfl
      by_cases ha : a = K.zero
      · cases d <;> simp [ha, hz]
      · cases d <;> simp [ha, hz]
    · rw [if_neg h]
      cases d <;> simp [ih]

theorem trim_length_le (g : List α) : (trim K g).length ≤ g.length := by
  induction g with
  | nil => simp
  | cons a g ih =>
    rw [trim_cons]
    split
    · split <;> simp
    · simpa using ih

/-- A canonical polynomial is one that trimming leaves alone (00_scope.md R11). -/
@[simp] theorem trim_trim (g : List α) : trim K (trim K g) = trim K g := by
  induction g with
  | nil => rfl
  | cons a g ih =>
    rw [trim_cons]
    by_cases h : trim K g = []
    · rw [if_pos h]
      by_cases ha : a = K.zero
      · simp [ha]
      · rw [if_neg ha, trim_cons]; simp [ha]
    · rw [if_neg h, trim_cons, ih, if_neg h]

/-- The last coefficient of a nonzero canonical polynomial is not 0K. -/
theorem lc_trim_ne_zero (g : List α) (h : trim K g ≠ []) : lc K (trim K g) ≠ K.zero := by
  induction g with
  | nil => exact absurd rfl h
  | cons a g ih =>
    rw [trim_cons] at h ⊢
    by_cases hg : trim K g = []
    · rw [if_pos hg] at h ⊢
      by_cases ha : a = K.zero
      · rw [if_pos ha] at h; exact absurd rfl h
      · rw [if_neg ha]; simpa [lc] using ha
    · rw [if_neg hg]
      have := ih hg
      unfold lc at this ⊢
      cases ht : trim K g with
      | nil => exact absurd ht hg
      | cons b t => rw [ht] at this; simpa using this

/-- A list whose last coefficient is not 0K is canonical (00_scope.md R11). -/
theorem trim_of_lc_ne_zero {g : List α} (h : lc K g ≠ K.zero) : trim K g = g := by
  induction g with
  | nil => rfl
  | cons a g ih =>
    cases g with
    | nil => rw [trim_cons]; exact if_neg h
    | cons b g =>
      have hl : lc K (b :: g) ≠ K.zero := h
      rw [trim_cons, ih hl, if_neg (List.cons_ne_nil b g)]

/-- Polynomials with the same coefficients have the same canonical form. -/
theorem trim_eq_of_coef {g h : List α} (hc : ∀ d, coef K g d = coef K h d) : trim K g = trim K h := by
  induction g generalizing h with
  | nil =>
    induction h with
    | nil => rfl
    | cons b h ih =>
      have h0 := hc 0
      have hs : trim K h = [] := (ih fun d => hc (d + 1)).symm
      rw [trim_cons, if_pos hs, if_pos (by simpa using h0.symm)]
      rfl
  | cons a g ih =>
    cases h with
    | nil =>
      have h0 : a = K.zero := hc 0
      have hs : trim K g = [] := ih (h := []) fun d => hc (d + 1)
      rw [trim_cons, if_pos hs, if_pos h0]
      rfl
    | cons b h =>
      have h0 : a = b := hc 0
      have hs : trim K g = trim K h := ih fun d => hc (d + 1)
      rw [trim_cons, trim_cons, hs, h0]

/-! Additive combinations (R151) -/

theorem padd_length_le (g h : List α) : (padd K g h).length ≤ max g.length h.length := by
  unfold padd
  exact (trim_length_le K _).trans (by simp)

theorem pneg_length_le (g : List α) : (pneg K g).length ≤ g.length := by
  unfold pneg
  exact (trim_length_le K _).trans (by simp)

theorem psub_length_le (g h : List α) : (psub K g h).length ≤ max g.length h.length :=
  (padd_length_le K _ _).trans (by have := pneg_length_le K h; omega)

theorem pscale_length_le (c : α) (g : List α) : (pscale K c g).length ≤ g.length := by
  unfold pscale
  exact (trim_length_le K _).trans (by simp)

@[simp] theorem trim_padd (g h : List α) : trim K (padd K g h) = padd K g h := by simp [padd]
@[simp] theorem trim_pneg (g : List α) : trim K (pneg K g) = pneg K g := by simp [pneg]
@[simp] theorem trim_psub (g h : List α) : trim K (psub K g h) = psub K g h := by simp [psub]
@[simp] theorem trim_pscale (c : α) (g : List α) : trim K (pscale K c g) = pscale K c g := by simp [pscale]

/-- Coefficient d of a sum (R151). -/
theorem coef_padd (hz : K.add K.zero K.zero = K.zero) (g h : List α) (d : Nat) :
    coef K (padd K g h) d = K.add (coef K g d) (coef K h d) := by
  unfold padd
  rw [coef_trim, coef_map_range]
  split
  · rfl
  · rename_i hd
    rw [coef_of_length_le K g d (by omega), coef_of_length_le K h d (by omega), hz]

/-! Products (R152) -/

theorem pmul_length_le (g h : List α) : (pmul K g h).length ≤ g.length + h.length - 1 := by
  unfold pmul
  split
  · simp
  · exact (trim_length_le K _).trans (by simp)

/-- A product whose top convolution coefficient is not 0K has the full length (R152). -/
theorem pmul_length_of_top {g h : List α} (hg : g ≠ []) (hh : h ≠ [])
    (ht : convCoef K g h (g.length + h.length - 2) ≠ K.zero) : (pmul K g h).length = g.length + h.length - 1 := by
  have h1 := List.length_pos_iff.2 hg
  have h2 := List.length_pos_iff.2 hh
  unfold pmul
  rw [if_neg (by simp [hg, hh]), trim_of_lc_ne_zero]
  · simp
  · have e : g.length + h.length - 1 = g.length + h.length - 2 + 1 := by omega
    rw [e, List.range_succ, List.map_append]
    unfold lc
    rw [List.getLastD_eq_getLast?, List.map_singleton, List.getLast?_concat]
    exact ht

@[simp] theorem trim_pmul (g h : List α) : trim K (pmul K g h) = pmul K g h := by
  unfold pmul; split <;> simp

@[simp] theorem pmul_nil_left (h : List α) : pmul K [] h = [] := by simp [pmul]
@[simp] theorem pmul_nil_right (g : List α) : pmul K g [] = [] := by simp [pmul]

/-! Division (R157): the quotient is never longer than its slots. -/

theorem divLoop_quotient_length (h : List α) (ci : α) (n : Nat) : ∀ q r, (divLoop K h ci n q r).1.length = q.length := by
  induction n with
  | zero => intro q r; rfl
  | succ n ih =>
    intro q r
    simp only [divLoop]
    split
    · rw [ih]; simp
    · rfl

theorem divCore_quotient_length_le (g h : List α) : (divCore K g h).1.length ≤ g.length + 1 - h.length := by
  unfold divCore
  dsimp only
  split
  · refine (trim_length_le K _).trans ?_
    rw [divLoop_quotient_length]; simp
  · exact (trim_length_le K _).trans (by simp)

/-- Each round of the division keeps the remainder no longer than it was (R157). -/
theorem divLoop_remainder_length_le (h : List α) (ci : α) (n : Nat) :
    ∀ q r, (divLoop K h ci n q r).2.length ≤ r.length := by
  induction n with
  | zero => intro q r; exact le_rfl
  | succ n ih =>
    intro q r
    unfold divLoop
    split
    · rename_i hr
      have h1 := psub_length_le K r (List.replicate (r.length - h.length) K.zero ++ pscale K (K.mul (lc K r) ci) h)
      have h2 := pscale_length_le K (K.mul (lc K r) ci) h
      refine (ih _ _).trans (h1.trans ?_)
      simp only [List.length_append, List.length_replicate]
      omega
    · exact le_rfl

/-- The remainder is no longer than the longer operand, whatever the operations are (R157). -/
theorem divCore_remainder_length_le (g h : List α) : (divCore K g h).2.length ≤ max g.length h.length := by
  unfold divCore
  dsimp only
  split
  · exact (divLoop_remainder_length_le K h _ _ _ _).trans (le_max_left _ _)
  · have := trim_length_le K ((List.range (h.length - 1)).map (K.unstatedRemainder g h))
    simp only [List.length_map, List.length_range] at this
    dsimp only
    omega

end Sys2Proof.Machine
end

