-- ==== Sys2Proof/Laws/Exec.lean ====
section
/-! SUPPORT. Everything a command can do, said once: it answers a next state, which is the state completed with an error
code and nothing else changed, or the state with the command's writes committed and completed OK
(60_exceptions.md R269, R270). -/

namespace Sys2Proof.Machine

/-- A code that a command can raise: not OK, and not the reserved DEGENERATE (60_exceptions.md R261, R264). -/
def ErrCode.raised (c : ErrCode) : Prop := c ≠ .ok ∧ c ≠ .degenerate

/-- A computation that fails only with codes that a command can raise. -/
def GoodRaise {β : Type} (x : Except ErrCode β) : Prop := ∀ c, x = .error c → c.raised

/-- A write that stays inside its destination: at most 512 coefficients, at most 256 words. -/
def WriteOk : Write → Prop
  | .elem _ _ => True
  | .poly _ g => g.length ≤ 512
  | .words ws => ws.length ≤ 256
  | .res _ => True

/-- What the body of a command may answer. -/
def BodyOk (r : Except ErrCode (List Write)) : Prop := GoodRaise r ∧ ∀ ws, r = .ok ws → ∀ w ∈ ws, WriteOk w

@[simp] theorem ok_bind {β γ : Type} (v : β) (f : β → Except ErrCode γ) : ((Except.ok v : Except ErrCode β) >>= f) = f v := rfl

@[simp] theorem error_bind {β γ : Type} (c : ErrCode) (f : β → Except ErrCode γ) :
    ((Except.error c : Except ErrCode β) >>= f) = .error c := rfl

@[simp] theorem finish_ok (s : State) (ws : List Write) : finish s (.ok ws) = .next ((s.commit ws).complete .ok) := rfl

@[simp] theorem finish_pure (s : State) (ws : List Write) : finish s (pure ws) = .next ((s.commit ws).complete .ok) := rfl

@[simp] theorem finish_error (s : State) (c : ErrCode) : finish s (.error c) = .next (s.complete c) := rfl

@[simp] theorem finish_throw (s : State) (c : ErrCode) : finish s (throw c) = .next (s.complete c) := rfl

theorem goodRaise_ok {β : Type} (v : β) : GoodRaise (.ok v : Except ErrCode β) := by intro c h; cases h

theorem goodRaise_error {β : Type} {c : ErrCode} (h : c.raised) : GoodRaise (.error c : Except ErrCode β) := by
  intro c' h'; cases h'; exact h

theorem goodRaise_ite {β : Type} {p : Prop} [Decidable p] {x y : Except ErrCode β} (hx : GoodRaise x) (hy : GoodRaise y) :
    GoodRaise (if p then x else y) := by split <;> assumption

theorem goodRaise_mapRaise {β γ : Type} {f : β → Except ErrCode γ} (hf : ∀ b, GoodRaise (f b)) (l : List β) :
    GoodRaise (mapRaise f l) := by
  induction l with
  | nil => exact goodRaise_ok _
  | cons b l ih =>
    simp only [mapRaise]
    split
    · rename_i c h; exact goodRaise_error (hf _ _ h)
    · split
      · rename_i c h; exact goodRaise_error (ih _ h)
      · exact goodRaise_ok _

theorem mapRaise_length {β γ : Type} {f : β → Except ErrCode γ} {l : List β} {vs : List γ} (h : mapRaise f l = .ok vs) :
    vs.length = l.length := by
  induction l generalizing vs with
  | nil => simp only [mapRaise] at h; cases h; rfl
  | cons b l ih =>
    simp only [mapRaise] at h
    split at h
    · cases h
    · split at h
      · cases h
      · rename_i vs' h'; cases h; simp [ih h']

section Raises

variable {α : Type} [DecidableEq α] (K : FieldOps α)

theorem raised_divZero : ErrCode.raised .divZero := ⟨by decide, by decide⟩
theorem raised_dim : ErrCode.raised .dim := ⟨by decide, by decide⟩
theorem raised_config : ErrCode.raised .config := ⟨by decide, by decide⟩
theorem raised_range : ErrCode.raised .range := ⟨by decide, by decide⟩
theorem raised_illegal : ErrCode.raised .illegal := ⟨by decide, by decide⟩

theorem goodRaise_invK (a : α) : GoodRaise (invK K a) :=
  goodRaise_ite (goodRaise_error raised_divZero) (goodRaise_ok _)

theorem goodRaise_powK (a : α) (e : Int) : GoodRaise (powK K a e) := by
  unfold powK
  refine goodRaise_ite ?_ (goodRaise_ok _)
  split
  · rename_i c h; exact goodRaise_error (goodRaise_invK K a _ h)
  · exact goodRaise_ok _

theorem goodRaise_pdivmod (g h : List α) : GoodRaise (pdivmod K g h) :=
  goodRaise_ite (goodRaise_error raised_divZero) (goodRaise_ok _)

theorem goodRaise_pgcd (g h : List α) : GoodRaise (pgcd K g h) :=
  goodRaise_ite (goodRaise_error raised_divZero) (goodRaise_ok _)

theorem goodRaise_pgcdx (g h : List α) : GoodRaise (pgcdx K g h) :=
  goodRaise_ite (goodRaise_error raised_divZero) (goodRaise_ok _)

theorem goodRaise_ppowmod (g : List α) (e : Nat) (h : List α) : GoodRaise (ppowmod K g e h) :=
  goodRaise_ite (goodRaise_error raised_divZero) (goodRaise_ok _)

theorem goodRaise_pirred (q : Nat) (h : List α) : GoodRaise (pirred K q h) := by
  unfold pirred
  exact goodRaise_ite (goodRaise_error raised_divZero)
    (goodRaise_ite (goodRaise_ok _) (goodRaise_ite (goodRaise_ok _) (goodRaise_ok _)))

theorem goodRaise_interpLoop (xs ys : List α) (l : List Nat) : ∀ res, GoodRaise (interpLoop K xs ys l res) := by
  induction l with
  | nil => intro res; exact goodRaise_ok _
  | cons i l ih =>
    intro res
    simp only [interpLoop]
    split
    · rename_i c h; exact goodRaise_error (goodRaise_invK K _ _ h)
    · exact ih _

theorem goodRaise_pinterp (xs ys : List α) : GoodRaise (pinterp K xs ys) := goodRaise_interpLoop K xs ys _ _

theorem goodRaise_genLoop (a : α) (n : Nat) : ∀ j G, GoodRaise (genLoop K a n j G) := by
  induction n with
  | zero => intro j G; exact goodRaise_ok _
  | succ n ih =>
    intro j G
    simp only [genLoop]
    split
    · rename_i c h; exact goodRaise_error (goodRaise_powK K _ _ _ h)
    · exact ih _ _

theorem goodRaise_genPoly (n k : Nat) (a : α) (i : Int) : GoodRaise (genPoly K n k a i) := goodRaise_genLoop K a _ _ _

theorem goodRaise_syndromes (n k : Nat) (a : α) (i : Int) (r : List α) : GoodRaise (syndromes K n k a i r) := by
  refine goodRaise_mapRaise (fun l => ?_) _
  split
  · rename_i c h; exact goodRaise_error (goodRaise_powK K _ _ _ h)
  · exact goodRaise_ok _

theorem goodRaise_lakeySolve (n k : Nat) (xs ys : List α) : GoodRaise (lakeySolve K n k xs ys) := by
  unfold lakeySolve
  split
  · rename_i c h; exact goodRaise_error (goodRaise_pinterp K _ _ _ h)
  · exact goodRaise_ok _

theorem goodRaise_decodeLa (n k : Nat) (xs ys : List α) : GoodRaise (decodeLa K n k xs ys) := by
  unfold decodeLa
  split
  · rename_i c h; exact goodRaise_error (goodRaise_lakeySolve K _ _ _ _ _ h)
  · split
    · rename_i c h; exact goodRaise_error (goodRaise_pdivmod K _ _ _ h)
    · exact goodRaise_ok _

theorem goodRaise_decodeEe (n k : Nat) (xs ys : List α) : GoodRaise (decodeEe K n k xs ys) := by
  unfold decodeEe
  split
  · rename_i c h; exact goodRaise_error (goodRaise_pinterp K _ _ _ h)
  · dsimp only
    split
    · rename_i c h; exact goodRaise_error (goodRaise_pdivmod K _ _ _ h)
    · exact goodRaise_ok _

theorem goodRaise_rootPositions (a : α) (locator : List α) (l : List Nat) : GoodRaise (rootPositions K a locator l) := by
  induction l with
  | nil => exact goodRaise_ok _
  | cons j l ih =>
    simp only [rootPositions]
    split
    · rename_i c h; exact goodRaise_error (goodRaise_powK K _ _ _ h)
    · split
      · rename_i c h; exact goodRaise_error (ih _ h)
      · exact goodRaise_ok _

theorem goodRaise_magnitudeRows (a : α) (i : Int) (S : List α) (J : List Nat) (v : Nat) :
    GoodRaise (magnitudeRows K a i S J v) := by
  refine goodRaise_mapRaise (fun l => ?_) _
  split
  · rename_i c h; exact goodRaise_error (goodRaise_mapRaise (fun j => goodRaise_powK K _ _) _ _ h)
  · exact goodRaise_ok _

theorem goodRaise_bchSteps (n k : Nat) (a : α) (i : Int) (r : List α) : GoodRaise (bchSteps K n k a i r) := by
  unfold bchSteps
  split
  · rename_i c h; exact goodRaise_error (goodRaise_syndromes K _ _ _ _ _ _ h)
  · dsimp only
    split
    · rename_i c h; exact goodRaise_error (goodRaise_rootPositions K _ _ _ _ h)
    · split
      · rename_i c h; exact goodRaise_error (goodRaise_magnitudeRows K _ _ _ _ _ _ h)
      · exact goodRaise_ok _

theorem goodRaise_decodeBch (n k : Nat) (G : List α) (a : α) (i : Int) (r : List α) :
    GoodRaise (decodeBch K n k G a i r) := by
  unfold decodeBch
  split
  · rename_i c h; exact goodRaise_error (goodRaise_bchSteps K _ _ _ _ _ _ h)
  · split
    · rename_i c h; exact goodRaise_error (goodRaise_pdivmod K _ _ _ h)
    · exact goodRaise_ok _

end Raises

section Operands

variable (s : State) (F : FieldCtx)

theorem goodRaise_field : GoodRaise s.field := goodRaise_ite (goodRaise_ok _) (goodRaise_error raised_config)

theorem goodRaise_shapeN : GoodRaise s.shapeN := goodRaise_ite (goodRaise_ok _) (goodRaise_error raised_dim)

/-- ShapeN bounds n (10_state.md R38). -/
theorem shapeN_ok {s : State} {n : Nat} (h : s.shapeN = .ok n) : n = s.nlen.toNat ∧ 1 ≤ n ∧ n ≤ 256 := by
  unfold State.shapeN at h
  split at h
  · rename_i hn; cases h; exact ⟨rfl, hn⟩
  · cases h

theorem goodRaise_shapeNK : GoodRaise s.shapeNK := by
  unfold State.shapeNK
  split
  · rename_i c h; exact goodRaise_error (goodRaise_shapeN s _ h)
  · exact goodRaise_ite (goodRaise_ok _) (goodRaise_error raised_dim)

theorem goodRaise_elemOfDigits (ds : List Nat) : GoodRaise (elemOfDigits F ds) :=
  goodRaise_ite (goodRaise_ok _) (goodRaise_error raised_range)

theorem goodRaise_readE (r : EReg) : GoodRaise (s.readE F r) := goodRaise_elemOfDigits F _

theorem goodRaise_readAlpha : GoodRaise (s.readAlpha F) := goodRaise_elemOfDigits F _

theorem goodRaise_readP (r : PReg) : GoodRaise (s.readP F r) := by
  unfold State.readP
  refine goodRaise_ite (goodRaise_error raised_range) ?_
  split
  · rename_i c h; exact goodRaise_error (goodRaise_mapRaise (fun _ => goodRaise_elemOfDigits F _) _ _ h)
  · exact goodRaise_ok _

theorem goodRaise_readA (n : Nat) : GoodRaise (s.readA F n) := goodRaise_mapRaise (fun _ => goodRaise_elemOfDigits F _) _

theorem goodRaise_readW (n : Nat) : GoodRaise (s.readW F n) := goodRaise_mapRaise (fun _ => goodRaise_elemOfDigits F _) _

theorem goodRaise_polyDest (d : PReg) (g : Poly) : GoodRaise (polyDest d g) :=
  goodRaise_ite (goodRaise_error raised_dim) (goodRaise_ok _)

/-- A polynomial destination that is accepted (10_state.md R44). -/
theorem polyDest_ok {d : PReg} {g : Poly} {w : Write} (h : polyDest d g = .ok w) : w = .poly d g ∧ g.length ≤ 512 := by
  unfold polyDest at h
  split at h
  · cases h
  · rename_i hg; cases h; exact ⟨rfl, by simp only [Config.lMax] at hg; omega⟩

theorem polyDest_of_le {d : PReg} {g : Poly} (h : g.length ≤ 512) : polyDest d g = .ok (.poly d g) :=
  if_neg (by simp only [Config.lMax]; omega)

theorem polyDest_of_gt {d : PReg} {g : Poly} (h : 512 < g.length) : polyDest d g = .error .dim :=
  if_pos (by simp only [Config.lMax]; omega)

/-- A polynomial that was read has at most 512 coefficients (10_state.md R43). -/
theorem readP_length {s : State} {F : FieldCtx} {r : PReg} {g : Poly} (h : s.readP F r = .ok g) : g.length ≤ 512 := by
  unfold State.readP at h
  dsimp only at h
  split at h
  · cases h
  · rename_i hl
    split at h
    · cases h
    · rename_i x hx
      cases h
      have h1 := trim_length_le F.ops x
      have h2 := mapRaise_length hx
      simp only [List.length_range, Config.lMax] at h2 hl
      omega

theorem writeOk_polyDest {d : PReg} {g : Poly} {w : Write} (h : polyDest d g = .ok w) : WriteOk w := by
  obtain ⟨rfl, hg⟩ := polyDest_ok h; exact hg

end Operands

/-! Bodies, put together from their parts -/

theorem bodyOk_bind {β : Type} {x : Except ErrCode β} {f : β → Except ErrCode (List Write)} (hx : GoodRaise x)
    (hf : ∀ v, x = .ok v → BodyOk (f v)) : BodyOk (x >>= f) := by
  cases x with
  | error c => exact ⟨goodRaise_error (hx c rfl), by intro ws h; cases h⟩
  | ok v => exact hf v rfl

theorem bodyOk_return {ws : List Write} (h : ∀ w ∈ ws, WriteOk w) : BodyOk (pure ws) :=
  ⟨goodRaise_ok _, by intro ws' h'; cases h'; exact h⟩

theorem bodyOk_throw {p : Prop} [Decidable p] {c : ErrCode} (hc : c.raised) {r : Except ErrCode (List Write)} (hr : BodyOk r) :
    BodyOk (if p then throw c else r) := by
  split
  · exact ⟨goodRaise_error hc, by intro ws h; cases h⟩
  · exact hr

/-- How a command ends (60_exceptions.md R269, R270). -/
inductive Ends (s : State) : Host.Outcome State Fault Refusal → Prop where
  | error (c : ErrCode) (hc : c.raised) : Ends s (.next (s.complete c))
  | ok (ws : List Write) (hw : ∀ w ∈ ws, WriteOk w) : Ends s (.next ((s.commit ws).complete .ok))

theorem finish_ends (s : State) {r : Except ErrCode (List Write)} (h : BodyOk r) : Ends s (finish s r) := by
  cases r with
  | error c => exact .error c (h.1 c rfl)
  | ok ws => exact .ok ws (h.2 ws rfl)

theorem execNop_ends (s : State) : Ends s (execNop s) := .ok [] (by simp)

theorem execFzero_ends (d : EReg) (s : State) : Ends s (execFzero d s) :=
  finish_ends s (bodyOk_bind (goodRaise_field s) fun _ _ => bodyOk_return (by simp [WriteOk]))

theorem execFone_ends (d : EReg) (s : State) : Ends s (execFone d s) :=
  finish_ends s (bodyOk_bind (goodRaise_field s) fun _ _ => bodyOk_return (by simp [WriteOk]))

theorem execFadd_ends (d s1 s2 : EReg) (s : State) : Ends s (execFadd d s1 s2 s) :=
  finish_ends s (bodyOk_bind (goodRaise_field s) fun F _ => bodyOk_bind (goodRaise_readE s F _) fun _ _ =>
    bodyOk_bind (goodRaise_readE s F _) fun _ _ => bodyOk_return (by simp [WriteOk]))

theorem execFneg_ends (d s1 : EReg) (s : State) : Ends s (execFneg d s1 s) :=
  finish_ends s (bodyOk_bind (goodRaise_field s) fun F _ => bodyOk_bind (goodRaise_readE s F _) fun _ _ =>
    bodyOk_return (by simp [WriteOk]))

theorem execFmul_ends (d s1 s2 : EReg) (s : State) : Ends s (execFmul d s1 s2 s) :=
  finish_ends s (bodyOk_bind (goodRaise_field s) fun F _ => bodyOk_bind (goodRaise_readE s F _) fun _ _ =>
    bodyOk_bind (goodRaise_readE s F _) fun _ _ => bodyOk_return (by simp [WriteOk]))

theorem execFinv_ends (d s1 : EReg) (s : State) : Ends s (execFinv d s1 s) :=
  finish_ends s (bodyOk_bind (goodRaise_field s) fun F _ => bodyOk_bind (goodRaise_readE s F _) fun _ _ =>
    bodyOk_bind (goodRaise_invK _ _) fun _ _ => bodyOk_return (by simp [WriteOk]))

theorem execFpow_ends (d s1 : EReg) (s : State) : Ends s (execFpow d s1 s) :=
  finish_ends s (bodyOk_bind (goodRaise_field s) fun F _ => bodyOk_bind (goodRaise_readE s F _) fun _ _ =>
    bodyOk_bind (goodRaise_powK _ _ _) fun _ _ => bodyOk_return (by simp [WriteOk]))

/-- The end of every command with one polynomial destination. -/
theorem bodyOk_polyDest (d : PReg) (g : Poly) : BodyOk (do let w ← polyDest d g; return [w]) :=
  bodyOk_bind (goodRaise_polyDest d g) fun _ h => bodyOk_return (by simpa using writeOk_polyDest h)

theorem execPadd_ends (d s1 s2 : PReg) (s : State) : Ends s (execPadd d s1 s2 s) :=
  finish_ends s (bodyOk_bind (goodRaise_field s) fun F _ => bodyOk_bind (goodRaise_readP s F _) fun _ _ =>
    bodyOk_bind (goodRaise_readP s F _) fun _ _ => bodyOk_polyDest d _)

theorem execPneg_ends (d s1 : PReg) (s : State) : Ends s (execPneg d s1 s) :=
  finish_ends s (bodyOk_bind (goodRaise_field s) fun F _ => bodyOk_bind (goodRaise_readP s F _) fun _ _ =>
    bodyOk_polyDest d _)

theorem execPmul_ends (d s1 s2 : PReg) (s : State) : Ends s (execPmul d s1 s2 s) :=
  finish_ends s (bodyOk_bind (goodRaise_field s) fun F _ => bodyOk_bind (goodRaise_readP s F _) fun _ _ =>
    bodyOk_bind (goodRaise_readP s F _) fun _ _ => bodyOk_polyDest d _)

theorem execPdiv_ends (d d2 s1 s2 : PReg) (s : State) : Ends s (execPdiv d d2 s1 s2 s) :=
  finish_ends s (bodyOk_throw raised_illegal (bodyOk_bind (goodRaise_field s) fun F _ =>
    bodyOk_bind (goodRaise_readP s F _) fun _ _ => bodyOk_bind (goodRaise_readP s F _) fun _ _ =>
    bodyOk_bind (goodRaise_pdivmod _ _ _) fun _ _ => bodyOk_bind (goodRaise_polyDest _ _) fun _ h1 =>
    bodyOk_bind (goodRaise_polyDest _ _) fun _ h2 =>
    bodyOk_return (by simp [writeOk_polyDest h1, writeOk_polyDest h2])))

theorem execPgcd_ends (d s1 s2 : PReg) (s : State) : Ends s (execPgcd d s1 s2 s) :=
  finish_ends s (bodyOk_bind (goodRaise_field s) fun F _ => bodyOk_bind (goodRaise_readP s F _) fun _ _ =>
    bodyOk_bind (goodRaise_readP s F _) fun _ _ => bodyOk_bind (goodRaise_pgcd _ _ _) fun _ _ => bodyOk_polyDest d _)

theorem execPgcdx_ends (d d2 d3 s1 s2 : PReg) (s : State) : Ends s (execPgcdx d d2 d3 s1 s2 s) :=
  finish_ends s (bodyOk_throw raised_illegal (bodyOk_bind (goodRaise_field s) fun F _ =>
    bodyOk_bind (goodRaise_readP s F _) fun _ _ => bodyOk_bind (goodRaise_readP s F _) fun _ _ =>
    bodyOk_bind (goodRaise_pgcdx _ _ _) fun _ _ => bodyOk_bind (goodRaise_polyDest _ _) fun _ h1 =>
    bodyOk_bind (goodRaise_polyDest _ _) fun _ h2 => bodyOk_bind (goodRaise_polyDest _ _) fun _ h3 =>
    bodyOk_return (by simp [writeOk_polyDest h1, writeOk_polyDest h2, writeOk_polyDest h3])))

theorem execPeval_ends (d : EReg) (s1 : PReg) (s2 : EReg) (s : State) : Ends s (execPeval d s1 s2 s) :=
  finish_ends s (bodyOk_bind (goodRaise_field s) fun F _ => bodyOk_bind (goodRaise_readP s F _) fun _ _ =>
    bodyOk_bind (goodRaise_readE s F _) fun _ _ => bodyOk_return (by simp [WriteOk]))

theorem execPinterp_ends (d : PReg) (s : State) : Ends s (execPinterp d s) :=
  finish_ends s (bodyOk_bind (goodRaise_field s) fun F _ => bodyOk_bind (goodRaise_shapeN s) fun _ _ =>
    bodyOk_bind (goodRaise_readA s F _) fun _ _ => bodyOk_bind (goodRaise_readW s F _) fun _ _ =>
    bodyOk_bind (goodRaise_pinterp _ _ _) fun _ _ => bodyOk_polyDest d _)

theorem execPpowmod_ends (d s1 s2 : PReg) (s : State) : Ends s (execPpowmod d s1 s2 s) :=
  finish_ends s (bodyOk_bind (goodRaise_field s) fun F _ => bodyOk_bind (goodRaise_readP s F _) fun _ _ =>
    bodyOk_bind (goodRaise_readP s F _) fun _ _ => bodyOk_throw raised_range (bodyOk_bind (goodRaise_ppowmod _ _ _ _) fun _ _ =>
    bodyOk_polyDest d _))

theorem execPirred_ends (s1 : PReg) (s : State) : Ends s (execPirred s1 s) :=
  finish_ends s (bodyOk_bind (goodRaise_field s) fun F _ => bodyOk_bind (goodRaise_readP s F _) fun _ _ =>
    bodyOk_bind (goodRaise_pirred _ _ _) fun _ _ => bodyOk_return (by simp [WriteOk]))

theorem execPreduce_ends (d s1 : PReg) (s : State) : Ends s (execPreduce d s1 s) :=
  finish_ends s (bodyOk_bind (goodRaise_field s) fun F _ => bodyOk_bind (goodRaise_readP s F _) fun _ _ =>
    bodyOk_polyDest d _)

theorem execGenpoly_ends (d : PReg) (s : State) : Ends s (execGenpoly d s) :=
  finish_ends s (bodyOk_bind (goodRaise_field s) fun F _ => bodyOk_bind (goodRaise_shapeNK s) fun _ _ =>
    bodyOk_bind (goodRaise_readAlpha s F) fun _ _ => bodyOk_bind (goodRaise_genPoly _ _ _ _ _) fun _ _ => bodyOk_polyDest d _)

theorem execEncEval_ends (s1 : PReg) (s : State) : Ends s (execEncEval s1 s) :=
  finish_ends s (bodyOk_bind (goodRaise_field s) fun F _ => bodyOk_bind (goodRaise_shapeN s) fun n hn =>
    bodyOk_bind (goodRaise_readP s F _) fun _ _ => bodyOk_bind (goodRaise_readA s F _) fun xs hx =>
    bodyOk_return (by
      have h1 := mapRaise_length hx
      have h2 := shapeN_ok hn
      simp only [List.length_range] at h1
      simp only [List.mem_singleton, forall_eq, WriteOk, List.length_map]
      omega))

theorem execEncGen_ends (s1 s2 : PReg) (s : State) : Ends s (execEncGen s1 s2 s) :=
  finish_ends s (bodyOk_bind (goodRaise_field s) fun F _ => bodyOk_bind (goodRaise_shapeN s) fun n hn =>
    bodyOk_bind (goodRaise_readP s F _) fun _ _ => bodyOk_bind (goodRaise_readP s F _) fun _ _ =>
    bodyOk_throw raised_dim (bodyOk_return (by
      have h2 := shapeN_ok hn
      simp only [List.mem_singleton, forall_eq, WriteOk, List.length_map, List.length_range]
      omega)))

theorem execDecLa_ends (d : PReg) (s : State) : Ends s (execDecLa d s) :=
  finish_ends s (bodyOk_bind (goodRaise_field s) fun F _ => bodyOk_bind (goodRaise_shapeNK s) fun _ _ =>
    bodyOk_bind (goodRaise_readA s F _) fun _ _ => bodyOk_bind (goodRaise_readW s F _) fun _ _ =>
    bodyOk_bind (goodRaise_decodeLa _ _ _ _ _) fun _ _ => bodyOk_polyDest d _)

theorem execDecEe_ends (d : PReg) (s : State) : Ends s (execDecEe d s) :=
  finish_ends s (bodyOk_bind (goodRaise_field s) fun F _ => bodyOk_bind (goodRaise_shapeNK s) fun _ _ =>
    bodyOk_bind (goodRaise_readA s F _) fun _ _ => bodyOk_bind (goodRaise_readW s F _) fun _ _ =>
    bodyOk_bind (goodRaise_decodeEe _ _ _ _ _) fun _ _ => bodyOk_polyDest d _)

theorem execDecBch_ends (d s1 : PReg) (s : State) : Ends s (execDecBch d s1 s) :=
  finish_ends s (bodyOk_bind (goodRaise_field s) fun F _ => bodyOk_bind (goodRaise_shapeNK s) fun _ _ =>
    bodyOk_bind (goodRaise_readP s F _) fun _ _ => bodyOk_bind (goodRaise_readAlpha s F) fun _ _ =>
    bodyOk_bind (goodRaise_readW s F _) fun _ _ => bodyOk_bind (goodRaise_decodeBch _ _ _ _ _ _ _) fun _ _ =>
    bodyOk_polyDest d _)

theorem execSynd_ends (d : PReg) (s : State) : Ends s (execSynd d s) :=
  finish_ends s (bodyOk_bind (goodRaise_field s) fun F _ => bodyOk_bind (goodRaise_shapeNK s) fun _ _ =>
    bodyOk_bind (goodRaise_readAlpha s F) fun _ _ => bodyOk_bind (goodRaise_readW s F _) fun _ _ =>
    bodyOk_bind (goodRaise_syndromes _ _ _ _ _ _) fun _ _ => bodyOk_polyDest d _)

theorem execElp_ends (d s1 : PReg) (s : State) : Ends s (execElp d s1 s) :=
  finish_ends s (bodyOk_bind (goodRaise_field s) fun F _ => bodyOk_bind (goodRaise_shapeNK s) fun _ _ =>
    bodyOk_bind (goodRaise_readP s F _) fun _ _ => bodyOk_bind (goodRaise_polyDest d _) fun _ h =>
    bodyOk_return (List.forall_mem_cons.2 ⟨writeOk_polyDest h, by simp [WriteOk]⟩))

theorem execLakey_ends (d d2 : PReg) (s : State) : Ends s (execLakey d d2 s) :=
  finish_ends s (bodyOk_throw raised_illegal (bodyOk_bind (goodRaise_field s) fun F _ =>
    bodyOk_bind (goodRaise_shapeNK s) fun _ _ => bodyOk_bind (goodRaise_readA s F _) fun _ _ =>
    bodyOk_bind (goodRaise_readW s F _) fun _ _ => bodyOk_bind (goodRaise_lakeySolve _ _ _ _ _) fun _ _ =>
    bodyOk_bind (goodRaise_polyDest _ _) fun _ h1 => bodyOk_bind (goodRaise_polyDest _ _) fun _ h2 =>
    bodyOk_return (by simp [writeOk_polyDest h1, writeOk_polyDest h2])))

/-- Everything a command can do (60_exceptions.md R269, R270). -/
theorem exec_ends (i : Instr) (s : State) : Ends s (exec i s) := by
  cases i with
  | nop => exact execNop_ends s
  | fzero d => exact execFzero_ends d s
  | fone d => exact execFone_ends d s
  | fadd d a b => exact execFadd_ends d a b s
  | fneg d a => exact execFneg_ends d a s
  | fmul d a b => exact execFmul_ends d a b s
  | finv d a => exact execFinv_ends d a s
  | fpow d a => exact execFpow_ends d a s
  | padd d a b => exact execPadd_ends d a b s
  | pneg d a => exact execPneg_ends d a s
  | pmul d a b => exact execPmul_ends d a b s
  | pdiv d d2 a b => exact execPdiv_ends d d2 a b s
  | pgcd d a b => exact execPgcd_ends d a b s
  | pgcdx d d2 d3 a b => exact execPgcdx_ends d d2 d3 a b s
  | peval d a b => exact execPeval_ends d a b s
  | pinterp d => exact execPinterp_ends d s
  | ppowmod d a b => exact execPpowmod_ends d a b s
  | pirred a => exact execPirred_ends a s
  | preduce d a => exact execPreduce_ends d a s
  | genpoly d => exact execGenpoly_ends d s
  | encEval a => exact execEncEval_ends a s
  | encGen a b => exact execEncGen_ends a b s
  | decLa d => exact execDecLa_ends d s
  | decEe d => exact execDecEe_ends d s
  | decBch d a => exact execDecBch_ends d a s
  | synd d => exact execSynd_ends d s
  | elp d a => exact execElp_ends d a s
  | lakey d d2 => exact execLakey_ends d d2 s

end Sys2Proof.Machine
end

