-- ==== Sys2Proof/Laws/Operands.lean ====
section
/-! SUPPORT. What the checks and the operand reads of a command answer, in the words of the statements (Safety): the
configuration check, the shape checks, reading a slot, a polynomial register and a run of slots. -/

namespace Sys2Proof.Machine

/-! The configuration check (10_state.md R37) -/

/-- The machine's configuration check is ConfigValid (10_state.md R37). -/
theorem configValid_iff (s : State) : s.configValid = true ↔ ConfigOk s := by
  unfold State.configValid ConfigOk
  cases s.fmode
  · simp
  · have h2 : ∀ j, s.coefList.getD j 0 = (s.fcoef.toList.getD j 0).toNat := by
      intro j; simp [State.coefList, List.getD_eq_getElem?_getD, List.getElem?_map]
      cases hx : s.fcoef.toList[j]? <;> simp_all
    have hl : s.coefList.length = 17 := by simp [State.coefList]
    have h3 : s.fdeg.toNat ≤ 16 → ((s.coefList.take s.fdeg.toNat).all (fun c => decide (c < s.prime.toNat)) = true ↔ ∀ j, j < s.fdeg.toNat → (s.fcoef.toList.getD j 0).toNat < s.prime.toNat) := by
      intro h16
      rw [List.all_eq_true]
      constructor
      · intro h j hj
        rw [← h2]
        have := h (s.coefList.getD j 0) (by
          rw [List.mem_take_iff_getElem]
          refine ⟨j, by omega, ?_⟩
          rw [List.getD_eq_getElem _ _ (by omega)])
        simpa using this
      · intro h c hc
        rw [List.mem_take_iff_getElem] at hc
        obtain ⟨j, hj, rfl⟩ := hc
        have := h j (by omega)
        rw [← h2, List.getD_eq_getElem _ _ (by omega)] at this
        simpa using this
    simp only [Bool.and_eq_true, decide_eq_true_eq, Config.mMax, beq_iff_eq, h2, forall_const]
    constructor
    · rintro ⟨a, ⟨⟨b, c⟩, d⟩, e⟩; exact ⟨a, b, c, d, (h3 c).1 e⟩
    · rintro ⟨a, b, c, d, e⟩; exact ⟨a, ⟨⟨b, c⟩, d⟩, (h3 c).2 e⟩

theorem field_of_configOk {s : State} (h : ConfigOk s) : s.field = .ok s.fieldCtx := if_pos ((configValid_iff s).2 h)

theorem field_of_not_configOk {s : State} (h : ¬ ConfigOk s) : s.field = .error .config :=
  if_neg (mt (configValid_iff s).1 h)

theorem configOk_of_inZp {s : State} (h : InZp s) : ConfigOk s := ⟨h.2, by rw [h.1]; exact fun h => FMode.noConfusion h⟩

theorem fieldCtx_of_inZp {s : State} (h : InZp s) : s.fieldCtx = { p := s.prime.toNat, modulus := none } := by
  unfold State.fieldCtx; rw [h.1]

theorem fieldCtx_of_fq {s : State} (h : s.fmode = .fq) :
    s.fieldCtx = { p := s.prime.toNat, modulus := some (s.coefList.take (s.fdeg.toNat + 1)) } := by
  unfold State.fieldCtx; rw [h]

@[simp] theorem fieldCtx_p (s : State) : s.fieldCtx.p = s.prime.toNat := by
  unfold State.fieldCtx; cases s.fmode <;> rfl

/-- An element has as many digits as a slot uses (10_state.md R40). -/
theorem fieldCtx_digits {s : State} (h : ConfigOk s) : s.fieldCtx.digits = slotWidth s := by
  cases hm : s.fmode with
  | zp => simp [State.fieldCtx, FieldCtx.digits, slotWidth, hm]
  | fq =>
    have := (h.2 hm).2.1
    simp [State.fieldCtx, FieldCtx.digits, slotWidth, hm, State.coefList]
    omega

theorem slotWidth_pos {s : State} (h : ConfigOk s) : 1 ≤ slotWidth s := by
  cases hm : s.fmode with
  | zp => simp [slotWidth, hm]
  | fq => simpa [slotWidth, hm] using (h.2 hm).1

theorem slotWidth_le {s : State} (h : ConfigOk s) : slotWidth s ≤ 16 := by
  cases hm : s.fmode with
  | zp => simp [slotWidth, hm]
  | fq => simpa [slotWidth, hm] using (h.2 hm).2.1

/-! The shape checks (10_state.md R38) -/

theorem shapeN_of {s : State} (h : ShapeN s) : s.shapeN = .ok s.nlen.toNat := if_pos h

theorem shapeN_of_not {s : State} (h : ¬ ShapeN s) : s.shapeN = .error .dim := if_neg h

theorem shapeNK_of {s : State} (h : ShapeNK s) : s.shapeNK = .ok (s.nlen.toNat, s.klen.toNat) := by
  unfold State.shapeNK; rw [shapeN_of h.1]; exact if_pos h.2

theorem shapeNK_of_not {s : State} (h : ¬ ShapeNK s) : s.shapeNK = .error .dim := by
  unfold State.shapeNK
  by_cases h1 : ShapeN s
  · rw [shapeN_of h1]; exact if_neg fun h2 => h ⟨h1, h2⟩
  · rw [shapeN_of_not h1]

/-! Reading slots (10_state.md R40, R43) -/

/-- The element that a slot holds: its digits below the width, without trailing zeros (10_state.md R40). -/
def slotElem (s : State) (a : Nat) : Elem :=
  trim (zpOps s.prime.toNat) ((List.range (slotWidth s)).map (digit s a))

theorem slotDigits_eq_digit (s : State) (a : Nat) : s.slotDigits a = (List.range 16).map (digit s a) :=
  State.slotDigits_eq s a

theorem take_range_map {β : Type} (f : Nat → β) {m n : Nat} (h : m ≤ n) :
    ((List.range n).map f).take m = (List.range m).map f := by
  rw [← List.map_take, List.take_range, Nat.min_eq_left h]

/-- Reading a reduced slot gives its element (10_state.md R40). -/
theorem readSlot_of_reduced {s : State} (hc : ConfigOk s) {a : Nat} (h : ReducedSlot s a) :
    s.readSlot s.fieldCtx a = .ok (slotElem s a) := by
  have hw := slotWidth_le hc
  unfold State.readSlot elemOfDigits
  rw [fieldCtx_digits hc, fieldCtx_p, slotDigits_eq_digit, take_range_map _ hw, if_pos]
  · rfl
  · rw [Bool.and_eq_true, List.all_eq_true, List.all_eq_true]
    constructor
    · intro v hv
      obtain ⟨j, hj, rfl⟩ := List.mem_map.1 hv
      rw [List.mem_range] at hj
      simpa using (h j (by omega)).1 hj
    · intro v hv
      rw [List.mem_iff_getElem] at hv
      obtain ⟨j, hj, rfl⟩ := hv
      simp only [List.length_drop, List.length_map, List.length_range] at hj
      simpa using (h (slotWidth s + j) (by omega)).2 (by omega)

/-- Reading a slot that is not reduced raises RANGE (10_state.md R40; 60_exceptions.md R266). -/
theorem readSlot_of_not_reduced {s : State} (hc : ConfigOk s) {a : Nat} (h : ¬ ReducedSlot s a) :
    s.readSlot s.fieldCtx a = .error .range := by
  have hw := slotWidth_le hc
  unfold State.readSlot elemOfDigits
  rw [fieldCtx_digits hc, fieldCtx_p, slotDigits_eq_digit, take_range_map _ hw, if_neg]
  intro hh
  rw [Bool.and_eq_true, List.all_eq_true, List.all_eq_true] at hh
  refine h fun j hj => ⟨fun h1 => ?_, fun h1 => ?_⟩
  · simpa using hh.1 (digit s a j) (List.mem_map.2 ⟨j, List.mem_range.2 h1, rfl⟩)
  · have : digit s a j ∈ ((List.range 16).map (digit s a)).drop (slotWidth s) := by
      rw [List.mem_iff_getElem]
      refine ⟨j - slotWidth s, by simp; omega, ?_⟩
      simp [show slotWidth s + (j - slotWidth s) = j by omega]
    simpa using hh.2 _ this

/-! mapRaise (runs of slots) -/

theorem mapRaise_of_forall {β γ : Type} {f : β → Except ErrCode γ} {g : β → γ} {l : List β} (h : ∀ b ∈ l, f b = .ok (g b)) :
    mapRaise f l = .ok (l.map g) := by
  induction l with
  | nil => rfl
  | cons b l ih =>
    simp only [mapRaise, h b List.mem_cons_self, ih fun c hc => h c (List.mem_cons_of_mem _ hc), List.map_cons]

/-- When every item that fails raises the same code, one failing item makes the whole raise it. -/
theorem mapRaise_of_exists {β γ : Type} {f : β → Except ErrCode γ} {c : ErrCode} {l : List β}
    (hf : ∀ b ∈ l, ∀ c', f b = .error c' → c' = c) (h : ∃ b ∈ l, f b = .error c) : mapRaise f l = .error c := by
  induction l with
  | nil => obtain ⟨b, hb, _⟩ := h; cases hb
  | cons b l ih =>
    cases hb : f b with
    | error c' =>
      obtain rfl := hf b List.mem_cons_self c' hb
      simp only [mapRaise, hb]
    | ok v =>
      have : mapRaise f l = .error c := by
        refine ih (fun x hx => hf x (List.mem_cons_of_mem _ hx)) ?_
        obtain ⟨x, hx, he⟩ := h
        rcases List.mem_cons.1 hx with rfl | hx
        · rw [hb] at he; cases he
        · exact ⟨x, hx, he⟩
      simp only [mapRaise, hb, this]

/-- Reading a polynomial register whose coefficients are reduced (10_state.md R43). -/
theorem readP_of_reduced {s : State} (hc : ConfigOk s) {r : PReg} (hl : s.plen[r].toNat ≤ 512)
    (h : ∀ c, c < s.plen[r].toNat → ReducedSlot s (pcAddr r c)) :
    s.readP s.fieldCtx r =
      .ok (trim s.fieldCtx.ops ((List.range s.plen[r].toNat).map fun c => slotElem s (pcAddr r c))) := by
  unfold State.readP
  dsimp only
  rw [if_neg (by simp only [Config.lMax]; omega), mapRaise_of_forall (g := fun c => slotElem s (pcAddr r c))]
  intro c hc'
  exact readSlot_of_reduced hc (h c (List.mem_range.1 hc'))

/-- Reading a polynomial register that is too long or has an unreduced coefficient raises RANGE (10_state.md R43). -/
theorem readP_of_not {s : State} (hc : ConfigOk s) {r : PReg}
    (h : 512 < s.plen[r].toNat ∨ ∃ c, c < s.plen[r].toNat ∧ ¬ ReducedSlot s (pcAddr r c)) :
    s.readP s.fieldCtx r = .error .range := by
  unfold State.readP
  dsimp only
  by_cases hl : s.plen[r].toNat > Config.lMax
  · rw [if_pos hl]
  · rw [if_neg hl]
    rcases h with h | ⟨c, hc1, hc2⟩
    · exact absurd h hl
    · rw [mapRaise_of_exists (c := .range)]
      · intro b _ c' he
        by_cases hr : ReducedSlot s (pcAddr r b)
        · rw [readSlot_of_reduced hc hr] at he; cases he
        · rw [readSlot_of_not_reduced hc hr] at he; cases he; rfl
      · exact ⟨c, List.mem_range.2 hc1, readSlot_of_not_reduced hc hc2⟩

/-! Every read either answers, and then its operand is reduced, or raises RANGE, and then it is not (60_exceptions.md R266) -/

theorem readE_cases {s : State} (hc : ConfigOk s) (r : EReg) :
    (∃ v, s.readE s.fieldCtx r = .ok v ∧ ReducedSlot s (eAddr r)) ∨
      (s.readE s.fieldCtx r = .error .range ∧ ¬ ReducedSlot s (eAddr r)) := by
  by_cases h : ReducedSlot s (eAddr r)
  · exact .inl ⟨_, readSlot_of_reduced hc h, h⟩
  · exact .inr ⟨readSlot_of_not_reduced hc h, h⟩

theorem readP_cases {s : State} (hc : ConfigOk s) (r : PReg) :
    (∃ v, s.readP s.fieldCtx r = .ok v ∧ ReducedPoly s r) ∨ (s.readP s.fieldCtx r = .error .range ∧ ¬ ReducedPoly s r) := by
  by_cases h : ReducedPoly s r
  · exact .inl ⟨_, readP_of_reduced hc h.1 h.2, h⟩
  · refine .inr ⟨readP_of_not hc ?_, h⟩
    by_contra hn
    push Not at hn
    exact h ⟨hn.1, hn.2⟩

/-- A run of slots: A[0..n−1] and W[0..n−1]. -/
theorem readSlots_cases {s : State} (hc : ConfigOk s) (f : Nat → Nat) (n : Nat) :
    (∃ v, mapRaise (fun j => s.readSlot s.fieldCtx (f j)) (List.range n) = .ok v ∧ ∀ j, j < n → ReducedSlot s (f j)) ∨
    (mapRaise (fun j => s.readSlot s.fieldCtx (f j)) (List.range n) = .error .range ∧ ∃ j, j < n ∧ ¬ ReducedSlot s (f j)) := by
  by_cases h : ∃ j, j < n ∧ ¬ ReducedSlot s (f j)
  · refine .inr ⟨mapRaise_of_exists ?_ ?_, h⟩
    · intro b _ c' he
      by_cases hr : ReducedSlot s (f b)
      · rw [readSlot_of_reduced hc hr] at he; cases he
      · rw [readSlot_of_not_reduced hc hr] at he; cases he; rfl
    · obtain ⟨j, h1, h2⟩ := h
      exact ⟨j, List.mem_range.2 h1, readSlot_of_not_reduced hc h2⟩
  · push Not at h
    exact .inl ⟨_, mapRaise_of_forall fun j hj => readSlot_of_reduced hc (h j (List.mem_range.1 hj)), h⟩

theorem readAlpha_cases {s : State} (hc : ConfigOk s) :
    (∃ v, s.readAlpha s.fieldCtx = .ok v ∧ ReducedAlpha s) ∨ (s.readAlpha s.fieldCtx = .error .range ∧ ¬ ReducedAlpha s) := by
  have hw := slotWidth_le hc
  have hlen : (s.alpha.toList.map BitVec.toNat).length = 16 := by simp
  unfold State.readAlpha elemOfDigits
  rw [fieldCtx_digits hc, fieldCtx_p]
  by_cases h : ReducedAlpha s
  · refine .inl ⟨_, if_pos ?_, h⟩
    rw [Bool.and_eq_true, List.all_eq_true, List.all_eq_true]
    constructor
    · intro v hv
      obtain ⟨j, hj, rfl⟩ := List.mem_iff_getElem.1 hv
      simp at hj
      have := (h ⟨j, by omega⟩).1 hj.1
      simpa using this
    · intro v hv
      obtain ⟨j, hj, rfl⟩ := List.mem_iff_getElem.1 hv
      simp at hj
      have := (h ⟨slotWidth s + j, by omega⟩).2 (by simp)
      simpa using this
  · refine .inr ⟨if_neg ?_, h⟩
    intro hh
    rw [Bool.and_eq_true, List.all_eq_true, List.all_eq_true] at hh
    refine h fun j => ⟨fun h1 => ?_, fun h1 => ?_⟩
    · have := hh.1 (s.alpha[j]).toNat (by
        rw [List.mem_iff_getElem]; exact ⟨j.val, by simp; omega, by simp⟩)
      simpa using this
    · have := hh.2 (s.alpha[j]).toNat (by
        rw [List.mem_iff_getElem]; exact ⟨j.val - slotWidth s, by simp; omega, by simp [show slotWidth s + (j.val - slotWidth s) = j.val by omega]⟩)
      simpa using this

/-! In Z/pZ -/

theorem reducedSlot_of_isInt {s : State} (hz : InZp s) {a v : Nat} (h : IsInt s a v) (hv : v < s.prime.toNat) :
    ReducedSlot s a := by
  intro j hj
  have hw : slotWidth s = 1 := by simp [slotWidth, hz.1]
  rw [hw]
  refine ⟨fun h1 => ?_, fun h1 => h.2 j h1 hj⟩
  rw [show j = 0 by omega, h.1]; exact hv

theorem slotElem_of_isInt {s : State} (hz : InZp s) {a v : Nat} (h : IsInt s a v) : slotElem s a = natElem v := by
  have hw : slotWidth s = 1 := by simp [slotWidth, hz.1]
  unfold slotElem
  rw [hw]
  simp [h.1, trim, natElem, zpOps]

/-- Reading an element register in Z/pZ (10_state.md R40, R42). -/
theorem readE_of_isInt {s : State} (hz : InZp s) {r : EReg} {v : Nat} (h : IsInt s (eAddr r) v) (hv : v < s.prime.toNat) :
    s.readE s.fieldCtx r = .ok (natElem v) := by
  rw [← slotElem_of_isInt hz h]
  exact readSlot_of_reduced (configOk_of_inZp hz) (reducedSlot_of_isInt hz h hv)

/-- Reading a polynomial register in Z/pZ (10_state.md R43). -/
theorem readP_of_zpInput {s : State} (hz : InZp s) {r : PReg} {g : List Nat} (h : ZpInput s r g) :
    s.readP s.fieldCtx r = .ok (trim s.fieldCtx.ops (g.map natElem)) := by
  obtain ⟨⟨hl, hg⟩, h512, hb⟩ := h
  have ha : ∀ c, pcAddr r c = pcAddr r 0 + 64 * c := by intro c; simp only [pcAddr]; omega
  have hs : ∀ c, c < g.length → IsInt s (pcAddr r c) (g.getD c 0) := fun c hc => by rw [ha]; exact hg c hc
  have hv : ∀ c, c < g.length → g.getD c 0 < s.prime.toNat := fun c hc => by
    rw [List.getD_eq_getElem _ _ hc]; exact hb _ (List.getElem_mem hc)
  rw [readP_of_reduced (configOk_of_inZp hz) (by omega) fun c hc => ?_]
  · congr 2
    apply List.ext_getElem
    · simp only [List.length_map, List.length_range]; exact hl
    · intro c h1 h2
      simp only [List.length_map, List.length_range] at h1 h2
      simp only [List.getElem_map, List.getElem_range]
      rw [slotElem_of_isInt hz (hs c h2), List.getD_eq_getElem _ _ h2]
  · exact reducedSlot_of_isInt hz (hs c (by omega)) (hv c (by omega))

/-! Destinations in Z/pZ, in the words of the statements -/

theorem digit_of_slotDigits {s : State} {a : Nat} {v : Elem} (h : s.slotDigits a = slotOfElem v) {j : Nat} (hj : j < 16) :
    digit s a j = v.getD j 0 := by
  have h1 : (s.slotDigits a)[j]? = some (digit s a j) := by
    rw [slotDigits_eq_digit, List.getElem?_map, List.getElem?_range hj]; rfl
  have h2 : (slotOfElem v)[j]? = some (v.getD j 0) := by
    unfold slotOfElem; rw [List.getElem?_map, List.getElem?_range hj]; rfl
  rw [h, h2] at h1
  exact (Option.some.inj h1).symm

theorem getD_natElem (v j : Nat) : (natElem v).getD j 0 = if j = 0 then v else 0 := by
  unfold natElem
  by_cases hv : v = 0
  · simp [hv]
  · rw [if_neg hv]
    cases j with
    | zero => rfl
    | succ j => simp

theorem isInt_of_slotDigits {s : State} {a v : Nat} (h : s.slotDigits a = slotOfElem (natElem v)) : IsInt s a v := by
  refine ⟨?_, fun j h1 h2 => ?_⟩
  · rw [digit_of_slotDigits h (by omega), getD_natElem]; rfl
  · rw [digit_of_slotDigits h h2, getD_natElem, if_neg (by omega)]

theorem natElem_lt {v x : Nat} (hv : v < 2 ^ 32) (hx : x ∈ natElem v) : x < 2 ^ 32 := by
  unfold natElem at hx
  split at hx
  · cases hx
  · rw [List.mem_singleton] at hx; omega

/-- E[d] after an integer of Z/pZ was written to it (10_state.md R41). -/
theorem isInt_writeE (s : State) (d : EReg) {v : Nat} (hv : v < 2 ^ 32) : IsInt (s.writeE d (natElem v)) (eAddr d) v :=
  isInt_of_slotDigits (State.slotDigits_writeE_same s d _ fun _ hx => natElem_lt hv hx)

/-- Another slot keeps the integer it holds. -/
theorem IsInt.congr {s t : State} {a v : Nat} (h : IsInt s a v) (hd : t.slotDigits a = s.slotDigits a) : IsInt t a v := by
  have key : ∀ j, j < 16 → digit t a j = digit s a j := by
    intro j hj
    rw [slotDigits_eq_digit, slotDigits_eq_digit] at hd
    have := congrArg (fun l => l[j]?) hd
    simpa [hj] using this
  exact ⟨by rw [key 0 (by omega)]; exact h.1, fun j h1 h2 => by rw [key j h2]; exact h.2 j h1 h2⟩

/-- P[d] after a list of integers of Z/pZ was written to it (10_state.md R44). -/
theorem polyIs_writeP (s : State) (d : PReg) {g : List Nat} (hl : g.length ≤ 512) (hg : AllBelow (2 ^ 32) g) :
    PolyIs (s.writeP d (g.map natElem)) d g := by
  constructor
  · rw [State.writeP_plen]
    simp only [Fin.getElem_fin, Vector.getElem_set_self, List.length_map, BitVec.toNat_ofNat]
    omega
  · intro c hc
    have e : pcAddr d 0 + 64 * c = pcAddr d c := by simp only [pcAddr]; omega
    rw [e]
    refine isInt_of_slotDigits (State.slotDigits_writeP s d _ c _ ?_ fun x hx => natElem_lt (hg _ ?_) hx)
    · rw [List.getElem?_map, List.getElem?_eq_getElem hc, List.getD_eq_getElem _ _ hc, Option.map_some]
    · rw [List.getD_eq_getElem _ _ hc]; exact List.getElem_mem hc

/-- W[0..] after a list of integers of Z/pZ was written to it (10_state.md R46). -/
theorem slotsAre_writeW (s : State) {ws : List Nat} (hg : AllBelow (2 ^ 32) ws) :
    SlotsAre (s.writeW (ws.map natElem)) (wAddr 0) ws := by
  intro c hc
  have e : wAddr 0 + 64 * c = wAddr c := by unfold wAddr; omega
  rw [e]
  refine isInt_of_slotDigits (State.slotDigits_writeW s _ c _ ?_ fun x hx => natElem_lt (hg _ ?_) hx)
  · rw [List.getElem?_map, List.getElem?_eq_getElem hc, List.getD_eq_getElem _ _ hc, Option.map_some]
  · rw [List.getD_eq_getElem _ _ hc]; exact List.getElem_mem hc

end Sys2Proof.Machine
end

