-- ==== Sys2Proof/Laws/PerInstr.lean ====
section
/-! SUPPORT. Per instruction: the word of a command has RSV = 0 and the command's own OPC (30_encoding.md R90, R95). -/

namespace Sys2Proof.Laws.EncodeShape

/-- The word of a command has RSV = 0 and its OPC. -/
def Statement (i : Instr) : Prop := fieldRsv (encode i) = 0 ∧ opcField (encode i) = i.opc

theorem nop : Statement .nop := ⟨fieldRsv_packWord (Instr.opc_lt .nop) _ _ _ _ _, opcField_packWord (Instr.opc_lt .nop) _ _ _ _ _⟩
theorem fzero (d : Fin 16) : Statement (.fzero d) := ⟨fieldRsv_packWord (Instr.opc_lt (.fzero d)) _ _ _ _ _, opcField_packWord (Instr.opc_lt (.fzero d)) _ _ _ _ _⟩
theorem fone (d : Fin 16) : Statement (.fone d) := ⟨fieldRsv_packWord (Instr.opc_lt (.fone d)) _ _ _ _ _, opcField_packWord (Instr.opc_lt (.fone d)) _ _ _ _ _⟩
theorem fadd (d s1 s2 : Fin 16) : Statement (.fadd d s1 s2) := ⟨fieldRsv_packWord (Instr.opc_lt (.fadd d s1 s2)) _ _ _ _ _, opcField_packWord (Instr.opc_lt (.fadd d s1 s2)) _ _ _ _ _⟩
theorem fneg (d s1 : Fin 16) : Statement (.fneg d s1) := ⟨fieldRsv_packWord (Instr.opc_lt (.fneg d s1)) _ _ _ _ _, opcField_packWord (Instr.opc_lt (.fneg d s1)) _ _ _ _ _⟩
theorem fmul (d s1 s2 : Fin 16) : Statement (.fmul d s1 s2) := ⟨fieldRsv_packWord (Instr.opc_lt (.fmul d s1 s2)) _ _ _ _ _, opcField_packWord (Instr.opc_lt (.fmul d s1 s2)) _ _ _ _ _⟩
theorem finv (d s1 : Fin 16) : Statement (.finv d s1) := ⟨fieldRsv_packWord (Instr.opc_lt (.finv d s1)) _ _ _ _ _, opcField_packWord (Instr.opc_lt (.finv d s1)) _ _ _ _ _⟩
theorem fpow (d s1 : Fin 16) : Statement (.fpow d s1) := ⟨fieldRsv_packWord (Instr.opc_lt (.fpow d s1)) _ _ _ _ _, opcField_packWord (Instr.opc_lt (.fpow d s1)) _ _ _ _ _⟩
theorem padd (d s1 s2 : Fin 16) : Statement (.padd d s1 s2) := ⟨fieldRsv_packWord (Instr.opc_lt (.padd d s1 s2)) _ _ _ _ _, opcField_packWord (Instr.opc_lt (.padd d s1 s2)) _ _ _ _ _⟩
theorem pneg (d s1 : Fin 16) : Statement (.pneg d s1) := ⟨fieldRsv_packWord (Instr.opc_lt (.pneg d s1)) _ _ _ _ _, opcField_packWord (Instr.opc_lt (.pneg d s1)) _ _ _ _ _⟩
theorem pmul (d s1 s2 : Fin 16) : Statement (.pmul d s1 s2) := ⟨fieldRsv_packWord (Instr.opc_lt (.pmul d s1 s2)) _ _ _ _ _, opcField_packWord (Instr.opc_lt (.pmul d s1 s2)) _ _ _ _ _⟩
theorem pdiv (d d2 s1 s2 : Fin 16) : Statement (.pdiv d d2 s1 s2) := ⟨fieldRsv_packWord (Instr.opc_lt (.pdiv d d2 s1 s2)) _ _ _ _ _, opcField_packWord (Instr.opc_lt (.pdiv d d2 s1 s2)) _ _ _ _ _⟩
theorem pgcd (d s1 s2 : Fin 16) : Statement (.pgcd d s1 s2) := ⟨fieldRsv_packWord (Instr.opc_lt (.pgcd d s1 s2)) _ _ _ _ _, opcField_packWord (Instr.opc_lt (.pgcd d s1 s2)) _ _ _ _ _⟩
theorem pgcdx (d d2 d3 s1 s2 : Fin 16) : Statement (.pgcdx d d2 d3 s1 s2) := ⟨fieldRsv_packWord (Instr.opc_lt (.pgcdx d d2 d3 s1 s2)) _ _ _ _ _, opcField_packWord (Instr.opc_lt (.pgcdx d d2 d3 s1 s2)) _ _ _ _ _⟩
theorem peval (d s1 s2 : Fin 16) : Statement (.peval d s1 s2) := ⟨fieldRsv_packWord (Instr.opc_lt (.peval d s1 s2)) _ _ _ _ _, opcField_packWord (Instr.opc_lt (.peval d s1 s2)) _ _ _ _ _⟩
theorem pinterp (d : Fin 16) : Statement (.pinterp d) := ⟨fieldRsv_packWord (Instr.opc_lt (.pinterp d)) _ _ _ _ _, opcField_packWord (Instr.opc_lt (.pinterp d)) _ _ _ _ _⟩
theorem ppowmod (d s1 s2 : Fin 16) : Statement (.ppowmod d s1 s2) := ⟨fieldRsv_packWord (Instr.opc_lt (.ppowmod d s1 s2)) _ _ _ _ _, opcField_packWord (Instr.opc_lt (.ppowmod d s1 s2)) _ _ _ _ _⟩
theorem pirred (s1 : Fin 16) : Statement (.pirred s1) := ⟨fieldRsv_packWord (Instr.opc_lt (.pirred s1)) _ _ _ _ _, opcField_packWord (Instr.opc_lt (.pirred s1)) _ _ _ _ _⟩
theorem preduce (d s1 : Fin 16) : Statement (.preduce d s1) := ⟨fieldRsv_packWord (Instr.opc_lt (.preduce d s1)) _ _ _ _ _, opcField_packWord (Instr.opc_lt (.preduce d s1)) _ _ _ _ _⟩
theorem genpoly (d : Fin 16) : Statement (.genpoly d) := ⟨fieldRsv_packWord (Instr.opc_lt (.genpoly d)) _ _ _ _ _, opcField_packWord (Instr.opc_lt (.genpoly d)) _ _ _ _ _⟩
theorem encEval (s1 : Fin 16) : Statement (.encEval s1) := ⟨fieldRsv_packWord (Instr.opc_lt (.encEval s1)) _ _ _ _ _, opcField_packWord (Instr.opc_lt (.encEval s1)) _ _ _ _ _⟩
theorem encGen (s1 s2 : Fin 16) : Statement (.encGen s1 s2) := ⟨fieldRsv_packWord (Instr.opc_lt (.encGen s1 s2)) _ _ _ _ _, opcField_packWord (Instr.opc_lt (.encGen s1 s2)) _ _ _ _ _⟩
theorem decLa (d : Fin 16) : Statement (.decLa d) := ⟨fieldRsv_packWord (Instr.opc_lt (.decLa d)) _ _ _ _ _, opcField_packWord (Instr.opc_lt (.decLa d)) _ _ _ _ _⟩
theorem decEe (d : Fin 16) : Statement (.decEe d) := ⟨fieldRsv_packWord (Instr.opc_lt (.decEe d)) _ _ _ _ _, opcField_packWord (Instr.opc_lt (.decEe d)) _ _ _ _ _⟩
theorem decBch (d s1 : Fin 16) : Statement (.decBch d s1) := ⟨fieldRsv_packWord (Instr.opc_lt (.decBch d s1)) _ _ _ _ _, opcField_packWord (Instr.opc_lt (.decBch d s1)) _ _ _ _ _⟩
theorem synd (d : Fin 16) : Statement (.synd d) := ⟨fieldRsv_packWord (Instr.opc_lt (.synd d)) _ _ _ _ _, opcField_packWord (Instr.opc_lt (.synd d)) _ _ _ _ _⟩
theorem elp (d s1 : Fin 16) : Statement (.elp d s1) := ⟨fieldRsv_packWord (Instr.opc_lt (.elp d s1)) _ _ _ _ _, opcField_packWord (Instr.opc_lt (.elp d s1)) _ _ _ _ _⟩
theorem lakey (d d2 : Fin 16) : Statement (.lakey d d2) := ⟨fieldRsv_packWord (Instr.opc_lt (.lakey d d2)) _ _ _ _ _, opcField_packWord (Instr.opc_lt (.lakey d d2)) _ _ _ _ _⟩

end Sys2Proof.Laws.EncodeShape
end

