-- ==== Sys2Proof/Laws/Raise.lean ====
section
/-! SUPPORT. When the functions inside the commands raise DIV_ZERO, and that they raise no other code (60_exceptions.md R262). -/

namespace Sys2Proof.Machine

/-- A computation that fails with DIV_ZERO only. -/
def OnlyDivZero {β : Type} (x : Except ErrCode β) : Prop := ∀ c, x = .error c → c = .divZero

theorem onlyDivZero_ok {β : Type} (v : β) : OnlyDivZero (.ok v : Except ErrCode β) := fun _ h => nomatch h

theorem onlyDivZero_error {β : Type} : OnlyDivZero (.error .divZero : Except ErrCode β) := fun _ h => (Except.error.inj h).symm

theorem onlyDivZero_mapRaise {β γ : Type} {f : β → Except ErrCode γ} (hf : ∀ b, OnlyDivZero (f b)) (l : List β) :
    OnlyDivZero (mapRaise f l) := by
  induction l with
  | nil => exact onlyDivZero_ok _
  | cons b l ih =>
    simp only [mapRaise]
    split
    · rename_i c h; rw [hf b c h]; exact onlyDivZero_error
    · split
      · rename_i c h; rw [ih c h]; exact onlyDivZero_error
      · exact onlyDivZero_ok _

section
variable {α : Type} [DecidableEq α] (K : FieldOps α)

theorem invK_zero : invK K K.zero = .error .divZero := if_pos rfl

/-- pow_K(0K, e) raises for e < 0 (41_field.md R128). -/
theorem powK_zero {e : Int} (h : e < 0) : powK K K.zero e = .error .divZero := by
  unfold powK; rw [if_pos h, invK_zero]

theorem onlyDivZero_invK (a : α) : OnlyDivZero (invK K a) := by
  unfold invK; split
  · exact onlyDivZero_error
  · exact onlyDivZero_ok _

theorem onlyDivZero_powK (a : α) (e : Int) : OnlyDivZero (powK K a e) := by
  unfold powK
  split
  · split
    · rename_i c h; rw [onlyDivZero_invK K a c h]; exact onlyDivZero_error
    · exact onlyDivZero_ok _
  · exact onlyDivZero_ok _

theorem pdivmod_nil (g : List α) : pdivmod K g [] = .error .divZero := if_pos rfl

theorem pgcd_nil : pgcd K [] [] = .error .divZero := by
  unfold pgcd; rw [show gcdLoop K (([] : List α).length + 1) [] [] = [] from if_pos rfl]; exact if_pos rfl

theorem pgcdx_nil : pgcdx K [] [] = .error .divZero := by
  unfold pgcdx gcdxCore; rfl

/-! Interpolation with a repeated point (42_poly.md R161) -/

theorem onlyDivZero_interpLoop (xs ys : List α) (l : List Nat) : ∀ res, OnlyDivZero (interpLoop K xs ys l res) := by
  induction l with
  | nil => exact fun _ => onlyDivZero_ok _
  | cons i l ih =>
    intro res
    simp only [interpLoop]
    split
    · rename_i c h; rw [onlyDivZero_invK K _ c h]; exact onlyDivZero_error
    · exact ih _

/-- A point equal to one of the others makes the denominator 0K, where 0K absorbs and x −K x = 0K. -/
theorem basisLoop_den_zero (hz : ∀ a, K.mul K.zero a = K.zero) (xi : α) (l : List α) :
    ∀ basis den, (den = K.zero ∨ ∃ x ∈ l, ∀ d, K.mul d (K.sub xi x) = K.zero) → (basisLoop K xi l basis den).2 = K.zero := by
  induction l with
  | nil => rintro basis den (h | ⟨x, hx, _⟩); exacts [h, nomatch hx]
  | cons y l ih =>
    rintro basis den (h | ⟨x, hx, hd⟩)
    · exact ih _ _ (.inl (by rw [h, hz]))
    · rcases List.mem_cons.1 hx with rfl | hx
      · exact ih _ _ (.inl (hd den))
      · exact ih _ _ (.inr ⟨x, hx, hd⟩)

theorem interpLoop_repeated {xs ys : List α} {i : Nat} (l : List Nat) (hi : i ∈ l)
    (h : invK K (basisLoop K (coef K xs i) (xs.eraseIdx i) [K.one] K.one).2 = .error .divZero) :
    ∀ res, interpLoop K xs ys l res = .error .divZero := by
  induction l with
  | nil => exact nomatch hi
  | cons j l ih =>
    intro res
    simp only [interpLoop]
    rcases List.mem_cons.1 hi with rfl | hi
    · rw [h]
    · cases hj : invK K (basisLoop K (coef K xs j) (xs.eraseIdx j) [K.one] K.one).2 with
      | error c => rw [onlyDivZero_invK K _ c hj]
      | ok v => exact ih hi _

/-- Two equal points: pinterp raises DIV_ZERO (42_poly.md R161). -/
theorem pinterp_repeated (hz : ∀ a, K.mul K.zero a = K.zero) {xs ys : List α}
    (hs : ∀ x ∈ xs, ∀ d, K.mul d (K.sub x x) = K.zero) (h : ¬ xs.Nodup) : pinterp K xs ys = .error .divZero := by
  rw [List.nodup_iff_injective_getElem, Function.Injective] at h
  push Not at h
  obtain ⟨i, j, he, hne⟩ := h
  refine interpLoop_repeated K _ (List.mem_range.2 i.isLt) ?_ _
  have hc : coef K xs i = xs[i.val] := List.getD_eq_getElem _ _ i.isLt
  rw [basisLoop_den_zero K hz, invK_zero]
  refine .inr ⟨xs[j.val], List.mem_eraseIdx_iff_getElem.2 ⟨j.val, j.isLt, fun e => hne (Fin.ext e.symm), rfl⟩, ?_⟩
  rw [hc]
  have : xs[j.val] = xs[i.val] := he.symm
  rw [this]
  exact hs _ (List.getElem_mem i.isLt)

/-! The codec functions (43_codec.md) -/

theorem genPoly_zero {n k : Nat} {i : Int} (hi : i < 0) (hk : k < n) : genPoly K n k K.zero i = .error .divZero := by
  obtain ⟨m, hm⟩ : ∃ m, n - k = m + 1 := ⟨n - k - 1, by omega⟩
  unfold genPoly; rw [hm]; unfold genLoop; rw [powK_zero K hi]

theorem syndromes_zero {n k : Nat} {i : Int} (hi : i < 0) (hk : k < n) (r : List α) :
    syndromes K n k K.zero i r = .error .divZero := by
  obtain ⟨m, hm⟩ : ∃ m, n - k = m + 1 := ⟨n - k - 1, by omega⟩
  unfold syndromes
  rw [hm, List.range_succ_eq_map]
  simp only [mapRaise, Int.natCast_zero, add_zero, powK_zero K hi]

theorem onlyDivZero_syndromes (n k : Nat) (a : α) (i : Int) (r : List α) : OnlyDivZero (syndromes K n k a i r) :=
  onlyDivZero_mapRaise (fun l => by
    split
    · rename_i c h; rw [onlyDivZero_powK K _ _ c h]; exact onlyDivZero_error
    · exact onlyDivZero_ok _) _

theorem onlyDivZero_rootPositions (a : α) (L : List α) (l : List Nat) : OnlyDivZero (rootPositions K a L l) := by
  induction l with
  | nil => exact onlyDivZero_ok _
  | cons j l ih =>
    simp only [rootPositions]
    split
    · rename_i c h; rw [onlyDivZero_powK K _ _ c h]; exact onlyDivZero_error
    · split
      · rename_i c h; rw [ih c h]; exact onlyDivZero_error
      · exact onlyDivZero_ok _

/-- The root search raises for α = 0K and n ≥ 2, at position 1 (43_codec.md R219). -/
theorem rootPositions_zero {n : Nat} (hn : 2 ≤ n) (L : List α) :
    rootPositions K K.zero L (List.range n) = .error .divZero := by
  obtain ⟨m, rfl⟩ : ∃ m, n = m + 2 := ⟨n - 2, by omega⟩
  rw [List.range_succ_eq_map, List.range_succ_eq_map, List.map_cons]
  simp only [rootPositions]
  cases h : powK K K.zero (-((0 : Nat) : Int)) with
  | error c => rw [onlyDivZero_powK K _ _ c h]
  | ok v => simp only [powK_zero K (show (-((Nat.succ 0 : Nat) : Int)) < 0 by decide)]

theorem onlyDivZero_magnitudeRows (a : α) (i : Int) (S : List α) (J : List Nat) (v : Nat) :
    OnlyDivZero (magnitudeRows K a i S J v) :=
  onlyDivZero_mapRaise (fun l => by
    split
    · rename_i c h; rw [onlyDivZero_mapRaise (fun j => onlyDivZero_powK K _ _) _ c h]; exact onlyDivZero_error
    · exact onlyDivZero_ok _) _

theorem onlyDivZero_bchSteps (n k : Nat) (a : α) (i : Int) (r : List α) : OnlyDivZero (bchSteps K n k a i r) := by
  unfold bchSteps
  split
  · rename_i c h; rw [onlyDivZero_syndromes K _ _ _ _ _ c h]; exact onlyDivZero_error
  · dsimp only
    split
    · rename_i c h; rw [onlyDivZero_rootPositions K _ _ _ c h]; exact onlyDivZero_error
    · split
      · rename_i c h; rw [onlyDivZero_magnitudeRows K _ _ _ _ _ c h]; exact onlyDivZero_error
      · exact onlyDivZero_ok _

/-- The steps of the BCH decoder raise for α = 0K with a negative exponent (43_codec.md R210, R219, R221). -/
theorem bchSteps_zero {n k : Nat} {i : Int} (h : 2 ≤ n ∨ (i < 0 ∧ k < n)) (r : List α) :
    bchSteps K n k K.zero i r = .error .divZero := by
  unfold bchSteps
  cases hS : syndromes K n k K.zero i r with
  | error c => rw [onlyDivZero_syndromes K _ _ _ _ _ c hS]
  | ok S =>
    rcases h with h | ⟨h1, h2⟩
    · dsimp only; rw [rootPositions_zero K h]
    · rw [syndromes_zero K h1 h2] at hS; cases hS

/-- When DEC_BCH raises DIV_ZERO for its operands (43_codec.md R221). -/
theorem decodeBch_divZero {n k : Nat} {G : List α} {a : α} {i : Int} (r : List α)
    (h : G = [] ∨ (a = K.zero ∧ (2 ≤ n ∨ (i < 0 ∧ k < n)))) : decodeBch K n k G a i r = .error .divZero := by
  unfold decodeBch
  cases hb : bchSteps K n k a i r with
  | error c => rw [onlyDivZero_bchSteps K _ _ _ _ _ c hb]
  | ok b =>
    rcases h with rfl | ⟨rfl, h⟩
    · dsimp only; rw [pdivmod_nil]
    · rw [bchSteps_zero K h] at hb; cases hb

theorem decodeLa_nil {n k : Nat} {xs ys : List α} {sol : KeySolution α} (h : lakeySolve K n k xs ys = .ok sol)
    (he : sol.e = []) : decodeLa K n k xs ys = .error .divZero := by
  unfold decodeLa; rw [h]; dsimp only; rw [he, pdivmod_nil]

theorem lakeySolve_error {n k : Nat} {xs ys : List α} {c : ErrCode} (h : pinterp K xs ys = .error c) :
    lakeySolve K n k xs ys = .error c := by unfold lakeySolve; rw [h]

theorem decodeLa_error {n k : Nat} {xs ys : List α} {c : ErrCode} (h : pinterp K xs ys = .error c) :
    decodeLa K n k xs ys = .error c := by unfold decodeLa; rw [lakeySolve_error K h]

theorem decodeEe_error {n k : Nat} {xs ys : List α} {c : ErrCode} (h : pinterp K xs ys = .error c) :
    decodeEe K n k xs ys = .error c := by unfold decodeEe; rw [h]

end

/-! In the active field: 0K absorbs, and x −K x = 0K for a reduced x -/

theorem divCore_nil {α : Type} [DecidableEq α] (K : FieldOps α) (h : List α) : (divCore K [] h).2 = [] := by
  unfold divCore
  dsimp only
  split
  · rfl
  · rename_i hc
    obtain rfl : h = [] := List.length_eq_zero_iff.1 (Nat.le_zero.1 (not_lt.1 fun hl => hc (.inr hl)))
    rfl

theorem pmul_nil {α : Type} [DecidableEq α] (K : FieldOps α) (g : List α) : pmul K g [] = [] := if_pos (.inr rfl)

theorem nil_pmul {α : Type} [DecidableEq α] (K : FieldOps α) (g : List α) : pmul K [] g = [] := if_pos (.inl rfl)

theorem FieldCtx.zero_eq (F : FieldCtx) : F.ops.zero = [] := by
  unfold FieldCtx.ops; split <;> rfl

theorem FieldCtx.zero_mul (F : FieldCtx) (a : Elem) : F.ops.mul F.ops.zero a = F.ops.zero := by
  rw [F.zero_eq]
  unfold FieldCtx.ops; split
  · show natElem (0 * elemNat a % F.p) = []
    rw [Nat.zero_mul, Nat.zero_mod]; rfl
  · show fqMul _ _ [] a = []
    unfold fqMul; rw [nil_pmul, divCore_nil]

theorem FieldCtx.mul_zero (F : FieldCtx) (a : Elem) : F.ops.mul a F.ops.zero = F.ops.zero := by
  rw [F.zero_eq]
  unfold FieldCtx.ops; split
  · show natElem (elemNat a * 0 % F.p) = []
    rw [Nat.mul_zero, Nat.zero_mod]; rfl
  · show fqMul _ _ a [] = []
    unfold fqMul; rw [pmul_nil, divCore_nil]

theorem add_neg_mod {p a : Nat} (h : a < p) : (a + (p - a) % p) % p = 0 := by
  rw [Nat.add_mod, Nat.mod_mod, ← Nat.add_mod, show a + (p - a) = p by omega, Nat.mod_self]

theorem elemNat_natElem (n : Nat) : elemNat (natElem n) = n := by
  unfold natElem; split
  · rename_i h; rw [h]; rfl
  · rfl

theorem trim_zeros {α : Type} [DecidableEq α] (K : FieldOps α) {l : List α} (h : ∀ v ∈ l, v = K.zero) : trim K l = [] := by
  induction l with
  | nil => rfl
  | cons a l ih =>
    unfold trim
    rw [ih fun v hv => h v (List.mem_cons_of_mem _ hv)]
    exact if_pos (h a List.mem_cons_self)

theorem FieldCtx.sub_self (F : FieldCtx) {x : Elem} (hp : 1 ≤ F.p) (h : ∀ v ∈ x, v < F.p) : F.ops.sub x x = F.ops.zero := by
  rw [F.zero_eq]
  have hg : ∀ d, x.getD d 0 < F.p := fun d => by
    by_cases hd : d < x.length
    · rw [List.getD_eq_getElem _ _ hd]; exact h _ (List.getElem_mem hd)
    · rw [List.getD_eq_default _ _ (not_lt.1 hd)]; exact hp
  unfold FieldOps.sub FieldCtx.ops
  split
  · show natElem ((elemNat x + elemNat (natElem ((F.p - elemNat x) % F.p))) % F.p) = []
    have : elemNat x < F.p := by cases x <;> [exact hp; exact h _ List.mem_cons_self]
    rw [elemNat_natElem, add_neg_mod this]; rfl
  · refine trim_zeros _ fun v hv => ?_
    obtain ⟨d, hd, rfl⟩ := List.mem_map.1 hv
    show ((coef (zpOps F.p) x d) + coef (zpOps F.p) (pneg (zpOps F.p) x) d) % F.p = 0
    rw [show coef (zpOps F.p) (pneg (zpOps F.p) x) d = (F.p - coef (zpOps F.p) x d) % F.p from ?_]
    · exact add_neg_mod (hg d)
    unfold pneg
    rw [coef_trim]
    show (x.map fun a => (F.p - a) % F.p).getD d 0 = (F.p - x.getD d 0) % F.p
    by_cases hd : d < x.length
    · rw [List.getD_eq_getElem _ _ (by simpa using hd), List.getD_eq_getElem _ _ hd, List.getElem_map]
    · rw [List.getD_eq_default _ _ (by simpa using hd), List.getD_eq_default _ _ (not_lt.1 hd), Nat.sub_zero, Nat.mod_self]

/-- Every item that a mapRaise answers is the value of some item of the list. -/
theorem mem_of_mapRaise {β γ : Type} {f : β → Except ErrCode γ} {l : List β} {vs : List γ} (h : mapRaise f l = .ok vs) :
    ∀ v ∈ vs, ∃ b ∈ l, f b = .ok v := by
  induction l generalizing vs with
  | nil => cases h; exact fun v hv => nomatch hv
  | cons b l ih =>
    unfold mapRaise at h
    cases hb : f b with
    | error c => rw [hb] at h; cases h
    | ok w =>
      rw [hb] at h
      dsimp only at h
      cases hl : mapRaise f l with
      | error c => rw [hl] at h; cases h
      | ok ws =>
        rw [hl] at h
        cases h
        intro v hv
        rcases List.mem_cons.1 hv with rfl | hv
        · exact ⟨b, List.mem_cons_self, hb⟩
        · obtain ⟨c, hc, he⟩ := ih hl v hv
          exact ⟨c, List.mem_cons_of_mem _ hc, he⟩

theorem mem_of_mem_trim {α : Type} [DecidableEq α] (K : FieldOps α) {l : List α} {v : α} (h : v ∈ trim K l) : v ∈ l := by
  induction l with
  | nil => exact h
  | cons a l ih =>
    rw [trim_cons] at h
    split at h
    · split at h
      · cases h
      · rw [List.mem_singleton.1 h]; exact List.mem_cons_self
    · rcases List.mem_cons.1 h with rfl | h
      · exact List.mem_cons_self
      · exact List.mem_cons_of_mem _ (ih h)

/-- An element that reads has reduced digits (10_state.md R40). -/
theorem elemOfDigits_below {F : FieldCtx} {ds : List Nat} {v : Elem} (h : elemOfDigits F ds = .ok v) : ∀ x ∈ v, x < F.p := by
  unfold elemOfDigits at h
  split at h
  · rename_i hd
    cases h
    rw [Bool.and_eq_true, List.all_eq_true] at hd
    exact fun x hx => of_decide_eq_true (hd.1 x (mem_of_mem_trim _ hx))
  · cases h

theorem field_p {s : State} {F : FieldCtx} (h : s.field = .ok F) : 2 ≤ F.p := by
  unfold State.field at h
  split at h
  · rename_i hc
    cases h
    unfold State.configValid at hc
    rw [Bool.and_eq_true] at hc
    have hp : s.fieldCtx.p = s.prime.toNat := by unfold State.fieldCtx; split <;> rfl
    rw [hp]; exact of_decide_eq_true hc.1
  · cases h

/-- Interpolation through points read from A of which two are equal raises DIV_ZERO (42_poly.md R161). -/
theorem pinterp_of_repeated_points {s : State} {F : FieldCtx} {n : Nat} {xs : List Elem} (hF : s.field = .ok F)
    (hA : s.readA F n = .ok xs) (h : ¬ xs.Nodup) (ys : List Elem) : pinterp F.ops xs ys = .error .divZero := by
  refine pinterp_repeated F.ops F.zero_mul (fun x hx d => ?_) h
  obtain ⟨j, -, hj⟩ := mem_of_mapRaise hA x hx
  rw [F.sub_self (le_trans (by decide) (field_p hF)) (elemOfDigits_below hj), F.mul_zero]

end Sys2Proof.Machine
end

