-- ==== Sys2Proof/Laws/Step.lean ====
section
/-! SUPPORT. What one step can do, case by case, and that every operation keeps the written bytes canonical and inside the
digit words of the map. -/

namespace Sys2Proof.Machine

/-! The cases of a step -/

theorem sequencerTurn_idle {s : State} (hs : s.seq = .idle) : sequencerTurn s = .next s := by
  unfold sequencerTurn; rw [hs]

theorem sequencerTurn_busy {s : State} {cw : Word} {i : Instr} (hs : s.seq = .busy cw) (hd : decode cw = .ok i) :
    sequencerTurn s = exec i s := by
  unfold sequencerTurn; rw [hs]; dsimp only; rw [hd]

theorem sequencerTurn_illegal {s : State} {cw : Word} {e : DecodeError} (hs : s.seq = .busy cw) (hd : decode cw = .error e) :
    sequencerTurn s = .next (s.complete .illegal) := by
  unfold sequencerTurn; rw [hs]; dsimp only; rw [hd]

theorem step_nil {s : State} (he : s.events = []) : step s = sequencerTurn s := by unfold step; rw [he]

theorem step_bus {s : State} {t : BusAccess} {rest : List Event} (he : s.events = .bus t :: rest) :
    step s = .next ((s.setEvents rest).serve t) := by unfold step; rw [he]; rfl

theorem step_run {s : State} {rest : List Event} (he : s.events = .run :: rest) :
    step s = sequencerTurn (s.setEvents rest) := by unfold step; rw [he]; rfl

theorem step_powerOn {s : State} {rest : List Event} (he : s.events = .powerOn :: rest) :
    step s = .next (s.setEvents rest).powerOnReset := by unfold step; rw [he]; rfl

/-- After withFetchWord the step is the sequencer's turn on the accepted word (log 2). -/
theorem step_withFetchWord (s : State) (nbits : Nat) (cw : Word) :
    step (s.withFetchWord nbits cw.toNat) = sequencerTurn (s.accept cw) := by
  rw [step_run (rest := s.events) rfl]
  unfold State.withFetchWord
  rw [BitVec.ofNat_toNat, BitVec.setWidth_eq]
  rfl

/-- Everything the sequencer's turn can do: nothing when idle, else a completion (10_state.md R49). -/
theorem sequencerTurn_ends (s : State) : (s.seq = .idle ∧ sequencerTurn s = .next s) ∨ Ends s (sequencerTurn s) := by
  cases hs : s.seq with
  | idle => exact .inl ⟨rfl, sequencerTurn_idle hs⟩
  | busy cw =>
    right
    cases hd : decode cw with
    | ok i => rw [sequencerTurn_busy hs hd]; exact exec_ends i s
    | error e => rw [sequencerTurn_illegal hs hd]; exact .error .illegal raised_illegal

/-! The written bytes stay canonical and inside the map -/

/-- Bytes stored inside the digit words keep the memory invariant (10_state.md R50; 20_memory.md R61). -/
theorem memOk_store {m : Memory} {a : Nat} {bs : List Byte} (hw : Memory.wf m) (hm : ∀ c ∈ m, isDigitAddr c.1 = true)
    (ha : ∀ b, a ≤ b → b < a + bs.length → isDigitAddr b = true) :
    Memory.wf (Memory.store m a bs) ∧ ∀ c ∈ Memory.store m a bs, isDigitAddr c.1 = true := by
  refine ⟨Memory.store_wf hw a bs, fun c hc => ?_⟩
  rcases Memory.mem_store hc with h | h
  · exact hm c h
  · exact ha _ h.1 h.2

theorem memOk_writeE {s : State} (h : MemOk s) (d : EReg) (v : Elem) : MemOk (s.writeE d v) := by
  refine memOk_store h.1 h.2 fun b h1 h2 => (isDigitAddr_iff b).2 (.inl ?_)
  simp only [slotBytes_length, eAddr] at h1 h2
  omega

theorem memOk_writeW {s : State} (h : MemOk s) {ws : List Elem} (hw : ws.length ≤ 256) : MemOk (s.writeW ws) := by
  refine memOk_store h.1 h.2 fun b h1 h2 => (isDigitAddr_iff b).2 (.inr (.inl ?_))
  simp only [flatMap_slotBytes_length, wAddr] at h1 h2
  omega

theorem memOk_writeP {s : State} (h : MemOk s) (d : PReg) {g : Poly} (hg : g.length ≤ 512) : MemOk (s.writeP d g) := by
  refine memOk_store (Memory.erase_wf h.1 _ _) (fun c hc => h.2 c (Memory.mem_erase hc)) fun b h1 h2 =>
    (isDigitAddr_iff b).2 (.inr (.inr ?_))
  simp only [flatMap_slotBytes_length, pcAddr] at h1 h2
  omega

theorem memOk_applyWrite {s : State} (h : MemOk s) {w : Write} (hw : WriteOk w) : MemOk (s.applyWrite w) := by
  cases w with
  | elem d v => exact memOk_writeE h d v
  | poly d g => exact memOk_writeP h d hw
  | words ws => exact memOk_writeW h hw
  | res v => exact h

theorem memOk_commit {ws : List Write} (hw : ∀ w ∈ ws, WriteOk w) : ∀ {s : State}, MemOk s → MemOk (s.commit ws) := by
  induction ws with
  | nil => exact fun h => h
  | cons w ws ih =>
    exact fun h => ih (fun v hv => hw v (List.mem_cons_of_mem _ hv)) (memOk_applyWrite h (hw w List.mem_cons_self))

theorem memOk_storeWord {s : State} (h : MemOk s) {a : Nat} (ha : a % 4 = 0) (hd : isDigitAddr a = true) (w : Word) :
    MemOk (s.storeWord a w) := by
  refine memOk_store h.1 h.2 fun b h1 h2 => (isDigitAddr_iff b).2 ?_
  rw [isDigitAddr_iff] at hd
  simp only [wordBytes_length] at h2
  omega

theorem memOk_softReset {s : State} (h : MemOk s) : MemOk s.softReset :=
  ⟨Memory.erase_wf h.1 _ _, fun c hc => h.2 c (Memory.mem_erase hc)⟩

theorem memOk_powerOnReset (s : State) : MemOk s.powerOnReset := ⟨Memory.nil_wf, by simp [State.powerOnReset]⟩

end Sys2Proof.Machine
end

