-- ==== Sys2Proof/Tests/Slice0.lean ====
section
/-! SUPPORT. Tests: the well-formedness smoke, a word of every command written from its encoding, one step on small states
with the results of 95_test_vectors.md, and a witness for every statement that has hypotheses. -/

open Sys2Proof Sys2Proof.Machine

namespace Sys2Proof.Tests

set_option Elab.async false

/-! Well-formedness refuses each destination clash (30_encoding.md R94) -/

theorem test_wf_refuses_pdiv_clash : (Instr.pdiv 1 1 0 2).wf = false := by decide
theorem test_wf_refuses_pgcdx_first_clash : (Instr.pgcdx 5 5 2 0 0).wf = false := by decide
theorem test_wf_refuses_pgcdx_second_clash : (Instr.pgcdx 5 1 5 0 0).wf = false := by decide
theorem test_wf_refuses_pgcdx_third_clash : (Instr.pgcdx 5 2 2 0 0).wf = false := by decide
theorem test_wf_refuses_lakey_clash : (Instr.lakey 6 6).wf = false := by decide
theorem test_wf_accepts_source_as_destination : (Instr.pdiv 0 1 0 1).wf = true := by decide

/-! Decoding: OPC[7:0], D[11:8], S1[15:12], S2[19:16], D2[23:20], D3[27:24], RSV[31:28] (30_encoding.md R90, R95) -/

theorem test_decode_nop : decode 0x00000000 = .ok (.nop) := by decide
theorem test_decode_fzero : decode 0x00000501 = .ok (.fzero 5) := by decide
theorem test_decode_fone : decode 0x00000602 = .ok (.fone 6) := by decide
theorem test_decode_fadd : decode 0x00021303 = .ok (.fadd 3 1 2) := by decide
theorem test_decode_fneg : decode 0x00001204 = .ok (.fneg 2 1) := by decide
theorem test_decode_fmul : decode 0x00021305 = .ok (.fmul 3 1 2) := by decide
theorem test_decode_finv : decode 0x00001406 = .ok (.finv 4 1) := by decide
theorem test_decode_fpow : decode 0x00001207 = .ok (.fpow 2 1) := by decide
theorem test_decode_padd : decode 0x00010210 = .ok (.padd 2 0 1) := by decide
theorem test_decode_pneg : decode 0x0000F211 = .ok (.pneg 2 15) := by decide
theorem test_decode_pmul : decode 0x000A9B12 = .ok (.pmul 11 9 10) := by decide
theorem test_decode_pdiv : decode 0x00310213 = .ok (.pdiv 2 3 0 1) := by decide
theorem test_decode_pgcd : decode 0x00010214 = .ok (.pgcd 2 0 1) := by decide
theorem test_decode_pgcdx : decode 0x04310215 = .ok (.pgcdx 2 3 4 0 1) := by decide
theorem test_decode_peval : decode 0x0001C216 = .ok (.peval 2 12 1) := by decide
theorem test_decode_pinterp : decode 0x00000A17 = .ok (.pinterp 10) := by decide
theorem test_decode_ppowmod : decode 0x000A9B18 = .ok (.ppowmod 11 9 10) := by decide
theorem test_decode_pirred : decode 0x00007019 = .ok (.pirred 7) := by decide
theorem test_decode_preduce : decode 0x0000DE1A = .ok (.preduce 14 13) := by decide
theorem test_decode_genpoly : decode 0x00000120 = .ok (.genpoly 1) := by decide
theorem test_decode_enc_eval : decode 0x00001021 = .ok (.encEval 1) := by decide
theorem test_decode_enc_gen : decode 0x00010022 = .ok (.encGen 0 1) := by decide
theorem test_decode_dec_la : decode 0x00000223 = .ok (.decLa 2) := by decide
theorem test_decode_dec_ee : decode 0x00000324 = .ok (.decEe 3) := by decide
theorem test_decode_dec_bch : decode 0x00001225 = .ok (.decBch 2 1) := by decide
theorem test_decode_synd : decode 0x00000326 = .ok (.synd 3) := by decide
theorem test_decode_elp : decode 0x00003427 = .ok (.elp 4 3) := by decide
theorem test_decode_lakey : decode 0x00600528 = .ok (.lakey 5 6) := by decide

/-- V-CTL-7: unused fields are ignored. -/
theorem test_decode_ignores_unused_fields : decode 0x0FFFF001 = .ok (.fzero 0) := by decide
/-- V-CTL-7: D3 = D. -/
theorem test_decode_refuses_pgcdx_clash : decode 0x05100515 = .error .destinationClash := by decide
/-- Program 5: D = D2. -/
theorem test_decode_refuses_pdiv_clash : decode 0x00100113 = .error .destinationClash := by decide
theorem test_decode_refuses_lakey_clash : decode 0x00500528 = .error .destinationClash := by decide
/-- Program 5: RSV = 1. -/
theorem test_decode_refuses_rsv : decode 0x10000001 = .error .reservedBits := by decide
/-- R96: RSV is looked at before OPC. -/
theorem test_decode_rsv_before_opc : decode 0x800000FF = .error .reservedBits := by decide
/-- The edges of the opcode map. -/
theorem test_decode_refuses_undefined :
    decode 0x08 = .error .undefinedOpcode ∧ decode 0x0F = .error .undefinedOpcode ∧ decode 0x1B = .error .undefinedOpcode ∧
      decode 0x1F = .error .undefinedOpcode ∧ decode 0x29 = .error .undefinedOpcode ∧ decode 0xFF = .error .undefinedOpcode := by
  decide

/-! One step on a small state, from the vectors of 95_test_vectors.md -/

/-- Z/7Z. -/
def zp7 : State := { State.reset with prime := 7 }

/-- GF(8): p = 2, f = x³ + x + 1. -/
def gf8 : State :=
  { State.reset with fmode := .fq, prime := 2, fdeg := 3, fcoef := #v[1, 1, 0, 1, 0, 0, 0, 0, 0, 0, 0, 0, 0, 0, 0, 0, 0] }

/-- The element of GF(8) that the spec writes as an integer (30_encoding.md R99). -/
def bits3 (v : Nat) : Elem := [v % 2, v / 2 % 2, v / 4 % 2]

/-- Write integers of Z/pZ to P[r], A and W. -/
def putP (s : State) (r : PReg) (g : List Nat) : State := s.writeP r (g.map natElem)
def putA (s : State) (xs : List Nat) : State := s.storeBytes (aAddr 0) ((xs.map natElem).flatMap slotBytes)
def putW (s : State) (ys : List Nat) : State := s.writeW (ys.map natElem)

/-- The integer Σ d_j·2^j of a slot's 16 digits: the integer itself in Z/pZ, the spec's notation in GF(8). -/
def slotInt (s : State) (a : Nat) : Nat := (s.slotDigits a).foldr (fun d acc => d + 2 * acc) 0
def getP (s : State) (r : PReg) : List Nat := (List.range s.plen[r].toNat).map fun c => slotInt s (0x10000 + 0x8000 * r + 0x40 * c)
def getW (s : State) (n : Nat) : List Nat := (List.range n).map fun j => slotInt s (0x8000 + 0x40 * j)

/-- The state one step after the host issued a command word. -/
def after (s : State) (w : Nat) : State :=
  match step (s.withFetchWord 32 w) with
  | .next t => t
  | .fault _ => s
  | .refused _ => s

/-- V-CTL-3 without a configuration: NOP completes with OK. -/
theorem test_nop : (after State.reset 0x00000000).statusWord = 0x002 := by decide +kernel
/-- Program 5: CONFIG after reset. -/
theorem test_fzero_config : (after State.reset 0x00000001).statusWord = 0x042 := by decide +kernel
/-- V-CTL-7: FZERO E0 with unused fields set. -/
theorem test_fzero : slotInt (after zp7 0x0FFFF001) 0x1000 = 0 := by decide +kernel
/-- Program 1: FONE E6. -/
theorem test_fone : slotInt (after zp7 0x00000602) 0x1180 = 1 := by decide +kernel
/-- V-SRC-1: 3 + 5 = 1 in Z/7Z. -/
theorem test_fadd : slotInt (after ((zp7.writeE 1 [3]).writeE 2 [5]) 0x00021303) 0x10C0 = 1 := by decide +kernel
/-- V-FFU-GF8: 3 + 5 = 6. -/
theorem test_fadd_gf8 : slotInt (after ((gf8.writeE 1 (bits3 3)).writeE 2 (bits3 5)) 0x00021303) 0x10C0 = 6 := by decide +kernel
/-- V-FFU-P7: −3 = 4. -/
theorem test_fneg : slotInt (after (zp7.writeE 1 [3]) 0x00001204) 0x1080 = 4 := by decide +kernel
/-- V-FFU-BIGP: (p−1)·(p−1) = 1 for p = 2^32 − 5. -/
theorem test_fmul_full_product : slotInt (after ({ State.reset with prime := 4294967291 }.writeE 1 [4294967290]) 0x00011305) 0x10C0 = 1 := by decide +kernel
/-- V-FFU-GF8: 7 · 7 = 3. -/
theorem test_fmul_gf8 : slotInt (after (gf8.writeE 1 (bits3 7)) 0x00011305) 0x10C0 = 3 := by decide +kernel
/-- V-SRC-1: FINV of 3 is 5. -/
theorem test_finv : slotInt (after (zp7.writeE 1 [3]) 0x00001406) 0x1100 = 5 := by decide +kernel
/-- Program 1: FINV of 0 gives DIV_ZERO and leaves E6. -/
theorem test_finv_zero : let t := after ((zp7.writeE 5 []).writeE 6 [1]) 0x00005606; t.statusWord = 0x012 ∧ slotInt t 0x1180 = 1 := by decide +kernel
/-- Program 1: 3^−1 = 5. -/
theorem test_fpow : slotInt (after ({ zp7 with exp := 0xFFFFFFFF }.writeE 1 [3]) 0x00001207) 0x1080 = 5 := by decide +kernel
/-- V-FFU-GF8: pow(3, −2) = 2. -/
theorem test_fpow_gf8 : slotInt (after ({ gf8 with exp := 0xFFFFFFFE }.writeE 1 (bits3 3)) 0x00001207) 0x1080 = 2 := by decide +kernel
/-- V-FFU-DIGITS: digit words [3,1,0,...] raise RANGE in Z/7Z. -/
theorem test_range_digit : (after (zp7.writeE 1 [3, 1]) 0x00001204).statusWord = 0x052 := by decide +kernel
/-- V-PU-P7: [1,2,3] + [6,5,4] = []. -/
theorem test_padd : let t := after (putP (putP zp7 0 [1, 2, 3]) 1 [6, 5, 4]) 0x00010210; t.statusWord = 0x002 ∧ getP t 2 = [] := by decide +kernel
/-- V-PU-P7: −[1,2,3] = [6,5,4]. -/
theorem test_pneg : getP (after (putP zp7 0 [1, 2, 3]) 0x00000211) 2 = [6, 5, 4] := by decide +kernel
/-- V-PU-P7: [1,2,3]·[6,5,4] = [6,3,4,2,5]. -/
theorem test_pmul : getP (after (putP (putP zp7 0 [1, 2, 3]) 1 [6, 5, 4]) 0x00010212) 2 = [6, 3, 4, 2, 5] := by decide +kernel
/-- V-SRC-2: q = [5,1,1], r = [2]. -/
theorem test_pdiv : let t := after (putP (putP zp7 0 [5, 0, 3, 1]) 1 [2, 1]) 0x00310213; getP t 2 = [5, 1, 1] ∧ getP t 3 = [2] := by decide +kernel
/-- Program 4: D = D2 gives ILLEGAL and leaves P14. -/
theorem test_pdiv_clash : let t := after (putP (putP zp7 0 [6, 0, 1]) 14 [1, 2, 3]) 0x00E00E13; t.statusWord = 0x062 ∧ getP t 14 = [1, 2, 3] := by decide +kernel
/-- V-PU-P7: gcd([6,0,1], [2,3,1]) = [1,1]. -/
theorem test_pgcd : getP (after (putP (putP zp7 0 [6, 0, 1]) 1 [2, 3, 1]) 0x00010214) 2 = [1, 1] := by decide +kernel
/-- V-SRC-3: d = [1,1], r = [2], s = [5]. -/
theorem test_pgcdx : let t := after (putP (putP zp7 0 [6, 0, 1]) 1 [2, 3, 1]) 0x04310215; getP t 2 = [1, 1] ∧ getP t 3 = [2] ∧ getP t 4 = [5] := by decide +kernel
/-- V-PU-P7: [1,2,3] at 2 is 3. -/
theorem test_peval : slotInt (after ((putP zp7 12 [1, 2, 3]).writeE 1 [2]) 0x0001C216) 0x1080 = 3 := by decide +kernel
/-- V-PU-P7: through (1,2), (2,5), (3,3). -/
theorem test_pinterp : getP (after (putW (putA { zp7 with nlen := 3 } [1, 2, 3]) [2, 5, 3]) 0x00000017) 0 = [1, 0, 1] := by decide +kernel
/-- V-PU-P7: through (1,2), (1,3). -/
theorem test_pinterp_equal_points : (after (putW (putA { zp7 with nlen := 2 } [1, 1]) [2, 3]) 0x00000017).statusWord = 0x012 := by decide +kernel
/-- Program 4: (x+1)^7 mod x³+2 = [1,4]. -/
theorem test_ppowmod : getP (after (putP (putP { zp7 with exp := 7 } 9 [1, 1]) 10 [2, 0, 0, 1]) 0x000A9B18) 11 = [1, 4] := by decide +kernel
/-- V-PU-P7: EXP = −1 gives RANGE, also for the zero modulus. -/
theorem test_ppowmod_negative : (after { zp7 with exp := 0xFFFFFFFF } 0x000A9B18).statusWord = 0x052 := by decide +kernel
/-- V-SRC-5: x³+x+1 over GF(2). -/
theorem test_pirred : (after (putP { State.reset with prime := 2 } 0 [1, 1, 0, 1]) 0x00000019).res = 1 := by decide +kernel
/-- V-SRC-5: x²+1 over GF(2). -/
theorem test_pirred_reducible : (after (putP { State.reset with prime := 2, res := 1 } 0 [1, 0, 1]) 0x00000019).res = 0 := by decide +kernel
/-- V-SRC-4: [1,2,3,0,0] is [1,2,3]. -/
theorem test_preduce : getP (after (putP zp7 13 [1, 2, 3, 0, 0]) 0x0000DE1A) 14 = [1, 2, 3] := by decide +kernel
/-- V-CODEC-P7-3: α = 3, i = 1, n = 6, k = 2. -/
theorem test_genpoly : getP (after { zp7 with nlen := 6, klen := 2, powi := 1, alpha := #v[3, 0, 0, 0, 0, 0, 0, 0, 0, 0, 0, 0, 0, 0, 0, 0] } 0x00000120) 1 = [4, 2, 3, 6, 1] := by decide +kernel
/-- V-CODEC-P7-1: s = [4,1] at 1..6. -/
theorem test_enc_eval : getW (after (putP (putA { zp7 with nlen := 6 } [1, 2, 3, 4, 5, 6]) 1 [4, 1]) 0x00001021) 6 = [5, 6, 0, 1, 2, 3] := by decide +kernel
/-- V-CODEC-P7-3: [4,1]·[4,2,3,6,1]. -/
theorem test_enc_gen : getW (after (putP (putP { zp7 with nlen := 6 } 0 [4, 1]) 1 [4, 2, 3, 6, 1]) 0x00010022) 6 = [2, 5, 0, 6, 3, 1] := by decide +kernel
/-- V-CODEC-CORNER: a product longer than n gives DIM. -/
theorem test_enc_gen_too_long : (after (putP (putP { zp7 with nlen := 5 } 0 [4, 1]) 1 [4, 2, 3, 6, 1]) 0x00010022).statusWord = 0x022 := by decide +kernel

/-- V-CODEC-P7-1: n = 6, k = 2, two errors at the points 1..6. -/
def evalWord : State := putW (putA { zp7 with nlen := 6, klen := 2 } [1, 2, 3, 4, 5, 6]) [5, 2, 0, 1, 1, 3]

/-- V-CODEC-P7-3: n = 6, k = 2, α = 3, i = 1, two errors. -/
def bchWord : State :=
  putW { zp7 with nlen := 6, klen := 2, powi := 1, alpha := #v[3, 0, 0, 0, 0, 0, 0, 0, 0, 0, 0, 0, 0, 0, 0, 0] } [3, 5, 0, 6, 3, 3]

/-- V-CODEC-P7-1: e = [3,0,1], h = [1,1]. -/
theorem test_lakey : let t := after evalWord 0x00600528; getP t 5 = [3, 0, 1] ∧ getP t 6 = [1, 1] := by decide +kernel
/-- V-CODEC-P7-1: DEC_LA gives [4,1]. -/
theorem test_dec_la : getP (after evalWord 0x00000223) 2 = [4, 1] := by decide +kernel
/-- V-CODEC-P7-2: DEC_EE gives [4,1], the strict stop of R217. -/
theorem test_dec_ee : getP (after evalWord 0x00000324) 3 = [4, 1] := by decide +kernel
/-- V-CODEC-P7-3: S = [4,2,6,5]. -/
theorem test_synd : getP (after bchWord 0x00000326) 3 = [4, 2, 6, 5] := by decide +kernel
/-- V-CODEC-P7-3: Λ = [1,1,5], ν = 2. -/
theorem test_elp : let t := after (putP bchWord 3 [4, 2, 6, 5]) 0x00003427; getP t 4 = [1, 1, 5] ∧ t.res = 2 := by decide +kernel
/-- V-CODEC-P7-3: DEC_BCH gives [4,1]. -/
theorem test_dec_bch : getP (after (putP bchWord 1 [4, 2, 3, 6, 1]) 0x00001225) 2 = [4, 1] := by decide +kernel

/-! The bus (V-CTL-1 to V-CTL-7 and the BUSY timeline of Program 5) -/

/-- The state after the host's next transaction. -/
def host (s : State) (t : BusAccess) : State := s.serve t

/-- V-CTL-1: what reset reads as. -/
theorem test_reset_reads : (host State.reset (.read 0x000 32)).response = some (.readOkay 0x52530001) ∧ State.reset.statusWord = 0 ∧ State.reset.ctrlWord = 0 := by decide +kernel
/-- V-CTL-2: CTRL = 3 reads 3. -/
theorem test_ctrl_reads_back : (host State.reset (.write 0x004 32 0x00000003)).ctrlWord = 0x00000003 := by decide +kernel
/-- V-CTL-2: CTRL = 0xFFFFFFFC starts a soft reset. -/
theorem test_soft_reset_ignores_other_bits : (host zp7 (.write 0x004 32 0xFFFFFFFC)) = { State.reset with resets := 1, response := some .writeOkay } := by decide +kernel
/-- Program 5: accept. -/
theorem test_busy_timeline_accept : (host zp7 (.write 0x00C 32 0x00000001)).statusWord = 0x001 := by decide +kernel
/-- Program 5: a second CMD write. -/
theorem test_busy_timeline_ovr : let t := host (host zp7 (.write 0x00C 32 0x00000001)) (.write 0x00C 32 0x00000002); t.statusWord = 0x101 ∧ t.lastcmd = 0x00000001 := by decide +kernel
/-- Program 5: a PRIME write while busy. -/
theorem test_busy_timeline_wign : let t := host { zp7 with seq := .busy 0x00000001, ovr := true } (.write 0x010 32 11); t.statusWord = 0x301 ∧ t.prime = 7 := by decide +kernel
/-- Program 5: the completion keeps OVR and WIGN. -/
theorem test_busy_timeline_completion : (after { zp7 with ovr := true, wign := true } 0x00000001).statusWord = 0x302 := by decide +kernel
/-- Program 5: STATUS write of 0x302. -/
theorem test_busy_timeline_clear : (host { zp7 with done := true, ovr := true, wign := true } (.write 0x008 32 0x302)).statusWord = 0x000 := by decide +kernel
/-- V-CTL-6: a CTRL write of 3 while busy sets IE and leaves FMODE. -/
theorem test_busy_ctrl_write : (host { zp7 with seq := .busy 0x00000001 } (.write 0x004 32 0x00000003)).ctrlWord = 0x00000002 := by decide +kernel
/-- V-CTL-3: a failing command raises irq as well. -/
theorem test_irq : (after { State.reset with ie := true } 0x00000001).irq = true ∧ (after { State.reset with ie := true } 0x00000001).statusWord = 0x042 := by decide +kernel
/-- V-CTL-5: a read at 0x002. -/
theorem test_misaligned_read : host zp7 (.read 0x002 32) = { zp7 with response := some .error } := by decide +kernel
/-- V-CTL-5: a 16-bit access. -/
theorem test_narrow_write : host zp7 (.write 0x010 16 5) = { zp7 with response := some .error } := by decide +kernel
/-- V-CTL-5: 0x030 reads 0. -/
theorem test_reserved_read : (host zp7 (.read 0x030 32)).response = some (.readOkay 0) := by decide +kernel
/-- 20_memory.md R62, R64: a word written to the last PC digit reads back, byte 0 the least significant. -/
theorem test_digit_word : let t := host zp7 (.write 0x8FFFC 32 0x12345678); (host t (.read 0x8FFFC 32)).response = some (.readOkay 0x12345678) ∧ t.byte 0x8FFFC = 0x78 := by decide +kernel
/-- V-CTL-4: E1 is kept, P0 is [], nothing completes. -/
theorem test_soft_reset_keeps_e : let t := host ({ putP (zp7.writeE 1 [3]) 0 [1, 2] with seq := .busy 0x00001206 }) (.write 0x004 32 0x80000000); t.statusWord = 0 ∧ slotInt t 0x1040 = 3 ∧ getP t 0 = [] := by decide +kernel
/-! Witnesses: for every statement with hypotheses, a state and operands that meet all of them together -/

/-- A busy state whose latched word is FONE E6. -/
def busyOne : State := zp7.accept 0x00000602

/-- Every command answers a next state. -/
theorem answers (i : Instr) (s : State) : ∃ t, exec i s = .next t := by
  have h := exec_ends i s
  generalize exec i s = o at h
  cases h <;> exact ⟨_, rfl⟩

theorem zp7_inZp : InZp zp7 := ⟨rfl, by decide⟩
theorem gf8_configOk : ConfigOk gf8 := by unfold ConfigOk; decide

theorem witness_DecodeEncodeRoundTrip : (Instr.pgcdx 2 3 4 0 1).wf = true := by decide

theorem witness_UnusedFieldsAreIgnored :
    (0x0FFFF001 : Word) ≠ 0x00000001 ∧ (0x0FFFF001 : Word).toNat % 256 = (0x00000001 : Word).toNat % 256 ∧
      (0x0FFFF001 : Word).toNat / 2 ^ 28 = (0x00000001 : Word).toNat / 2 ^ 28 ∧
      ∀ lo ∈ usedFields ((0x0FFFF001 : Word).toNat % 256),
        (0x0FFFF001 : Word).toNat / 2 ^ lo % 16 = (0x00000001 : Word).toNat / 2 ^ lo % 16 := by decide

theorem witness_StepRunsTheDecodedCommand :
    decode 0x00000602 = .ok (.fone 6) ∧ busyOne.seq = .busy 0x00000602 ∧ busyOne.events = [] ∧
      (busyOne.setEvents [.run]).seq = .busy 0x00000602 ∧ (busyOne.setEvents [.run]).events = .run :: [] := by decide

/-- A word with RSV = 1, with nothing to come, and with the sequencer's turn as the next event. -/
theorem witness_IllegalWordCompletesWithIllegal :
    ¬ LegalWord 0x10000001 ∧ (zp7.accept 0x10000001).seq = .busy 0x10000001 ∧ (zp7.accept 0x10000001).events = [] ∧
      ((zp7.accept 0x10000001).setEvents [.run]).seq = .busy 0x10000001 ∧
      ((zp7.accept 0x10000001).setEvents [.run]).events = .run :: [] := by
  unfold LegalWord; decide

theorem witness_AnErrorWritesNothingButStatus :
    ∃ t, exec (.fzero 0) State.reset = .next t ∧ t.err ≠ .ok := ⟨State.reset.complete .config, rfl, by decide⟩

theorem busyOne_inv : Inv busyOne := ⟨⟨List.Pairwise.nil, fun _ h => nomatch h⟩, ⟨rfl, rfl⟩, by unfold ErrOk; decide⟩

theorem witness_EveryStepKeepsTheInvariant : ∃ t, Inv busyOne ∧ step busyOne = .next t := by
  refine ⟨((busyOne.writeE 6 [1]).complete .ok), busyOne_inv, rfl⟩

theorem witness_NoCommandWritesTheControlRegisters : ∃ t, exec (.fone 6) zp7 = .next t := answers _ _

theorem witness_ElementCommandsChangeOnlyTheirElement :
    elemDest (.fone 6) = some 6 ∧ ∃ t, exec (.fone 6) zp7 = .next t := ⟨rfl, answers _ _⟩

/-- The destinations of LAKEY at the two ends of the register file, an address below, between and above their slots. -/
theorem witness_PolynomialCommandsChangeOnlyTheirPolynomials :
    polyDests (.lakey 0 15) ≠ [] ∧ (∃ t, exec (.lakey 0 15) zp7 = .next t) ∧ (1 : PReg) ∉ polyDests (.lakey 0 15) ∧
      (∀ a ∈ [0x0FFFF, 0x18000, 0x87FFF], a < 0x90000 ∧
        ∀ d ∈ polyDests (.lakey 0 15), a < pcAddr d 0 ∨ pcAddr d 0 + 0x8000 ≤ a) ∧ writesRes (.lakey 0 15) = false := by
  refine ⟨by decide, answers _ _, by decide, by decide, rfl⟩

theorem witness_EncodersChangeOnlyTheCodeword :
    writesWords (.encEval 1) = true ∧ ∃ t, exec (.encEval 1) zp7 = .next t := ⟨rfl, answers _ _⟩

theorem witness_NopAndPirredWriteNoSlot :
    (elemDest .nop = none ∧ polyDests .nop = [] ∧ writesWords .nop = false ∧ writesRes .nop = false ∧
      ∃ t, exec .nop zp7 = .next t) ∧
    elemDest (.pirred 0) = none ∧ polyDests (.pirred 0) = [] ∧ writesWords (.pirred 0) = false ∧
      ∃ t, exec (.pirred 0) zp7 = .next t := ⟨⟨rfl, rfl, rfl, rfl, answers _ _⟩, rfl, rfl, rfl, answers _ _⟩

/-- Each condition of ConfigValid failing at its boundary: p = 1, FDEG = 0 and 17, f not monic, a coefficient equal to p. -/
theorem witness_InvalidConfigurationGivesConfig :
    (Instr.pdiv 0 1 2 3).wf = true ∧ Instr.pdiv 0 1 2 3 ≠ .nop ∧ ¬ ConfigOk { State.reset with prime := 1 } ∧
      ¬ ConfigOk { gf8 with fdeg := 0 } ∧ ¬ ConfigOk { gf8 with fdeg := 17 } ∧ ¬ ConfigOk { gf8 with fdeg := 2 } ∧
      ¬ ConfigOk { gf8 with fcoef := gf8.fcoef.set 0 2 } := by
  unfold ConfigOk; decide

/-- NLEN = 0 and 257, and KLEN = NLEN + 1. -/
theorem witness_WrongShapeGivesDim :
    (Instr.pinterp 0).wf = true ∧ ConfigOk zp7 ∧ needsShapeN (.pinterp 0) = true ∧ ¬ ShapeN zp7 ∧
      ¬ ShapeN { zp7 with nlen := 257 } ∧ (Instr.lakey 5 6).wf = true ∧ ConfigOk { zp7 with nlen := 7, klen := 8 } ∧
      needsShapeNK (.lakey 5 6) = true ∧ ¬ ShapeNK { zp7 with nlen := 7, klen := 8 } := by
  unfold ShapeNK ShapeN ConfigOk; decide

/-- n = 2 and k = 1 over Z/7Z with E1 = 7, digit 1 of E2 not 0, P0 with the last coefficient 7, PLEN[1] = 513, ALPHA = 7, and
the last of A[0..1] and of W[0..1] equal to 7. -/
def unreduced : State :=
  putW (putA ((({ putP zp7 0 [1, 7] with
    nlen := 2, klen := 1, alpha := #v[7, 0, 0, 0, 0, 0, 0, 0, 0, 0, 0, 0, 0, 0, 0, 0]
    plen := (putP zp7 0 [1, 7]).plen.set 1 513 } : State).writeE 1 [7]).writeE 2 [3, 1]) [1, 7]) [1, 7]

/-- One command for each kind of operand, the last operand it reads among them. -/
theorem witness_UnreducedOperandGivesRange :
    ConfigOk unreduced ∧ ShapeN unreduced ∧ ShapeNK unreduced ∧
      ((Instr.fneg 0 1).wf = true ∧ .e 1 ∈ operands (.fneg 0 1) ∧ (Operand.e 1).Unreduced unreduced) ∧
      (.e 2 ∈ operands (.peval 0 3 2) ∧ (Operand.e 2).Unreduced unreduced) ∧
      (.p 0 ∈ operands (.padd 2 3 0) ∧ (Operand.p 0).Unreduced unreduced) ∧
      ((Instr.pdiv 0 1 2 1).wf = true ∧ .p 1 ∈ operands (.pdiv 0 1 2 1) ∧ (Operand.p 1).Unreduced unreduced) ∧
      (.alpha ∈ operands (.genpoly 0) ∧ Operand.alpha.Unreduced unreduced) ∧
      (.points ∈ operands (.encEval 3) ∧ Operand.points.Unreduced unreduced) ∧
      (.word ∈ operands (.decBch 0 3) ∧ Operand.word.Unreduced unreduced) := by
  have hs : ShapeNK unreduced := by unfold ShapeNK ShapeN; decide +kernel
  refine ⟨configOk_of_inZp (by unfold InZp; decide +kernel), hs.1, hs, ⟨rfl, by decide, ?_⟩, ⟨by decide, ?_⟩, ⟨by decide, ?_⟩,
    ⟨rfl, by decide, ?_⟩, ⟨by decide, ?_⟩, ⟨by decide, 1, by decide +kernel, ?_⟩, by decide, 1, by decide +kernel, ?_⟩
  · unfold Operand.Unreduced ReducedSlot; decide +kernel
  · unfold Operand.Unreduced ReducedSlot; decide +kernel
  · intro h
    have : ¬ ReducedSlot unreduced (pcAddr (0 : PReg) 1) := by unfold ReducedSlot; decide +kernel
    exact this (h.2 1 (by decide +kernel))
  · intro h
    have : ¬ unreduced.plen[(1 : PReg)].toNat ≤ 512 := by decide +kernel
    exact this h.1
  · unfold Operand.Unreduced ReducedAlpha; decide +kernel
  · unfold ReducedSlot; decide +kernel
  · unfold ReducedSlot; decide +kernel

theorem witness_CodecResultsAlwaysFit :
    ShapeNK { zp7 with nlen := 256, klen := 256 } ∧ needsShapeNK (.genpoly 0) = true ∧
      (∃ t, exec (.genpoly 0) { zp7 with nlen := 256, klen := 256 } = .next t) ∧
      ShapeN { zp7 with nlen := 1 } ∧ ∃ t, exec (.pinterp 0) { zp7 with nlen := 1 } = .next t := by
  refine ⟨by unfold ShapeNK ShapeN; decide, rfl, answers _ _, by unfold ShapeN; decide, answers _ _⟩

/-- GF(8) with E1 = 7 and E2 = 5. -/
def gf8Operands : State := (gf8.writeE 1 (bits3 7)).writeE 2 (bits3 5)

theorem gf8Operands_reduced : ReducedSlot gf8Operands (eAddr (1 : EReg)) ∧ ReducedSlot gf8Operands (eAddr (2 : EReg)) := by
  unfold ReducedSlot; decide +kernel

theorem witness_IdentitiesSumsAndNegations :
    ConfigOk gf8Operands ∧ ReducedSlot gf8Operands (eAddr (1 : EReg)) ∧ ReducedSlot gf8Operands (eAddr (2 : EReg)) :=
  ⟨gf8_configOk, gf8Operands_reduced⟩

/-- Z/7Z with E1 = 6, E2 = 5 and E3 = 0. -/
def zp7Operands : State := ((zp7.writeE 1 (natElem 6)).writeE 2 (natElem 5)).writeE 3 (natElem 0)

theorem zp7Operands_values :
    IsInt zp7Operands (eAddr (1 : EReg)) 6 ∧ IsInt zp7Operands (eAddr (2 : EReg)) 5 ∧ IsInt zp7Operands (eAddr (3 : EReg)) 0 :=
  ⟨isInt_of_slotDigits (by decide +kernel), isInt_of_slotDigits (by decide +kernel), isInt_of_slotDigits (by decide +kernel)⟩

theorem witness_FmulInZpIsTheProductModP :
    InZp zp7Operands ∧ IsInt zp7Operands (eAddr (1 : EReg)) 6 ∧ IsInt zp7Operands (eAddr (2 : EReg)) 5 ∧
      6 < zp7Operands.prime.toNat ∧ 5 < zp7Operands.prime.toNat :=
  ⟨zp7_inZp, zp7Operands_values.1, zp7Operands_values.2.1, by decide, by decide⟩

theorem witness_FmulInFqIsTheProductModF :
    gf8Operands.fmode = .fq ∧ ConfigOk gf8Operands ∧ ReducedSlot gf8Operands (eAddr (1 : EReg)) ∧
      ReducedSlot gf8Operands (eAddr (2 : EReg)) := ⟨rfl, gf8_configOk, gf8Operands_reduced⟩

theorem prime7 : zp7Operands.prime.toNat.Prime := show Nat.Prime 7 by norm_num

theorem witness_FinvInZpIsTheInverse :
    InZp zp7Operands ∧ zp7Operands.prime.toNat.Prime ∧ IsInt zp7Operands (eAddr (1 : EReg)) 6 ∧
      IsInt zp7Operands (eAddr (3 : EReg)) 0 ∧ 6 < zp7Operands.prime.toNat ∧ 0 < zp7Operands.prime.toNat :=
  ⟨zp7_inZp, prime7, zp7Operands_values.1, zp7Operands_values.2.2, by decide, by decide⟩

/-- Fq of degree 1 over Z/7Z, f = x, E1 = 3. -/
def fq1 : State :=
  { State.reset with fmode := .fq, prime := 7, fdeg := 1, fcoef := #v[0, 1, 0, 0, 0, 0, 0, 0, 0, 0, 0, 0, 0, 0, 0, 0, 0] }.writeE 1 [3]

theorem fq1_modulus : modulusPoly fq1 = Polynomial.X := by
  show zpPoly 7 [0, 1] = Polynomial.X
  simp [zpPoly]

theorem witness_FinvInFqIsTheInverse :
    fq1.fmode = .fq ∧ ConfigOk fq1 ∧ fq1.prime.toNat.Prime ∧ Irreducible (modulusPoly fq1) ∧
      ReducedSlot fq1 (eAddr (1 : EReg)) ∧ ∃ j, j < 16 ∧ digit fq1 (eAddr (1 : EReg)) j ≠ 0 := by
  have hp : Nat.Prime 7 := by norm_num
  refine ⟨rfl, by unfold ConfigOk; decide, hp, ?_, by unfold ReducedSlot; decide +kernel, 0, by decide, by decide +kernel⟩
  rw [fq1_modulus]
  have : Fact (Nat.Prime (BitVec.toNat fq1.prime)) := ⟨hp⟩
  exact Polynomial.irreducible_X

/-- `zp7Operands` with EXP = −1. -/
def zp7Negative : State := { zp7Operands with exp := 0xFFFFFFFF }

/-- EXP of both signs, and the base 0 with EXP = −1. -/
theorem witness_FpowInZpIsThePower :
    (InZp zp7Operands ∧ IsInt zp7Operands (eAddr (1 : EReg)) 6 ∧ 6 < zp7Operands.prime.toNat ∧ 0 ≤ zp7Operands.exp.toInt) ∧
    InZp zp7Negative ∧ IsInt zp7Negative (eAddr (1 : EReg)) 6 ∧ 6 < zp7Negative.prime.toNat ∧ zp7Negative.exp.toInt < 0 ∧
      Nat.Coprime 6 zp7Negative.prime.toNat ∧ IsInt zp7Negative (eAddr (3 : EReg)) 0 :=
  ⟨⟨zp7_inZp, zp7Operands_values.1, by decide, by decide⟩, zp7_inZp, isInt_of_slotDigits (by decide +kernel), by decide,
    by decide, by decide, isInt_of_slotDigits (by decide +kernel)⟩

/-- `gf8Operands` with E3 = 0 and EXP = −1. -/
def gf8Negative : State := { gf8Operands.writeE 3 [] with exp := 0xFFFFFFFF }

/-- EXP of both signs in Z/7Z, and in GF(8) a nonzero operand and 0K with EXP = −1. -/
theorem witness_FieldCommandsComplete :
    zp7Operands.field = .ok zp7Operands.fieldCtx ∧ zp7Operands.readE zp7Operands.fieldCtx 1 = .ok [6] ∧
      zp7Operands.readE zp7Operands.fieldCtx 2 = .ok [5] ∧ ([6] : Elem) ≠ zp7Operands.fieldCtx.ops.zero ∧
      0 ≤ zp7Operands.exp.toInt ∧
      zp7Negative.field = .ok zp7Negative.fieldCtx ∧ zp7Negative.readE zp7Negative.fieldCtx 1 = .ok [6] ∧
      zp7Negative.readE zp7Negative.fieldCtx 2 = .ok [5] ∧ ([6] : Elem) ≠ zp7Negative.fieldCtx.ops.zero ∧
      zp7Negative.exp.toInt < 0 ∧
      gf8Negative.field = .ok gf8Negative.fieldCtx ∧ gf8Negative.readE gf8Negative.fieldCtx 1 = .ok [1, 1, 1] ∧
      ([1, 1, 1] : Elem) ≠ gf8Negative.fieldCtx.ops.zero ∧
      gf8Negative.readE gf8Negative.fieldCtx 3 = .ok gf8Negative.fieldCtx.ops.zero ∧ gf8Negative.exp.toInt < 0 := by
  refine ⟨rfl, by decide +kernel, by decide +kernel, by decide, by decide, rfl, by decide +kernel, by decide +kernel, by decide,
    by decide, by decide +kernel, by decide +kernel, by decide +kernel, by decide +kernel, by decide⟩

/-- 0K in GF(8): FINV and FPOW with EXP = −1 give DIV_ZERO (41_field.md R136, R137). -/
theorem test_inverse_of_zero_gf8 :
    (after gf8Negative 0x00003406).statusWord = 0x012 ∧ (after gf8Negative 0x00003407).statusWord = 0x012 := by decide +kernel

theorem witness_WrittenElementReadsBack :
    ConfigOk gf8 ∧ AllBelow gf8.prime.toNat [0, 1, 1] ∧ ([0, 1, 1] : Elem).length ≤ slotWidth gf8 ∧
      ([0, 1, 1] : Elem).getLast? ≠ some 0 ∧ (15 : EReg) ≠ 0 :=
  ⟨gf8_configOk, by unfold AllBelow; decide, by decide, by decide, by decide⟩

theorem witness_WrittenPolynomialReadsBack :
    ConfigOk gf8 ∧ ([[0, 1], [], [0, 1, 1]] : Poly).length ≤ 512 ∧ ([[0, 1], [], [0, 1, 1]] : Poly).getLast? ≠ some [] ∧
      (∀ v ∈ ([[0, 1], [], [0, 1, 1]] : Poly), AllBelow gf8.prime.toNat v ∧ v.length ≤ slotWidth gf8 ∧ v.getLast? ≠ some 0) ∧
      (15 : PReg) ≠ 0 :=
  ⟨gf8_configOk, by decide, by decide, by unfold AllBelow; decide, by decide⟩

/-- P0 = x + 1, P1 with 512 coefficients 1, P2 = [], over Z/7Z; E2 = 5. -/
def longOperands : State := putP (putP (putP (zp7.writeE 2 (natElem 5)) 0 [1, 1]) 1 (List.replicate 512 1)) 2 []

theorem zpInput_out {s : State} {d r : PReg} {g h : List Nat} (hs : ZpInput s r h) (hr : r ≠ d) (hg : g.length ≤ 512) :
    ZpInput (putP s d g) r h := by
  obtain ⟨⟨h1, h2⟩, h3, h4⟩ := hs
  refine ⟨⟨?_, fun c hc => IsInt.congr (h2 c hc) ?_⟩, h3, h4⟩
  · show ((s.writeP d _).plen[r]).toNat = _
    rw [State.writeP_plen]
    simp only [Fin.getElem_fin] at h1 ⊢
    rwa [Vector.getElem_set_ne _ _ (fun e => hr (Fin.ext e.symm))]
  · refine State.slotDigits_writeP_out s d _ (by simpa using hg) _ ?_ ?_
    · have := r.isLt; simp only [pcAddr]; omega
    · have : r.val ≠ d.val := fun e => hr (Fin.ext e)
      simp only [pcAddr, pcSize]; omega

theorem zpInput_putP {s : State} {d : PReg} {g : List Nat} (hp : s.prime.toNat < 2 ^ 32) (hl : g.length ≤ 512)
    (hg : AllBelow s.prime.toNat g) : ZpInput (putP s d g) d g :=
  ⟨polyIs_writeP s d hl fun v hv => lt_trans (hg v hv) hp, hl, hg⟩

theorem longOperands_inputs :
    ZpInput longOperands 0 [1, 1] ∧ ZpInput longOperands 1 (List.replicate 512 1) ∧ ZpInput longOperands 2 [] := by
  refine ⟨zpInput_out (zpInput_out (zpInput_putP (by decide) (by decide) (by unfold AllBelow; decide)) (by decide) (List.length_replicate ▸ le_rfl))
    (by decide) (Nat.zero_le _), zpInput_out (zpInput_putP (by decide) (List.length_replicate ▸ le_rfl) ?_) (by decide) (Nat.zero_le _),
    zpInput_putP (by decide) (Nat.zero_le _) (by intro v hv; cases hv)⟩
  intro v hv
  rw [List.eq_of_mem_replicate hv]
  decide

theorem longOperands_inZp : InZp longOperands := zp7_inZp

/-- (x + 1) times the polynomial of 512 coefficients 1 has 513 coefficients. -/
theorem long_product_length : (pmul (primeOps 7) (trim (primeOps 7) ([1, 1].map natElem))
    (trim (primeOps 7) ((List.replicate 512 1).map natElem))).length = 513 := by
  have h1 : trim (primeOps 7) ([1, 1].map natElem) = [[1], [1]] := by decide
  have h2 : trim (primeOps 7) ((List.replicate 512 1).map natElem) = (List.replicate 512 1).map natElem :=
    trim_of_lc_ne_zero _ (by decide +kernel)
  have hl : ((List.replicate 512 1).map natElem).length = 512 := by rw [List.length_map, List.length_replicate]
  rw [h1, h2, pmul_length_of_top]
  · rw [hl]; rfl
  · decide
  · intro h; rw [h] at hl; cases hl
  · rw [hl]; decide +kernel

theorem longOperands_reads (r : PReg) (g : List Nat) (h : ZpInput longOperands r g) :
    longOperands.readP { p := 7, modulus := none } r = .ok (trim (primeOps 7) (g.map natElem)) :=
  readP_of_zpInput longOperands_inZp h

/-- Products of 1, of 513 and of 2 coefficients: PMUL fits and does not fit. -/
theorem witness_SumsAndProductsComplete :
    longOperands.field = .ok { p := 7, modulus := none } ∧
      longOperands.readP { p := 7, modulus := none } 0 = .ok (trim (primeOps 7) ([1, 1].map natElem)) ∧
      longOperands.readP { p := 7, modulus := none } 1 = .ok (trim (primeOps 7) ((List.replicate 512 1).map natElem)) ∧
      longOperands.readE { p := 7, modulus := none } 2 = .ok [5] ∧
      (pmul (primeOps 7) (trim (primeOps 7) ([1, 1].map natElem)) (trim (primeOps 7) ([1, 1].map natElem))).length ≤ 512 ∧
      512 < (pmul (primeOps 7) (trim (primeOps 7) ([1, 1].map natElem))
        (trim (primeOps 7) ((List.replicate 512 1).map natElem))).length := by
  refine ⟨rfl, longOperands_reads 0 _ longOperands_inputs.1, longOperands_reads 1 _ longOperands_inputs.2.1,
    by decide +kernel, by decide +kernel, by rw [long_product_length]; decide⟩

/-- P0 = x + 1 and P2 = [] over Z/7Z, EXP = −1. -/
def negativeExp : State := { putP zp7 0 [1, 1] with exp := 0xFFFFFFFF }

/-- Operands x + 1 and [], the zero one also twice, with values of PGCD, PGCDX, PPOWMOD and PIRRED that fit, and EXP of both signs. -/
theorem witness_DivisionCommandsComplete :
    longOperands.field = .ok { p := 7, modulus := none } ∧
      longOperands.readP { p := 7, modulus := none } 0 = .ok [[1], [1]] ∧
      longOperands.readP { p := 7, modulus := none } 2 = .ok [] ∧ (3 : PReg) ≠ 4 ∧ (3 : PReg) ≠ 5 ∧ (4 : PReg) ≠ 5 ∧
      pgcd (primeOps 7) [[1], [1]] [[1], [1]] = .ok [[1], [1]] ∧
      pgcdx (primeOps 7) [[1], [1]] [[1], [1]] = .ok ([[1], [1]], [], [[1]]) ∧
      ppowmod (primeOps 7) [[1], [1]] 0 [[1], [1]] = .ok [[1]] ∧ pirred (primeOps 7) 7 [[1], [1]] = .ok true ∧
      0 ≤ longOperands.exp.toInt ∧ negativeExp.field = .ok { p := 7, modulus := none } ∧
      negativeExp.readP { p := 7, modulus := none } 0 = .ok [[1], [1]] ∧
      negativeExp.readP { p := 7, modulus := none } 2 = .ok [] ∧ negativeExp.exp.toInt < 0 := by
  refine ⟨rfl, longOperands_reads 0 _ longOperands_inputs.1, longOperands_reads 2 _ longOperands_inputs.2.2, by decide, by decide,
    by decide, by decide +kernel, by decide +kernel, by decide +kernel, by decide +kernel, by decide, rfl, by decide +kernel,
    by decide +kernel, by decide⟩

/-- P0 = x² + 6, P1 = x + 1, P2 = [], P3 = [5] over Z/7Z; E1 = 6. -/
def polyOperands : State := putP (putP (putP (putP zp7Operands 0 [6, 0, 1]) 1 [1, 1]) 2 []) 3 [5]

theorem polyOperands_inputs : ZpInput polyOperands 0 [6, 0, 1] ∧ ZpInput polyOperands 1 [1, 1] ∧ ZpInput polyOperands 2 [] ∧
    ZpInput polyOperands 3 [5] :=
  ⟨zpInput_out (zpInput_out (zpInput_out (zpInput_putP (by decide) (by decide) (by unfold AllBelow; decide)) (by decide) (by decide))
      (by decide) (by decide)) (by decide) (by decide),
    zpInput_out (zpInput_out (zpInput_putP (by decide) (by decide) (by unfold AllBelow; decide)) (by decide) (by decide))
      (by decide) (by decide),
    zpInput_out (zpInput_putP (by decide) (by decide) (by unfold AllBelow; decide)) (by decide) (by decide),
    zpInput_putP (by decide) (by decide) (by unfold AllBelow; decide)⟩

theorem polyOperands_e1 : IsInt polyOperands (eAddr (1 : EReg)) 6 := isInt_of_slotDigits (by decide +kernel)

theorem polyOperands_nonzero : zpPoly 7 [1, 1] ≠ 0 := by
  have : Fact (Nat.Prime 7) := ⟨by norm_num⟩
  intro h
  have := congrArg (fun f => Polynomial.coeff f 0) h
  simp [zpPoly] at this

theorem zpPoly_nil (p : Nat) : zpPoly p [] = 0 := rfl

theorem witness_PaddPnegPmulInZp :
    InZp polyOperands ∧ ZpInput polyOperands 0 [6, 0, 1] ∧ ZpInput polyOperands 1 [1, 1] ∧
      ([6, 0, 1] : List Nat).length + ([1, 1] : List Nat).length ≤ 513 :=
  ⟨zp7_inZp, polyOperands_inputs.1, polyOperands_inputs.2.1, by decide⟩

theorem witness_PdivInZpIsTheDivisionWithRemainder :
    InZp polyOperands ∧ polyOperands.prime.toNat.Prime ∧ (4 : PReg) ≠ 5 ∧ ZpInput polyOperands 0 [6, 0, 1] ∧
      ZpInput polyOperands 1 [1, 1] ∧ zpPoly polyOperands.prime.toNat [1, 1] ≠ 0 :=
  ⟨zp7_inZp, prime7, by decide, polyOperands_inputs.1, polyOperands_inputs.2.1, polyOperands_nonzero⟩

/-- A pair with a nonzero operand, and the pair of zeros. -/
theorem witness_PgcdxInZpGivesBezout :
    InZp polyOperands ∧ polyOperands.prime.toNat.Prime ∧ (4 : PReg) ≠ 5 ∧ (4 : PReg) ≠ 6 ∧ (5 : PReg) ≠ 6 ∧
      ZpInput polyOperands 1 [1, 1] ∧ ZpInput polyOperands 2 [] ∧ zpPoly polyOperands.prime.toNat [1, 1] ≠ 0 ∧
      zpPoly polyOperands.prime.toNat [] = 0 :=
  ⟨zp7_inZp, prime7, by decide, by decide, by decide, polyOperands_inputs.2.1, polyOperands_inputs.2.2.1, polyOperands_nonzero,
    rfl⟩

theorem witness_PevalInZpEvaluates :
    InZp polyOperands ∧ ZpInput polyOperands 0 [6, 0, 1] ∧ IsInt polyOperands (eAddr (1 : EReg)) 6 ∧
      6 < polyOperands.prime.toNat := ⟨zp7_inZp, polyOperands_inputs.1, polyOperands_e1, by decide⟩

theorem witness_PpowmodInZpIsThePowerModH :
    InZp polyOperands ∧ polyOperands.prime.toNat.Prime ∧ ZpInput polyOperands 0 [6, 0, 1] ∧ ZpInput polyOperands 1 [1, 1] ∧
      zpPoly polyOperands.prime.toNat [1, 1] ≠ 0 ∧ 0 ≤ polyOperands.exp.toInt :=
  ⟨zp7_inZp, prime7, polyOperands_inputs.1, polyOperands_inputs.2.1, polyOperands_nonzero, by decide⟩

/-- Degree 1, a nonzero constant, and the zero polynomial. -/
theorem witness_PirredInZpCornerCases :
    InZp polyOperands ∧ polyOperands.prime.toNat.Prime ∧
      (ZpInput polyOperands 1 [1, 1] ∧ (zpPoly polyOperands.prime.toNat [1, 1]).degree = 1) ∧
      (ZpInput polyOperands 3 [5] ∧ (zpPoly polyOperands.prime.toNat [5]).degree = 0) ∧
      ZpInput polyOperands 2 [] ∧ zpPoly polyOperands.prime.toNat [] = 0 := by
  have h5 : (5 : ZMod 7) ≠ 0 := by decide
  have : Fact (Nat.Prime 7) := ⟨by norm_num⟩
  refine ⟨zp7_inZp, prime7, ⟨polyOperands_inputs.2.1, ?_⟩, ⟨polyOperands_inputs.2.2.2, ?_⟩, polyOperands_inputs.2.2.1, rfl⟩
  · show (zpPoly 7 [1, 1]).degree = 1
    have : zpPoly 7 [1, 1] = Polynomial.X + Polynomial.C 1 := by simp [zpPoly, add_comm]
    rw [this]; exact Polynomial.degree_X_add_C 1
  · show (zpPoly 7 [5]).degree = 0
    have : zpPoly 7 [5] = Polynomial.C 5 := by simp [zpPoly]
    rw [this]; exact Polynomial.degree_C h5

/-- P0 = x² over Z/7Z. -/
def squareOperand : State := putP zp7 0 [0, 0, 1]

/-- The irreducible x + 1 and the reducible x². -/
theorem witness_PirredInZpTestsIrreducibility :
    (InZp polyOperands ∧ polyOperands.prime.toNat.Prime ∧ ZpInput polyOperands 1 [1, 1] ∧
      zpPoly polyOperands.prime.toNat [1, 1] ≠ 0 ∧ Irreducible (zpPoly polyOperands.prime.toNat [1, 1])) ∧
    InZp squareOperand ∧ squareOperand.prime.toNat.Prime ∧ ZpInput squareOperand 0 [0, 0, 1] ∧
      zpPoly squareOperand.prime.toNat [0, 0, 1] ≠ 0 ∧ ¬ Irreducible (zpPoly squareOperand.prime.toNat [0, 0, 1]) := by
  have : Fact (Nat.Prime 7) := ⟨by norm_num⟩
  have h1 : zpPoly 7 [1, 1] = Polynomial.X + Polynomial.C 1 := by simp [zpPoly, add_comm]
  have h2 : zpPoly 7 [0, 0, 1] = Polynomial.X * Polynomial.X := by simp [zpPoly]
  refine ⟨⟨zp7_inZp, prime7, polyOperands_inputs.2.1, polyOperands_nonzero, ?_⟩, zp7_inZp, prime7,
    zpInput_putP (by decide) (by decide) (by unfold AllBelow; decide), ?_, ?_⟩
  · show Irreducible (zpPoly 7 [1, 1])
    rw [h1]; exact Polynomial.irreducible_of_degree_eq_one (Polynomial.degree_X_add_C 1)
  · show zpPoly 7 [0, 0, 1] ≠ 0
    rw [h2]; exact mul_ne_zero Polynomial.X_ne_zero Polynomial.X_ne_zero
  · show ¬ Irreducible (zpPoly 7 [0, 0, 1])
    rw [h2]
    exact fun h => (h.isUnit_or_isUnit rfl).elim Polynomial.not_isUnit_X Polynomial.not_isUnit_X

theorem slotsAre_of {s : State} {a : Nat} {g : List Nat}
    (h : ∀ c, c < g.length → s.slotDigits (a + 64 * c) = slotOfElem (natElem (g.getD c 0))) : SlotsAre s a g :=
  fun c hc => isInt_of_slotDigits (h c hc)

/-- n = 3, k = 1 over Z/7Z: the points 1, 2, 3, the message [2], its word with one error at position 0; α = 3, i = 0. -/
def smallCode : State :=
  putP (putP (putW (putA { zp7 with
    nlen := 3, klen := 1, alpha := #v[3, 0, 0, 0, 0, 0, 0, 0, 0, 0, 0, 0, 0, 0, 0, 0] } [1, 2, 3]) [5, 2, 2]) 0 [2]) 1 [3, 3, 1]

theorem smallCode_inZp : InZp smallCode := by unfold InZp; decide +kernel
theorem smallCode_shape : ShapeNK smallCode := by unfold ShapeNK ShapeN; decide +kernel
theorem smallCode_points : ZpPoints smallCode [1, 2, 3] :=
  ⟨smallCode_shape.1, by decide +kernel, slotsAre_of (by decide +kernel), by unfold AllBelow; decide +kernel⟩
theorem smallCode_word : ZpWord smallCode [5, 2, 2] :=
  ⟨smallCode_shape.1, by decide +kernel, slotsAre_of (by decide +kernel), by unfold AllBelow; decide +kernel⟩
theorem smallCode_alpha : ZpAlpha smallCode 3 := by unfold ZpAlpha; decide +kernel
theorem smallCode_message : ZpInput smallCode 0 [2] :=
  zpInput_out (zpInput_putP (by decide +kernel) (by decide) (by unfold AllBelow; decide +kernel)) (by decide) (by decide)
theorem smallCode_generator : ZpInput smallCode 1 [3, 3, 1] :=
  zpInput_putP (by decide +kernel) (by decide) (by unfold AllBelow; decide +kernel)
theorem smallCode_p : smallCode.prime.toNat = 7 := by decide +kernel
theorem smallCode_prime : smallCode.prime.toNat.Prime := by rw [smallCode_p]; norm_num

/-- `smallCode` with ALPHA = 0 and POWI = −1. -/
def zeroAlpha : State := { smallCode with alpha := Vector.replicate 16 0, powi := 0xFFFFFFFF }

/-- `zeroAlpha` with k = n = 3. -/
def zeroAlphaFull : State := { zeroAlpha with klen := 3 }

/-- `smallCode` with the point 1 standing twice. -/
def repeatedPoint : State := putA smallCode [1, 2, 1]

/-- Distinct points, and a point that stands twice. -/
theorem witness_PinterpInZpInterpolates :
    (InZp smallCode ∧ smallCode.prime.toNat.Prime ∧ ZpPoints smallCode [1, 2, 3] ∧ ZpWord smallCode [5, 2, 2] ∧
      ([1, 2, 3] : List Nat).Nodup) ∧
    InZp repeatedPoint ∧ repeatedPoint.prime.toNat.Prime ∧ ZpPoints repeatedPoint [1, 2, 1] ∧ ZpWord repeatedPoint [5, 2, 2] ∧
      ¬ ([1, 2, 1] : List Nat).Nodup := by
  have hp : repeatedPoint.prime.toNat = 7 := by decide +kernel
  have hs : ShapeN repeatedPoint := by unfold ShapeN; decide +kernel
  refine ⟨⟨smallCode_inZp, smallCode_prime, smallCode_points, smallCode_word, by decide⟩, by unfold InZp; decide +kernel,
    by rw [hp]; norm_num, ⟨hs, by decide +kernel, slotsAre_of (by decide +kernel), by rw [hp]; unfold AllBelow; decide⟩,
    ⟨hs, by decide +kernel, slotsAre_of (by decide +kernel), by rw [hp]; unfold AllBelow; decide⟩, by decide⟩

/-- A product of 3 coefficients against n = 3, and against n = 2. -/
theorem witness_EncodersComplete :
    (smallCode.field = .ok { p := 7, modulus := none } ∧ smallCode.shapeN = .ok 3 ∧
      smallCode.readP { p := 7, modulus := none } 0 = .ok [[2]] ∧
      smallCode.readP { p := 7, modulus := none } 1 = .ok [[3], [3], [1]] ∧
      smallCode.readA { p := 7, modulus := none } 3 = .ok [[1], [2], [3]] ∧
      (pmul (primeOps 7) [[2]] [[3], [3], [1]]).length ≤ 3) ∧
    ({ smallCode with nlen := 2 } : State).field = .ok { p := 7, modulus := none } ∧
      ({ smallCode with nlen := 2 } : State).shapeN = .ok 2 ∧
      ({ smallCode with nlen := 2 } : State).readP { p := 7, modulus := none } 0 = .ok [[2]] ∧
      ({ smallCode with nlen := 2 } : State).readP { p := 7, modulus := none } 1 = .ok [[3], [3], [1]] ∧
      2 < (pmul (primeOps 7) [[2]] [[3], [3], [1]]).length := by
  decide +kernel

/-- V-CODEC-CORNER: n = 4, k = 3 over GF(8), A = [1,2,4,3], W = [1,2,3,4]. -/
def cornerCode : State :=
  (({ gf8 with nlen := 4, klen := 3 } : State).storeBytes (aAddr 0) (([1, 2, 4, 3].map bits3).flatMap slotBytes)).writeW
    ([1, 2, 3, 4].map bits3)

/-- The field of GF(8). -/
def gf8Field : FieldCtx := { p := 2, modulus := some [1, 1, 0, 1] }

/-- All four answer on the operands of `smallCode`; with a repeated point all four raise DIV_ZERO; and DEC_LA does for e = []. -/
theorem witness_EvaluationDecodersComplete :
    (smallCode.field = .ok { p := 7, modulus := none } ∧ smallCode.shapeN = .ok 3 ∧ smallCode.shapeNK = .ok (3, 1) ∧
      smallCode.readA { p := 7, modulus := none } 3 = .ok [[1], [2], [3]] ∧
      smallCode.readW { p := 7, modulus := none } 3 = .ok [[5], [2], [2]] ∧ (4 : PReg) ≠ 5 ∧
      (pinterp (primeOps 7) [[1], [2], [3]] [[5], [2], [2]]).isOk = true ∧
      (lakeySolve (primeOps 7) 3 1 [[1], [2], [3]] [[5], [2], [2]]).isOk = true ∧
      decodeLa (primeOps 7) 3 1 [[1], [2], [3]] [[5], [2], [2]] = .ok [[2]] ∧
      decodeEe (primeOps 7) 3 1 [[1], [2], [3]] [[5], [2], [2]] = .ok [[2]]) ∧
    (repeatedPoint.field = .ok { p := 7, modulus := none } ∧ repeatedPoint.shapeNK = .ok (3, 1) ∧
      repeatedPoint.readA { p := 7, modulus := none } 3 = .ok [[1], [2], [1]] ∧
      repeatedPoint.readW { p := 7, modulus := none } 3 = .ok [[5], [2], [2]] ∧ ¬ ([[1], [2], [1]] : List Elem).Nodup ∧
      pinterp (primeOps 7) [[1], [2], [1]] [[5], [2], [2]] = .error .divZero ∧
      lakeySolve (primeOps 7) 3 1 [[1], [2], [1]] [[5], [2], [2]] = .error .divZero ∧
      decodeLa (primeOps 7) 3 1 [[1], [2], [1]] [[5], [2], [2]] = .error .divZero ∧
      decodeEe (primeOps 7) 3 1 [[1], [2], [1]] [[5], [2], [2]] = .error .divZero) ∧
    cornerCode.field = .ok gf8Field ∧ cornerCode.shapeN = .ok 4 ∧ cornerCode.shapeNK = .ok (4, 3) ∧
      cornerCode.readA gf8Field 4 = .ok [[1], [0, 1], [0, 0, 1], [1, 1]] ∧
      cornerCode.readW gf8Field 4 = .ok [[1], [0, 1], [1, 1], [0, 0, 1]] ∧
      (lakeySolve gf8Field.ops 4 3 [[1], [0, 1], [0, 0, 1], [1, 1]] [[1], [0, 1], [1, 1], [0, 0, 1]]).map (·.e) = .ok [] := by
  refine ⟨by decide +kernel, ?_, by decide +kernel⟩
  refine ⟨by decide +kernel, by decide +kernel, by decide +kernel, by decide +kernel, by decide, by decide +kernel, by decide +kernel,
    by decide +kernel, by decide +kernel⟩

/-- V-CODEC-CORNER: DEC_LA raises DIV_ZERO for e = [], DEC_EE gives [4, 2]. -/
theorem test_decoders_corner :
    (after cornerCode 0x00000223).statusWord = 0x012 ∧ getP (after cornerCode 0x00000324) 3 = [4, 2] := by decide +kernel

/-- The four answer on the operands of `smallCode`; P2 is [], and ALPHA = 0 with POWI = −1 in `zeroAlpha`. -/
theorem witness_BchCommandsComplete :
    (smallCode.field = .ok { p := 7, modulus := none } ∧ smallCode.shapeNK = .ok (3, 1) ∧
      smallCode.readAlpha { p := 7, modulus := none } = .ok [3] ∧
      smallCode.readW { p := 7, modulus := none } 3 = .ok [[5], [2], [2]] ∧
      smallCode.readP { p := 7, modulus := none } 1 = .ok [[3], [3], [1]] ∧
      smallCode.readP { p := 7, modulus := none } 2 = .ok [] ∧
      genPoly (primeOps 7) 3 1 [3] smallCode.powi.toInt = .ok [[3], [3], [1]] ∧
      (syndromes (primeOps 7) 3 1 [3] smallCode.powi.toInt (receivedPoly { p := 7, modulus := none } [[5], [2], [2]])).isOk = true ∧
      (decodeBch (primeOps 7) 3 1 [[3], [3], [1]] [3] smallCode.powi.toInt
        (receivedPoly { p := 7, modulus := none } [[5], [2], [2]])).isOk = true) ∧
    zeroAlpha.field = .ok { p := 7, modulus := none } ∧ zeroAlpha.shapeNK = .ok (3, 1) ∧
      zeroAlpha.readAlpha { p := 7, modulus := none } = .ok (primeOps 7).zero ∧
      zeroAlpha.readW { p := 7, modulus := none } 3 = .ok [[5], [2], [2]] ∧
      zeroAlpha.readP { p := 7, modulus := none } 1 = .ok [[3], [3], [1]] ∧ zeroAlpha.powi.toInt < 0 ∧ 1 < 3 ∧ 2 ≤ 3 ∧
      genPoly (primeOps 7) 3 1 [] zeroAlpha.powi.toInt = .error .divZero ∧
      syndromes (primeOps 7) 3 1 [] zeroAlpha.powi.toInt (receivedPoly { p := 7, modulus := none } [[5], [2], [2]]) =
        .error .divZero ∧
      decodeBch (primeOps 7) 3 1 [[3], [3], [1]] [] zeroAlpha.powi.toInt
        (receivedPoly { p := 7, modulus := none } [[5], [2], [2]]) = .error .divZero := by
  decide +kernel

theorem witness_EncEvalInZpEvaluatesAtThePoints :
    InZp smallCode ∧ ZpInput smallCode 0 [2] ∧ ZpPoints smallCode [1, 2, 3] :=
  ⟨smallCode_inZp, smallCode_message, smallCode_points⟩

theorem witness_EncGenInZpMultipliesByTheGenerator :
    InZp smallCode ∧ ShapeN smallCode ∧ ZpInput smallCode 0 [2] ∧ ZpInput smallCode 1 [3, 3, 1] ∧
      ([2] : List Nat).length + ([3, 3, 1] : List Nat).length ≤ smallCode.nlen.toNat + 1 :=
  ⟨smallCode_inZp, smallCode_shape.1, smallCode_message, smallCode_generator, by decide +kernel⟩

/-- ALPHA = 3; ALPHA = 0 with POWI = −1, k < n; and the same with k = n. -/
theorem witness_GenpolyInZpIsTheProductOfItsRoots :
    Fact (Nat.Prime 7) ∧ (InZp smallCode ∧ smallCode.prime.toNat = 7 ∧ ShapeNK smallCode ∧ ZpAlpha smallCode 3 ∧
      (3 ≠ 0 ∨ 0 ≤ smallCode.powi.toInt ∨ smallCode.klen = smallCode.nlen)) ∧
    (InZp zeroAlpha ∧ zeroAlpha.prime.toNat = 7 ∧ ShapeNK zeroAlpha ∧ ZpAlpha zeroAlpha 0 ∧ zeroAlpha.powi.toInt < 0 ∧
      zeroAlpha.klen.toNat < zeroAlpha.nlen.toNat) ∧
    InZp zeroAlphaFull ∧ zeroAlphaFull.prime.toNat = 7 ∧ ShapeNK zeroAlphaFull ∧ ZpAlpha zeroAlphaFull 0 ∧
      zeroAlphaFull.klen = zeroAlphaFull.nlen := by
  refine ⟨⟨by norm_num⟩, ⟨smallCode_inZp, smallCode_p, smallCode_shape, smallCode_alpha, .inl (by decide)⟩, ?_⟩
  unfold InZp ShapeNK ShapeN ZpAlpha; decide +kernel

theorem witness_SyndInZpEvaluatesAtThePowers :
    Fact (Nat.Prime 7) ∧ (InZp smallCode ∧ smallCode.prime.toNat = 7 ∧ ShapeNK smallCode ∧ ZpAlpha smallCode 3 ∧
      ZpWord smallCode [5, 2, 2] ∧ (3 ≠ 0 ∨ 0 ≤ smallCode.powi.toInt ∨ smallCode.klen = smallCode.nlen)) ∧
    (InZp zeroAlpha ∧ zeroAlpha.prime.toNat = 7 ∧ ShapeNK zeroAlpha ∧ ZpAlpha zeroAlpha 0 ∧ ZpWord zeroAlpha [5, 2, 2] ∧
      zeroAlpha.powi.toInt < 0 ∧ zeroAlpha.klen.toNat < zeroAlpha.nlen.toNat) ∧
    InZp zeroAlphaFull ∧ zeroAlphaFull.prime.toNat = 7 ∧ ShapeNK zeroAlphaFull ∧ ZpAlpha zeroAlphaFull 0 ∧
      ZpWord zeroAlphaFull [5, 2, 2] ∧ zeroAlphaFull.klen = zeroAlphaFull.nlen := by
  have hs : ShapeNK zeroAlpha := by unfold ShapeNK ShapeN; decide +kernel
  have hf : ShapeNK zeroAlphaFull := by unfold ShapeNK ShapeN; decide +kernel
  refine ⟨⟨by norm_num⟩, ⟨smallCode_inZp, smallCode_p, smallCode_shape, smallCode_alpha, smallCode_word, .inl (by decide)⟩,
    ⟨by unfold InZp; decide +kernel, by decide +kernel, hs, by unfold ZpAlpha; decide +kernel,
      ⟨hs.1, by decide +kernel, slotsAre_of (by decide +kernel), by unfold AllBelow; decide +kernel⟩, by decide +kernel,
      by decide +kernel⟩,
    by unfold InZp; decide +kernel, by decide +kernel, hf, by unfold ZpAlpha; decide +kernel,
    ⟨hf.1, by decide +kernel, slotsAre_of (by decide +kernel), by unfold AllBelow; decide +kernel⟩, by decide +kernel⟩

/-- One error in three positions, t = 1. -/
theorem witness_DecLaInZpCorrectsUpToTErrors :
    InZp smallCode ∧ smallCode.prime.toNat.Prime ∧ ShapeNK smallCode ∧ ZpPoints smallCode [1, 2, 3] ∧
      ZpWord smallCode [5, 2, 2] ∧ ([1, 2, 3] : List Nat).Nodup ∧ ([2] : List Nat).length ≤ smallCode.klen.toNat ∧
      AllBelow smallCode.prime.toNat [2] ∧ errorCount smallCode.prime.toNat [2] [1, 2, 3] [5, 2, 2] = 1 ∧
      errorCount smallCode.prime.toNat [2] [1, 2, 3] [5, 2, 2] ≤ (smallCode.nlen.toNat - smallCode.klen.toNat) / 2 :=
  ⟨smallCode_inZp, smallCode_prime, smallCode_shape, smallCode_points, smallCode_word, by decide, by decide +kernel,
    by unfold AllBelow; decide +kernel, by decide +kernel, by decide +kernel⟩

theorem witness_DecEeInZpCorrectsUpToTErrors :
    InZp smallCode ∧ smallCode.prime.toNat.Prime ∧ ShapeNK smallCode ∧ ZpPoints smallCode [1, 2, 3] ∧
      ZpWord smallCode [5, 2, 2] ∧ ([1, 2, 3] : List Nat).Nodup ∧ ([2] : List Nat).length ≤ smallCode.klen.toNat ∧
      AllBelow smallCode.prime.toNat [2] ∧
      errorCount smallCode.prime.toNat [2] [1, 2, 3] [5, 2, 2] ≤ (smallCode.nlen.toNat - smallCode.klen.toNat) / 2 :=
  ⟨smallCode_inZp, smallCode_prime, smallCode_shape, smallCode_points, smallCode_word, by decide, by decide +kernel,
    by unfold AllBelow; decide +kernel, by decide +kernel⟩

theorem seven_eq_zero : (7 : Polynomial (ZMod 7)) = 0 := by
  have h : (7 : ZMod 7) = 0 := rfl
  rw [show (7 : Polynomial (ZMod 7)) = Polynomial.C 7 from rfl, h, Polynomial.C_0]

/-- The word [6,6,2] of 2·(x − 1)(x − 3) with the error 1 at position 0. -/
def bchSmall : State := putW smallCode [0, 6, 2]

theorem witness_DecBchInZpCorrectsUpToTErrors :
    Fact (Nat.Prime 7) ∧ InZp bchSmall ∧ bchSmall.prime.toNat = 7 ∧ ShapeNK bchSmall ∧ ZpAlpha bchSmall 3 ∧
      (∀ i j : Nat, i < j → j < bchSmall.nlen.toNat → ((3 : Nat) : ZMod 7) ^ i ≠ ((3 : Nat) : ZMod 7) ^ j) ∧
      ZpInput bchSmall 1 [3, 3, 1] ∧ ZpWord bchSmall [0, 6, 2] ∧
      ([2] : List Nat).length ≤ bchSmall.klen.toNat ∧ ([1] : List Nat).length ≤ bchSmall.nlen.toNat ∧
      (([1] : List Nat).filter fun e => e % 7 != 0).length ≤ (bchSmall.nlen.toNat - bchSmall.klen.toNat) / 2 ∧
      zpPoly 7 [0, 6, 2] = zpPoly 7 [2] * zpPoly 7 [3, 3, 1] + zpPoly 7 [1] := by
  have hs : ShapeNK bchSmall := by unfold ShapeNK ShapeN; decide +kernel
  have hn : bchSmall.nlen.toNat = 3 := by decide +kernel
  refine ⟨⟨by norm_num⟩, by unfold InZp; decide +kernel, by decide +kernel, hs, by unfold ZpAlpha; decide +kernel, ?_,
    ⟨⟨by decide +kernel, slotsAre_of (by decide +kernel)⟩, by decide, by unfold AllBelow; decide +kernel⟩,
    ⟨hs.1, by decide +kernel, slotsAre_of (by decide +kernel), by unfold AllBelow; decide +kernel⟩, by decide +kernel,
    by decide +kernel, by decide +kernel, ?_⟩
  · intro i j hi hj
    rw [hn] at hj
    have h : (i = 0 ∧ j = 1) ∨ (i = 0 ∧ j = 2) ∨ (i = 1 ∧ j = 2) := by omega
    rcases h with ⟨rfl, rfl⟩ | ⟨rfl, rfl⟩ | ⟨rfl, rfl⟩ <;> decide
  · have h2 : Polynomial.C (2 : ZMod 7) = 2 := rfl
    have h3 : Polynomial.C (3 : ZMod 7) = 3 := rfl
    have h6 : Polynomial.C (6 : ZMod 7) = 6 := rfl
    simp [zpPoly, h2, h3, h6]
    linear_combination (-1 : Polynomial (ZMod 7)) * seven_eq_zero

/-- The generator of `bchSmall` is Gen(3, 1, 3, 0) = (x − 1)(x − 3). -/
theorem witness_DecBchInZpCorrectsUpToTErrors_generator (_ : Fact (Nat.Prime 7)) :
    zpPoly 7 [3, 3, 1] = ∏ l ∈ Finset.range (bchSmall.nlen.toNat - bchSmall.klen.toNat),
      (Polynomial.X - Polynomial.C (((3 : Nat) : ZMod 7) ^ (bchSmall.powi.toInt + (l : Int)))) := by
  have hn : bchSmall.nlen.toNat - bchSmall.klen.toNat = 2 := by decide +kernel
  have hi : bchSmall.powi.toInt = 0 := by decide +kernel
  have h3 : Polynomial.C (3 : ZMod 7) = 3 := rfl
  rw [hn, hi]
  simp [zpPoly, Finset.prod_range_succ, h3]
  linear_combination (Polynomial.X : Polynomial (ZMod 7)) * seven_eq_zero

/-- One state for each write: idle CMD, idle CTRL, busy CTRL, STATUS. -/
theorem witness_WritesToCtrlStatusAndCmd :
    zp7.seq = .idle ∧ (zp7.setEvents [.bus (.write 0x0000C 32 0x602)]).events = .bus (.write 0x0000C 32 0x602) :: [] ∧
      (0x00000003 : Word).getLsbD 31 = false ∧ busyOne.seq = .busy 0x00000602 ∧
      (busyOne.setEvents [.bus (.write 0x00004 32 3)]).events = .bus (.write 0x00004 32 3) :: [] ∧
      (0x00000302 : Word).getLsbD 1 = true := by decide +kernel

theorem witness_CmdWriteWhileBusyOnlySetsOvr :
    (busyOne.setEvents [.bus (.write 0x0000C 32 2)]).seq = .busy 0x00000602 ∧
      (busyOne.setEvents [.bus (.write 0x0000C 32 2)]).events = .bus (.write 0x0000C 32 2) :: [] := by decide +kernel

/-- ID, the register after CMD, and the last word of the window. -/
theorem witness_OtherWritesWhileBusyOnlySetWign :
    busyOne.seq = .busy 0x00000602 ∧
      ((0x00000 : BitVec 20).toNat % 4 = 0 ∧ (0x00000 : BitVec 20) ≠ 0x00004 ∧ (0x00000 : BitVec 20) ≠ 0x00008 ∧
        (0x00000 : BitVec 20) ≠ 0x0000C) ∧
      ((0x00010 : BitVec 20).toNat % 4 = 0 ∧ (0x00010 : BitVec 20) ≠ 0x00004 ∧ (0x00010 : BitVec 20) ≠ 0x00008 ∧
        (0x00010 : BitVec 20) ≠ 0x0000C) ∧
      ((0xFFFFC : BitVec 20).toNat % 4 = 0 ∧ (0xFFFFC : BitVec 20) ≠ 0x00004 ∧ (0xFFFFC : BitVec 20) ≠ 0x00008 ∧
        (0xFFFFC : BitVec 20) ≠ 0x0000C) := by decide +kernel

/-- A busy state, the write that ends its command, and one that does not. -/
theorem witness_HostCannotChangeInputsWhileBusy :
    busyOne.seq = .busy 0x00000602 ∧ (busyOne.serve (.write 0x00004 32 0x80000000)).seq = .idle ∧
      (busyOne.serve (.write 0x00004 32 0x7FFFFFFF)).seq = .busy 0x00000602 := by decide +kernel

/-- A legal and an illegal word in flight. -/
theorem witness_CompletionRaisesTheInterrupt :
    busyOne.seq = .busy 0x00000602 ∧ (zp7.accept 0x10000001).seq = .busy 0x10000001 ∧ ¬ LegalWord 0x10000001 := by
  unfold LegalWord; decide

/-- Misaligned addresses and widths other than 32. -/
theorem witness_NonWordAccessIsABusError :
    ((0x00001 : BitVec 20).toNat % 4 ≠ 0 ∨ (32 : Nat) ≠ 32) ∧ ((0xFFFFF : BitVec 20).toNat % 4 ≠ 0 ∨ (32 : Nat) ≠ 32) ∧
      ((0x00010 : BitVec 20).toNat % 4 ≠ 0 ∨ (16 : Nat) ≠ 32) ∧ ((0x00010 : BitVec 20).toNat % 4 ≠ 0 ∨ (64 : Nat) ≠ 32) := by
  decide +kernel

/-- The first and last word of every reserved range, and that its neighbours are not reserved. -/
theorem witness_ReadsAndReservedAddresses :
    (∀ a ∈ [0x02C, 0x3FC, 0x444, 0x4FC, 0x540, 0xFFC, 0x1400, 0x1FFC, 0x2040, 0x3FFC, 0xC000, 0xFFFC, 0x90000, 0xFFFFC],
      IsReserved a ∧ a % 4 = 0) ∧
    (∀ a ∈ [0x028, 0x400, 0x440, 0x500, 0x53C, 0x1000, 0x13FC, 0x2000, 0x203C, 0x4000, 0xBFFC, 0x10000, 0x8FFFC],
      ¬ IsReserved a ∧ a % 4 = 0) ∧
    (0x00440 : BitVec 20).toNat = 0x400 + 4 * (16 : Fin 17).val ∧ (0x0053C : BitVec 20).toNat = 0x500 + 4 * (15 : Fin 16).val ∧
    (0x0203C : BitVec 20).toNat = 0x2000 + 4 * (15 : Fin 16).val ∧
    ∀ a ∈ [0x1000, 0x13FC, 0x4000, 0xBFFC, 0x10000, 0x8FFFC], IsDigitWord a ∧ ¬ IsReserved a := by
  unfold IsReserved IsDigitWord; decide +kernel

theorem witness_ControlRegistersHoldWhatIsWritten :
    zp7.seq = .idle ∧ (zp7.setEvents [.bus (.write 0x00440 32 1)]).events = .bus (.write 0x00440 32 1) :: [] ∧
      (0x00440 : BitVec 20).toNat = 0x400 + 4 * (16 : Fin 17).val ∧ (0x00500 : BitVec 20).toNat = 0x500 + 4 * (0 : Fin 16).val ∧
      (0x0203C : BitVec 20).toNat = 0x2000 + 4 * (15 : Fin 16).val := by decide +kernel

/-- The first and last digit word of E, of A and W, and of PC. -/
theorem witness_DigitWordsReadBackWhatIsWritten :
    zp7.seq = .idle ∧ ∀ a ∈ [0x1000, 0x13FC, 0x4000, 0xBFFC, 0x10000, 0x8FFFC], a % 4 = 0 ∧ IsDigitWord a := by
  unfold IsDigitWord; decide +kernel

theorem witness_SoftResetState :
    (0x80000000 : Word).getLsbD 31 = true ∧
      (busyOne.setEvents [.bus (.write 0x00004 32 0x80000000)]).events = .bus (.write 0x00004 32 0x80000000) :: [] :=
  ⟨by decide, rfl⟩

theorem witness_PowerOnResetState : (busyOne.setEvents [.powerOn]).events = .powerOn :: [] := rfl

end Sys2Proof.Tests
end

section
/-! PROOFS of the family 10_state.md: which command a step runs, host writes to the registers, and ElemWrite and PolyWrite
read back. -/

namespace Sys2Proof.Machine

/-! The sequencer's turn (10_state.md R49) -/

/-- Settles O5: each way to the sequencer's turn runs the decoded command. -/
theorem stepRunsTheDecodedCommand : Obligations.StepRunsTheDecodedCommand := by
  intro s cw i rest hd
  refine ⟨fun hs he => ?_, fun hs he => ?_, fun nbits => ?_⟩
  · rw [step_nil he, sequencerTurn_busy hs hd]
  · rw [step_run he]
    exact sequencerTurn_busy hs hd
  · rw [step_withFetchWord, sequencerTurn_busy (s.accept_seq cw) hd]

/-! Host writes (20_memory.md R60, R63; 10_state.md section 2) -/

/-- An aligned 32-bit write is the write to the register at its address, answered OKAY. -/
theorem step_write {s : State} {a : BitVec 20} {w : Word} {rest : List Event} {r : Reg}
    (he : s.events = .bus (.write a 32 w) :: rest) (ha : a.toNat % 4 = 0) (hr : regAt a.toNat = r) :
    step s = .next (((s.setEvents rest).writeReg r w).respond .writeOkay) := by
  rw [step_bus he, State.serve_write _ ha, hr]

theorem step_write_idle {s : State} {a : BitVec 20} {w : Word} {rest : List Event} {r : Reg} (hs : s.seq = .idle)
    (he : s.events = .bus (.write a 32 w) :: rest) (ha : a.toNat % 4 = 0) (hr : regAt a.toNat = r) :
    step s = .next (((s.setEvents rest).writeIdle w r).respond .writeOkay) := by
  rw [step_write he ha hr, State.writeReg_idle (s := s.setEvents rest) hs]

theorem step_write_busy {s : State} {cw : Word} {a : BitVec 20} {w : Word} {rest : List Event} {r : Reg}
    (hs : s.seq = .busy cw) (he : s.events = .bus (.write a 32 w) :: rest) (ha : a.toNat % 4 = 0) (hr : regAt a.toNat = r) :
    step s = .next (((s.setEvents rest).writeBusy w r).respond .writeOkay) := by
  rw [step_write he ha hr, State.writeReg_busy (s := s.setEvents rest) hs]

/-- A STATUS write acts the same while idle and while busy (70_reset_and_hazards.md R309). -/
theorem State.writeReg_status (s : State) (w : Word) : s.writeReg .status w = s.clearStatus w := by
  cases hs : s.seq with
  | idle => exact State.writeReg_idle hs .status w
  | busy cw => exact State.writeReg_busy hs .status w

/-- A flag of STATUS is kept where the written word has a 0 (10_state.md R25). -/
theorem clearedFlag_eq_ite (flag b : Bool) : (flag && !b) = if b then false else flag := by
  cases b <;> simp

theorem State.clearStatus_eq (s : State) (w : Word) :
    s.clearStatus w = { s with
      done := if w.getLsbD 1 then false else s.done
      ovr := if w.getLsbD 8 then false else s.ovr
      wign := if w.getLsbD 9 then false else s.wign } := by
  unfold State.clearStatus
  simp only [clearedFlag_eq_ite]

/-- Clearing DONE takes irq low (60_exceptions.md R272). -/
theorem State.irq_clearStatus (s : State) {w : Word} (h : w.getLsbD 1 = true) : (s.clearStatus w).irq = false := by
  unfold State.irq
  simp [h]

theorem State.ctrlWord_eq (s : State) :
    s.ctrlWord = BitVec.ofNat 32 ((if s.fmode = .fq then 1 else 0) + (if s.ie then 2 else 0)) := by
  unfold State.ctrlWord
  cases s.fmode <;> cases s.ie <;> rfl

/-- Settles O50, one address and one state of the sequencer at a time. -/
theorem writesToCtrlStatusAndCmd : Obligations.WritesToCtrlStatusAndCmd := by
  intro s w rest
  refine ⟨fun hs he => ?_, fun hw hs he => ?_, fun cw hw hs he => ?_, fun he => ?_, s.ctrlWord_eq⟩
  · exact step_write_idle (r := .cmd) hs he rfl rfl
  · rw [step_write_idle (r := .ctrl) hs he rfl rfl, State.writeIdle, State.writeCtrl_idle (s := s.setEvents rest) hs hw]
    rfl
  · rw [step_write_busy (r := .ctrl) hs he rfl rfl, State.writeBusy, State.writeCtrl_busy (s := s.setEvents rest) hs hw]
    rfl
  · refine ⟨_, step_write (r := .status) he rfl rfl, ?_, fun hw => ?_⟩
    · rw [State.writeReg_status, State.clearStatus_eq]
      rfl
    · rw [State.writeReg_status]
      exact State.irq_clearStatus (s.setEvents rest) hw

/-- Settles O57: each address is its register's, and an idle write sets that register alone. -/
theorem controlRegistersHoldWhatIsWritten : Obligations.ControlRegistersHoldWhatIsWritten := by
  intro s a w rest hs he
  refine ⟨?_, ?_, ?_, ?_, ?_, ?_, fun j ha => ?_, fun d ha => ?_, fun r ha => ?_⟩
  · rintro rfl; exact step_write_idle (r := .prime) hs he rfl rfl
  · rintro rfl; exact step_write_idle (r := .fdeg) hs he rfl rfl
  · rintro rfl; exact step_write_idle (r := .nlen) hs he rfl rfl
  · rintro rfl; exact step_write_idle (r := .klen) hs he rfl rfl
  · rintro rfl; exact step_write_idle (r := .powi) hs he rfl rfl
  · rintro rfl; exact step_write_idle (r := .exp) hs he rfl rfl
  · exact step_write_idle (r := .fcoef j) hs he (by omega) (ha ▸ regAt_fcoef j)
  · exact step_write_idle (r := .alpha d) hs he (by omega) (ha ▸ regAt_alpha d)
  · exact step_write_idle (r := .plen r) hs he (by omega) (ha ▸ regAt_plen r)

/-! Slots that hold an element of the active field (10_state.md R40, R41) -/

/-- The canonical digit list of a reduced element of the active field (10_state.md R40, R41). -/
structure IsFieldElem (s : State) (v : Elem) : Prop where
  below : AllBelow s.prime.toNat v
  length_le : v.length ≤ slotWidth s
  canonical : v.getLast? ≠ some 0

/-- A list without a trailing 0K is canonical (00_scope.md R11). -/
theorem trim_of_getLast?_ne {α : Type} [DecidableEq α] (K : FieldOps α) {g : List α} (h : g.getLast? ≠ some K.zero) :
    trim K g = g := by
  cases hg : g.getLast? with
  | none => rw [List.getLast?_eq_none_iff.1 hg, trim_nil]
  | some a =>
    have ha : lc K g = a := by rw [lc, List.getLastD_eq_getLast?, hg, Option.getD_some]
    rw [hg] at h
    exact trim_of_lc_ne_zero K (ha ▸ fun he => h (congrArg some he))

theorem IsFieldElem.digit_lt_word {s : State} {v : Elem} (h : IsFieldElem s v) : ∀ x ∈ v, x < 2 ^ 32 :=
  fun x hx => (h.below x hx).trans s.prime.isLt

/-- The digits of an element, padded with 0, are reduced (10_state.md R40). -/
theorem reducedSlot_of_slotOfElem {s : State} (hc : ConfigOk s) {a : Nat} {v : Elem} (hv : IsFieldElem s v)
    (h : s.slotDigits a = slotOfElem v) : ReducedSlot s a := by
  intro j hj
  rw [digit_of_slotDigits h hj]
  by_cases hl : j < v.length
  · rw [List.getD_eq_getElem _ _ hl]
    have hlen := hv.length_le
    exact ⟨fun _ => hv.below _ (List.getElem_mem hl), by omega⟩
  · rw [List.getD_eq_default _ _ (by omega)]
    have hp := hc.1
    exact ⟨by omega, fun _ => rfl⟩

/-- The element of a slot that holds v's digits is v. -/
theorem slotElem_of_slotOfElem {s : State} (hc : ConfigOk s) {a : Nat} {v : Elem} (hv : IsFieldElem s v)
    (h : s.slotDigits a = slotOfElem v) : slotElem s a = v := by
  have hw := slotWidth_le hc
  have hlen := hv.length_le
  have hcoef : ∀ j, coef (zpOps s.prime.toNat) ((List.range (slotWidth s)).map (digit s a)) j =
      coef (zpOps s.prime.toNat) v j := by
    intro j
    rw [coef_map_range]
    split
    · exact digit_of_slotDigits h (by omega)
    · rw [coef_of_length_le _ v j (by omega)]
  calc slotElem s a = trim (zpOps s.prime.toNat) v := trim_eq_of_coef _ hcoef
    _ = v := trim_of_getLast?_ne _ hv.canonical

/-- Reading a slot that holds an element's digits gives the element (10_state.md R40). -/
theorem readSlot_of_slotOfElem {s : State} (hc : ConfigOk s) {a : Nat} {v : Elem} (hv : IsFieldElem s v)
    (h : s.slotDigits a = slotOfElem v) : s.readSlot s.fieldCtx a = .ok v := by
  rw [readSlot_of_reduced hc (reducedSlot_of_slotOfElem hc hv h), slotElem_of_slotOfElem hc hv h]

/-! ElemWrite and ElemRead (10_state.md R40 to R42) -/

theorem readE_writeE_same {s : State} (hc : ConfigOk s) (d : EReg) {v : Elem} (hv : IsFieldElem s v) :
    (s.writeE d v).readE s.fieldCtx d = .ok v :=
  readSlot_of_slotOfElem (s := s.writeE d v) hc ⟨hv.below, hv.length_le, hv.canonical⟩
    (State.slotDigits_writeE_same s d v hv.digit_lt_word)

theorem readE_writeE_ne (s : State) (F : FieldCtx) {d r : EReg} (h : r ≠ d) (v : Elem) :
    (s.writeE d v).readE F r = s.readE F r := by
  have hne : r.val ≠ d.val := Fin.val_ne_of_ne h
  unfold State.readE State.readSlot
  rw [State.slotDigits_writeE_out s d v (eAddr r) (by unfold eAddr; omega)]

/-- Settles O28: the 64 bytes of E[d] are v's digits, and no other E register overlaps them. -/
theorem writtenElementReadsBack : Obligations.WrittenElementReadsBack :=
  fun s d _ v hc hb hl hn => ⟨readE_writeE_same hc d ⟨hb, hl, hn⟩, fun hr => readE_writeE_ne s s.fieldCtx hr v⟩

/-! PolyWrite and PolyRead (10_state.md R43, R44) -/

theorem mapRaise_congr {β γ : Type} {f f' : β → Except ErrCode γ} {l : List β} (h : ∀ b ∈ l, f b = f' b) :
    mapRaise f l = mapRaise f' l := by
  induction l with
  | nil => rfl
  | cons b l ih =>
    simp only [mapRaise, h b List.mem_cons_self, ih fun c hc => h c (List.mem_cons_of_mem _ hc)]

/-- Two states in which a register's length and its coefficient slots below 512 are the same read the same polynomial. -/
theorem State.readP_congr {s t : State} (F : FieldCtx) {r : PReg} (hl : t.plen[r] = s.plen[r])
    (hd : ∀ c, c < 512 → t.slotDigits (pcAddr r c) = s.slotDigits (pcAddr r c)) : t.readP F r = s.readP F r := by
  unfold State.readP
  rw [hl]
  dsimp only
  split
  · rfl
  · next hL =>
    rw [mapRaise_congr (f' := fun c => s.readSlot F (pcAddr r c))]
    intro c hc
    rw [List.mem_range] at hc
    unfold State.readSlot
    rw [hd c (by simp only [Config.lMax] at hL; omega)]

theorem plen_writeP_same (s : State) (d : PReg) {g : Poly} (hg : g.length ≤ 512) :
    (s.writeP d g).plen[d].toNat = g.length := by
  simp only [State.writeP_plen, Fin.getElem_fin, Vector.getElem_set_self, BitVec.toNat_ofNat]
  omega

theorem readP_writeP_same {s : State} (hc : ConfigOk s) (d : PReg) {g : Poly} (hg : g.length ≤ 512)
    (hlast : g.getLast? ≠ some []) (hv : ∀ v ∈ g, IsFieldElem s v) : (s.writeP d g).readP s.fieldCtx d = .ok g := by
  have hread : ∀ c ∈ List.range g.length,
      (s.writeP d g).readSlot s.fieldCtx (pcAddr d c) = .ok (g.getD c []) := by
    intro c hc'
    have hlt := List.mem_range.1 hc'
    rw [List.getD_eq_getElem _ _ hlt]
    have hf := hv _ (List.getElem_mem hlt)
    exact readSlot_of_slotOfElem (s := s.writeP d g) hc ⟨hf.below, hf.length_le, hf.canonical⟩
      (State.slotDigits_writeP s d g c _ (List.getElem?_eq_getElem hlt) hf.digit_lt_word)
  have hlist : (List.range g.length).map (fun c => g.getD c []) = g := by
    apply List.ext_getElem (by simp)
    intro c _ hlt
    rw [List.getElem_map, List.getElem_range, List.getD_eq_getElem _ _ hlt]
  unfold State.readP
  dsimp only
  rw [plen_writeP_same s d hg, if_neg (by simp only [Config.lMax]; omega), mapRaise_of_forall hread, hlist]
  dsimp only
  rw [trim_of_getLast?_ne _ (by rwa [FieldCtx.zero_eq])]

theorem readP_writeP_ne (s : State) (F : FieldCtx) {d r : PReg} (h : r ≠ d) {g : Poly} (hg : g.length ≤ 512) :
    (s.writeP d g).readP F r = s.readP F r := by
  have hne : r.val ≠ d.val := Fin.val_ne_of_ne h
  refine State.readP_congr F ?_ fun c hc => State.slotDigits_writeP_out s d g hg _ ?_ ?_
  · simp only [State.writeP_plen, Fin.getElem_fin]
    rw [Vector.getElem_set_ne _ _ hne.symm]
  · have hr := r.isLt
    unfold pcAddr; omega
  · unfold pcAddr pcSize; omega

/-- Settles O29: slot by slot below the length, and no other P register overlaps the 512 slots of P[d]. -/
theorem writtenPolynomialReadsBack : Obligations.WrittenPolynomialReadsBack := by
  intro s d r g hc hg hlast hv
  have hf : ∀ v ∈ g, IsFieldElem s v := fun v hm =>
    have ⟨hb, hl, hn⟩ := hv v hm
    ⟨hb, hl, hn⟩
  exact ⟨readP_writeP_same hc d hg hlast hf, fun hr => readP_writeP_ne s s.fieldCtx hr hg⟩

end Sys2Proof.Machine
end

section
/-! PROOFS of the family 20_memory.md: every step keeps the invariant, what a read returns, and digit words read back. -/

namespace Sys2Proof.Machine

/-! The invariant, update by update (20_memory.md R61; 10_state.md R25, R26, R49; 60_exceptions.md R264) -/

theorem flightOk_of_idle {s : State} (hs : s.seq = .idle) : FlightOk s := by
  unfold FlightOk; rw [hs]; trivial

theorem flightOk_of_busy {s : State} {cw : Word} (hs : s.seq = .busy cw) (hl : s.lastcmd = cw) (hd : s.done = false) :
    FlightOk s := by
  unfold FlightOk; rw [hs]; exact ⟨hl, hd⟩

theorem lastcmd_done_of_busy {s : State} {cw : Word} (h : FlightOk s) (hs : s.seq = .busy cw) :
    s.lastcmd = cw ∧ s.done = false := by
  unfold FlightOk at h; rwa [hs] at h

/-- With no command in flight the invariant is the memory's and ERR's part. -/
theorem inv_of_idle {s : State} (hm : MemOk s) (hs : s.seq = .idle) (he : ErrOk s) : Inv s :=
  ⟨hm, flightOk_of_idle hs, he⟩

theorem inv_accept {s : State} (h : Inv s) (cw : Word) : Inv (s.accept cw) := ⟨h.mem, ⟨rfl, rfl⟩, h.err⟩

theorem inv_complete {s : State} (hm : MemOk s) {c : ErrCode} (hc : c ≠ .degenerate) : Inv (s.complete c) :=
  inv_of_idle hm rfl hc

theorem inv_softReset {s : State} (h : Inv s) : Inv s.softReset :=
  inv_of_idle (memOk_softReset h.mem) rfl (show ErrCode.ok ≠ .degenerate by decide)

theorem inv_powerOnReset (s : State) : Inv s.powerOnReset :=
  inv_of_idle (memOk_powerOnReset s) rfl (show ErrCode.ok ≠ .degenerate by decide)

theorem inv_setIe {s : State} (h : Inv s) (b : Bool) : Inv (s.setIe b) := ⟨h.mem, h.flight, h.err⟩

theorem inv_setOvr {s : State} (h : Inv s) : Inv s.setOvr := ⟨h.mem, h.flight, h.err⟩

theorem inv_setWign {s : State} (h : Inv s) : Inv s.setWign := ⟨h.mem, h.flight, h.err⟩

theorem inv_respond {s : State} (h : Inv s) (r : BusResponse) : Inv (s.respond r) := ⟨h.mem, h.flight, h.err⟩

theorem inv_setEvents {s : State} (h : Inv s) (es : List Event) : Inv (s.setEvents es) := ⟨h.mem, h.flight, h.err⟩

/-- Clearing status flags leaves a DONE that is 0 at 0. -/
theorem inv_clearStatus {s : State} (h : Inv s) (w : Word) : Inv (s.clearStatus w) := by
  refine ⟨h.mem, ?_, h.err⟩
  cases hs : s.seq with
  | idle => exact flightOk_of_idle hs
  | busy cw =>
    obtain ⟨hl, hd⟩ := lastcmd_done_of_busy h.flight hs
    exact flightOk_of_busy (s := s.clearStatus w) hs hl (by simp [hd])

/-! Host writes keep the invariant (20_memory.md R63; 70_reset_and_hazards.md R309, R310) -/

theorem inv_writeCtrl_idle {s : State} (h : Inv s) (hs : s.seq = .idle) (w : Word) : Inv (s.writeCtrl w) := by
  cases hw : w.getLsbD 31 with
  | true =>
    rw [State.writeCtrl_reset s hw]
    exact inv_softReset h
  | false =>
    rw [State.writeCtrl_idle hs hw]
    exact inv_of_idle h.mem hs h.err

/-- A write while idle keeps the invariant when a digit address is an aligned one of the map. -/
theorem inv_writeIdle {s : State} (h : Inv s) (hs : s.seq = .idle) (w : Word) {r : Reg}
    (hr : ∀ a, r = .digit a → a % 4 = 0 ∧ isDigitAddr a = true) : Inv (s.writeIdle w r) := by
  cases r with
  | ctrl => exact inv_writeCtrl_idle h hs w
  | status => exact inv_clearStatus h w
  | cmd => exact inv_accept h w
  | digit a =>
    obtain ⟨ha, hd⟩ := hr a rfl
    exact inv_of_idle (memOk_storeWord h.mem ha hd w) hs h.err
  | _ => exact inv_of_idle h.mem hs h.err

theorem inv_writeBusy {s : State} {cw : Word} (h : Inv s) (hs : s.seq = .busy cw) (w : Word) (r : Reg) :
    Inv (s.writeBusy w r) := by
  rcases State.writeBusy_cases hs w r with e | e | e | e | e <;> rw [e]
  · exact inv_softReset h
  · exact inv_setIe h _
  · exact inv_clearStatus h w
  · exact inv_setOvr h
  · exact inv_setWign h

theorem inv_writeReg {s : State} (h : Inv s) {a : Nat} (ha : a % 4 = 0) (w : Word) : Inv (s.writeReg (regAt a) w) := by
  cases hs : s.seq with
  | idle =>
    rw [State.writeReg_idle hs]
    refine inv_writeIdle h hs w fun b hb => ?_
    obtain ⟨rfl, hd⟩ := regAt_eq_digit hb
    exact ⟨ha, hd⟩
  | busy cw =>
    rw [State.writeReg_busy hs]
    exact inv_writeBusy h hs w _

theorem inv_serve {s : State} (h : Inv s) (t : BusAccess) : Inv (s.serve t) := by
  cases t with
  | read a bits =>
    by_cases ha : a.toNat % 4 = 0 ∧ bits = 32
    · obtain ⟨ha, rfl⟩ := ha
      rw [State.serve_read s ha]
      exact inv_respond h _
    · rw [State.serve_read_error s (by omega)]
      exact inv_respond h _
  | write a bits w =>
    by_cases ha : a.toNat % 4 = 0 ∧ bits = 32
    · obtain ⟨ha, rfl⟩ := ha
      rw [State.serve_write s ha]
      exact inv_respond (inv_writeReg h ha w) _
    · rw [State.serve_write_error s (by omega)]
      exact inv_respond h _

/-! Steps keep the invariant -/

/-- However a command ends, its writes stay in the map and its code is not the reserved one. -/
theorem inv_of_ends {s t : State} (h : Inv s) (he : Ends s (.next t)) : Inv t := by
  cases he with
  | error c hc => exact inv_complete h.mem hc.2
  | ok ws hw => exact inv_complete (memOk_commit hw h.mem) (by decide)

theorem inv_sequencerTurn {s t : State} (h : Inv s) (ht : sequencerTurn s = .next t) : Inv t := by
  rcases sequencerTurn_ends s with ⟨-, hidle⟩ | hends
  · rw [hidle] at ht
    cases ht
    exact h
  · exact inv_of_ends h (ht ▸ hends)

theorem inv_runEvent {s t : State} (h : Inv s) {e : Event} (ht : runEvent s e = .next t) : Inv t := by
  cases e with
  | bus a => cases ht; exact inv_serve h a
  | run => exact inv_sequencerTurn h ht
  | powerOn => cases ht; exact inv_powerOnReset s

theorem step_cons {s : State} {e : Event} {rest : List Event} (he : s.events = e :: rest) :
    step s = runEvent (s.setEvents rest) e := by
  unfold step; rw [he]

/-- Settles O10: an empty list of events gives the sequencer the turn, and every kind of event keeps the invariant. -/
theorem everyStepKeepsTheInvariant : Obligations.EveryStepKeepsTheInvariant := by
  intro s t h ht
  cases he : s.events with
  | nil =>
    rw [step_nil he] at ht
    exact inv_sequencerTurn h ht
  | cons e rest =>
    rw [step_cons he] at ht
    exact inv_runEvent (inv_setEvents h rest) ht

/-! What a read returns (20_memory.md R61 to R65, R67) -/

theorem State.readReg_setEvents (s : State) (es : List Event) (r : Reg) : (s.setEvents es).readReg r = s.readReg r := by
  cases r <;> rfl

/-- An aligned 32-bit read answers with the register at its address and changes nothing. -/
theorem step_read {s : State} {a : BitVec 20} {rest : List Event} (he : s.events = .bus (.read a 32) :: rest)
    (ha : a.toNat % 4 = 0) :
    step s = .next { s with response := some (.readOkay (s.readReg (regAt a.toNat))), events := rest } := by
  rw [step_bus he, State.serve_read _ ha, State.readReg_setEvents]
  rfl

theorem errCode_code_eq_errValue (c : ErrCode) : c.code = errValue c := by cases c <;> rfl

theorem errValue_le (c : ErrCode) : errValue c ≤ 6 := by cases c <;> decide

theorem State.busy_toNat (s : State) : s.busy.toNat = if s.seq = .idle then 0 else 1 := by
  unfold State.busy
  cases s.seq <;> rfl

theorem mul_toNat_eq_ite (n : Nat) (b : Bool) : n * b.toNat = if b then n else 0 := by
  cases b <;> simp

/-- STATUS bit by bit (10_state.md R25; 60_exceptions.md R261). -/
theorem State.statusWord_toNat (s : State) : s.statusWord.toNat =
    (if s.seq = .idle then 0 else 1) + (if s.done then 2 else 0) + 16 * errValue s.err + (if s.ovr then 256 else 0) +
      (if s.wign then 512 else 0) := by
  unfold State.statusWord
  rw [errCode_code_eq_errValue, BitVec.toNat_ofNat, Nat.mod_eq_of_lt, State.busy_toNat]
  · simp only [mul_toNat_eq_ite]
  · have h1 := s.busy.toNat_le
    have h2 := s.done.toNat_le
    have h3 := errValue_le s.err
    have h4 := s.ovr.toNat_le
    have h5 := s.wign.toNat_le
    omega

/-- Lane l of a digit word is the byte at its address plus l (20_memory.md R64). -/
theorem State.word_lane (s : State) (a : Nat) {l : Nat} (hl : l < 4) :
    (s.word a).toNat / 2 ^ (8 * l) % 256 = (s.byte (a + l)).toNat := by
  unfold State.word
  rw [leWord_lane _ _ _ _ hl]
  match l, hl with
  | 0, _ | 1, _ | 2, _ | 3, _ => rfl

theorem regAt_of_isDigitWord {a : Nat} (h : IsDigitWord a) : regAt a = .digit a :=
  regAt_of_digit ((isDigitAddr_iff a).2 h)

theorem regAt_of_isReserved {a : Nat} (h : IsReserved a) : regAt a = .reserved := by
  unfold IsReserved at h
  by_cases hc : a < 0x400
  · exact regAt_control_reserved (by omega) hc
  · have hd : ¬ isDigitAddr a = true := by rw [isDigitAddr_iff]; omega
    exact regAt_reserved (by omega) (by omega) (by omega) (by omega) (Bool.eq_false_iff.2 hd)

/-- Reserved addresses, ID and RES are the addresses that ignore an idle write (R65; 10_state.md R23, R33). -/
theorem writeIdle_readOnly {a : BitVec 20} (h : IsReserved a.toNat ∨ a = 0x00000 ∨ a = 0x00028) (s : State) (w : Word) :
    s.writeIdle w (regAt a.toNat) = s := by
  rcases h with h | rfl | rfl
  · rw [regAt_of_isReserved h]; rfl
  · rfl
  · rfl

/-- Settles O56: a read answers with the register at its address, one range of the map at a time. -/
theorem readsAndReservedAddresses : Obligations.ReadsAndReservedAddresses := by
  intro s a rest ha
  refine ⟨fun he => ⟨s.readReg (regAt a.toNat), step_read he ha, ?id, ?ctrl, ?status, ?cmd, ?prime, ?fdeg, ?nlen, ?klen,
    ?powi, ?exp, ?res, fun j hj => ?fcoef, fun j hj => ?alpha, fun j hj => ?plen, fun h => ?reserved, fun h => ?digit⟩,
    fun w h hs he => ?write⟩
  case status => rintro rfl; exact s.statusWord_toNat
  case fcoef => rw [hj, regAt_fcoef]; rfl
  case alpha => rw [hj, regAt_alpha]; rfl
  case plen => rw [hj, regAt_plen]; rfl
  case reserved => rw [regAt_of_isReserved h]; rfl
  case digit =>
    rw [regAt_of_isDigitWord h]
    exact ⟨rfl, fun l hl => s.word_lane a.toNat hl⟩
  case write =>
    rw [step_write_idle hs he ha rfl, writeIdle_readOnly h]
    rfl
  all_goals rintro rfl; rfl

/-! Digit words read back (20_memory.md R62 to R64, R68) -/

/-- Settles O58: the write is one stored word, and the read that follows answers it. -/
theorem digitWordsReadBackWhatIsWritten : Obligations.DigitWordsReadBackWhatIsWritten := by
  intro s a w rest hs ha hd he
  have hreg := regAt_of_isDigitWord hd
  refine ⟨_, step_write_idle hs he ha hreg, rfl, fun l hl => ?_, fun b hb => ?_, fun rest' => ?_⟩
  · exact State.byte_storeWord_lane (s.setEvents rest) a.toNat w hl
  · exact State.byte_storeBytes_out (s.setEvents rest) a.toNat (wordBytes w) b hb
  · have hword : ((s.setEvents rest).storeWord a.toNat w).word a.toNat = w := State.word_storeWord_same _ _ _
    rw [step_read rfl ha, hreg]
    exact congrArg (fun v => Host.Outcome.next { (s.setEvents rest).storeWord a.toNat w with
      response := some (.readOkay v), events := rest' }) hword

end Sys2Proof.Machine
end

section
/-! PROOFS of the family 30_encoding.md: the decoder and the encoder, and what each command leaves unchanged. -/

namespace Sys2Proof

/-! The decoder (30_encoding.md R90 to R96) -/

/-- A word decodes when it passes the three checks of R96. -/
theorem decode_eq_ok_iff {cw : Word} {i : Instr} :
    decode cw = .ok i ↔ fieldRsv cw = 0 ∧ opcodeMap cw = some i ∧ i.wf = true := by
  refine ⟨fun h => ?_, fun ⟨hrsv, hmap, hwf⟩ => decode_of_map hrsv hmap hwf⟩
  unfold decode at h
  split at h
  · cases h
  · rename_i hrsv
    split at h
    · cases h
    · rename_i j hmap
      split at h <;> cases h
      exact ⟨not_not.1 hrsv, hmap, ‹_›⟩

theorem fieldRsv_eq_zero_iff (cw : Word) : fieldRsv cw = 0 ↔ cw.toNat / 2 ^ 28 = 0 := by
  have h := cw.isLt
  rw [Fin.ext_iff]
  show cw.toNat / 2 ^ 28 % 16 = 0 ↔ _
  omega

theorem indexField_eq_iff {lo lo' : Nat} {cw cw' : Word} :
    indexField lo cw = indexField lo' cw' ↔ cw.toNat / 2 ^ lo % 16 = cw'.toNat / 2 ^ lo' % 16 := Fin.ext_iff

/-- The OPCs of the map (R95). -/
theorem exists_opcodeMap_iff (cw : Word) :
    (∃ i, opcodeMap cw = some i) ↔
      opcField cw ≤ 0x07 ∨ (0x10 ≤ opcField cw ∧ opcField cw ≤ 0x1A) ∨ (0x20 ≤ opcField cw ∧ opcField cw ≤ 0x28) := by
  unfold opcodeMap
  split
  case h_29 =>
    simp only [imp_false, reduceCtorEq, exists_false, false_iff] at *
    omega
  all_goals simp [*]

/-- The commands of the map that the destination check can refuse are PDIV, PGCDX and LAKEY (R94). -/
theorem wf_iff_of_opcodeMap {cw : Word} {i : Instr} (h : opcodeMap cw = some i) :
    i.wf = true ↔ (opcField cw = 0x13 → fieldD cw ≠ fieldD2 cw) ∧
      (opcField cw = 0x15 → fieldD cw ≠ fieldD2 cw ∧ fieldD cw ≠ fieldD3 cw ∧ fieldD2 cw ≠ fieldD3 cw) ∧
      (opcField cw = 0x28 → fieldD cw ≠ fieldD2 cw) := by
  unfold opcodeMap at h
  split at h <;> cases h <;> simp [*, Instr.wf, and_assoc]

/-- LegalWord in the fields that the decoder reads. -/
theorem legalWord_iff (cw : Word) :
    LegalWord cw ↔ fieldRsv cw = 0 ∧
      (opcField cw ≤ 0x07 ∨ (0x10 ≤ opcField cw ∧ opcField cw ≤ 0x1A) ∨ (0x20 ≤ opcField cw ∧ opcField cw ≤ 0x28)) ∧
      (opcField cw = 0x13 → fieldD cw ≠ fieldD2 cw) ∧
      (opcField cw = 0x15 → fieldD cw ≠ fieldD2 cw ∧ fieldD cw ≠ fieldD3 cw ∧ fieldD2 cw ≠ fieldD3 cw) ∧
      (opcField cw = 0x28 → fieldD cw ≠ fieldD2 cw) := by
  unfold LegalWord fieldD fieldD2 fieldD3
  simp only [fieldRsv_eq_zero_iff, ne_eq, indexField_eq_iff]
  rfl

/-- Settles O2: the three checks of decode are the three parts of LegalWord. -/
theorem decodeAcceptsExactlyTheLegalWords : Obligations.DecodeAcceptsExactlyTheLegalWords := by
  intro cw
  rw [legalWord_iff]
  constructor
  · rintro ⟨i, h⟩
    obtain ⟨hrsv, hmap, hwf⟩ := decode_eq_ok_iff.1 h
    exact ⟨hrsv, (exists_opcodeMap_iff cw).1 ⟨i, hmap⟩, (wf_iff_of_opcodeMap hmap).1 hwf⟩
  · rintro ⟨hrsv, hopc, hdest⟩
    obtain ⟨i, hmap⟩ := (exists_opcodeMap_iff cw).2 hopc
    exact ⟨i, decode_eq_ok_iff.2 ⟨hrsv, hmap, (wf_iff_of_opcodeMap hmap).2 hdest⟩⟩

/-- The map reads no field but those it marks as used for the OPC (R92, R95). -/
theorem opcodeMap_congr {cw cw' : Word} (hopc : opcField cw = opcField cw')
    (hused : ∀ lo ∈ usedFields (opcField cw), indexField lo cw = indexField lo cw') : opcodeMap cw = opcodeMap cw' := by
  unfold opcodeMap fieldD fieldS1 fieldS2 fieldD2 fieldD3
  rw [← hopc]
  split
  case h_1 | h_29 => rfl
  all_goals
    rename_i h
    rw [h] at hused
    simp [hused, usedFields]

/-- Settles O3: equal RSV, and equal entries of the opcode map. -/
theorem unusedFieldsAreIgnored : Obligations.UnusedFieldsAreIgnored := by
  intro cw cw' hopc hrsv hused
  have hmap : opcodeMap cw = opcodeMap cw' := opcodeMap_congr hopc fun lo hlo => indexField_eq_iff.2 (hused lo hlo)
  have hfield : fieldRsv cw = fieldRsv cw' := indexField_eq_iff.2 (congrArg (· % 16) hrsv)
  unfold decode
  rw [hfield, hmap]

/-! The encoder (R90, R95) -/

/-- RSV of an encoded command is 0 (R90). -/
theorem fieldRsv_encode (i : Instr) : fieldRsv (encode i) = 0 := by
  cases i <;> exact fieldRsv_packWord (Instr.opc_lt _) _ _ _ _ _

/-- The map's entry for the word of a command, read back field by field, is the command (R95). -/
theorem opcodeMap_encode (i : Instr) : opcodeMap (encode i) = some i := by
  cases i <;> simp [encode, Instr.opc, opcodeMap, opcField_packWord, fieldD_packWord, fieldS1_packWord, fieldS2_packWord,
    fieldD2_packWord, fieldD3_packWord]

/-- Settles O1: RSV is 0, the map gives the command back, and it is well formed. -/
theorem decodeEncodeRoundTrip : Obligations.DecodeEncodeRoundTrip :=
  fun i hwf => decode_of_map (fieldRsv_encode i) (opcodeMap_encode i) hwf

end Sys2Proof

namespace Sys2Proof.Machine

/-! What each command writes: the outputs column of R95 -/

/-- A write that the outputs column of R95 gives a command, with n = NLEN codeword elements and a polynomial that fits its
register (10_state.md R44, R46). -/
inductive IsOutput (i : Instr) (n : Nat) : Write → Prop where
  | elem {d : EReg} (v : Elem) (hd : elemDest i = some d) : IsOutput i n (.elem d v)
  | poly {d : PReg} {g : Poly} (hd : d ∈ polyDests i) (hg : g.length ≤ 512) : IsOutput i n (.poly d g)
  | words {ws : List Elem} (hi : writesWords i = true) (hn : ws.length = n) : IsOutput i n (.words ws)
  | res (v : Nat) (hi : writesRes i = true) : IsOutput i n (.res v)

/-- The body of a command answers only writes with the property. -/
def WritesOnly (P : Write → Prop) (r : Except ErrCode (List Write)) : Prop := ∀ ws, r = .ok ws → ∀ w ∈ ws, P w

section
variable {P : Write → Prop}

theorem writesOnly_return {ws : List Write} (h : ∀ w ∈ ws, P w) : WritesOnly P (pure ws) := by
  rintro _ ⟨⟩; exact h

theorem writesOnly_return_one {w : Write} (h : P w) : WritesOnly P (pure [w]) :=
  writesOnly_return (List.forall_mem_singleton.2 h)

theorem writesOnly_bind_of_ok {β : Type} {x : Except ErrCode β} {f : β → Except ErrCode (List Write)}
    (hf : ∀ v, x = .ok v → WritesOnly P (f v)) : WritesOnly P (x >>= f) := by
  cases x with
  | error c => exact fun _ h => nomatch h
  | ok v => exact hf v rfl

theorem writesOnly_bind {β : Type} {x : Except ErrCode β} {f : β → Except ErrCode (List Write)}
    (hf : ∀ v, WritesOnly P (f v)) : WritesOnly P (x >>= f) :=
  writesOnly_bind_of_ok fun v _ => hf v

theorem writesOnly_throw {p : Prop} [Decidable p] {c : ErrCode} {r : Except ErrCode (List Write)} (hr : WritesOnly P r) :
    WritesOnly P (if p then throw c else r) := by
  split
  · exact fun _ h => nomatch h
  · exact hr

end

/-- A polynomial destination that is accepted is an output (10_state.md R44). -/
theorem writesOnly_bind_polyDest {i : Instr} {n : Nat} {d : PReg} {g : Poly} {f : Write → Except ErrCode (List Write)}
    (hd : d ∈ polyDests i) (hf : ∀ w, IsOutput i n w → WritesOnly (IsOutput i n) (f w)) :
    WritesOnly (IsOutput i n) (polyDest d g >>= f) :=
  writesOnly_bind_of_ok fun w hw => hf w (by obtain ⟨rfl, hg⟩ := polyDest_ok hw; exact .poly hd hg)

/-- The end of a command with one polynomial destination. -/
theorem writesOnly_polyDest {i : Instr} {n : Nat} {d : PReg} (g : Poly) (hd : d ∈ polyDests i) :
    WritesOnly (IsOutput i n) (do let w ← polyDest d g; return [w]) :=
  writesOnly_bind_polyDest hd fun _ hw => writesOnly_return_one hw

/-- Every command ends with its outputs of R95 and no other write. -/
theorem exec_eq_finish (i : Instr) (s : State) :
    ∃ r, exec i s = finish s r ∧ WritesOnly (IsOutput i s.nlen.toNat) r := by
  cases i with
  | nop => exact ⟨.ok [], rfl, writesOnly_return (by simp)⟩
  | fzero | fone => exact ⟨_, rfl, writesOnly_bind fun _ => writesOnly_return_one (.elem _ rfl)⟩
  | fneg =>
    exact ⟨_, rfl, writesOnly_bind fun _ => writesOnly_bind fun _ => writesOnly_return_one (.elem _ rfl)⟩
  | fadd | fmul | finv | fpow | peval =>
    exact ⟨_, rfl, writesOnly_bind fun _ => writesOnly_bind fun _ => writesOnly_bind fun _ =>
      writesOnly_return_one (.elem _ rfl)⟩
  | pneg | preduce =>
    exact ⟨_, rfl, writesOnly_bind fun _ => writesOnly_bind fun _ => writesOnly_polyDest _ List.mem_cons_self⟩
  | padd | pmul =>
    exact ⟨_, rfl, writesOnly_bind fun _ => writesOnly_bind fun _ => writesOnly_bind fun _ =>
      writesOnly_polyDest _ List.mem_cons_self⟩
  | pgcd | genpoly =>
    exact ⟨_, rfl, writesOnly_bind fun _ => writesOnly_bind fun _ => writesOnly_bind fun _ => writesOnly_bind fun _ =>
      writesOnly_polyDest _ List.mem_cons_self⟩
  | pinterp | decLa | decEe | synd =>
    exact ⟨_, rfl, writesOnly_bind fun _ => writesOnly_bind fun _ => writesOnly_bind fun _ => writesOnly_bind fun _ =>
      writesOnly_bind fun _ => writesOnly_polyDest _ List.mem_cons_self⟩
  | decBch =>
    exact ⟨_, rfl, writesOnly_bind fun _ => writesOnly_bind fun _ => writesOnly_bind fun _ => writesOnly_bind fun _ =>
      writesOnly_bind fun _ => writesOnly_bind fun _ => writesOnly_polyDest _ List.mem_cons_self⟩
  | ppowmod =>
    exact ⟨_, rfl, writesOnly_bind fun _ => writesOnly_bind fun _ => writesOnly_bind fun _ =>
      writesOnly_throw (writesOnly_bind fun _ => writesOnly_polyDest _ List.mem_cons_self)⟩
  | pdiv =>
    exact ⟨_, rfl, writesOnly_throw (writesOnly_bind fun _ => writesOnly_bind fun _ => writesOnly_bind fun _ =>
      writesOnly_bind fun _ => writesOnly_bind_polyDest (by simp [polyDests]) fun _ h =>
      writesOnly_bind_polyDest (by simp [polyDests]) fun _ h2 => writesOnly_return (by simp [h, h2]))⟩
  | pgcdx =>
    exact ⟨_, rfl, writesOnly_throw (writesOnly_bind fun _ => writesOnly_bind fun _ => writesOnly_bind fun _ =>
      writesOnly_bind fun _ => writesOnly_bind_polyDest (by simp [polyDests]) fun _ h =>
      writesOnly_bind_polyDest (by simp [polyDests]) fun _ h2 =>
      writesOnly_bind_polyDest (by simp [polyDests]) fun _ h3 => writesOnly_return (by simp [h, h2, h3]))⟩
  | lakey =>
    exact ⟨_, rfl, writesOnly_throw (writesOnly_bind fun _ => writesOnly_bind fun _ => writesOnly_bind fun _ =>
      writesOnly_bind fun _ => writesOnly_bind fun _ => writesOnly_bind_polyDest (by simp [polyDests]) fun _ h =>
      writesOnly_bind_polyDest (by simp [polyDests]) fun _ h2 => writesOnly_return (by simp [h, h2]))⟩
  | elp =>
    exact ⟨_, rfl, writesOnly_bind fun _ => writesOnly_bind fun _ => writesOnly_bind fun _ =>
      writesOnly_bind_polyDest List.mem_cons_self fun _ h =>
      writesOnly_return (List.forall_mem_cons.2 ⟨h, List.forall_mem_singleton.2 (.res _ rfl)⟩)⟩
  | pirred =>
    exact ⟨_, rfl, writesOnly_bind fun _ => writesOnly_bind fun _ => writesOnly_bind fun _ =>
      writesOnly_return_one (.res _ rfl)⟩
  | encEval =>
    exact ⟨_, rfl, writesOnly_bind fun _ => writesOnly_bind_of_ok fun n hn => writesOnly_bind fun _ =>
      writesOnly_bind_of_ok fun xs hxs => writesOnly_return_one (.words rfl (by
        rw [List.length_map, mapRaise_length hxs, List.length_range, (shapeN_ok hn).1]))⟩
  | encGen =>
    exact ⟨_, rfl, writesOnly_bind fun _ => writesOnly_bind_of_ok fun n hn => writesOnly_bind fun _ =>
      writesOnly_bind fun _ => writesOnly_throw (writesOnly_return_one (.words rfl (by
        rw [List.length_map, List.length_range, (shapeN_ok hn).1])))⟩

/-! Frames -/

theorem commit_keeps {R : State → Prop} {ws : List Write} (hws : ∀ w ∈ ws, ∀ u, R u → R (u.applyWrite w)) :
    ∀ u, R u → R (u.commit ws) := by
  induction ws with
  | nil => exact fun _ hu => hu
  | cons w ws ih =>
    obtain ⟨hw, hrest⟩ := List.forall_mem_cons.1 hws
    exact fun u hu => ih hrest _ (hw u hu)

/-- What every completion and every output of the command keep, the command keeps (60_exceptions.md R269, R270). -/
theorem exec_keeps {R : State → Prop} {i : Instr} {s t : State} (hs : R s) (hcomplete : ∀ u c, R u → R (u.complete c))
    (hwrite : ∀ u w, IsOutput i s.nlen.toNat w → R u → R (u.applyWrite w)) (h : exec i s = .next t) : R t := by
  obtain ⟨r, hr, hout⟩ := exec_eq_finish i s
  rw [hr] at h
  cases r with
  | error c => cases h; exact hcomplete s c hs
  | ok ws => cases h; exact hcomplete _ _ (commit_keeps (fun w hw u => hwrite u w (hout ws rfl w hw)) s hs)

theorem sameControl_refl (s : State) : SameControl s s :=
  ⟨rfl, rfl, rfl, rfl, rfl, rfl, rfl, rfl, rfl, rfl, rfl, rfl, rfl, rfl, rfl⟩

theorem sameControl_complete {s t : State} (h : SameControl s t) (c : ErrCode) : SameControl s (t.complete c) := { h with }

theorem sameControl_applyWrite {s t : State} (h : SameControl s t) (w : Write) : SameControl s (t.applyWrite w) := by
  cases w <;> exact { h with }

/-- Settles O12: neither a completion nor a write touches these registers. -/
theorem noCommandWritesTheControlRegisters : Obligations.NoCommandWritesTheControlRegisters :=
  fun _ s _ h => exec_keeps (sameControl_refl s) (fun _ c hu => sameControl_complete hu c)
    (fun _ w _ hu => sameControl_applyWrite hu w) h

/-- A command without RES among its outputs keeps RES (10_state.md R33). -/
theorem exec_res {i : Instr} {s t : State} (hi : writesRes i = false) (h : exec i s = .next t) : t.res = s.res := by
  refine exec_keeps (R := fun u => u.res = s.res) rfl (fun _ _ hu => hu) (fun u w hw hu => ?_) h
  cases hw with
  | elem | poly | words => exact hu
  | res v hres => rw [hi] at hres; cases hres

theorem plen_writeP_ne (s : State) (g : Poly) {d r : PReg} (h : r ≠ d) : (s.writeP d g).plen[r] = s.plen[r] := by
  simp only [State.writeP_plen, Fin.getElem_fin]
  exact Vector.getElem_set_ne _ _ (Fin.val_ne_of_ne h).symm

/-- A command keeps the length of every polynomial register that is not among its outputs (10_state.md R44). -/
theorem exec_plen {i : Instr} {s t : State} {r : PReg} (hr : r ∉ polyDests i) (h : exec i s = .next t) :
    t.plen[r] = s.plen[r] := by
  refine exec_keeps (R := fun u => u.plen[r] = s.plen[r]) rfl (fun _ _ hu => hu) (fun u w hw hu => ?_) h
  cases hw with
  | elem | words | res => exact hu
  | poly hd _ => exact (plen_writeP_ne u _ (ne_of_mem_of_not_mem hd hr).symm).trans hu

theorem exec_plen_of_no_polyDests {i : Instr} {s t : State} (hi : polyDests i = []) (h : exec i s = .next t) :
    t.plen = s.plen :=
  Vector.ext fun r hr => exec_plen (r := ⟨r, hr⟩) (by simp [hi]) h

/-- The byte address lies outside the slots of every output of the command; above the window only the counters of the
polynomial registers tell the free values apart, so a polynomial output needs an address of the window (20_memory.md R62). -/
structure OutsideOutputs (i : Instr) (n a : Nat) : Prop where
  elem : ∀ d, elemDest i = some d → a < eAddr d ∨ eAddr d + 64 ≤ a
  poly : ∀ d ∈ polyDests i, a < 0x90000 ∧ (a < pcAddr d 0 ∨ pcAddr d 0 + pcSize ≤ a)
  words : writesWords i = true → a < wAddr 0 ∨ wAddr n ≤ a

/-- Bytes outside the outputs of a command read as before (10_state.md R42, R44, R46; 60_exceptions.md R269). -/
theorem exec_byte {i : Instr} {s t : State} {a : Nat} (ha : OutsideOutputs i s.nlen.toNat a) (h : exec i s = .next t) :
    t.byte a = s.byte a := by
  refine exec_keeps (R := fun u => u.byte a = s.byte a) rfl (fun _ _ hu => hu) (fun u w hw hu => ?_) h
  cases hw with
  | elem v hd => exact (u.byte_writeE_out _ v a (ha.elem _ hd)).trans hu
  | poly hd hg => exact (u.byte_writeP_out _ _ hg a (ha.poly _ hd).1 (ha.poly _ hd).2).trans hu
  | words hi hn => exact (u.byte_writeW_out _ a (hn ▸ ha.words hi)).trans hu
  | res => exact hu

/-! No command has outputs of two kinds, but for ELP, which writes a polynomial and RES (R95) -/

theorem outputs_of_elemDest {i : Instr} {d : EReg} (h : elemDest i = some d) :
    polyDests i = [] ∧ writesWords i = false ∧ writesRes i = false := by
  cases i with
  | fzero | fone | fadd | fneg | fmul | finv | fpow | peval => exact ⟨rfl, rfl, rfl⟩
  | _ => cases h

theorem outputs_of_polyDests {i : Instr} (h : polyDests i ≠ []) : elemDest i = none ∧ writesWords i = false := by
  cases i with
  | nop | fzero | fone | fadd | fneg | fmul | finv | fpow | peval | pirred | encEval | encGen => exact absurd rfl h
  | _ => exact ⟨rfl, rfl⟩

theorem outputs_of_writesWords {i : Instr} (h : writesWords i = true) :
    elemDest i = none ∧ polyDests i = [] ∧ writesRes i = false := by
  cases i with
  | encEval | encGen => exact ⟨rfl, rfl, rfl⟩
  | _ => cases h

/-- Settles O13: E[d] is the command's one output. -/
theorem elementCommandsChangeOnlyTheirElement : Obligations.ElementCommandsChangeOnlyTheirElement := by
  intro i d s t hd h
  obtain ⟨hpoly, hwords, hres⟩ := outputs_of_elemDest hd
  refine ⟨noCommandWritesTheControlRegisters i s t h, exec_plen_of_no_polyDests hpoly h, exec_res hres h,
    fun a ha => exec_byte ⟨?_, by simp [hpoly], by simp [hwords]⟩ h⟩
  intro d' hd'
  cases hd.symm.trans hd'
  exact ha

/-- Settles O14: the outputs are the listed polynomial registers, and RES only where writesRes says so. -/
theorem polynomialCommandsChangeOnlyTheirPolynomials : Obligations.PolynomialCommandsChangeOnlyTheirPolynomials := by
  intro i s t hi h
  obtain ⟨helem, hwords⟩ := outputs_of_polyDests hi
  exact ⟨noCommandWritesTheControlRegisters i s t h, fun hres => exec_res hres h, fun r hr => exec_plen hr h,
    fun a ha hout => exec_byte ⟨by simp [helem], fun d hd => ⟨ha, hout d hd⟩, by simp [hwords]⟩ h⟩

/-- Settles O15: W[0..n−1] is the encoder's one output. -/
theorem encodersChangeOnlyTheCodeword : Obligations.EncodersChangeOnlyTheCodeword := by
  intro i s t hi h
  obtain ⟨helem, hpoly, hres⟩ := outputs_of_writesWords hi
  exact ⟨noCommandWritesTheControlRegisters i s t h, exec_plen_of_no_polyDests hpoly h, exec_res hres h,
    fun a ha => exec_byte ⟨by simp [helem], by simp [hpoly], fun _ => ha⟩ h⟩

end Sys2Proof.Machine
end

section
/-! PROOFS of the family 41_field.md, first part: what the polynomial functions of 42_poly.md compute when the field operations
compute in a ring. Every lemma is about any field operations, so it serves the extension field over Z/pZ and the polynomial unit
over the active field alike. -/

namespace Sys2Proof.Machine

/-- The operations K compute in the commutative ring R: `val` reads an element as a member of R, K answers only valid elements,
and two valid elements of the same value are one (00_scope.md R10). -/
structure ComputesIn {α R : Type} [CommRing R] (K : FieldOps α) (Valid : α → Prop) (val : α → R) : Prop where
  valid_zero : Valid K.zero
  valid_one : Valid K.one
  valid_add : ∀ {a b}, Valid a → Valid b → Valid (K.add a b)
  valid_neg : ∀ {a}, Valid a → Valid (K.neg a)
  valid_mul : ∀ {a b}, Valid a → Valid b → Valid (K.mul a b)
  val_zero : val K.zero = 0
  val_one : val K.one = 1
  val_add : ∀ {a b}, Valid a → Valid b → val (K.add a b) = val a + val b
  val_neg : ∀ {a}, Valid a → val (K.neg a) = -val a
  val_mul : ∀ {a b}, Valid a → Valid b → val (K.mul a b) = val a * val b
  val_inj : ∀ {a b}, Valid a → Valid b → val a = val b → a = b

/-- K inverts this element: its inverse is valid and the product of the two is 1K (41_field.md R124, R127). -/
def Inverts {α R : Type} [CommRing R] (K : FieldOps α) (Valid : α → Prop) (val : α → R) (a : α) : Prop :=
  Valid (K.inv a) ∧ val a * val (K.inv a) = 1

/-- A canonical polynomial with valid coefficients (00_scope.md R11; 42_poly.md R150). -/
structure IsPoly {α : Type} [DecidableEq α] (K : FieldOps α) (Valid : α → Prop) (g : List α) : Prop where
  valid : ∀ c ∈ g, Valid c
  canonical : trim K g = g

/-- The polynomial over R that a coefficient list is. -/
noncomputable def polyOf {α R : Type} [CommRing R] (val : α → R) (g : List α) : Polynomial R :=
  g.foldr (fun c acc => Polynomial.C (val c) + Polynomial.X * acc) 0

@[simp] theorem polyOf_nil {α R : Type} [CommRing R] (val : α → R) : polyOf val [] = 0 := rfl

@[simp] theorem polyOf_cons {α R : Type} [CommRing R] (val : α → R) (a : α) (g : List α) :
    polyOf val (a :: g) = Polynomial.C (val a) + Polynomial.X * polyOf val g := rfl

theorem zpPoly_eq_polyOf (p : Nat) (g : List Nat) : zpPoly p g = polyOf (Nat.cast : Nat → ZMod p) g := by
  have hcast : (do let a ← g; pure (a : ZMod p)) = g.map (Nat.cast : Nat → ZMod p) :=
    List.map_eq_flatMap.symm
  rw [zpPoly, hcast, List.foldr_map, polyOf]

section
open Polynomial

variable {α R : Type} [CommRing R] {K : FieldOps α} {Valid : α → Prop} {val : α → R} (M : ComputesIn K Valid val)
include M

/-! Values of elements -/

theorem ComputesIn.eq_zero_iff {a : α} (ha : Valid a) : a = K.zero ↔ val a = 0 :=
  ⟨fun h => h ▸ M.val_zero, fun h => M.val_inj ha M.valid_zero (h.trans M.val_zero.symm)⟩

theorem ComputesIn.add_zero_zero : K.add K.zero K.zero = K.zero :=
  (M.eq_zero_iff (M.valid_add M.valid_zero M.valid_zero)).2 (by
    rw [M.val_add M.valid_zero M.valid_zero, M.val_zero, add_zero])

theorem ComputesIn.neg_zero_eq : K.neg K.zero = K.zero :=
  (M.eq_zero_iff (M.valid_neg M.valid_zero)).2 (by rw [M.val_neg M.valid_zero, M.val_zero, neg_zero])

/-- Square and multiply over the low k bits of e (41_field.md R128). -/
theorem ComputesIn.powLoop_spec {a : α} (ha : Valid a) (e k : Nat) : ∀ {r}, Valid r →
    Valid (powLoop K a e k r) ∧ val (powLoop K a e k r) = val r ^ 2 ^ k * val a ^ (e % 2 ^ k) := by
  induction k with
  | zero => intro r hr; simp [powLoop, hr, Nat.mod_one]
  | succ k ih =>
    intro r hr
    have hr2 := M.valid_mul hr hr
    have hbit : e % 2 ^ (k + 1) = e % 2 ^ k + 2 ^ k * (e.testBit k).toNat := by
      rw [Nat.pow_succ, Nat.mod_mul, Nat.toNat_testBit]
    simp only [powLoop]
    cases hb : e.testBit k with
    | false =>
      obtain ⟨hv, hval⟩ := ih hr2
      refine ⟨hv, hval.trans ?_⟩
      rw [hbit, hb, M.val_mul hr hr]
      simp only [Bool.toNat_false]
      ring
    | true =>
      obtain ⟨hv, hval⟩ := ih (M.valid_mul hr2 ha)
      refine ⟨hv, hval.trans ?_⟩
      rw [hbit, hb, M.val_mul hr2 ha, M.val_mul hr hr]
      simp only [Bool.toNat_true]
      ring

/-- a^e (41_field.md R128). -/
theorem ComputesIn.powNat_spec {a : α} (ha : Valid a) (e : Nat) :
    Valid (powNat K a e) ∧ val (powNat K a e) = val a ^ e := by
  obtain ⟨hv, hval⟩ := M.powLoop_spec ha e (e.log2 + 1) M.valid_one
  refine ⟨hv, hval.trans ?_⟩
  rw [M.val_one, one_pow, one_mul, Nat.mod_eq_of_lt Nat.lt_log2_self]

/-! Coefficients -/

theorem ComputesIn.valid_coef {g : List α} (hg : ∀ c ∈ g, Valid c) (d : Nat) : Valid (coef K g d) := by
  by_cases hd : d < g.length
  · rw [coef_of_lt K g d hd]; exact hg _ (List.getElem_mem hd)
  · rw [coef_of_length_le K g d (by omega)]; exact M.valid_zero

theorem ComputesIn.coeff_polyOf (g : List α) (d : Nat) : (polyOf val g).coeff d = val (coef K g d) := by
  induction g generalizing d with
  | nil => simp [M.val_zero]
  | cons a g ih =>
    cases d with
    | zero => simp
    | succ d => simp [ih]

theorem ComputesIn.foldl_add_spec {l : List α} (hl : ∀ c ∈ l, Valid c) : ∀ {a}, Valid a →
    Valid (l.foldl K.add a) ∧ val (l.foldl K.add a) = val a + (l.map val).sum := by
  induction l with
  | nil => intro a ha; simp [ha]
  | cons c l ih =>
    intro a ha
    obtain ⟨hc, hl⟩ := List.forall_mem_cons.1 hl
    obtain ⟨hv, hval⟩ := ih hl (M.valid_add ha hc)
    refine ⟨hv, hval.trans ?_⟩
    rw [M.val_add ha hc, List.map_cons, List.sum_cons, add_assoc]

theorem ComputesIn.sumK_spec {l : List α} (hl : ∀ c ∈ l, Valid c) :
    Valid (sumK K l) ∧ val (sumK K l) = (l.map val).sum := by
  simpa [sumK, M.val_zero] using M.foldl_add_spec hl M.valid_zero

/-- A coefficient of the convolution is that of the product (42_poly.md R152). -/
theorem ComputesIn.convCoef_spec {g h : List α} (hg : ∀ c ∈ g, Valid c) (hh : ∀ c ∈ h, Valid c) (d : Nat) :
    Valid (convCoef K g h d) ∧ val (convCoef K g h d) = (polyOf val g * polyOf val h).coeff d := by
  have hterm : ∀ i, Valid (K.mul (coef K g i) (coef K h (d - i))) := fun i =>
    M.valid_mul (M.valid_coef hg i) (M.valid_coef hh _)
  obtain ⟨hv, hval⟩ := M.sumK_spec (l := (List.range (min (d + 1) g.length)).map fun i =>
    K.mul (coef K g i) (coef K h (d - i))) (fun c hc => by
      obtain ⟨i, -, rfl⟩ := List.mem_map.1 hc
      exact hterm i)
  refine ⟨hv, ?_⟩
  calc val (convCoef K g h d)
      = ∑ i ∈ Finset.range (min (d + 1) g.length), val (coef K g i) * val (coef K h (d - i)) := by
        rw [convCoef, hval, List.map_map]
        show ∑ i ∈ Finset.range (min (d + 1) g.length), val (K.mul (coef K g i) (coef K h (d - i))) = _
        exact Finset.sum_congr rfl fun i _ => M.val_mul (M.valid_coef hg i) (M.valid_coef hh (d - i))
    _ = ∑ i ∈ Finset.range (d + 1), val (coef K g i) * val (coef K h (d - i)) := by
        refine Finset.sum_subset (Finset.range_mono (min_le_left _ _)) fun i hi hni => ?_
        rw [Finset.mem_range] at hi hni
        rw [coef_of_length_le K g i (by omega), M.val_zero, zero_mul]
    _ = (polyOf val g * polyOf val h).coeff d := by
        rw [coeff_mul, Finset.Nat.sum_antidiagonal_eq_sum_range_succ_mk]
        exact Finset.sum_congr rfl fun i _ => by rw [M.coeff_polyOf, M.coeff_polyOf]

theorem ComputesIn.degree_polyOf_lt (g : List α) : (polyOf val g).degree < g.length :=
  (degree_lt_iff_coeff_zero _ _).2 fun d hd => by rw [M.coeff_polyOf, coef_of_length_le K g d hd, M.val_zero]

variable [DecidableEq α]

theorem ComputesIn.polyOf_trim (g : List α) : polyOf val (trim K g) = polyOf val g := by
  ext d; rw [M.coeff_polyOf, M.coeff_polyOf, coef_trim]

omit [CommRing R] M in
theorem isPoly_trim {g : List α} (hg : ∀ c ∈ g, Valid c) : IsPoly K Valid (trim K g) :=
  ⟨fun c hc => hg c (mem_of_mem_trim K hc), trim_trim K g⟩

omit [CommRing R] M in
theorem isPoly_nil : IsPoly K Valid [] := ⟨by simp, rfl⟩

omit [CommRing R] M in
theorem IsPoly.valid_lc {g : List α} (hg : IsPoly K Valid g) (h : g ≠ []) : Valid (lc K g) := by
  rw [lc, List.getLastD_eq_getLast?, List.getLast?_eq_getLast_of_ne_nil h]
  exact hg.valid _ (List.getLast_mem h)

omit [CommRing R] M [DecidableEq α] in
theorem lc_eq_coef (g : List α) : lc K g = coef K g (g.length - 1) := by
  rw [lc, List.getLastD_eq_getLast?, List.getLast?_eq_getElem?, coef, List.getD_eq_getElem?_getD]

omit [CommRing R] M in
theorem IsPoly.lc_ne_zero {g : List α} (hg : IsPoly K Valid g) (h : g ≠ []) : lc K g ≠ K.zero := by
  rw [← hg.canonical] at h ⊢
  exact lc_trim_ne_zero K g h

omit [DecidableEq α] in
/-- The leading coefficient of the list is the one at its degree. -/
theorem ComputesIn.coeff_length_sub_one (g : List α) : (polyOf val g).coeff (g.length - 1) = val (lc K g) := by
  rw [M.coeff_polyOf, lc_eq_coef]

/-- A canonical list is as long as its degree says (00_scope.md R11). -/
theorem ComputesIn.length_le_iff {g : List α} (hg : IsPoly K Valid g) (n : Nat) :
    g.length ≤ n ↔ (polyOf val g).degree < n := by
  refine ⟨fun h => (M.degree_polyOf_lt g).trans_le (by exact_mod_cast h), fun h => ?_⟩
  by_contra hn
  have hne : g ≠ [] := by rintro rfl; simp at hn
  refine hg.lc_ne_zero hne ((M.eq_zero_iff (hg.valid_lc hne)).2 ?_)
  rw [← M.coeff_length_sub_one]
  exact (degree_lt_iff_coeff_zero _ _).1 h _ (by omega)

theorem ComputesIn.degree_lt_degree {g h : List α} (hg : IsPoly K Valid g) (hh : IsPoly K Valid h)
    (hlt : g.length < h.length) : (polyOf val g).degree < (polyOf val h).degree := by
  have hg' := (M.length_le_iff hg (h.length - 1)).1 (by omega)
  have hh' := mt (M.length_le_iff hh (h.length - 1)).2 (by omega)
  exact hg'.trans_le (not_lt.1 hh')

theorem ComputesIn.polyOf_eq_zero_iff {g : List α} (hg : IsPoly K Valid g) : polyOf val g = 0 ↔ g = [] := by
  rw [← List.length_eq_zero_iff, ← Nat.le_zero, M.length_le_iff hg, degree_lt_iff_coeff_zero]
  simp [Polynomial.ext_iff]

/-- Canonical polynomials of the same value are one (42_poly.md R150). -/
theorem ComputesIn.polyOf_inj {g h : List α} (hg : IsPoly K Valid g) (hh : IsPoly K Valid h)
    (he : polyOf val g = polyOf val h) : g = h := by
  rw [← hg.canonical, ← hh.canonical]
  refine trim_eq_of_coef K fun d => M.val_inj (M.valid_coef hg.valid d) (M.valid_coef hh.valid d) ?_
  rw [← M.coeff_polyOf, ← M.coeff_polyOf, he]

/-! Sums, differences, multiples and products (42_poly.md R151, R152) -/

theorem ComputesIn.padd_spec {g h : List α} (hg : ∀ c ∈ g, Valid c) (hh : ∀ c ∈ h, Valid c) :
    IsPoly K Valid (padd K g h) ∧ polyOf val (padd K g h) = polyOf val g + polyOf val h := by
  constructor
  · refine isPoly_trim fun c hc => ?_
    obtain ⟨d, -, rfl⟩ := List.mem_map.1 hc
    exact M.valid_add (M.valid_coef hg d) (M.valid_coef hh d)
  · ext d
    rw [coeff_add, M.coeff_polyOf, M.coeff_polyOf, M.coeff_polyOf, coef_padd K M.add_zero_zero,
      M.val_add (M.valid_coef hg d) (M.valid_coef hh d)]

omit [CommRing R] M in
/-- Coefficient d of the canonical form of a list with a function applied that keeps 0K. -/
theorem coef_trim_map {f : α → α} (hf : f K.zero = K.zero) (g : List α) (d : Nat) :
    coef K (trim K (g.map f)) d = f (coef K g d) := by
  rw [coef_trim, coef, coef, List.getD_eq_getElem?_getD, List.getD_eq_getElem?_getD, List.getElem?_map]
  cases g[d]? with
  | none => exact hf.symm
  | some a => rfl

theorem ComputesIn.pneg_spec {g : List α} (hg : ∀ c ∈ g, Valid c) :
    IsPoly K Valid (pneg K g) ∧ polyOf val (pneg K g) = -polyOf val g := by
  constructor
  · refine isPoly_trim fun c hc => ?_
    obtain ⟨a, ha, rfl⟩ := List.mem_map.1 hc
    exact M.valid_neg (hg a ha)
  · ext d
    rw [coeff_neg, M.coeff_polyOf, M.coeff_polyOf, pneg, coef_trim_map M.neg_zero_eq,
      M.val_neg (M.valid_coef hg d)]

theorem ComputesIn.psub_spec {g h : List α} (hg : ∀ c ∈ g, Valid c) (hh : ∀ c ∈ h, Valid c) :
    IsPoly K Valid (psub K g h) ∧ polyOf val (psub K g h) = polyOf val g - polyOf val h := by
  obtain ⟨hn, hnval⟩ := M.pneg_spec hh
  obtain ⟨hs, hsval⟩ := M.padd_spec hg hn.valid
  exact ⟨hs, hsval.trans (by rw [hnval, sub_eq_add_neg])⟩

theorem ComputesIn.pscale_spec {c : α} (hc : Valid c) {g : List α} (hg : ∀ c ∈ g, Valid c) :
    IsPoly K Valid (pscale K c g) ∧ polyOf val (pscale K c g) = C (val c) * polyOf val g := by
  have hz : K.mul c K.zero = K.zero := (M.eq_zero_iff (M.valid_mul hc M.valid_zero)).2 (by
    rw [M.val_mul hc M.valid_zero, M.val_zero, mul_zero])
  constructor
  · refine isPoly_trim fun b hb => ?_
    obtain ⟨a, ha, rfl⟩ := List.mem_map.1 hb
    exact M.valid_mul hc (hg a ha)
  · ext d
    rw [coeff_C_mul, M.coeff_polyOf, M.coeff_polyOf, pscale, coef_trim_map hz,
      M.val_mul hc (M.valid_coef hg d)]

theorem ComputesIn.pmul_spec {g h : List α} (hg : ∀ c ∈ g, Valid c) (hh : ∀ c ∈ h, Valid c) :
    IsPoly K Valid (pmul K g h) ∧ polyOf val (pmul K g h) = polyOf val g * polyOf val h := by
  unfold pmul
  split
  · next h0 => exact ⟨isPoly_nil, by rcases h0 with rfl | rfl <;> simp⟩
  · next h0 =>
    push Not at h0
    refine ⟨isPoly_trim fun c hc => ?_, ?_⟩
    · obtain ⟨d, -, rfl⟩ := List.mem_map.1 hc
      exact (M.convCoef_spec hg hh d).1
    · ext d
      rw [M.coeff_polyOf, coef_trim, coef_map_range]
      split
      · exact (M.convCoef_spec hg hh d).2
      · next hd =>
        -- Above the top convolution coefficient one factor of every term is 0.
        rw [M.val_zero, coeff_mul, Finset.sum_eq_zero]
        intro x hx
        rw [Finset.HasAntidiagonal.mem_antidiagonal] at hx
        rw [M.coeff_polyOf, M.coeff_polyOf]
        by_cases hx1 : g.length ≤ x.1
        · rw [coef_of_length_le K g _ hx1, M.val_zero, zero_mul]
        · rw [coef_of_length_le K h x.2 (by omega), M.val_zero, mul_zero]

/-! Division with remainder (42_poly.md R157) -/

omit [CommRing R] M [DecidableEq α] in
theorem coef_set {q : List α} {s : Nat} (hs : s < q.length) (c : α) (d : Nat) :
    coef K (q.set s c) d = if d = s then c else coef K q d := by
  simp only [coef, List.getD_eq_getElem?_getD, List.getElem?_set, eq_comm (a := s)]
  split
  · next h => subst h; simp
  · rfl

omit [CommRing R] M [DecidableEq α] in
theorem coef_replicate_zero (n d : Nat) : coef K (List.replicate n K.zero) d = K.zero := by
  simp only [coef, List.getD_eq_getElem?_getD, List.getElem?_replicate]
  split <;> rfl

omit [DecidableEq α] in
/-- A round of the division enters its term in an empty slot of the quotient. -/
theorem ComputesIn.polyOf_set {q : List α} {s : Nat} (hs : s < q.length) (h0 : coef K q s = K.zero) (c : α) :
    polyOf val (q.set s c) = polyOf val q + C (val c) * X ^ s := by
  ext d
  rw [coeff_add, coeff_C_mul_X_pow, M.coeff_polyOf, M.coeff_polyOf, coef_set hs]
  split
  · next h => rw [h, h0, M.val_zero, zero_add]
  · rw [add_zero]

omit [DecidableEq α] in
theorem ComputesIn.polyOf_shift (s : Nat) (g : List α) :
    polyOf val (List.replicate s K.zero ++ g) = X ^ s * polyOf val g := by
  induction s with
  | zero => simp
  | succ s ih =>
    rw [List.replicate_succ, List.cons_append, polyOf_cons, ih, M.val_zero, C_0]; ring

omit [DecidableEq α] in
theorem ComputesIn.valid_shift (s : Nat) {g : List α} (hg : ∀ c ∈ g, Valid c) :
    ∀ c ∈ List.replicate s K.zero ++ g, Valid c := by
  intro c hc
  rcases List.mem_append.1 hc with hc | hc
  · rw [List.eq_of_mem_replicate hc]; exact M.valid_zero
  · exact hg c hc

omit [CommRing R] M in
/-- The remainder after one round of the division of r by h: the multiple of h that cancels the leading term of r is taken off. -/
def divRound (K : FieldOps α) (h : List α) (ci : α) (r : List α) : List α :=
  psub K r (List.replicate (r.length - h.length) K.zero ++ pscale K (K.mul (lc K r) ci) h)

omit [CommRing R] M in
theorem divLoop_succ (h : List α) (ci : α) (fuel : Nat) (q r : List α) : divLoop K h ci (fuel + 1) q r =
    if r ≠ [] ∧ h.length ≤ r.length then
      divLoop K h ci fuel (q.set (r.length - h.length) (K.mul (lc K r) ci)) (divRound K h ci r)
    else (q, r) := rfl

/-- A round takes a multiple of h off the remainder and shortens it. -/
theorem ComputesIn.divRound_spec {h r : List α} (hh : IsPoly K Valid h) (hne : h ≠ []) {ci : α} (hci : Valid ci)
    (hinv : val (lc K h) * val ci = 1) (hr : IsPoly K Valid r) (hrne : r ≠ []) (hle : h.length ≤ r.length) :
    IsPoly K Valid (divRound K h ci r) ∧ (divRound K h ci r).length < r.length ∧
      polyOf val (divRound K h ci r) =
        polyOf val r - C (val (K.mul (lc K r) ci)) * X ^ (r.length - h.length) * polyOf val h := by
  have hlr := hr.valid_lc hrne
  obtain ⟨hsc, hscval⟩ := M.pscale_spec (M.valid_mul hlr hci) hh.valid
  obtain ⟨hsub, hval⟩ := M.psub_spec hr.valid (M.valid_shift (r.length - h.length) hsc.valid)
  rw [M.polyOf_shift, hscval, mul_left_comm, ← mul_assoc] at hval
  refine ⟨hsub, ?_, hval⟩
  have hpos := List.length_pos_iff.2 hne
  suffices hlen : (divRound K h ci r).length ≤ r.length - 1 by omega
  rw [divRound, M.length_le_iff hsub, hval, degree_lt_iff_coeff_zero]
  intro m hm
  rw [coeff_sub, mul_assoc, coeff_C_mul, coeff_X_pow_mul', if_pos (by omega)]
  by_cases hm1 : m = r.length - 1
  · rw [hm1, show r.length - 1 - (r.length - h.length) = h.length - 1 by omega, M.coeff_length_sub_one,
      M.coeff_length_sub_one, M.val_mul hlr hci, mul_assoc, mul_comm (val ci), hinv, mul_one, sub_self]
  · rw [M.coeff_polyOf, M.coeff_polyOf, coef_of_length_le K r m (by omega), coef_of_length_le K h _ (by omega), M.val_zero,
      mul_zero, sub_zero]

/-- The division loop keeps q·h + r and ends with a remainder shorter than h; the slots of q that are still to be entered are
those that the length of r allows. -/
theorem ComputesIn.divLoop_spec {h : List α} (hh : IsPoly K Valid h) (hne : h ≠ []) {ci : α} (hci : Valid ci)
    (hinv : val (lc K h) * val ci = 1) (fuel : Nat) : ∀ {q r : List α}, (∀ c ∈ q, Valid c) → IsPoly K Valid r →
    r.length ≤ fuel → r.length < q.length + h.length → (∀ d, d + h.length ≤ r.length → coef K q d = K.zero) →
    (∀ c ∈ (divLoop K h ci fuel q r).1, Valid c) ∧ IsPoly K Valid (divLoop K h ci fuel q r).2 ∧
      (divLoop K h ci fuel q r).2.length < h.length ∧
      polyOf val (divLoop K h ci fuel q r).1 * polyOf val h + polyOf val (divLoop K h ci fuel q r).2 =
        polyOf val q * polyOf val h + polyOf val r := by
  have hpos := List.length_pos_iff.2 hne
  induction fuel with
  | zero => intro q r hq hr hf _ _; exact ⟨hq, hr, by simp only [divLoop]; omega, rfl⟩
  | succ fuel ih =>
    intro q r hq hr hf hlen hfree
    rw [divLoop_succ]
    split
    · next hc =>
      obtain ⟨hrne, hle⟩ := hc
      obtain ⟨hr', hlt, hval⟩ := M.divRound_spec hh hne hci hinv hr hrne hle
      have hs : r.length - h.length < q.length := by omega
      have hc := M.valid_mul (hr.valid_lc hrne) hci
      obtain ⟨h1, h2, h3, h4⟩ := ih (q := q.set (r.length - h.length) (K.mul (lc K r) ci))
        (fun c hm => (List.mem_or_eq_of_mem_set hm).elim (hq c) (· ▸ hc)) hr' (by omega)
        (by rw [List.length_set]; omega) (fun d hd => by
          rw [coef_set hs, if_neg (by omega)]; exact hfree d (by omega))
      refine ⟨h1, h2, h3, h4.trans ?_⟩
      rw [M.polyOf_set hs (hfree _ (by omega)), hval]
      ring
    · next hc =>
      exact ⟨hq, hr, not_le.1 fun hle => hc ⟨by rintro rfl; exact hne (by simpa using hle), hle⟩, rfl⟩

/-- Division with remainder by a polynomial whose leading coefficient K inverts (42_poly.md R157). -/
theorem ComputesIn.divCore_spec {g h : List α} (hg : IsPoly K Valid g) (hh : IsPoly K Valid h) (hne : h ≠ [])
    (hinv : Inverts K Valid val (lc K h)) :
    IsPoly K Valid (divCore K g h).1 ∧ IsPoly K Valid (divCore K g h).2 ∧ (divCore K g h).2.length < h.length ∧
      polyOf val (divCore K g h).1 * polyOf val h + polyOf val (divCore K g h).2 = polyOf val g := by
  obtain ⟨hci, hmul⟩ := hinv
  have hone : K.mul (lc K h) (K.inv (lc K h)) = K.one :=
    M.val_inj (M.valid_mul (hh.valid_lc hne) hci) M.valid_one (by rw [M.val_mul (hh.valid_lc hne) hci, hmul, M.val_one])
  have hq0 : polyOf val (List.replicate (g.length + 1 - h.length) K.zero) = 0 := by
    ext d; rw [M.coeff_polyOf, coef_replicate_zero, M.val_zero, coeff_zero]
  obtain ⟨h1, h2, h3, h4⟩ := M.divLoop_spec hh hne hci hmul g.length
    (q := List.replicate (g.length + 1 - h.length) K.zero)
    (fun c hc => List.eq_of_mem_replicate hc ▸ M.valid_zero) hg le_rfl (by rw [List.length_replicate]; omega)
    (fun d _ => coef_replicate_zero _ d)
  rw [hq0, zero_mul, zero_add] at h4
  simp only [divCore, hone, true_or, if_true]
  exact ⟨isPoly_trim h1, h2, h3, by rw [M.polyOf_trim]; exact h4⟩

/-- The remainder by a monic polynomial is Mathlib's. -/
theorem ComputesIn.divCore_rem_eq_modByMonic {g h : List α} (hg : IsPoly K Valid g) (hh : IsPoly K Valid h) (hne : h ≠ [])
    (hinv : Inverts K Valid val (lc K h)) (hmonic : (polyOf val h).Monic) :
    polyOf val (divCore K g h).2 = polyOf val g %ₘ polyOf val h := by
  obtain ⟨-, hr, hlt, heq⟩ := M.divCore_spec hg hh hne hinv
  refine (div_modByMonic_unique (polyOf val (divCore K g h).1) _ hmonic ⟨?_, M.degree_lt_degree hr hh hlt⟩).2.symm
  rw [← heq]; ring

/-! The extended Euclidean algorithm (42_poly.md R159) -/

/-- A row of the extended Euclidean recurrence on (g, h): its Bézout coefficients give its remainder. -/
structure BezoutRow (K : FieldOps α) (Valid : α → Prop) (val : α → R) (g h : List α) (e : EuclidRow α) : Prop where
  rem : IsPoly K Valid e.rem
  left : IsPoly K Valid e.left
  right : IsPoly K Valid e.right
  bezout : polyOf val e.left * polyOf val g + polyOf val e.right * polyOf val h = polyOf val e.rem

omit [CommRing R] M in
theorem euclidNext_eq (prev cur : EuclidRow α) : euclidNext K prev cur =
    { rem := (divCore K prev.rem cur.rem).2
      left := psub K prev.left (pmul K (divCore K prev.rem cur.rem).1 cur.left)
      right := psub K prev.right (pmul K (divCore K prev.rem cur.rem).1 cur.right) } := rfl

theorem ComputesIn.euclidNext_spec {g h : List α} {prev cur : EuclidRow α} (hp : BezoutRow K Valid val g h prev)
    (hc : BezoutRow K Valid val g h cur) (hne : cur.rem ≠ []) (hinv : Inverts K Valid val (lc K cur.rem)) :
    BezoutRow K Valid val g h (euclidNext K prev cur) ∧ (euclidNext K prev cur).rem.length < cur.rem.length ∧
      ∃ q, polyOf val prev.rem = q * polyOf val cur.rem + polyOf val (euclidNext K prev cur).rem := by
  obtain ⟨hq, hr, hlt, heq⟩ := M.divCore_spec hp.rem hc.rem hne hinv
  obtain ⟨hql, hqlval⟩ := M.pmul_spec hq.valid hc.left.valid
  obtain ⟨hqr, hqrval⟩ := M.pmul_spec hq.valid hc.right.valid
  obtain ⟨hl, hlval⟩ := M.psub_spec hp.left.valid hql.valid
  obtain ⟨hrt, hrtval⟩ := M.psub_spec hp.right.valid hqr.valid
  rw [euclidNext_eq]
  refine ⟨⟨hr, hl, hrt, ?_⟩, hlt, _, heq.symm⟩
  rw [hlval, hrtval, hqlval, hqrval, eq_sub_of_add_eq' heq, ← hp.bezout, ← hc.bezout]
  ring

/-- The loop ends with a row whose remainder divides those of its first two rows. -/
theorem ComputesIn.gcdxLoop_spec (hinv : ∀ a, Valid a → a ≠ K.zero → Inverts K Valid val a) {g h : List α} (fuel : Nat) :
    ∀ {prev cur : EuclidRow α}, BezoutRow K Valid val g h prev → BezoutRow K Valid val g h cur → cur.rem.length < fuel →
    BezoutRow K Valid val g h (gcdxLoop K fuel prev cur) ∧
      polyOf val (gcdxLoop K fuel prev cur).rem ∣ polyOf val prev.rem ∧
      polyOf val (gcdxLoop K fuel prev cur).rem ∣ polyOf val cur.rem := by
  induction fuel with
  | zero => intro _ _ _ _ hf; omega
  | succ fuel ih =>
    intro prev cur hp hc hf
    unfold gcdxLoop
    split
    · next h0 => exact ⟨hp, dvd_rfl, by rw [h0]; exact dvd_zero _⟩
    · next h0 =>
      obtain ⟨hn, hlt, q, hq⟩ := M.euclidNext_spec hp hc h0 (hinv _ (hc.rem.valid_lc h0) (hc.rem.lc_ne_zero h0))
      obtain ⟨he, hd1, hd2⟩ := ih hc hn (by omega)
      exact ⟨he, hq ▸ dvd_add (hd1.mul_left q) hd2, hd1⟩

theorem ComputesIn.isPoly_one [Nontrivial R] : IsPoly K Valid [K.one] ∧ polyOf val [K.one] = 1 := by
  have hne : K.one ≠ K.zero := fun h => one_ne_zero (M.val_one.symm.trans ((M.eq_zero_iff M.valid_one).1 h))
  exact ⟨⟨by simpa using M.valid_one, by simp [trim_cons, hne]⟩, by simp [M.val_one]⟩

/-- The last nonzero row of the extended Euclidean algorithm gives a common divisor with its Bézout coefficients. -/
theorem ComputesIn.gcdxCore_spec [Nontrivial R] (hinv : ∀ a, Valid a → a ≠ K.zero → Inverts K Valid val a) {g h : List α}
    (hg : IsPoly K Valid g) (hh : IsPoly K Valid h) :
    BezoutRow K Valid val g h (gcdxCore K g h) ∧ polyOf val (gcdxCore K g h).rem ∣ polyOf val g ∧
      polyOf val (gcdxCore K g h).rem ∣ polyOf val h := by
  obtain ⟨h1, h1val⟩ := M.isPoly_one
  exact M.gcdxLoop_spec hinv _ ⟨hg, h1, isPoly_nil, by rw [h1val, polyOf_nil, one_mul, zero_mul, add_zero]⟩ ⟨hh, isPoly_nil, h1, by rw [h1val, polyOf_nil, one_mul, zero_mul, zero_add]⟩
    (Nat.lt_succ_self _)

end

end Sys2Proof.Machine
end

section
/-! PROOFS of the family 41_field.md, second part: the operations of Z/pZ and of Fq compute in ZMod p and in the polynomials
over it, and when they invert (R121 to R128). -/

namespace Sys2Proof.Machine

/-! The inverse modulo p (41_field.md R124) -/

/-- Euclid's algorithm keeps a·t0 = r0 and a·t1 = r1 modulo p, so it ends with the gcd. -/
theorem bezoutLoop_spec {p a : Nat} (fuel : Nat) : ∀ {r0 r1 t0 t1 : Nat}, r1 < fuel → t0 < p → t1 < p →
    (a * t0 : ZMod p) = r0 → (a * t1 : ZMod p) = r1 →
    bezoutLoop p fuel r0 r1 t0 t1 < p ∧ (a * bezoutLoop p fuel r0 r1 t0 t1 : ZMod p) = Nat.gcd r0 r1 := by
  induction fuel with
  | zero => intro _ _ _ _ hf; omega
  | succ fuel ih =>
    intro r0 r1 t0 t1 hf h0 h1 he0 he1
    unfold bezoutLoop
    split
    · next hr => subst hr; exact ⟨h0, by rw [he0, Nat.gcd_zero_right]⟩
    · next hr =>
      have hlt := Nat.mod_lt r0 (Nat.pos_of_ne_zero hr)
      obtain ⟨hb, hg⟩ := ih (r0 := r1) (r1 := r0 % r1) (t0 := t1) (t1 := (t0 + r0 / r1 * (p - t1)) % p) (by omega) h1
        (Nat.mod_lt _ (by omega)) he1 (by
          have hr0 : (r0 : ZMod p) = r1 * (r0 / r1 : Nat) + (r0 % r1 : Nat) := by
            rw [← Nat.cast_mul, ← Nat.cast_add, Nat.div_add_mod]
          rw [ZMod.natCast_mod]
          push_cast [Nat.cast_sub h1.le]
          rw [ZMod.natCast_self, eq_sub_of_add_eq' hr0.symm, ← he0, ← he1]
          ring)
      exact ⟨hb, hg.trans (by rw [Nat.gcd_comm r1, ← Nat.gcd_rec, Nat.gcd_comm])⟩

/-- The Bézout coefficient is reduced, and it is the inverse of an a coprime to p. -/
theorem bezoutInv_spec {p a : Nat} (hp : 2 ≤ p) (ha : a < p) :
    bezoutInv p a < p ∧ (a * bezoutInv p a : ZMod p) = Nat.gcd p a :=
  bezoutLoop_spec (p + 1) (by omega) (by omega) (by omega) (by simp) (by simp)

/-- Reduced integers are equal when they are so modulo p. -/
theorem eq_of_zmod_eq {p a b : Nat} (ha : a < p) (hb : b < p) (h : (a : ZMod p) = b) : a = b := by
  rwa [ZMod.natCast_eq_natCast_iff', Nat.mod_eq_of_lt ha, Nat.mod_eq_of_lt hb] at h

/-! Z/pZ on the integers below p (41_field.md R121 to R124) -/

theorem cast_neg_mod {p a : Nat} (ha : a < p) : (((p - a) % p : Nat) : ZMod p) = -a := by
  rw [ZMod.natCast_mod, Nat.cast_sub ha.le, ZMod.natCast_self, zero_sub]

theorem zpOps_computesIn {p : Nat} (hp : 2 ≤ p) : ComputesIn (zpOps p) (· < p) (Nat.cast : Nat → ZMod p) where
  valid_zero := show 0 < p by omega
  valid_one := show 1 < p by omega
  valid_add _ _ := Nat.mod_lt _ (by omega)
  valid_neg _ := Nat.mod_lt _ (by omega)
  valid_mul _ _ := Nat.mod_lt _ (by omega)
  val_zero := Nat.cast_zero
  val_one := Nat.cast_one
  val_add _ _ := by simp [zpOps]
  val_neg ha := cast_neg_mod ha
  val_mul _ _ := by simp [zpOps]
  val_inj := eq_of_zmod_eq

theorem zpOps_inverts {p a : Nat} (hp : 2 ≤ p) (ha : a < p) (hc : Nat.Coprime p a) :
    Inverts (zpOps p) (· < p) (Nat.cast : Nat → ZMod p) a :=
  ⟨(bezoutInv_spec hp ha).1, by
    rw [show (zpOps p).inv a = bezoutInv p a from rfl, (bezoutInv_spec hp ha).2, hc.gcd_eq_one, Nat.cast_one]⟩

theorem zpOps_inverts_of_prime {p : Nat} (hp : p.Prime) (a : Nat) (ha : a < p) (h0 : a ≠ (zpOps p).zero) :
    Inverts (zpOps p) (· < p) (Nat.cast : Nat → ZMod p) a :=
  zpOps_inverts hp.two_le ha (hp.coprime_iff_not_dvd.2 (Nat.not_dvd_of_pos_of_lt (Nat.pos_of_ne_zero h0) ha))

/-! Z/pZ as the active field (41_field.md R120 to R124) -/

/-- An element of the active field Z/pZ (10_state.md R40). -/
def IsZpElem (p : Nat) (v : Elem) : Prop := ∃ n, n < p ∧ v = natElem n

theorem isZpElem_natElem {p n : Nat} (h : n < p) : IsZpElem p (natElem n) := ⟨n, h, rfl⟩

theorem primeOps_computesIn {p : Nat} (hp : 2 ≤ p) :
    ComputesIn (primeOps p) (IsZpElem p) (fun v => (elemNat v : ZMod p)) where
  valid_zero := isZpElem_natElem (n := 0) (by omega)
  valid_one := isZpElem_natElem (n := 1) (by omega)
  valid_add _ _ := isZpElem_natElem (Nat.mod_lt _ (by omega))
  valid_neg _ := isZpElem_natElem (Nat.mod_lt _ (by omega))
  valid_mul _ _ := isZpElem_natElem (Nat.mod_lt _ (by omega))
  val_zero := Nat.cast_zero
  val_one := Nat.cast_one
  val_add _ _ := by simp [primeOps, elemNat_natElem]
  val_neg := by
    rintro _ ⟨n, hn, rfl⟩
    simp only [primeOps, elemNat_natElem, cast_neg_mod hn]
  val_mul _ _ := by simp [primeOps, elemNat_natElem]
  val_inj := by
    rintro _ _ ⟨m, hm, rfl⟩ ⟨n, hn, rfl⟩ h
    simp only [elemNat_natElem] at h
    rw [eq_of_zmod_eq hm hn h]

/-- inv_K of an integer coprime to p is its Bézout coefficient: the check of the product passes (41_field.md R124). -/
theorem zpInv_natElem {p a : Nat} (hp : 2 ≤ p) (ha : a < p) (hc : Nat.Coprime p a) :
    zpInv p (natElem a) = natElem (bezoutInv p a) ∧ bezoutInv p a < p ∧ a * bezoutInv p a % p = 1 := by
  obtain ⟨hlt, hval⟩ := bezoutInv_spec hp ha
  have hmod : a * bezoutInv p a % p = 1 := by
    refine eq_of_zmod_eq (Nat.mod_lt _ (by omega)) (by omega) ?_
    rw [ZMod.natCast_mod, Nat.cast_mul, hval, hc.gcd_eq_one]
  refine ⟨?_, hlt, hmod⟩
  unfold zpInv
  simp only [elemNat_natElem]
  rw [if_pos hmod]

/-- A power in Z/pZ is an integer below p (41_field.md R128). -/
theorem powNat_natElem {p a : Nat} (hp : 2 ≤ p) (ha : a < p) (e : Nat) :
    powNat (primeOps p) (natElem a) e = natElem (a ^ e % p) := by
  have hlt : a ^ e % p < p := Nat.mod_lt _ (by omega)
  obtain ⟨hv, hval⟩ := (primeOps_computesIn hp).powNat_spec (isZpElem_natElem ha) e
  refine (primeOps_computesIn hp).val_inj hv (isZpElem_natElem hlt) ?_
  simpa only [elemNat_natElem, ZMod.natCast_mod, Nat.cast_pow] using hval

/-! Fq = (Z/pZ)[x]/⟨f⟩ (41_field.md R125 to R127) -/

section
open Polynomial

variable {p : Nat} {f : List Nat}

/-- A modulus of Fq: canonical, monic and of degree m ≥ 1 (10_state.md R35, R37). -/
structure IsModulus (p : Nat) (f : List Nat) : Prop where
  isPoly : IsPoly (zpOps p) (· < p) f
  monic : lc (zpOps p) f = 1
  length : 2 ≤ f.length

theorem IsModulus.ne_nil (hf : IsModulus p f) : f ≠ [] := by rintro rfl; exact absurd hf.length (by decide)

theorem IsModulus.inverts (hp : 2 ≤ p) (hf : IsModulus p f) :
    Inverts (zpOps p) (· < p) (Nat.cast : Nat → ZMod p) (lc (zpOps p) f) := by
  rw [hf.monic]; exact zpOps_inverts hp (by omega) (Nat.coprime_one_right p)

theorem IsModulus.polyOf_monic (hp : 2 ≤ p) (hf : IsModulus p f) : (polyOf (Nat.cast : Nat → ZMod p) f).Monic := by
  have M := zpOps_computesIn hp
  refine monic_of_degree_le (f.length - 1) ?_ ?_
  · exact degree_le_iff_coeff_zero _ _ |>.2 fun d hd => by
      rw [M.coeff_polyOf, coef_of_length_le _ f d (by have := hf.length; norm_cast at hd; omega), M.val_zero]
  · rw [M.coeff_length_sub_one, hf.monic, Nat.cast_one]

/-- The product polynomial reduced modulo f is a reduced element (41_field.md R126). -/
theorem fqMul_spec (hp : 2 ≤ p) (hf : IsModulus p f) {a b : Elem} (ha : IsPoly (zpOps p) (· < p) a)
    (hb : IsPoly (zpOps p) (· < p) b) :
    IsPoly (zpOps p) (· < p) (fqMul p f a b) ∧ (fqMul p f a b).length < f.length ∧
      polyOf (Nat.cast : Nat → ZMod p) (fqMul p f a b) =
        (polyOf Nat.cast a * polyOf Nat.cast b) %ₘ polyOf Nat.cast f := by
  have M := zpOps_computesIn hp
  obtain ⟨hm, hmval⟩ := M.pmul_spec ha.valid hb.valid
  obtain ⟨-, hr, hlt, -⟩ := M.divCore_spec hm hf.isPoly hf.ne_nil (hf.inverts hp)
  exact ⟨hr, hlt, hmval ▸ M.divCore_rem_eq_modByMonic hm hf.isPoly hf.ne_nil (hf.inverts hp) (hf.polyOf_monic hp)⟩

/-- A common divisor of an irreducible F and a nonzero polynomial of smaller degree is a unit. -/
theorem isUnit_of_dvd_irreducible {k : Type} [Field k] {D A F : k[X]} (hF : Irreducible F) (hA : A ≠ 0)
    (hdeg : A.degree < F.degree) (hDA : D ∣ A) (hDF : D ∣ F) : IsUnit D :=
  (hF.dvd_iff.1 hDF).resolve_right fun h => hA (eq_zero_of_dvd_of_degree_lt (h.dvd.trans hDA) hdeg)

/-- The Bézout coefficient of a against f, scaled by the gcd and reduced modulo f: what FINV answers when it inverts a
(41_field.md R127). -/
def fqBezout (p : Nat) (f : List Nat) (a : Elem) : Elem :=
  (divCore (zpOps p) (pscale (zpOps p) ((zpOps p).inv (lc (zpOps p) (gcdxCore (zpOps p) a f).rem))
    (gcdxCore (zpOps p) a f).left) f).2

theorem fqInv_eq_fqBezout {a : Elem} (h : fqMul p f a (fqBezout p f a) = [1]) : fqInv p f a = fqBezout p f a := if_pos h

/-- With p prime and f irreducible the gcd of a nonzero element and f is a constant. -/
theorem gcdxCore_rem_length (hp : p.Prime) (hf : IsModulus p f) (hirr : Irreducible (polyOf (Nat.cast : Nat → ZMod p) f))
    {a : Elem} (ha : IsPoly (zpOps p) (· < p) a) (hlen : a.length < f.length) (h0 : a ≠ []) :
    (gcdxCore (zpOps p) a f).rem.length = 1 := by
  have : Fact p.Prime := ⟨hp⟩
  have M := zpOps_computesIn hp.two_le
  obtain ⟨hrow, hda, hdf⟩ := M.gcdxCore_spec (zpOps_inverts_of_prime hp) ha hf.isPoly
  have hunit := isUnit_of_dvd_irreducible hirr (mt (M.polyOf_eq_zero_iff ha).1 h0) (M.degree_lt_degree ha hf.isPoly hlen)
    hda hdf
  refine le_antisymm ?_ (List.length_pos_iff.2 fun h => hunit.ne_zero (by rw [h]; rfl))
  rw [M.length_le_iff hrow.rem, degree_eq_zero_of_isUnit hunit]
  norm_num

theorem fqBezout_spec (hp : p.Prime) (hf : IsModulus p f) (hirr : Irreducible (polyOf (Nat.cast : Nat → ZMod p) f)) {a : Elem}
    (ha : IsPoly (zpOps p) (· < p) a) (hlen : a.length < f.length) (h0 : a ≠ []) :
    IsPoly (zpOps p) (· < p) (fqBezout p f a) ∧ (fqBezout p f a).length < f.length ∧
      (polyOf (Nat.cast : Nat → ZMod p) a * polyOf Nat.cast (fqBezout p f a)) %ₘ polyOf Nat.cast f = 1 := by
  have : Fact p.Prime := ⟨hp⟩
  have M := zpOps_computesIn hp.two_le
  obtain ⟨x, hx⟩ := List.length_eq_one_iff.1 (gcdxCore_rem_length hp hf hirr ha hlen h0)
  obtain ⟨hrem, hleft, -, hbez⟩ := (M.gcdxCore_spec (zpOps_inverts_of_prime hp) ha hf.isPoly).1
  have hne : (gcdxCore (zpOps p) a f).rem ≠ [] := by rw [hx]; exact List.cons_ne_nil _ _
  obtain ⟨hcv, hcmul⟩ := zpOps_inverts_of_prime hp _ (hrem.valid_lc hne) (hrem.lc_ne_zero hne)
  obtain ⟨hs, hsval⟩ := M.pscale_spec hcv hleft.valid
  obtain ⟨-, hb, hblt, hbeq⟩ := M.divCore_spec hs hf.isPoly hf.ne_nil (hf.inverts hp.two_le)
  refine ⟨hb, hblt, ?_⟩
  have hone : (1 : (ZMod p)[X]).degree < (polyOf (Nat.cast : Nat → ZMod p) f).degree := by
    obtain ⟨h1, h1val⟩ := M.isPoly_one
    rw [← h1val]
    exact M.degree_lt_degree h1 hf.isPoly hf.length
  set c := (zpOps p).inv (lc (zpOps p) (gcdxCore (zpOps p) a f).rem)
  have hC : polyOf (Nat.cast : Nat → ZMod p) (gcdxCore (zpOps p) a f).rem * C (c : ZMod p) = 1 := by
    rw [hx] at hcmul ⊢
    rw [polyOf_cons, polyOf_nil, mul_zero, add_zero, ← C_mul]
    exact congrArg C hcmul
  refine (div_modByMonic_unique (-(C (c : ZMod p) * polyOf Nat.cast (gcdxCore (zpOps p) a f).right + polyOf Nat.cast a *
    polyOf Nat.cast (divCore (zpOps p) (pscale (zpOps p) c (gcdxCore (zpOps p) a f).left) f).1)) 1
      (hf.polyOf_monic hp.two_le) ⟨?_, hone⟩).2
  unfold fqBezout
  linear_combination -(polyOf Nat.cast a * hbeq + polyOf Nat.cast a * hsval + C (c : ZMod p) * hbez + hC)

/-- With p prime and f irreducible FINV inverts every nonzero element (41_field.md R127). -/
theorem fqInv_spec (hp : p.Prime) (hf : IsModulus p f) (hirr : Irreducible (polyOf (Nat.cast : Nat → ZMod p) f)) {a : Elem}
    (ha : IsPoly (zpOps p) (· < p) a) (hlen : a.length < f.length) (h0 : a ≠ []) :
    IsPoly (zpOps p) (· < p) (fqInv p f a) ∧ (fqInv p f a).length < f.length ∧
      (polyOf (Nat.cast : Nat → ZMod p) a * polyOf Nat.cast (fqInv p f a)) %ₘ polyOf Nat.cast f = 1 := by
  have : Fact p.Prime := ⟨hp⟩
  have M := zpOps_computesIn hp.two_le
  obtain ⟨hb, hblt, hmod⟩ := fqBezout_spec hp hf hirr ha hlen h0
  obtain ⟨hm, -, hmval⟩ := fqMul_spec hp.two_le hf ha hb
  obtain ⟨h1, h1val⟩ := M.isPoly_one
  rw [fqInv_eq_fqBezout (M.polyOf_inj hm h1 (hmval.trans (hmod.trans h1val.symm)))]
  exact ⟨hb, hblt, hmod⟩

end

end Sys2Proof.Machine
end

section
/-! PROOFS of the family 41_field.md, third part: what NOP and the commands of the field unit answer (R130 to R138). -/

namespace Sys2Proof

/-- Settles O4, one word at a time. -/
theorem exampleWordsDecode : Obligations.ExampleWordsDecode :=
  ⟨rfl, rfl, rfl, rfl, rfl, rfl, rfl, rfl, rfl⟩

end Sys2Proof

namespace Sys2Proof.Machine

/-! Commands without an element, polynomial or codeword destination (41_field.md R130; 42_poly.md R179) -/

/-- A command whose one output may be RES keeps every byte that is written (30_encoding.md R95). -/
theorem exec_mem {i : Instr} {s t : State} (helem : elemDest i = none) (hpoly : polyDests i = [])
    (hwords : writesWords i = false) (h : exec i s = .next t) : t.mem = s.mem := by
  refine exec_keeps (R := fun u => u.mem = s.mem) rfl (fun _ _ hu => hu) (fun u w hw hu => ?_) h
  cases hw with
  | elem v hd => rw [helem] at hd; cases hd
  | poly hd => rw [hpoly] at hd; cases hd
  | words hi => rw [hwords] at hi; cases hi
  | res => exact hu

/-- Settles O16: NOP only completes, and the outputs of the other commands in question are RES at most. -/
theorem nopAndPirredWriteNoSlot : Obligations.NopAndPirredWriteNoSlot := by
  refine ⟨fun _ => rfl, fun i s t helem hpoly hwords h => ?_⟩
  exact ⟨noCommandWritesTheControlRegisters i s t h, exec_plen_of_no_polyDests hpoly h, exec_mem helem hpoly hwords h,
    fun hres => exec_res hres h, fun a => exec_byte ⟨by simp [helem], by simp [hpoly], by simp [hwords]⟩ h⟩

/-! The commands, once their operands have been read (41_field.md R131 to R138) -/

section
variable {s : State} {F : FieldCtx} {d s1 s2 : EReg} {a b : Elem} (hF : s.field = .ok F)
include hF

theorem exec_fzero : exec (.fzero d) s = .next ((s.writeE d F.ops.zero).complete .ok) := by
  simp only [exec, execFzero, hF, ok_bind, finish_pure]; rfl

theorem exec_fone : exec (.fone d) s = .next ((s.writeE d F.ops.one).complete .ok) := by
  simp only [exec, execFone, hF, ok_bind, finish_pure]; rfl

variable (ha : s.readE F s1 = .ok a)
include ha

theorem exec_fneg : exec (.fneg d s1) s = .next ((s.writeE d (F.ops.neg a)).complete .ok) := by
  simp only [exec, execFneg, hF, ha, ok_bind, finish_pure]; rfl

theorem exec_fadd (hb : s.readE F s2 = .ok b) :
    exec (.fadd d s1 s2) s = .next ((s.writeE d (F.ops.add a b)).complete .ok) := by
  simp only [exec, execFadd, hF, ha, hb, ok_bind, finish_pure]; rfl

theorem exec_fmul (hb : s.readE F s2 = .ok b) :
    exec (.fmul d s1 s2) s = .next ((s.writeE d (F.ops.mul a b)).complete .ok) := by
  simp only [exec, execFmul, hF, ha, hb, ok_bind, finish_pure]; rfl

theorem exec_finv_of_ok {v : Elem} (hv : invK F.ops a = .ok v) :
    exec (.finv d s1) s = .next ((s.writeE d v).complete .ok) := by
  simp only [exec, execFinv, hF, ha, hv, ok_bind, finish_pure]; rfl

theorem exec_finv_of_error {c : ErrCode} (hv : invK F.ops a = .error c) : exec (.finv d s1) s = .next (s.complete c) := by
  simp only [exec, execFinv, hF, ha, hv, ok_bind, error_bind, finish_error]

theorem exec_fpow_of_ok {v : Elem} (hv : powK F.ops a s.exp.toInt = .ok v) :
    exec (.fpow d s1) s = .next ((s.writeE d v).complete .ok) := by
  simp only [exec, execFpow, hF, ha, hv, ok_bind, finish_pure]; rfl

theorem exec_fpow_of_error {c : ErrCode} (hv : powK F.ops a s.exp.toInt = .error c) :
    exec (.fpow d s1) s = .next (s.complete c) := by
  simp only [exec, execFpow, hF, ha, hv, ok_bind, error_bind, finish_error]

end

section
variable {α : Type} [DecidableEq α] (K : FieldOps α) {a : α} {e : Int}

theorem invK_of_ne (h : a ≠ K.zero) : invK K a = .ok (K.inv a) := if_neg h

theorem powK_of_nonneg (h : 0 ≤ e) : powK K a e = .ok (powNat K a e.natAbs) := if_neg (not_lt.2 h)

theorem powK_of_neg (h : e < 0) (ha : a ≠ K.zero) : powK K a e = .ok (powNat K (K.inv a) e.natAbs) := by
  rw [powK, if_pos h, invK_of_ne K ha]

end

/-- Settles O27: each command ends with the value of its field operation, or with the code that operation raises. -/
theorem fieldCommandsComplete : Obligations.FieldCommandsComplete := by
  intro s F d s1 a hF ha
  refine ⟨exec_fneg hF ha, fun s2 b hb => ⟨exec_fadd hF ha hb, exec_fmul hF ha hb⟩, fun h => ?_, ?_, fun he => ?_, fun he h => ?_,
    ?_⟩
  · exact exec_finv_of_ok hF ha (invK_of_ne F.ops h)
  · rintro rfl; exact exec_finv_of_error hF ha (invK_zero F.ops)
  · exact exec_fpow_of_ok hF ha (powK_of_nonneg F.ops he)
  · exact exec_fpow_of_ok hF ha (powK_of_neg F.ops he h)
  · rintro he rfl; exact exec_fpow_of_error hF ha (powK_zero F.ops he)

/-! The destination (10_state.md R41, R42) -/

theorem completed_writeE (s : State) (d : EReg) (v : Elem) : Completed s ((s.writeE d v).complete .ok) .ok :=
  ⟨rfl, rfl, rfl, rfl, rfl, rfl⟩

/-- A completion changes no slot (60_exceptions.md R270). -/
theorem slotDigits_complete (s : State) (c : ErrCode) (a : Nat) : (s.complete c).slotDigits a = s.slotDigits a :=
  State.slotDigits_congr fun b _ _ => s.byte_complete c b

/-- The slot of E[d] after the command wrote v to it. -/
theorem slotDigits_destination (s : State) (d : EReg) {v : Elem} (hv : ∀ x ∈ v, x < 2 ^ 32) :
    ((s.writeE d v).complete .ok).slotDigits (eAddr d) = slotOfElem v :=
  (slotDigits_complete _ _ _).trans (State.slotDigits_writeE_same s d v hv)

/-- A command that wrote v to E[d] has completed with OK and E[d] holds v's digits. -/
theorem exists_digits_of_exec {i : Instr} {s : State} {d : EReg} {v : Elem} (hv : ∀ x ∈ v, x < 2 ^ 32)
    (h : exec i s = .next ((s.writeE d v).complete .ok)) :
    ∃ t, exec i s = .next t ∧ Completed s t .ok ∧ ∀ j, j < 16 → digit t (eAddr d) j = v.getD j 0 :=
  ⟨_, h, completed_writeE s d v, fun _ hj => digit_of_slotDigits (slotDigits_destination s d hv) hj⟩

/-- A command that wrote the integer v to E[d] has completed with OK and E[d] holds v. -/
theorem exists_isInt_of_exec {i : Instr} {s : State} {d : EReg} {v : Nat} (hv : v < 2 ^ 32)
    (h : exec i s = .next ((s.writeE d (natElem v)).complete .ok)) :
    ∃ t, exec i s = .next t ∧ Completed s t .ok ∧ IsInt t (eAddr d) v :=
  ⟨_, h, completed_writeE s d _, isInt_of_slotDigits (slotDigits_destination s d fun _ hx => natElem_lt hv hx)⟩

/-! The active field of a state (41_field.md R120) -/

theorem ops_of_inZp {s : State} (hz : InZp s) : s.fieldCtx.ops = primeOps s.prime.toNat := by
  rw [fieldCtx_of_inZp hz]; rfl

/-- FCOEF[0..FDEG], the modulus of Fq (10_state.md R35). -/
def State.modulus (s : State) : List Nat := s.coefList.take (s.fdeg.toNat + 1)

theorem ops_of_fq {s : State} (hm : s.fmode = .fq) : s.fieldCtx.ops = extOps s.prime.toNat s.modulus := by
  rw [fieldCtx_of_fq hm]; rfl

theorem modulusPoly_eq (s : State) : modulusPoly s = polyOf Nat.cast s.modulus := by
  rw [modulusPoly, zpPoly_eq_polyOf, List.map_take]; rfl

theorem modulus_length {s : State} (hc : ConfigOk s) (hm : s.fmode = .fq) : s.modulus.length = s.fdeg.toNat + 1 := by
  have := (hc.2 hm).2.1
  simp only [State.modulus, State.coefList, List.length_take, List.length_map, Vector.length_toList]
  omega

theorem modulus_getElem {s : State} {j : Nat} (h : j < s.modulus.length) :
    s.modulus[j] = (s.fcoef.toList.getD j 0).toNat := by
  have h' : j < s.fcoef.toList.length := by
    simp only [State.modulus, State.coefList, List.length_take, List.length_map] at h; omega
  simp only [State.modulus, State.coefList, List.getElem_take, List.getElem_map, List.getD_eq_getElem _ _ h']

/-- A valid configuration selects a monic modulus of degree at least 1 (10_state.md R37). -/
theorem isModulus_of_configOk {s : State} (hc : ConfigOk s) (hm : s.fmode = .fq) : IsModulus s.prime.toNat s.modulus := by
  obtain ⟨hp, hfq⟩ := hc
  obtain ⟨h1, -, hone, hlow⟩ := hfq hm
  have hlen := modulus_length ⟨hp, hfq⟩ hm
  have hlc : lc (zpOps s.prime.toNat) s.modulus = 1 := by
    rw [lc_eq_coef, coef_of_lt _ _ _ (by omega), modulus_getElem, hlen]
    exact hone
  refine ⟨⟨fun c hcm => ?_, trim_of_lc_ne_zero _ (by rw [hlc]; exact one_ne_zero)⟩, hlc, by omega⟩
  obtain ⟨j, hj, rfl⟩ := List.getElem_of_mem hcm
  rw [modulus_getElem hj]
  by_cases hj1 : j = s.fdeg.toNat
  · rw [hj1, hone]; omega
  · exact hlow j (by omega)

/-! The operands (10_state.md R40) -/

section
variable {s : State} (hc : ConfigOk s) {a : Nat} (hr : ReducedSlot s a)
include hc hr

omit hc in
theorem getD_slotElem {j : Nat} (hj : j < 16) : (slotElem s a).getD j 0 = digit s a j := by
  show coef (zpOps s.prime.toNat) (slotElem s a) j = _
  rw [slotElem, coef_trim, coef_map_range]
  split
  · rfl
  · next hw => exact ((hr j hj).2 (not_lt.1 hw)).symm

theorem isPoly_slotElem : IsPoly (zpOps s.prime.toNat) (· < s.prime.toNat) (slotElem s a) := by
  refine isPoly_trim fun c hcm => ?_
  obtain ⟨j, hj, rfl⟩ := List.mem_map.1 hcm
  have hj := List.mem_range.1 hj
  exact (hr j (hj.trans_le (slotWidth_le hc))).1 hj

omit hc hr in
theorem slotElem_length_le (s : State) (a : Nat) : (slotElem s a).length ≤ slotWidth s :=
  (trim_length_le _ _).trans (by simp)

theorem slotPoly_eq {p : Nat} (hp : s.prime.toNat = p) : slotPoly s p a = polyOf Nat.cast (slotElem s a) := by
  subst hp
  have M := zpOps_computesIn hc.1
  rw [slotPoly, zpPoly_eq_polyOf]
  ext j
  rw [M.coeff_polyOf, M.coeff_polyOf, coef_map_range]
  split
  · next hj => rw [← getD_slotElem hr hj]; rfl
  · next hj =>
    have := (slotElem_length_le s a).trans (slotWidth_le hc)
    rw [coef_of_length_le _ _ j (by omega)]

end

/-- The canonical digit list of an element is an element of the field (10_state.md R40, R41). -/
theorem isFieldElem_of_isPoly {s : State} {v : Elem} (h : IsPoly (zpOps s.prime.toNat) (· < s.prime.toNat) v)
    (hl : v.length ≤ slotWidth s) : IsFieldElem s v := by
  refine ⟨h.valid, hl, fun h0 => ?_⟩
  have hne : v ≠ [] := by rintro rfl; cases h0
  refine h.lc_ne_zero hne ?_
  rw [lc, List.getLastD_eq_getLast?, h0]; rfl

theorem digit_lt_word_of_isPoly {s : State} {v : Elem} (h : IsPoly (zpOps s.prime.toNat) (· < s.prime.toNat) v) :
    ∀ c ∈ v, c < 2 ^ 32 :=
  fun c hcm => (h.valid c hcm).trans s.prime.isLt

/-- A command that wrote an element of the field to E[d] has completed with OK, and E[d] is reduced and holds it as a
polynomial. -/
theorem exists_slotPoly_of_exec {i : Instr} {s : State} {d : EReg} {v : Elem} (hc : ConfigOk s) (hv : IsFieldElem s v)
    (h : exec i s = .next ((s.writeE d v).complete .ok)) :
    ∃ t, exec i s = .next t ∧ Completed s t .ok ∧ ReducedSlot t (eAddr d) ∧
      slotPoly t s.prime.toNat (eAddr d) = polyOf Nat.cast v := by
  have hd := slotDigits_destination s d hv.digit_lt_word
  refine ⟨_, h, completed_writeE s d v, ?_⟩
  generalize ht : (s.writeE d v).complete .ok = t at hd
  have hp : t.prime.toNat = s.prime.toNat := by rw [← ht]; rfl
  have hc' : ConfigOk t := by rw [← ht]; exact hc
  have hv' : IsFieldElem t v := by rw [← ht]; exact ⟨hv.below, hv.length_le, hv.canonical⟩
  have hr := reducedSlot_of_slotOfElem hc' hv' hd
  exact ⟨hr, by rw [slotPoly_eq hc' hr hp, slotElem_of_slotOfElem hc' hv' hd]⟩

/-! Identities, sums and negations in both modes (41_field.md R121, R122, R125) -/

theorem FieldCtx.one_eq (F : FieldCtx) : F.ops.one = natElem 1 := by
  unfold FieldCtx.ops; split <;> rfl

theorem coef_pneg {α : Type} [DecidableEq α] (K : FieldOps α) (h0 : K.neg K.zero = K.zero) (g : List α) (d : Nat) :
    coef K (pneg K g) d = K.neg (coef K g d) := coef_trim_map h0 g d

theorem isInt_of_reducedSlot {s : State} (hz : InZp s) {a : Nat} (hr : ReducedSlot s a) : IsInt s a (digit s a 0) :=
  ⟨rfl, fun j h1 hj => (hr j hj).2 (by rw [slotWidth, hz.1]; exact h1)⟩

/-- An integer of Z/pZ whose digits are those of a function of the operands' digits that keeps 0. -/
theorem getD_natElem_eq {f : Nat → Nat} (hf : ∀ j, j ≠ 0 → j < 16 → f j = 0) {j : Nat} (hj : j < 16) :
    (natElem (f 0)).getD j 0 = f j := by
  rw [getD_natElem]
  split
  · next h => rw [h]
  · next h => exact (hf j h hj).symm

section
variable {s : State} (hc : ConfigOk s) {x y : Nat} (hx : ReducedSlot s x) (hy : ReducedSlot s y)
include hc hx

include hy in
/-- The digits of a +K b (41_field.md R121, R125). -/
theorem add_slotElem : (∀ c ∈ s.fieldCtx.ops.add (slotElem s x) (slotElem s y), c < 2 ^ 32) ∧
    ∀ j, j < 16 →
      (s.fieldCtx.ops.add (slotElem s x) (slotElem s y)).getD j 0 = (digit s x j + digit s y j) % s.prime.toNat := by
  have hp := hc.1
  cases hm : s.fmode with
  | zp =>
    have hz : InZp s := ⟨hm, hp⟩
    have ix := isInt_of_reducedSlot hz hx
    have iy := isInt_of_reducedSlot hz hy
    rw [ops_of_inZp hz, slotElem_of_isInt hz ix, slotElem_of_isInt hz iy]
    simp only [primeOps, elemNat_natElem]
    refine ⟨fun c hcm => natElem_lt ((Nat.mod_lt _ (by omega)).trans s.prime.isLt) hcm, fun j hj => ?_⟩
    refine getD_natElem_eq (f := fun j => (digit s x j + digit s y j) % s.prime.toNat) (fun i h0 hi => ?_) hj
    rw [ix.2 i (Nat.pos_of_ne_zero h0) hi, iy.2 i (Nat.pos_of_ne_zero h0) hi, Nat.zero_mod]
  | fq =>
    have M := zpOps_computesIn hp
    have ex := isPoly_slotElem hc hx
    have ey := isPoly_slotElem hc hy
    rw [ops_of_fq hm]
    refine ⟨digit_lt_word_of_isPoly (M.padd_spec ex.valid ey.valid).1, fun j hj => ?_⟩
    rw [← getD_slotElem hx hj, ← getD_slotElem hy hj]
    exact coef_padd _ M.add_zero_zero _ _ j

/-- The digits of −K a (41_field.md R122, R125). -/
theorem neg_slotElem : (∀ c ∈ s.fieldCtx.ops.neg (slotElem s x), c < 2 ^ 32) ∧
    ∀ j, j < 16 → (s.fieldCtx.ops.neg (slotElem s x)).getD j 0 = (s.prime.toNat - digit s x j) % s.prime.toNat := by
  have hp := hc.1
  cases hm : s.fmode with
  | zp =>
    have hz : InZp s := ⟨hm, hp⟩
    have ix := isInt_of_reducedSlot hz hx
    rw [ops_of_inZp hz, slotElem_of_isInt hz ix]
    simp only [primeOps, elemNat_natElem]
    refine ⟨fun c hcm => natElem_lt ((Nat.mod_lt _ (by omega)).trans s.prime.isLt) hcm, fun j hj => ?_⟩
    refine getD_natElem_eq (f := fun j => (s.prime.toNat - digit s x j) % s.prime.toNat) (fun i h0 hi => ?_) hj
    rw [ix.2 i (Nat.pos_of_ne_zero h0) hi, Nat.sub_zero, Nat.mod_self]
  | fq =>
    have M := zpOps_computesIn hp
    have ex := isPoly_slotElem hc hx
    rw [ops_of_fq hm]
    refine ⟨digit_lt_word_of_isPoly (M.pneg_spec ex.valid).1, fun j hj => ?_⟩
    rw [← getD_slotElem hx hj]
    exact coef_pneg _ M.neg_zero_eq _ j

end

/-- Settles O21: digit by digit, in both modes. -/
theorem identitiesSumsAndNegations : Obligations.IdentitiesSumsAndNegations := by
  intro s d s1 s2 hc
  have hF := field_of_configOk hc
  refine ⟨?_, ?_, fun h1 h2 => ?_⟩
  · refine exists_digits_of_exec (v := []) (by simp) ?_
    rw [exec_fzero hF, FieldCtx.zero_eq]
  · refine exists_isInt_of_exec (v := 1) (by decide) ?_
    rw [exec_fone hF, FieldCtx.one_eq]
  · have ha : s.readE s.fieldCtx s1 = .ok _ := readSlot_of_reduced hc h1
    have hb : s.readE s.fieldCtx s2 = .ok _ := readSlot_of_reduced hc h2
    obtain ⟨hadd, haddval⟩ := add_slotElem hc h1 h2
    obtain ⟨hneg, hnegval⟩ := neg_slotElem hc h1
    constructor
    · obtain ⟨t, ht, hcompl, hdig⟩ := exists_digits_of_exec hadd (exec_fadd hF ha hb)
      exact ⟨t, ht, hcompl, fun j hj => (hdig j hj).trans (haddval j hj)⟩
    · obtain ⟨t, ht, hcompl, hdig⟩ := exists_digits_of_exec hneg (exec_fneg hF ha)
      exact ⟨t, ht, hcompl, fun j hj => (hdig j hj).trans (hnegval j hj)⟩

/-! Z/pZ (41_field.md R123, R124, R128) -/

/-- Settles O22: the product of the two integers is taken in full before it is reduced. -/
theorem fmulInZpIsTheProductModP : Obligations.FmulInZpIsTheProductModP := by
  intro s d s1 s2 a b hz ia ib ha hb
  have hp := hz.2
  have hlt : a * b % s.prime.toNat < s.prime.toNat := Nat.mod_lt _ (by omega)
  have h := exec_fmul (d := d) (field_of_configOk (configOk_of_inZp hz)) (readE_of_isInt hz ia ha) (readE_of_isInt hz ib hb)
  rw [ops_of_inZp hz] at h
  simp only [primeOps, elemNat_natElem] at h
  exact exists_isInt_of_exec (hlt.trans s.prime.isLt) h

theorem natElem_eq_zero_iff (F : FieldCtx) (n : Nat) : natElem n = F.ops.zero ↔ n = 0 := by
  rw [FieldCtx.zero_eq, natElem]
  split
  · next h => simp [h]
  · next h => simp [h]

/-- Settles O24: the check of the Bézout coefficient passes for every nonzero integer below a prime. -/
theorem finvInZpIsTheInverse : Obligations.FinvInZpIsTheInverse := by
  intro s d s1 a hz hprime ia ha
  have hF := field_of_configOk (configOk_of_inZp hz)
  have hread := readE_of_isInt hz ia ha
  constructor
  · intro h0
    have hcop : Nat.Coprime s.prime.toNat a :=
      hprime.coprime_iff_not_dvd.2 (Nat.not_dvd_of_pos_of_lt (Nat.pos_of_ne_zero h0) ha)
    obtain ⟨hinv, hlt, hmul⟩ := zpInv_natElem hz.2 ha hcop
    have h := exec_finv_of_ok (d := d) hF hread (invK_of_ne _ (mt (natElem_eq_zero_iff _ a).1 h0))
    rw [ops_of_inZp hz, show (primeOps s.prime.toNat).inv = zpInv s.prime.toNat from rfl, hinv] at h
    obtain ⟨t, ht, hcompl, hint⟩ := exists_isInt_of_exec (hlt.trans s.prime.isLt) h
    exact ⟨t, _, ht, hcompl, hint, hlt, hmul⟩
  · rintro rfl
    have hz0 := (natElem_eq_zero_iff s.fieldCtx 0).2 rfl
    exact exec_finv_of_error hF hread (hz0 ▸ invK_zero _)

/-- Settles O26: square and multiply, after inverting for a negative exponent. -/
theorem fpowInZpIsThePower : Obligations.FpowInZpIsThePower := by
  intro s d s1 a hz ia ha
  have hp := hz.2
  have hF := field_of_configOk (configOk_of_inZp hz)
  have hread := readE_of_isInt hz ia ha
  have hlt : ∀ b, b % s.prime.toNat < s.prime.toNat := fun b => Nat.mod_lt _ (by omega)
  refine ⟨fun he => ?_, fun he hcop => ?_, ?_⟩
  · have h := exec_fpow_of_ok (d := d) hF hread (powK_of_nonneg _ he)
    rw [ops_of_inZp hz, powNat_natElem hp ha, show s.exp.toInt.natAbs = s.exp.toInt.toNat by omega] at h
    exact exists_isInt_of_exec ((hlt _).trans s.prime.isLt) h
  · have h0 : a ≠ 0 := by rintro rfl; rw [Nat.coprime_zero_left] at hcop; omega
    obtain ⟨hinv, hilt, hmul⟩ := zpInv_natElem hp ha hcop.symm
    have h := exec_fpow_of_ok (d := d) hF hread (powK_of_neg _ he (mt (natElem_eq_zero_iff _ a).1 h0))
    rw [ops_of_inZp hz, show (primeOps s.prime.toNat).inv = zpInv s.prime.toNat from rfl, hinv, powNat_natElem hp hilt,
      show s.exp.toInt.natAbs = (-s.exp.toInt).toNat by omega] at h
    obtain ⟨t, ht, hcompl, hint⟩ := exists_isInt_of_exec ((hlt _).trans s.prime.isLt) h
    refine ⟨t, _, ht, hcompl, hint, hlt _, ?_⟩
    rw [Nat.mod_mul_mod, ← Nat.mul_pow, Nat.mul_comm, Nat.pow_mod, hmul, Nat.one_pow, Nat.mod_eq_of_lt (by omega)]
  · rintro he rfl
    have hz0 := (natElem_eq_zero_iff s.fieldCtx 0).2 rfl
    exact exec_fpow_of_error hF hread (hz0 ▸ powK_zero _ he)

/-! Fq (41_field.md R126, R127) -/

theorem slotElem_length_lt_modulus {s : State} (hc : ConfigOk s) (hm : s.fmode = .fq) (a : Nat) :
    (slotElem s a).length < s.modulus.length := by
  have := slotElem_length_le s a
  simp only [slotWidth, hm] at this
  rw [modulus_length hc hm]; omega

/-- A canonical list shorter than the modulus is an element of Fq. -/
theorem isFieldElem_of_lt_modulus {s : State} (hc : ConfigOk s) (hm : s.fmode = .fq) {v : Elem}
    (h : IsPoly (zpOps s.prime.toNat) (· < s.prime.toNat) v) (hlt : v.length < s.modulus.length) : IsFieldElem s v := by
  rw [modulus_length hc hm] at hlt
  exact isFieldElem_of_isPoly h (by simp only [slotWidth, hm]; omega)

/-- Settles O23: the division of the product by the monic f is Mathlib's. -/
theorem fmulInFqIsTheProductModF : Obligations.FmulInFqIsTheProductModF := by
  intro s d s1 s2 hm hc h1 h2
  obtain ⟨hmul, hlt, hval⟩ :=
    fqMul_spec hc.1 (isModulus_of_configOk hc hm) (isPoly_slotElem hc h1) (isPoly_slotElem hc h2)
  have h := exec_fmul (d := d) (field_of_configOk hc) (readSlot_of_reduced hc h1) (readSlot_of_reduced hc h2)
  rw [ops_of_fq hm] at h
  obtain ⟨t, ht, hcompl, hred, hpoly⟩ := exists_slotPoly_of_exec hc (isFieldElem_of_lt_modulus hc hm hmul hlt) h
  refine ⟨t, ht, hcompl, hred, ?_⟩
  rw [hpoly, slotPoly_eq hc h1 rfl, slotPoly_eq hc h2 rfl, modulusPoly_eq]
  exact hval

/-- Settles O25: the Bézout coefficient of the operand against f inverts it, so the model's check of it passes. -/
theorem finvInFqIsTheInverse : Obligations.FinvInFqIsTheInverse := by
  intro s d s1 hm hc hprime hirr h1 ⟨j, hj, hdig⟩
  rw [modulusPoly_eq] at hirr ⊢
  have hne : slotElem s (eAddr s1) ≠ [] := fun h => hdig (by rw [← getD_slotElem h1 hj, h]; rfl)
  obtain ⟨hinv, hlt, hval⟩ := fqInv_spec hprime (isModulus_of_configOk hc hm) hirr (isPoly_slotElem hc h1)
    (slotElem_length_lt_modulus hc hm _) hne
  have h := exec_finv_of_ok (d := d) (field_of_configOk hc) (readSlot_of_reduced hc h1)
    (invK_of_ne _ (by rwa [FieldCtx.zero_eq]))
  rw [ops_of_fq hm] at h
  obtain ⟨t, ht, hcompl, hred, hpoly⟩ := exists_slotPoly_of_exec hc (isFieldElem_of_lt_modulus hc hm hinv hlt) h
  refine ⟨t, ht, hcompl, hred, ?_⟩
  rw [hpoly, slotPoly_eq hc h1 rfl]
  exact hval

end Sys2Proof.Machine
end

section
/-! PROOFS of the family 42_poly.md, first part: what the commands of the polynomial unit and the evaluation decoders answer
(42_poly.md R170 to R180; 43_codec.md R215, R216, R218), and that their results fit a polynomial register, whatever the field
operations are (R225). -/

namespace Sys2Proof.Machine

/-! One polynomial destination (10_state.md R44; 60_exceptions.md R263) -/

/-- The end of a command with one polynomial destination: its result goes to P[d] when it has one that fits. -/
def polyResult (d : PReg) (x : Except ErrCode Poly) : Except ErrCode (List Write) := do
  let g ← x
  let w ← polyDest d g
  return [w]

section
variable (s : State) (d d2 d3 : PReg) {g h k : Poly}

theorem finish_polyResult_ok (hg : g.length ≤ 512) :
    finish s (polyResult d (.ok g)) = .next ((s.writeP d g).complete .ok) := by
  rw [polyResult, ok_bind, polyDest_of_le hg]; rfl

theorem finish_polyResult_error (c : ErrCode) : finish s (polyResult d (.error c)) = .next (s.complete c) := rfl

theorem finish_polyResult_dim (hg : 512 < g.length) : finish s (polyResult d (.ok g)) = .next (s.complete .dim) := by
  rw [polyResult, ok_bind, polyDest_of_gt hg]; rfl

theorem finish_two_polyDests (hg : g.length ≤ 512) (hh : h.length ≤ 512) :
    finish s (do let w ← polyDest d g; let w2 ← polyDest d2 h; return [w, w2]) =
      .next (((s.writeP d g).writeP d2 h).complete .ok) := by
  rw [polyDest_of_le hg, polyDest_of_le hh]; rfl

theorem finish_three_polyDests (hg : g.length ≤ 512) (hh : h.length ≤ 512) (hk : k.length ≤ 512) :
    finish s (do let w ← polyDest d g; let w2 ← polyDest d2 h; let w3 ← polyDest d3 k; return [w, w2, w3]) =
      .next ((((s.writeP d g).writeP d2 h).writeP d3 k).complete .ok) := by
  rw [polyDest_of_le hg, polyDest_of_le hh, polyDest_of_le hk]; rfl

end

/-! The commands, once their operands have been read (42_poly.md R170 to R180) -/

section
variable {s : State} {F : FieldCtx} {d d2 d3 s1 s2 : PReg} {g h : Poly} (hF : s.field = .ok F) (hg : s.readP F s1 = .ok g)
include hF hg

theorem exec_pneg : exec (.pneg d s1) s = finish s (polyResult d (.ok (pneg F.ops g))) := by
  simp only [exec, execPneg, polyResult, hF, hg, ok_bind]

theorem exec_preduce : exec (.preduce d s1) s = finish s (polyResult d (.ok g)) := by
  simp only [exec, execPreduce, polyResult, hF, hg, ok_bind]

theorem exec_peval {e e2 : EReg} {x0 : Elem} (hx : s.readE F e2 = .ok x0) :
    exec (.peval e s1 e2) s = .next ((s.writeE e (peval F.ops g x0)).complete .ok) := by
  simp only [exec, execPeval, hF, hg, hx, ok_bind, finish_pure]; rfl

theorem exec_pirred_of_ok {b : Bool} (hb : pirred F.ops F.card g = .ok b) :
    exec (.pirred s1) s = .next ((s.writeRes b.toNat).complete .ok) := by
  simp only [exec, execPirred, hF, hg, hb, ok_bind, finish_pure]; rfl

theorem exec_pirred_of_error {c : ErrCode} (hc : pirred F.ops F.card g = .error c) :
    exec (.pirred s1) s = .next (s.complete c) := by
  simp only [exec, execPirred, hF, hg, hc, ok_bind, error_bind, finish_error]

variable (hh : s.readP F s2 = .ok h)
include hh

theorem exec_padd : exec (.padd d s1 s2) s = finish s (polyResult d (.ok (padd F.ops g h))) := by
  simp only [exec, execPadd, polyResult, hF, hg, hh, ok_bind]

theorem exec_pmul : exec (.pmul d s1 s2) s = finish s (polyResult d (.ok (pmul F.ops g h))) := by
  simp only [exec, execPmul, polyResult, hF, hg, hh, ok_bind]

theorem exec_pgcd : exec (.pgcd d s1 s2) s = finish s (polyResult d (pgcd F.ops g h)) := by
  simp only [exec, execPgcd, polyResult, hF, hg, hh, ok_bind]

theorem exec_ppowmod (he : 0 ≤ s.exp.toInt) :
    exec (.ppowmod d s1 s2) s = finish s (polyResult d (ppowmod F.ops g s.exp.toInt.natAbs h)) := by
  simp only [exec, execPpowmod, polyResult, hF, hg, hh, ok_bind, if_neg (not_lt.2 he)]

/-- The exponent is looked at before the modulus (42_poly.md R178). -/
theorem exec_ppowmod_of_neg (he : s.exp.toInt < 0) : exec (.ppowmod d s1 s2) s = .next (s.complete .range) := by
  simp only [exec, execPpowmod, hF, hg, hh, ok_bind, if_pos he]; rfl

theorem exec_pdiv_of_ok (hd : d ≠ d2) {q r : Poly} (hx : pdivmod F.ops g h = .ok (q, r)) (hq : q.length ≤ 512)
    (hr : r.length ≤ 512) : exec (.pdiv d d2 s1 s2) s = .next (((s.writeP d q).writeP d2 r).complete .ok) := by
  simp only [exec, execPdiv, hF, hg, hh, hx, ok_bind, if_neg hd]
  exact finish_two_polyDests s d d2 hq hr

theorem exec_pdiv_of_error (hd : d ≠ d2) {c : ErrCode} (hx : pdivmod F.ops g h = .error c) :
    exec (.pdiv d d2 s1 s2) s = .next (s.complete c) := by
  simp only [exec, execPdiv, hF, hg, hh, hx, ok_bind, error_bind, if_neg hd, finish_error]

variable (hd : d ≠ d2) (hd3 : d ≠ d3) (hd23 : d2 ≠ d3)
include hd hd3 hd23

theorem exec_pgcdx_of_ok {a u v : Poly} (hx : pgcdx F.ops g h = .ok (a, u, v)) (ha : a.length ≤ 512) (hu : u.length ≤ 512)
    (hv : v.length ≤ 512) :
    exec (.pgcdx d d2 d3 s1 s2) s = .next ((((s.writeP d a).writeP d2 u).writeP d3 v).complete .ok) := by
  simp only [exec, execPgcdx, hF, hg, hh, hx, ok_bind, hd, hd3, hd23, or_self, if_false]
  exact finish_three_polyDests s d d2 d3 ha hu hv

theorem exec_pgcdx_of_error {c : ErrCode} (hx : pgcdx F.ops g h = .error c) :
    exec (.pgcdx d d2 d3 s1 s2) s = .next (s.complete c) := by
  simp only [exec, execPgcdx, hF, hg, hh, hx, ok_bind, error_bind, hd, hd3, hd23, or_self, if_false, finish_error]

end

section
variable {s : State} {F : FieldCtx} {d d2 : PReg} {n k : Nat} {xs ys : List Elem} (hF : s.field = .ok F)
  (hA : s.readA F n = .ok xs) (hW : s.readW F n = .ok ys)
include hF hA hW

theorem exec_pinterp (hn : s.shapeN = .ok n) : exec (.pinterp d) s = finish s (polyResult d (pinterp F.ops xs ys)) := by
  simp only [exec, execPinterp, polyResult, hF, hn, hA, hW, ok_bind]

variable (hnk : s.shapeNK = .ok (n, k))
include hnk

theorem exec_decLa : exec (.decLa d) s = finish s (polyResult d (decodeLa F.ops n k xs ys)) := by
  simp only [exec, execDecLa, polyResult, hF, hnk, hA, hW, ok_bind]

theorem exec_decEe : exec (.decEe d) s = finish s (polyResult d (decodeEe F.ops n k xs ys)) := by
  simp only [exec, execDecEe, polyResult, hF, hnk, hA, hW, ok_bind]

variable (hd : d ≠ d2)
include hd

theorem exec_lakey_of_ok {sol : KeySolution Elem} (hx : lakeySolve F.ops n k xs ys = .ok sol) (he : sol.e.length ≤ 512)
    (hh : sol.h.length ≤ 512) : exec (.lakey d d2) s = .next (((s.writeP d sol.e).writeP d2 sol.h).complete .ok) := by
  simp only [exec, execLakey, hF, hnk, hA, hW, hx, ok_bind, if_neg hd]
  exact finish_two_polyDests s d d2 he hh

theorem exec_lakey_of_error {c : ErrCode} (hx : lakeySolve F.ops n k xs ys = .error c) :
    exec (.lakey d d2) s = .next (s.complete c) := by
  simp only [exec, execLakey, hF, hnk, hA, hW, hx, ok_bind, error_bind, if_neg hd, finish_error]

end

/-! Lengths of the results, whatever the field operations are (42_poly.md R152, R157 to R161; 43_codec.md R225) -/

section
variable {α : Type} [DecidableEq α] (K : FieldOps α)

theorem pdivmod_of_ne {g h : List α} (hh : h ≠ []) : pdivmod K g h = .ok (divCore K g h) := if_neg hh

/-- The remainder is no longer than the dividend: a dividend shorter than the divisor is its own remainder (R157). -/
theorem divCore_remainder_length_le_dividend (g h : List α) : (divCore K g h).2.length ≤ g.length := by
  by_cases hlt : g.length < h.length
  · simp only [divCore, hlt, or_true, if_true]
    exact divLoop_remainder_length_le K h _ _ _ _
  · exact (divCore_remainder_length_le K g h).trans (by omega)

/-- Neither the quotient nor the remainder is longer than the dividend (R157). -/
theorem pdivmod_length_le {g h q r : List α} (hx : pdivmod K g h = .ok (q, r)) :
    q.length ≤ g.length ∧ r.length ≤ g.length := by
  by_cases h0 : h = []
  · rw [h0, pdivmod_nil] at hx; cases hx
  have hpos := List.length_pos_iff.2 h0
  have he : divCore K g h = (q, r) := Except.ok.inj ((pdivmod_of_ne K h0).symm.trans hx)
  have hq := divCore_quotient_length_le K g h
  have hr := divCore_remainder_length_le_dividend K g h
  rw [he] at hq hr
  exact ⟨hq.trans (by omega), hr⟩

theorem gcdLoop_length_le (N fuel : Nat) : ∀ {a b : List α}, a.length ≤ N → b.length ≤ N →
    (gcdLoop K fuel a b).length ≤ N := by
  induction fuel with
  | zero => exact fun ha _ => ha
  | succ fuel ih =>
    intro a b ha hb
    unfold gcdLoop
    split
    · exact ha
    · exact ih hb ((divCore_remainder_length_le_dividend K a b).trans ha)

theorem pgcd_length_le {N : Nat} {g h a : List α} (hg : g.length ≤ N) (hh : h.length ≤ N) (ha : pgcd K g h = .ok a) :
    a.length ≤ N := by
  unfold pgcd at ha
  dsimp only at ha
  split at ha
  · cases ha
  · cases ha
    exact (pscale_length_le K _ _).trans (gcdLoop_length_le K N _ hg hh)

theorem basisLoop_length_le (xi : α) (l : List α) : ∀ basis den,
    (basisLoop K xi l basis den).1.length ≤ basis.length + l.length := by
  induction l with
  | nil => exact fun _ _ => le_rfl
  | cons x l ih =>
    intro basis den
    have hmul := pmul_length_le K basis [K.neg x, K.one]
    simp only [List.length_cons, List.length_nil] at hmul ⊢
    exact (ih _ _).trans (by omega)

theorem interpLoop_length_le (xs ys : List α) (l : List Nat) (hl : ∀ i ∈ l, i < xs.length) : ∀ {res g},
    res.length ≤ xs.length → interpLoop K xs ys l res = .ok g → g.length ≤ xs.length := by
  induction l with
  | nil => rintro res g hres ⟨⟩; exact hres
  | cons i l ih =>
    intro res g hres hg
    obtain ⟨hi, hl⟩ := List.forall_mem_cons.1 hl
    simp only [interpLoop] at hg
    split at hg
    · cases hg
    · refine ih hl ?_ hg
      have hbasis := basisLoop_length_le K (coef K xs i) (xs.eraseIdx i) [K.one] K.one
      rw [List.length_singleton, List.length_eraseIdx_of_lt hi] at hbasis
      exact (padd_length_le K _ _).trans (max_le hres ((pscale_length_le K _ _).trans (by omega)))

/-- Interpolation through n points gives at most n coefficients (42_poly.md R161). -/
theorem pinterp_length_le {xs ys g : List α} (h : pinterp K xs ys = .ok g) : g.length ≤ xs.length :=
  interpLoop_length_le K xs ys _ (fun _ hi => List.mem_range.1 hi) (Nat.zero_le _) h

/-- w(x) has degree at most n (43_codec.md R204). -/
theorem zeroLocator_length_le (l : List α) : (zeroLocator K l).length ≤ l.length + 1 := by
  suffices h : ∀ w : List α,
      (l.foldl (fun w a => pmul K w [K.neg a, K.one]) w).length ≤ l.length + w.length from h [K.one]
  induction l with
  | nil => exact fun w => by simp
  | cons a l ih =>
    intro w
    have hmul := pmul_length_le K w [K.neg a, K.one]
    rw [List.foldl_cons]
    simp only [List.length_cons, List.length_nil] at hmul ⊢
    exact (ih _).trans (by omega)

theorem solveHom_length (rows : List (List α)) (C : Nat) : (solveHom K rows C).length = C := by
  simp [solveHom]

/-- What lakey answers is what its rule says of the interpolant, in lengths (43_codec.md R214, R225). -/
theorem lakeySolve_lengths {n k : Nat} {xs ys : List α} {sol : KeySolution α} (h : lakeySolve K n k xs ys = .ok sol) :
    sol.g.length ≤ xs.length ∧ sol.w.length ≤ xs.length + 1 ∧ sol.e.length ≤ maxErrors n k + 1 ∧
      sol.h.length ≤ maxErrors n k := by
  unfold lakeySolve at h
  split at h
  · cases h
  · next g hg =>
    cases h
    refine ⟨pinterp_length_le K hg, zeroLocator_length_le K xs, (trim_length_le K _).trans ?_,
      (trim_length_le K _).trans ?_⟩
    · rw [List.length_take]; exact min_le_left _ _
    · rw [List.length_drop, solveHom_length]; omega

/-- The message of the linear-algebra decoder has at most n + t coefficients (43_codec.md R216, R225). -/
theorem decodeLa_length_le {n k : Nat} {xs ys m : List α} (h : decodeLa K n k xs ys = .ok m) :
    m.length ≤ xs.length + maxErrors n k := by
  unfold decodeLa at h
  split at h
  · cases h
  · next sol hsol =>
    obtain ⟨hg, hw, he, hh⟩ := lakeySolve_lengths K hsol
    split at h
    · cases h
    · next q r hqr =>
      cases h
      have hge := pmul_length_le K sol.g sol.e
      have hwh := pmul_length_le K sol.w sol.h
      exact (pdivmod_length_le K hqr).1.trans ((padd_length_le K _ _).trans (by omega))

theorem eeLoop_rem_length_le (N du fuel : Nat) : ∀ {prev cur : EuclidRow α}, prev.rem.length ≤ N → cur.rem.length ≤ N →
    (eeLoop K du fuel prev cur).rem.length ≤ N := by
  induction fuel with
  | zero => exact fun _ hc => hc
  | succ fuel ih =>
    intro prev cur hp hc
    unfold eeLoop
    split
    · exact hc
    · exact ih hc ((divCore_remainder_length_le_dividend K prev.rem cur.rem).trans hp)

/-- The message of the extended-Euclidean decoder has at most n + 1 coefficients (43_codec.md R218, R225). -/
theorem decodeEe_length_le {n k : Nat} {xs ys m : List α} (h : decodeEe K n k xs ys = .ok m) : m.length ≤ xs.length + 1 := by
  unfold decodeEe at h
  split at h
  · cases h
  · next g hg =>
    dsimp only at h
    split at h
    · cases h
    · next q r hqr =>
      cases h
      exact (pdivmod_length_le K hqr).1.trans
        (eeLoop_rem_length_le K _ _ _ (zeroLocator_length_le K xs) ((pinterp_length_le K hg).trans (Nat.le_succ _)))

end

/-! When the commands complete -/

/-- Settles O30: sums, negations and reductions are no longer than their operands, and PMUL raises DIM for a longer product. -/
theorem sumsAndProductsComplete : Obligations.SumsAndProductsComplete := by
  intro s F d s1 g hF hg
  have hgl := readP_length hg
  refine ⟨?_, ?_, fun e e2 x0 hx => exec_peval hF hg hx, fun s2 h hh => ⟨?_, fun hl => ?_, fun hl => ?_⟩⟩
  · rw [exec_pneg hF hg, finish_polyResult_ok s d ((pneg_length_le F.ops g).trans hgl)]
  · rw [exec_preduce hF hg, finish_polyResult_ok s d hgl]
  · rw [exec_padd hF hg hh, finish_polyResult_ok s d ((padd_length_le F.ops g h).trans (max_le hgl (readP_length hh)))]
  · rw [exec_pmul hF hg hh, finish_polyResult_ok s d hl]
  · exact (exec_pmul hF hg hh).trans (finish_polyResult_dim s d hl)

theorem ppowmod_nil {α : Type} [DecidableEq α] (K : FieldOps α) (g : List α) (e : Nat) :
    ppowmod K g e [] = .error .divZero := if_pos rfl

theorem ppowmod_of_ne {α : Type} [DecidableEq α] (K : FieldOps α) {g : List α} {e : Nat} {h : List α} (hh : h ≠ []) :
    ppowmod K g e h = .ok (powmodCore K g e h) := if_neg hh

theorem pirred_nil {α : Type} [DecidableEq α] (K : FieldOps α) (q : Nat) : pirred K q [] = .error .divZero := if_pos rfl

/-- Settles O31: each command ends with the result of its function, or with the code that function raises. -/
theorem divisionCommandsComplete : Obligations.DivisionCommandsComplete := by
  intro s F d d2 d3 s1 s2 g h hF hg hh
  have hgl := readP_length hg
  have hhl := readP_length hh
  refine ⟨fun hd h0 => ?pdiv, ?pdivZero, fun a ha => ?pgcd, fun a u v hd hd3 hd23 hx ha hu hv => ?pgcdx, ?pgcdZero, ?pgcdxZero,
    fun r he hr hrl => ?ppowmod, fun he => ?ppowmodNeg, ?ppowmodZero, ?pirredZero, fun b hb => exec_pirred_of_ok hF hg hb⟩
  case pdiv =>
    have hx := pdivmod_of_ne F.ops (g := g) h0
    obtain ⟨hq, hr⟩ := pdivmod_length_le F.ops hx
    exact exec_pdiv_of_ok hF hg hh hd hx (hq.trans hgl) (hr.trans hgl)
  case pdivZero => rintro hd rfl; exact exec_pdiv_of_error hF hg hh hd (pdivmod_nil F.ops g)
  case pgcd => rw [exec_pgcd hF hg hh, ha, finish_polyResult_ok s d (pgcd_length_le F.ops hgl hhl ha)]
  case pgcdx => exact exec_pgcdx_of_ok hF hg hh hd hd3 hd23 hx ha hu hv
  case pgcdZero =>
    rintro rfl rfl
    rw [exec_pgcd hF hg hh, pgcd_nil]
    exact finish_polyResult_error s d .divZero
  case pgcdxZero => rintro hd hd3 hd23 rfl rfl; exact exec_pgcdx_of_error hF hg hh hd hd3 hd23 (pgcdx_nil F.ops)
  case ppowmod => rw [exec_ppowmod hF hg hh he, hr, finish_polyResult_ok s d hrl]
  case ppowmodNeg => exact exec_ppowmod_of_neg hF hg hh he
  case ppowmodZero =>
    rintro he rfl
    rw [exec_ppowmod hF hg hh he, ppowmod_nil]
    exact finish_polyResult_error s d .divZero
  case pirredZero => rintro rfl; exact exec_pirred_of_error hF hg (pirred_nil F.ops F.card)

/-- Settles O41: each command ends with the result of its function, which fits, or with the code that function raises. -/
theorem evaluationDecodersComplete : Obligations.EvaluationDecodersComplete := by
  intro s F d n xs ys hF hn hA hW
  have hlen : xs.length = n := by rw [mapRaise_length hA, List.length_range]
  obtain ⟨-, -, hn256⟩ := shapeN_ok hn
  have hrep : ¬ xs.Nodup → pinterp F.ops xs ys = .error .divZero := fun h => pinterp_of_repeated_points hF hA h ys
  refine ⟨fun g hg => ?_, fun c hc => ?_, fun h => ?_, fun d2 k hnk => ?_⟩
  · have := pinterp_length_le F.ops hg
    rw [exec_pinterp hF hA hW hn, hg, finish_polyResult_ok s d (by omega)]
  · rw [exec_pinterp hF hA hW hn, hc]; exact finish_polyResult_error s d c
  · rw [exec_pinterp hF hA hW hn, hrep h]; exact finish_polyResult_error s d .divZero
  have ht : maxErrors n k ≤ n := by unfold maxErrors; omega
  have hla : ∀ {c}, decodeLa F.ops n k xs ys = .error c → exec (.decLa d) s = .next (s.complete c) := fun hc => by
    rw [exec_decLa hF hA hW hnk, hc, finish_polyResult_error]
  have hee : ∀ {c}, decodeEe F.ops n k xs ys = .error c → exec (.decEe d) s = .next (s.complete c) := fun hc => by
    rw [exec_decEe hF hA hW hnk, hc, finish_polyResult_error]
  refine ⟨fun sol hd hsol => ?_, fun c hd hc => exec_lakey_of_error hF hA hW hnk hd hc, fun m hm => ?_, fun c hc => hla hc,
    fun sol hsol he => hla (decodeLa_nil F.ops hsol he), fun m hm => ?_, fun c hc => hee hc, fun h => ⟨fun hd => ?_, ?_, ?_⟩⟩
  · obtain ⟨-, -, he, hh⟩ := lakeySolve_lengths F.ops hsol
    exact exec_lakey_of_ok hF hA hW hnk hd hsol (by omega) (by omega)
  · have := decodeLa_length_le F.ops hm
    rw [exec_decLa hF hA hW hnk, hm, finish_polyResult_ok s d (by omega)]
  · have := decodeEe_length_le F.ops hm
    rw [exec_decEe hF hA hW hnk, hm, finish_polyResult_ok s d (by omega)]
  · exact exec_lakey_of_error hF hA hW hnk hd (lakeySolve_error F.ops (hrep h))
  · exact hla (decodeLa_error F.ops (hrep h))
  · exact hee (decodeEe_error F.ops (hrep h))

end Sys2Proof.Machine
end

section
/-! PROOFS of the family 42_poly.md, second part: what evaluation, the gcd, interpolation, modular powers and Rabin's test compute
when the field operations compute in a ring, or in a field whose nonzero elements they invert (42_poly.md R158 to R164). Every
lemma is about any field operations. -/

namespace Sys2Proof.Machine

section
open Polynomial

variable {α R : Type} [CommRing R] {K : FieldOps α} {Valid : α → Prop} {val : α → R} (M : ComputesIn K Valid val)

/-! Evaluation (42_poly.md R160) -/

section
include M

/-- The loop adds the value of the coefficients that are left, times the power of the point reached so far. -/
theorem ComputesIn.evalLoop_spec {x0 : α} (hx : Valid x0) {g : List α} (hg : ∀ c ∈ g, Valid c) : ∀ {acc pw}, Valid acc →
    Valid pw → Valid (evalLoop K x0 g acc pw) ∧
      val (evalLoop K x0 g acc pw) = val acc + val pw * (polyOf val g).eval (val x0) := by
  induction g with
  | nil => intro acc pw ha _; simp [evalLoop, ha]
  | cons c g ih =>
    intro acc pw ha hp
    obtain ⟨hc, hg⟩ := List.forall_mem_cons.1 hg
    have hcp := M.valid_mul hc hp
    obtain ⟨hv, hval⟩ := ih hg (M.valid_add ha hcp) (M.valid_mul hp hx)
    refine ⟨hv, hval.trans ?_⟩
    rw [M.val_add ha hcp, M.val_mul hc hp, M.val_mul hp hx, polyOf_cons, eval_add, eval_C, eval_mul, eval_X]
    ring

theorem ComputesIn.peval_spec {x0 : α} (hx : Valid x0) {g : List α} (hg : ∀ c ∈ g, Valid c) :
    Valid (peval K g x0) ∧ val (peval K g x0) = (polyOf val g).eval (val x0) := by
  obtain ⟨hv, hval⟩ := M.evalLoop_spec hx hg M.valid_zero M.valid_one
  exact ⟨hv, hval.trans (by rw [M.val_zero, M.val_one, zero_add, one_mul])⟩

end

variable [DecidableEq α]

/-! The gcd is the extended gcd without its Bézout coefficients (42_poly.md R158, R159) -/

theorem gcdLoop_eq_gcdxLoop_rem (fuel : Nat) : ∀ prev cur : EuclidRow α,
    gcdLoop K fuel prev.rem cur.rem = (gcdxLoop K fuel prev cur).rem := by
  induction fuel with
  | zero => exact fun _ _ => rfl
  | succ fuel ih =>
    intro prev cur
    unfold gcdLoop gcdxLoop
    split
    · rfl
    · exact ih cur (euclidNext K prev cur)

/-- What the extended gcd answers is the last nonzero row, scaled. -/
theorem eq_pscale_of_pgcdx {g h d u v : List α} (hx : pgcdx K g h = .ok (d, u, v)) :
    (gcdxCore K g h).rem ≠ [] ∧ d = pscale K (K.inv (lc K (gcdxCore K g h).rem)) (gcdxCore K g h).rem ∧
      u = pscale K (K.inv (lc K (gcdxCore K g h).rem)) (gcdxCore K g h).left ∧
      v = pscale K (K.inv (lc K (gcdxCore K g h).rem)) (gcdxCore K g h).right := by
  unfold pgcdx at hx
  dsimp only at hx
  split at hx
  · cases hx
  · next h0 => cases hx; exact ⟨h0, rfl, rfl, rfl⟩

theorem pgcd_of_pgcdx {g h d u v : List α} (hx : pgcdx K g h = .ok (d, u, v)) : pgcd K g h = .ok d := by
  have he : gcdLoop K (h.length + 1) g h = (gcdxCore K g h).rem :=
    gcdLoop_eq_gcdxLoop_rem _ ⟨g, [K.one], []⟩ ⟨h, [], [K.one]⟩
  obtain ⟨h0, rfl, -, -⟩ := eq_pscale_of_pgcdx hx
  unfold pgcd
  rw [he]
  exact if_neg h0

/-! The Bézout coefficients fit where the operands do (42_poly.md R159) -/

/-- The lengths of one Bézout coefficient `side` of two successive rows: each fits N, and leaves room for the remainder of the
other row. -/
structure SideFits (N : Nat) (side : EuclidRow α → List α) (prev cur : EuclidRow α) : Prop where
  prev_le : (side prev).length ≤ N
  cur_le : (side cur).length ≤ N
  prev_room : (side prev).length + cur.rem.length ≤ N + 1
  cur_room : (side cur).length + prev.rem.length ≤ N + 1

/-- A coefficient of a row made by the recurrence, like `left` and `right` (R159). -/
def IsSide (K : FieldOps α) (side : EuclidRow α → List α) : Prop :=
  ∀ prev cur, side (euclidNext K prev cur) = psub K (side prev) (pmul K (divCore K prev.rem cur.rem).1 (side cur))

theorem sideFits_euclidNext {N : Nat} {side : EuclidRow α → List α} (hside : IsSide K side) {prev cur : EuclidRow α}
    (h : SideFits N side prev cur) (hne : cur.rem ≠ []) : SideFits N side cur (euclidNext K prev cur) := by
  have hpos := List.length_pos_iff.2 hne
  have hrem : (euclidNext K prev cur).rem.length ≤ prev.rem.length :=
    divCore_remainder_length_le_dividend K prev.rem cur.rem
  have hcur := h.cur_room
  have hroom : (side (euclidNext K prev cur)).length + cur.rem.length ≤ N + 1 := by
    have hprev := h.prev_room
    have hsub := psub_length_le K (side prev) (pmul K (divCore K prev.rem cur.rem).1 (side cur))
    have hmul := pmul_length_le K (divCore K prev.rem cur.rem).1 (side cur)
    have hq := divCore_quotient_length_le K prev.rem cur.rem
    rw [hside]
    by_cases hq0 : (divCore K prev.rem cur.rem).1 = []
    · rw [hq0, pmul_nil_left, List.length_nil] at hsub
      rw [hq0, pmul_nil_left]
      omega
    · have := List.length_pos_iff.2 hq0
      omega
  exact ⟨h.cur_le, by omega, by omega, hroom⟩

theorem sideFits_gcdxLoop {N : Nat} {side : EuclidRow α → List α} (hside : IsSide K side) (fuel : Nat) :
    ∀ {prev cur : EuclidRow α}, SideFits N side prev cur → (side (gcdxLoop K fuel prev cur)).length ≤ N := by
  induction fuel with
  | zero => exact fun h => h.prev_le
  | succ fuel ih =>
    intro prev cur h
    unfold gcdxLoop
    split
    · exact h.prev_le
    · next hne => exact ih (sideFits_euclidNext hside h hne)

theorem pgcdx_length_le {N : Nat} (hN : 1 ≤ N) {g h d u v : List α} (hg : g.length ≤ N) (hh : h.length ≤ N)
    (hx : pgcdx K g h = .ok (d, u, v)) : d.length ≤ N ∧ u.length ≤ N ∧ v.length ≤ N := by
  have hd := pgcd_length_le K hg hh (pgcd_of_pgcdx hx)
  have hu : (gcdxCore K g h).left.length ≤ N :=
    sideFits_gcdxLoop (K := K) (side := EuclidRow.left) (fun _ _ => rfl) _
      ⟨hN, Nat.zero_le _, by simpa [add_comm] using hh, by simpa using hg.trans (Nat.le_succ N)⟩
  have hv : (gcdxCore K g h).right.length ≤ N :=
    sideFits_gcdxLoop (K := K) (side := EuclidRow.right) (fun _ _ => rfl) _
      ⟨Nat.zero_le _, hN, by simpa using hh.trans (Nat.le_succ N), by simpa [add_comm] using hg⟩
  obtain ⟨-, -, rfl, rfl⟩ := eq_pscale_of_pgcdx hx
  exact ⟨hd, (pscale_length_le K _ _).trans hu, (pscale_length_le K _ _).trans hv⟩

/-! Lagrange's basis polynomials (42_poly.md R161) -/

/-- Π (X − x) over the points x of the list. -/
noncomputable def nodal (val : α → R) (l : List α) : R[X] := (l.map fun x => X - C (val x)).prod

omit [DecidableEq α] in
theorem nodal_eval (l : List α) (x : R) : (nodal val l).eval x = (l.map fun a => x - val a).prod := by
  rw [nodal, eval_list_prod, List.map_map]
  simp only [Function.comp_def, eval_sub, eval_X, eval_C]

section
include M

/-- The basis polynomial is the product over the other points, and its denominator is the value of that product at xi. -/
theorem ComputesIn.basisLoop_spec {xi : α} (hxi : Valid xi) {l : List α} (hl : ∀ x ∈ l, Valid x) : ∀ {basis den},
    IsPoly K Valid basis → Valid den →
    IsPoly K Valid (basisLoop K xi l basis den).1 ∧ Valid (basisLoop K xi l basis den).2 ∧
      polyOf val (basisLoop K xi l basis den).1 = polyOf val basis * nodal val l ∧
      val (basisLoop K xi l basis den).2 = val den * (nodal val l).eval (val xi) := by
  induction l with
  | nil => intro basis den hb hd; simp [basisLoop, hb, hd, nodal]
  | cons x l ih =>
    intro basis den hb hd
    obtain ⟨hx, hl⟩ := List.forall_mem_cons.1 hl
    have hfactor : ∀ c ∈ [K.neg x, K.one], Valid c := by simp [M.valid_neg hx, M.valid_one]
    have hsub : Valid (K.sub xi x) := M.valid_add hxi (M.valid_neg hx)
    obtain ⟨hm, hmval⟩ := M.pmul_spec hb.valid hfactor
    obtain ⟨h1, h2, h3, h4⟩ := ih hl hm (M.valid_mul hd hsub)
    refine ⟨h1, h2, h3.trans ?_, h4.trans ?_⟩
    · simp only [hmval, polyOf_cons, polyOf_nil, M.val_neg hx, M.val_one, nodal, List.map_cons, List.prod_cons, map_neg, map_one]
      ring
    · rw [M.val_mul hd hsub, FieldOps.sub, M.val_add hxi (M.valid_neg hx), M.val_neg hx, nodal_eval, nodal_eval,
        List.map_cons, List.prod_cons, sub_eq_add_neg]
      ring

end

end

section
open Polynomial

variable {α R : Type} [Field R] {K : FieldOps α} {Valid : α → Prop} {val : α → R}
  (M : ComputesIn K Valid val) (hinv : ∀ a, Valid a → a ≠ K.zero → Inverts K Valid val a)

/-! Interpolation (42_poly.md R161) -/

/-- The term of Lagrange's formula for the point with index i. -/
noncomputable def lagrangeTerm (K : FieldOps α) (val : α → R) (xs ys : List α) (i : Nat) : R[X] :=
  C (val (coef K ys i) * ((nodal val (xs.eraseIdx i)).eval (val (coef K xs i)))⁻¹) * nodal val (xs.eraseIdx i)

section
include M

theorem ComputesIn.nodal_eval_ne_zero {xs : List α} (hxs : ∀ x ∈ xs, Valid x) (hnd : xs.Nodup) {i : Nat} (hi : i < xs.length) :
    (nodal val (xs.eraseIdx i)).eval (val (coef K xs i)) ≠ 0 := by
  rw [nodal_eval, coef_of_lt K xs i hi]
  refine List.prod_ne_zero fun h0 => ?_
  obtain ⟨x, hx, he⟩ := List.mem_map.1 h0
  obtain ⟨j, hj, hne, rfl⟩ := List.mem_eraseIdx_iff_getElem.1 hx
  have hval := M.val_inj (hxs _ (List.getElem_mem hi)) (hxs _ (List.getElem_mem hj)) (sub_eq_zero.1 he)
  exact hne (hnd.getElem_inj_iff.1 hval).symm

omit M in
/-- The term of a point vanishes at every other point. -/
theorem lagrangeTerm_eval_of_ne (xs ys : List α) {i j : Nat} (hj : j < xs.length) (hne : j ≠ i) :
    (lagrangeTerm K val xs ys i).eval (val (coef K xs j)) = 0 := by
  have hmem : xs[j] ∈ xs.eraseIdx i := List.mem_eraseIdx_iff_getElem.2 ⟨j, hj, hne, rfl⟩
  have hz : (nodal val (xs.eraseIdx i)).eval (val (coef K xs j)) = 0 := by
    rw [nodal_eval, coef_of_lt K xs j hj]
    exact List.prod_eq_zero (List.mem_map.2 ⟨_, hmem, sub_self _⟩)
  rw [lagrangeTerm, eval_mul, hz, mul_zero]

theorem ComputesIn.lagrangeTerm_eval_self {xs : List α} (hxs : ∀ x ∈ xs, Valid x) (ys : List α) (hnd : xs.Nodup) {i : Nat}
    (hi : i < xs.length) : (lagrangeTerm K val xs ys i).eval (val (coef K xs i)) = val (coef K ys i) := by
  rw [lagrangeTerm, eval_mul, eval_C, inv_mul_cancel_right₀ (M.nodal_eval_ne_zero hxs hnd hi)]

variable [DecidableEq α]
include hinv

/-- With distinct points no denominator is 0K, and the loop adds the terms of its indices. -/
theorem ComputesIn.interpLoop_spec {xs ys : List α} (hxs : ∀ x ∈ xs, Valid x) (hys : ∀ y ∈ ys, Valid y) (hnd : xs.Nodup)
    {l : List Nat} (hl : ∀ i ∈ l, i < xs.length) : ∀ {res}, IsPoly K Valid res →
    ∃ g, interpLoop K xs ys l res = .ok g ∧ IsPoly K Valid g ∧
      polyOf val g = polyOf val res + (l.map (lagrangeTerm K val xs ys)).sum := by
  induction l with
  | nil => exact fun {res} hres => ⟨res, rfl, hres, by simp⟩
  | cons i l ih =>
    intro res hres
    obtain ⟨hi, hl⟩ := List.forall_mem_cons.1 hl
    obtain ⟨h1, h1val⟩ := M.isPoly_one
    obtain ⟨hb, hd, hbval, hdval⟩ := M.basisLoop_spec (M.valid_coef hxs i) (l := xs.eraseIdx i)
      (fun x hx => hxs x (List.mem_of_mem_eraseIdx hx)) h1 M.valid_one
    rw [h1val, one_mul] at hbval
    rw [M.val_one, one_mul] at hdval
    simp only [interpLoop]
    generalize basisLoop K (coef K xs i) (xs.eraseIdx i) [K.one] K.one = bd at hb hd hbval hdval ⊢
    have hne : bd.2 ≠ K.zero := by
      rw [ne_eq, M.eq_zero_iff hd, hdval]; exact M.nodal_eval_ne_zero hxs hnd hi
    obtain ⟨hiv, himul⟩ := hinv _ hd hne
    have hinvval : val (K.inv bd.2) = ((nodal val (xs.eraseIdx i)).eval (val (coef K xs i)))⁻¹ := by
      rw [← hdval]; exact eq_inv_of_mul_eq_one_right himul
    have hc := M.valid_mul (M.valid_coef hys i) hiv
    obtain ⟨hs, hsval⟩ := M.pscale_spec hc hb.valid
    obtain ⟨ha, haval⟩ := M.padd_spec hres.valid hs.valid
    obtain ⟨g, hg, hgp, hgval⟩ := ih hl ha
    rw [invK_of_ne K hne]
    refine ⟨g, hg, hgp, hgval.trans ?_⟩
    rw [haval, hsval, hbval, M.val_mul (M.valid_coef hys i) hiv, hinvval, List.map_cons, List.sum_cons, add_assoc, lagrangeTerm]

/-- Interpolation through distinct points. -/
theorem ComputesIn.pinterp_spec {xs ys : List α} (hxs : ∀ x ∈ xs, Valid x) (hys : ∀ y ∈ ys, Valid y) (hnd : xs.Nodup) :
    ∃ g, pinterp K xs ys = .ok g ∧ IsPoly K Valid g ∧
      ∀ j, j < xs.length → (polyOf val g).eval (val (coef K xs j)) = val (coef K ys j) := by
  obtain ⟨g, hg, hgp, hgval⟩ := M.interpLoop_spec hinv hxs hys hnd (fun i hi => List.mem_range.1 hi) isPoly_nil
  refine ⟨g, hg, hgp, fun j hj => ?_⟩
  have hsum : polyOf val g = ∑ i ∈ Finset.range xs.length, lagrangeTerm K val xs ys i := by
    rw [hgval, polyOf_nil, zero_add]; rfl
  rw [hsum, eval_finsetSum, Finset.sum_eq_single_of_mem j (Finset.mem_range.2 hj)
    fun i _ hne => lagrangeTerm_eval_of_ne xs ys hj hne.symm]
  exact M.lagrangeTerm_eval_self hxs ys hnd hj

end

/-! Degrees (00_scope.md R11) -/

section
include M

theorem ComputesIn.natDegree_polyOf_le (g : List α) : (polyOf val g).natDegree ≤ g.length - 1 :=
  natDegree_le_iff_coeff_eq_zero.2 fun d hd => by rw [M.coeff_polyOf, coef_of_length_le K g d (by omega), M.val_zero]

variable [DecidableEq α]

/-- deg h = len(h) − 1 for a canonical h (00_scope.md R11). -/
theorem ComputesIn.natDegree_polyOf {h : List α} (hh : IsPoly K Valid h) : (polyOf val h).natDegree = h.length - 1 := by
  rcases eq_or_ne h [] with rfl | hne
  · rfl
  refine le_antisymm (M.natDegree_polyOf_le h) (le_natDegree_of_ne_zero ?_)
  rw [M.coeff_length_sub_one, ne_eq, ← M.eq_zero_iff (hh.valid_lc hne)]
  exact hh.lc_ne_zero hne

end

/-! Division, and the monic gcd with its Bézout coefficients (42_poly.md R157 to R159) -/

section
variable [DecidableEq α]
include M hinv

/-- Division with remainder by a nonzero polynomial. -/
theorem ComputesIn.pdivmod_spec {g h : List α} (hg : IsPoly K Valid g) (hh : IsPoly K Valid h) (hne : h ≠ []) :
    ∃ q r, pdivmod K g h = .ok (q, r) ∧ IsPoly K Valid q ∧ IsPoly K Valid r ∧ r.length < h.length ∧
      polyOf val q * polyOf val h + polyOf val r = polyOf val g :=
  ⟨_, _, pdivmod_of_ne K hne, M.divCore_spec hg hh hne (hinv _ (hh.valid_lc hne) (hh.lc_ne_zero hne))⟩

/-- The polynomial scaled by the inverse of its leading coefficient. -/
theorem ComputesIn.pscale_inv_lc_spec {e : List α} (he : IsPoly K Valid e) (hne : e ≠ []) :
    Valid (K.inv (lc K e)) ∧ IsPoly K Valid (pscale K (K.inv (lc K e)) e) ∧ IsUnit (C (val (K.inv (lc K e)))) ∧
      (polyOf val (pscale K (K.inv (lc K e)) e)).Monic ∧
      polyOf val (pscale K (K.inv (lc K e)) e) = C (val (K.inv (lc K e))) * polyOf val e := by
  obtain ⟨hcv, hcmul⟩ := hinv _ (he.valid_lc hne) (he.lc_ne_zero hne)
  obtain ⟨hs, hsval⟩ := M.pscale_spec hcv he.valid
  refine ⟨hcv, hs, isUnit_C.2 (isUnit_iff_ne_zero.2 (right_ne_zero_of_mul_eq_one hcmul)), ?_, hsval⟩
  refine monic_of_natDegree_le_of_coeff_eq_one (e.length - 1) ?_ ?_
  · exact (M.natDegree_polyOf_le _).trans (Nat.sub_le_sub_right (pscale_length_le K _ e) 1)
  · rw [hsval, coeff_C_mul, M.coeff_length_sub_one, mul_comm]; exact hcmul

/-- The extended gcd of two polynomials that are not both 0 is monic, a common divisor, and their Bézout combination. -/
theorem ComputesIn.pgcdx_spec {g h : List α} (hg : IsPoly K Valid g) (hh : IsPoly K Valid h) (h0 : g ≠ [] ∨ h ≠ []) :
    ∃ d u v, pgcdx K g h = .ok (d, u, v) ∧ BezoutRow K Valid val g h ⟨d, u, v⟩ ∧ (polyOf val d).Monic ∧
      polyOf val d ∣ polyOf val g ∧ polyOf val d ∣ polyOf val h := by
  obtain ⟨hrow, hdg, hdh⟩ := M.gcdxCore_spec hinv hg hh
  have hne : (gcdxCore K g h).rem ≠ [] := by
    intro he
    rw [he, polyOf_nil, zero_dvd_iff, M.polyOf_eq_zero_iff hg] at hdg
    rw [he, polyOf_nil, zero_dvd_iff, M.polyOf_eq_zero_iff hh] at hdh
    exact h0.elim (· hdg) (· hdh)
  obtain ⟨hcv, hd, hunit, hmonic, hdval⟩ := M.pscale_inv_lc_spec hinv hrow.rem hne
  obtain ⟨hu, huval⟩ := M.pscale_spec hcv hrow.left.valid
  obtain ⟨hv, hvval⟩ := M.pscale_spec hcv hrow.right.valid
  refine ⟨_, _, _, if_neg hne, ⟨hd, hu, hv, ?_⟩, hmonic, ?_, ?_⟩
  · rw [huval, hvval, hdval, ← hrow.bezout]; ring
  · rw [hdval, hunit.mul_left_dvd]; exact hdg
  · rw [hdval, hunit.mul_left_dvd]; exact hdh

end

/-! Powers modulo h (42_poly.md R162, R163) -/

section
variable [DecidableEq α] {h : List α} (hh : IsPoly K Valid h) (hne : h ≠ [])
include M hinv hh hne

/-- A remainder by h: canonical, shorter than h, and congruent to the dividend modulo h. -/
theorem ComputesIn.rem_spec {g : List α} (hg : IsPoly K Valid g) :
    IsPoly K Valid (divCore K g h).2 ∧ (divCore K g h).2.length < h.length ∧
      AdjoinRoot.mk (polyOf val h) (polyOf val (divCore K g h).2) = AdjoinRoot.mk (polyOf val h) (polyOf val g) := by
  obtain ⟨-, hr, hlt, heq⟩ := M.divCore_spec hg hh hne (hinv _ (hh.valid_lc hne) (hh.lc_ne_zero hne))
  refine ⟨hr, hlt, ?_⟩
  rw [← heq, map_add, map_mul, AdjoinRoot.mk_self, mul_zero, zero_add]

theorem ComputesIn.rem_eq_nil_iff {g : List α} (hg : IsPoly K Valid g) :
    (divCore K g h).2 = [] ↔ polyOf val h ∣ polyOf val g := by
  obtain ⟨hr, hlt, hval⟩ := M.rem_spec hinv hh hne hg
  rw [← AdjoinRoot.mk_eq_zero, ← hval, AdjoinRoot.mk_eq_zero, ← M.polyOf_eq_zero_iff hr]
  exact ⟨fun h0 => h0 ▸ dvd_zero _, fun hd => eq_zero_of_dvd_of_degree_lt hd (M.degree_lt_degree hr hh hlt)⟩

/-- The remainder of a product. -/
theorem ComputesIn.mulmod_spec {a b : List α} (ha : IsPoly K Valid a) (hb : IsPoly K Valid b) :
    IsPoly K Valid (divCore K (pmul K a b) h).2 ∧ (divCore K (pmul K a b) h).2.length < h.length ∧
      AdjoinRoot.mk (polyOf val h) (polyOf val (divCore K (pmul K a b) h).2) =
        AdjoinRoot.mk (polyOf val h) (polyOf val a) * AdjoinRoot.mk (polyOf val h) (polyOf val b) := by
  obtain ⟨hm, hmval⟩ := M.pmul_spec ha.valid hb.valid
  obtain ⟨hr, hlt, hval⟩ := M.rem_spec hinv hh hne hm
  exact ⟨hr, hlt, by rw [hval, hmval, map_mul]⟩

/-- The loop multiplies r by b^e modulo h. -/
theorem ComputesIn.powmodLoop_spec (fuel : Nat) : ∀ {e : Nat} {r b : List α}, e < 2 ^ fuel → IsPoly K Valid r →
    r.length < h.length → IsPoly K Valid b →
    IsPoly K Valid (powmodLoop K h fuel e r b) ∧ (powmodLoop K h fuel e r b).length < h.length ∧
      AdjoinRoot.mk (polyOf val h) (polyOf val (powmodLoop K h fuel e r b)) =
        AdjoinRoot.mk (polyOf val h) (polyOf val r) * AdjoinRoot.mk (polyOf val h) (polyOf val b) ^ e := by
  induction fuel with
  | zero =>
    intro e r b he hr hlt _
    obtain rfl : e = 0 := by omega
    exact ⟨hr, hlt, by rw [pow_zero, mul_one]; rfl⟩
  | succ fuel ih =>
    intro e r b he hr hlt hb
    unfold powmodLoop
    split
    · next h0 => subst h0; exact ⟨hr, hlt, by rw [pow_zero, mul_one]⟩
    · obtain ⟨hbb, -, hbbval⟩ := M.mulmod_spec hinv hh hne hb hb
      have hhalf : e / 2 < 2 ^ fuel := by omega
      have hdm := Nat.div_add_mod e 2
      split
      · next h1 =>
        obtain ⟨hrb, hrblt, hrbval⟩ := M.mulmod_spec hinv hh hne hr hb
        obtain ⟨hp, hplt, hpval⟩ := ih hhalf hrb hrblt hbb
        refine ⟨hp, hplt, hpval.trans ?_⟩
        rw [h1] at hdm
        rw [hrbval, hbbval, ← pow_two, ← pow_mul, mul_assoc, ← pow_succ', hdm]
      · next h1 =>
        obtain ⟨hp, hplt, hpval⟩ := ih hhalf hr hlt hbb
        refine ⟨hp, hplt, hpval.trans ?_⟩
        rw [hbbval, ← pow_two, ← pow_mul, show 2 * (e / 2) = e by omega]

theorem ComputesIn.powmodCore_spec {g : List α} (hg : IsPoly K Valid g) (e : Nat) :
    IsPoly K Valid (powmodCore K g e h) ∧ (powmodCore K g e h).length < h.length ∧
      AdjoinRoot.mk (polyOf val h) (polyOf val (powmodCore K g e h)) =
        AdjoinRoot.mk (polyOf val h) (polyOf val g) ^ e := by
  obtain ⟨h1, h1val⟩ := M.isPoly_one
  obtain ⟨hr, hrlt, hrval⟩ := M.rem_spec hinv hh hne h1
  obtain ⟨hb, -, hbval⟩ := M.rem_spec hinv hh hne hg
  obtain ⟨hp, hplt, hpval⟩ := M.powmodLoop_spec hinv hh hne (e.log2 + 1) (e := e) Nat.lt_log2_self hr hrlt hb
  exact ⟨hp, hplt, hpval.trans (by rw [hrval, hbval, h1val, map_one, one_mul])⟩

omit hinv hh hne in
theorem ComputesIn.polyX_spec : IsPoly K Valid (polyX K) ∧ polyOf val (polyX K) = X := by
  have hone : K.one ≠ K.zero := fun h => one_ne_zero (M.val_one.symm.trans ((M.eq_zero_iff M.valid_one).1 h))
  refine ⟨⟨by simp [polyX, M.valid_zero, M.valid_one], by simp [polyX, trim_cons, hone]⟩, ?_⟩
  simp [polyX, M.val_zero, M.val_one]

/-- frob(h, j) is x^(q^j) modulo h. -/
theorem ComputesIn.frob_spec (q j : Nat) : IsPoly K Valid (frob K q h j) ∧
    AdjoinRoot.mk (polyOf val h) (polyOf val (frob K q h j)) = AdjoinRoot.mk (polyOf val h) X ^ q ^ j := by
  induction j with
  | zero =>
    obtain ⟨hx, hxval⟩ := M.polyX_spec
    obtain ⟨hr, -, hrval⟩ := M.rem_spec hinv hh hne hx
    exact ⟨hr, hrval.trans (by rw [hxval, pow_zero, pow_one])⟩
  | succ j ih =>
    obtain ⟨hp, -, hpval⟩ := M.powmodCore_spec hinv hh hne ih.1 q
    exact ⟨hp, hpval.trans (by rw [ih.2, ← pow_mul, pow_succ])⟩

/-- frob(h, j) − x is x^(q^j) − x modulo h. -/
theorem ComputesIn.frob_sub_polyX_spec (q j : Nat) : IsPoly K Valid (psub K (frob K q h j) (polyX K)) ∧
    polyOf val h ∣ polyOf val (psub K (frob K q h j) (polyX K)) - (X ^ q ^ j - X) := by
  obtain ⟨hx, hxval⟩ := M.polyX_spec
  obtain ⟨hf, hfval⟩ := M.frob_spec hinv hh hne q j
  obtain ⟨hs, hsval⟩ := M.psub_spec hf.valid hx.valid
  refine ⟨hs, ?_⟩
  rw [hsval, hxval, sub_sub_sub_cancel_right, ← AdjoinRoot.mk_eq_mk, map_pow]
  exact hfval

end

/-! Rabin's test (42_poly.md R164) -/

theorem isPrimeNat_iff (r : Nat) : isPrimeNat r = true ↔ r.Prime := by
  rw [Nat.prime_def_lt', isPrimeNat, Bool.and_eq_true, decide_eq_true_eq, List.all_eq_true]
  refine and_congr_right fun _ => forall_congr' fun k => ?_
  simp only [List.mem_range, Bool.or_eq_true, decide_eq_true_eq, bne_iff_ne, ne_eq, Nat.dvd_iff_mod_eq_zero]
  omega

theorem mem_primeDivisors_iff {D : Nat} (hD : 1 ≤ D) (r : Nat) : r ∈ primeDivisors D ↔ r.Prime ∧ r ∣ D := by
  rw [primeDivisors, List.mem_filter, List.mem_range, Bool.and_eq_true, isPrimeNat_iff, beq_iff_eq, Nat.dvd_iff_mod_eq_zero]
  exact ⟨fun h => h.2, fun h => ⟨Nat.lt_succ_of_le (Nat.le_of_dvd hD (Nat.dvd_of_mod_eq_zero h.2)), h⟩⟩

/-- A proper divisor m of D divides D/r for a prime divisor r of D. -/
theorem exists_prime_dvd_div {m D : Nat} (hD : D ≠ 0) (hm : m ∣ D) (hne : m ≠ D) : ∃ r, r.Prime ∧ r ∣ D ∧ m ∣ D / r := by
  obtain ⟨c, rfl⟩ := hm
  obtain ⟨r, hr, c, rfl⟩ := Nat.exists_prime_and_dvd (n := c) (by rintro rfl; exact hne (mul_one m).symm)
  have hdiv : m * (r * c) = r * (m * c) := by ring
  exact ⟨r, hr, ⟨_, hdiv⟩, by rw [hdiv, Nat.mul_div_cancel_left _ hr.pos]; exact dvd_mul_right m c⟩

/-- H and x^(q^n) − x have no common factor but units. -/
def NoCommonFactor {k : Type} [Field k] (H : k[X]) (q n : Nat) : Prop :=
  ∀ Q, Q ∣ H → Q ∣ X ^ q ^ n - X → IsUnit Q

/-- Rabin's criterion over the field k of q elements: the irreducible polynomials whose degree divides n are the irreducible
factors of x^(q^n) − x. -/
theorem irreducible_iff_rabin {k : Type} [Field k] [Finite k] {H : k[X]} (hD : H.natDegree ≠ 0) :
    Irreducible H ↔ H ∣ X ^ Nat.card k ^ H.natDegree - X ∧
      ∀ r : Nat, r.Prime → r ∣ H.natDegree → NoCommonFactor H (Nat.card k) (H.natDegree / r) := by
  constructor
  · intro hirr
    refine ⟨hirr.natDegree_dvd_iff_dvd_X_pow_card_pow_sub_X.1 dvd_rfl, fun r hr hrD Q hQ hQx => ?_⟩
    refine (hirr.dvd_iff.1 hQ).resolve_right fun hass => ?_
    -- Otherwise H divides x^(q^(D/r)) − x, so D divides D/r, which is smaller.
    have hdvd : H.natDegree ∣ H.natDegree / r :=
      hirr.natDegree_dvd_iff_dvd_X_pow_card_pow_sub_X.2 (hass.dvd.trans hQx)
    have hlt : H.natDegree / r < H.natDegree := Nat.div_lt_self (Nat.pos_of_ne_zero hD) hr.one_lt
    have hpos : 0 < H.natDegree / r := Nat.div_pos (Nat.le_of_dvd (Nat.pos_of_ne_zero hD) hrD) hr.pos
    exact absurd (Nat.le_of_dvd hpos hdvd) (not_le.2 hlt)
  · rintro ⟨hH, hcop⟩
    obtain ⟨Q, hQ, hQH⟩ := exists_irreducible_of_natDegree_ne_zero hD
    have hdvd : Q.natDegree ∣ H.natDegree := hQ.natDegree_dvd_iff_dvd_X_pow_card_pow_sub_X.2 (hQH.trans hH)
    have hdeg : Q.natDegree = H.natDegree := by
      by_contra hne
      obtain ⟨r, hr, hrD, hQr⟩ := exists_prime_dvd_div hD hdvd hne
      exact hQ.not_isUnit (hcop r hr hrD Q hQH (hQ.natDegree_dvd_iff_dvd_X_pow_card_pow_sub_X.1 hQr))
    have hH0 : H ≠ 0 := by rintro rfl; exact hD natDegree_zero
    exact (associated_of_dvd_of_natDegree_le hQH hH0 hdeg.ge).irreducible hQ

section
variable [DecidableEq α] {h : List α} (hh : IsPoly K Valid h) (hne : h ≠ [])
include M hinv hh hne

/-- The gcd of the second check is 1K exactly when the two polynomials have no common factor. -/
theorem ComputesIn.rabinUnit_iff (q r : Nat) :
    rabinUnit K q h r = true ↔ NoCommonFactor (polyOf val h) q ((h.length - 1) / r) := by
  obtain ⟨hs, hcong⟩ := M.frob_sub_polyX_spec hinv hh hne q ((h.length - 1) / r)
  obtain ⟨d, u, v, hx, hrow, hmonic, hds, hdh⟩ := M.pgcdx_spec hinv hs hh (.inr hne)
  obtain ⟨h1, h1val⟩ := M.isPoly_one
  have hd1 : d = [K.one] ↔ polyOf val d = 1 :=
    ⟨fun h => h ▸ h1val, fun h => M.polyOf_inj hrow.rem h1 (h.trans h1val.symm)⟩
  rw [rabinUnit, pgcd_of_pgcdx hx]
  dsimp only
  rw [decide_eq_true_eq, hd1]
  constructor
  · intro hone Q hQh hQx
    have hQs := (dvd_iff_dvd_of_dvd_sub (hQh.trans hcong)).2 hQx
    rw [isUnit_iff_dvd_one, ← hone, ← hrow.bezout]
    exact dvd_add (hQs.mul_left _) (hQh.mul_left _)
  · intro hunit
    refine hmonic.isUnit_iff.1 (hunit _ hdh ?_)
    exact (dvd_iff_dvd_of_dvd_sub (hdh.trans hcong)).1 hds

/-- Rabin's test decides irreducibility over the field of q elements. -/
theorem ComputesIn.pirred_spec [Finite R] {q : Nat} (hq : Nat.card R = q) :
    ∃ b, pirred K q h = .ok b ∧ (b = true ↔ Irreducible (polyOf val h)) := by
  have hdeg := M.natDegree_polyOf hh
  unfold pirred
  rw [if_neg hne]
  dsimp only
  by_cases hD : h.length - 1 = 0
  · rw [if_pos hD]
    have hconst : ¬ Irreducible (polyOf val h) := fun hirr => by
      have := hirr.natDegree_pos; omega
    exact ⟨false, rfl, by simp [hconst]⟩
  rw [if_neg hD]
  obtain ⟨hs, hcong⟩ := M.frob_sub_polyX_spec hinv hh hne q (h.length - 1)
  have hrem : (divCore K (psub K (frob K q h (h.length - 1)) (polyX K)) h).2 = [] ↔
      polyOf val h ∣ X ^ q ^ (h.length - 1) - X :=
    (M.rem_eq_nil_iff hinv hh hne hs).trans (dvd_iff_dvd_of_dvd_sub hcong)
  have hall : (primeDivisors (h.length - 1)).all (rabinUnit K q h) = true ↔
      ∀ r : Nat, r.Prime → r ∣ h.length - 1 → NoCommonFactor (polyOf val h) q ((h.length - 1) / r) := by
    simp only [List.all_eq_true, mem_primeDivisors_iff (Nat.pos_of_ne_zero hD), M.rabinUnit_iff hinv hh hne, and_imp]
  have hrabin := irreducible_iff_rabin (H := polyOf val h) (by rwa [hdeg])
  rw [hdeg, hq, ← hrem, ← hall] at hrabin
  split
  · next h0 => exact ⟨false, rfl, by simp [hrabin, h0]⟩
  · next h0 => exact ⟨_, rfl, by simp [hrabin, not_not.1 h0]⟩

end

end

end Sys2Proof.Machine
end

section
/-! PROOFS of the family 42_poly.md, third part: the polynomial unit in Z/pZ, against Mathlib's polynomials over ZMod p
(42_poly.md R150 to R180). -/

namespace Sys2Proof.Machine

/-! The active field Z/pZ (41_field.md R120 to R124) -/

/-- The residue that an element of Z/pZ is. -/
def zpVal (p : Nat) (v : Elem) : ZMod p := elemNat v

@[simp] theorem zpVal_natElem (p n : Nat) : zpVal p (natElem n) = n := by rw [zpVal, elemNat_natElem]

theorem zp_computesIn {p : Nat} (hp : 2 ≤ p) : ComputesIn (primeOps p) (IsZpElem p) (zpVal p) := primeOps_computesIn hp

/-- With p prime every nonzero element has its inverse (41_field.md R124). -/
theorem zp_inverts {p : Nat} (hp : p.Prime) (a : Elem) (ha : IsZpElem p a) (h0 : a ≠ (primeOps p).zero) :
    Inverts (primeOps p) (IsZpElem p) (zpVal p) a := by
  obtain ⟨n, hn, rfl⟩ := ha
  have hn0 : n ≠ 0 := by rintro rfl; exact h0 rfl
  have hcop : Nat.Coprime p n := hp.coprime_iff_not_dvd.2 (Nat.not_dvd_of_pos_of_lt (Nat.pos_of_ne_zero hn0) hn)
  obtain ⟨hinv, hlt, hmul⟩ := zpInv_natElem hp.two_le hn hcop
  rw [Inverts, show (primeOps p).inv = zpInv p from rfl, hinv]
  refine ⟨isZpElem_natElem hlt, ?_⟩
  rw [zpVal_natElem, zpVal_natElem, ← Nat.cast_mul, ← ZMod.natCast_mod, hmul, Nat.cast_one]

theorem card_of_inZp {s : State} (hz : InZp s) : s.fieldCtx.card = Nat.card (ZMod s.prime.toNat) := by
  rw [fieldCtx_of_inZp hz, Nat.card_zmod]; exact pow_one _

/-! The operands (10_state.md R43, R45, R46) -/

theorem polyOf_map_natElem (p : Nat) (g : List Nat) : polyOf (zpVal p) (g.map natElem) = zpPoly p g := by
  rw [zpPoly_eq_polyOf]
  induction g with
  | nil => rfl
  | cons c g ih => rw [List.map_cons, polyOf_cons, polyOf_cons, ih, zpVal_natElem]

theorem isZpElem_map_natElem {p : Nat} {g : List Nat} (hg : AllBelow p g) : ∀ c ∈ g.map natElem, IsZpElem p c := by
  intro c hc
  obtain ⟨n, hn, rfl⟩ := List.mem_map.1 hc
  exact isZpElem_natElem (hg n hn)

theorem zpVal_coef_map_natElem (p : Nat) (xs : List Nat) (j : Nat) :
    zpVal p (coef (primeOps p) (xs.map natElem) j) = (xs.getD j 0 : Nat) := by
  have h : coef (primeOps p) (xs.map natElem) j = natElem (xs.getD j 0) := by
    simp only [coef, List.getD_eq_getElem?_getD, List.getElem?_map]
    cases xs[j]? <;> rfl
  rw [h, zpVal_natElem]

/-- Reading P[r] in Z/pZ gives the polynomial of its coefficients, in canonical form. -/
theorem exists_readP_of_zpInput {s : State} (hz : InZp s) {r : PReg} {g : List Nat} (h : ZpInput s r g) :
    ∃ G, s.readP s.fieldCtx r = .ok G ∧ IsPoly (primeOps s.prime.toNat) (IsZpElem s.prime.toNat) G ∧ G.length ≤ g.length ∧
      polyOf (zpVal s.prime.toNat) G = zpPoly s.prime.toNat g := by
  refine ⟨_, readP_of_zpInput hz h, ?_⟩
  rw [ops_of_inZp hz]
  obtain ⟨-, -, hb⟩ := h
  refine ⟨isPoly_trim (isZpElem_map_natElem hb), (trim_length_le _ _).trans_eq (List.length_map _), ?_⟩
  rw [(zp_computesIn hz.2).polyOf_trim, polyOf_map_natElem]

/-- Reading a run of slots that hold integers of Z/pZ. -/
theorem readSlots_of_slotsAre {s : State} (hz : InZp s) {slot : Nat → Nat} {a : Nat} (hslot : ∀ j, slot j = a + 64 * j)
    {xs : List Nat} (h : SlotsAre s a xs) (hb : AllBelow s.prime.toNat xs) :
    mapRaise (fun j => s.readSlot s.fieldCtx (slot j)) (List.range xs.length) = .ok (xs.map natElem) := by
  have hread : ∀ j ∈ List.range xs.length, s.readSlot s.fieldCtx (slot j) = .ok (natElem (xs.getD j 0)) := by
    intro j hj
    have hj := List.mem_range.1 hj
    have hint := h j hj
    rw [hslot, ← slotElem_of_isInt hz hint]
    refine readSlot_of_reduced (configOk_of_inZp hz) (reducedSlot_of_isInt hz hint ?_)
    rw [List.getD_eq_getElem _ _ hj]; exact hb _ (List.getElem_mem hj)
  rw [mapRaise_of_forall hread]
  congr 1
  apply List.ext_getElem (by simp)
  intro j hj _
  rw [List.length_map, List.length_range] at hj
  rw [List.getElem_map, List.getElem_range, List.getElem_map, List.getD_eq_getElem _ _ hj]

theorem readA_of_zpPoints {s : State} (hz : InZp s) {xs : List Nat} (h : ZpPoints s xs) :
    s.readA s.fieldCtx s.nlen.toNat = .ok (xs.map natElem) := by
  obtain ⟨-, hlen, hxs, hb⟩ := h
  rw [← hlen]
  exact readSlots_of_slotsAre hz (fun j => by unfold aAddr; omega) hxs hb

theorem readW_of_zpWord {s : State} (hz : InZp s) {ys : List Nat} (h : ZpWord s ys) :
    s.readW s.fieldCtx s.nlen.toNat = .ok (ys.map natElem) := by
  obtain ⟨-, hlen, hys, hb⟩ := h
  rw [← hlen]
  exact readSlots_of_slotsAre hz (fun j => by unfold wAddr; omega) hys hb

theorem natElem_injective : Function.Injective natElem :=
  Function.LeftInverse.injective elemNat_natElem

/-! The destinations (10_state.md R44; 42_poly.md R150) -/

theorem map_natElem_elemNat {p : Nat} {G : Poly} (hG : ∀ c ∈ G, IsZpElem p c) : (G.map elemNat).map natElem = G := by
  rw [List.map_map]
  refine (List.map_congr_left fun c hc => ?_).trans (List.map_id G)
  obtain ⟨n, -, rfl⟩ := hG c hc
  exact congrArg natElem (elemNat_natElem n)

/-- A register that holds the integers of a canonical polynomial holds its canonical form. -/
theorem zpOutput_of_polyIs {t : State} {d : PReg} {p : Nat} (hp : 2 ≤ p) {G : Poly}
    (hG : IsPoly (primeOps p) (IsZpElem p) G) (h : PolyIs t d (G.map elemNat)) : ZpOutput t d p (polyOf (zpVal p) G) := by
  have M := zp_computesIn hp
  refine ⟨G.map elemNat, h, fun n hn => ?_, fun hlast => ?_, ?_⟩
  · obtain ⟨c, hc, rfl⟩ := List.mem_map.1 hn
    obtain ⟨m, hm, rfl⟩ := hG.valid c hc
    rwa [elemNat_natElem]
  · have hne : G ≠ [] := by rintro rfl; cases hlast
    refine hG.lc_ne_zero hne ((M.eq_zero_iff (hG.valid_lc hne)).2 ?_)
    rw [List.getLast?_map, Option.map_eq_some_iff] at hlast
    obtain ⟨c, hc, h0⟩ := hlast
    rw [lc, List.getLastD_eq_getLast?, hc, Option.getD_some, zpVal, h0, Nat.cast_zero]
  · rw [← polyOf_map_natElem, map_natElem_elemNat hG.valid]

theorem polyIs_writeP_same {s : State} (d : PReg) {G : Poly}
    (hG : IsPoly (primeOps s.prime.toNat) (IsZpElem s.prime.toNat) G) (hl : G.length ≤ 512) :
    PolyIs (s.writeP d G) d (G.map elemNat) := by
  have h := polyIs_writeP s d (g := G.map elemNat) (by rwa [List.length_map]) fun n hn => by
    obtain ⟨c, hc, rfl⟩ := List.mem_map.1 hn
    obtain ⟨m, hm, rfl⟩ := hG.valid c hc
    rw [elemNat_natElem]; exact hm.trans s.prime.isLt
  rwa [map_natElem_elemNat hG.valid] at h

/-- Writing another register changes no coefficient of P[d]. -/
theorem polyIs_writeP_ne {s : State} {d d2 : PReg} {r : List Nat} (h : PolyIs s d r) (hr : r.length ≤ 512) (hd : d ≠ d2)
    {G : Poly} (hl : G.length ≤ 512) : PolyIs (s.writeP d2 G) d r := by
  refine ⟨by rw [plen_writeP_ne s G hd]; exact h.1, fun c hc => IsInt.congr (h.2 c hc) ?_⟩
  have hne := Fin.val_ne_of_ne hd
  have hlt := d.isLt
  refine State.slotDigits_writeP_out s d2 G hl _ ?_ ?_
  · unfold pcAddr; omega
  · unfold pcAddr pcSize; omega

theorem polyIs_complete {s : State} {d : PReg} {r : List Nat} (h : PolyIs s d r) (c : ErrCode) : PolyIs (s.complete c) d r :=
  ⟨h.1, fun i hi => IsInt.congr (h.2 i hi) (slotDigits_complete s c _)⟩

theorem completed_writeP (s : State) (d : PReg) (g : Poly) : Completed s ((s.writeP d g).complete .ok) .ok :=
  ⟨rfl, rfl, rfl, rfl, rfl, rfl⟩

/-- A command that wrote G to P[d] has completed with OK and P[d] holds G. -/
theorem exists_zpOutput_of_exec {i : Instr} {s : State} (hz : InZp s) {d : PReg} {G : Poly}
    (hG : IsPoly (primeOps s.prime.toNat) (IsZpElem s.prime.toNat) G) (hl : G.length ≤ 512)
    (h : exec i s = finish s (polyResult d (.ok G))) :
    ∃ t, exec i s = .next t ∧ Completed s t .ok ∧ ZpOutput t d s.prime.toNat (polyOf (zpVal s.prime.toNat) G) :=
  ⟨_, h.trans (finish_polyResult_ok s d hl), completed_writeP s d G,
    zpOutput_of_polyIs hz.2 hG (polyIs_complete (polyIs_writeP_same d hG hl) .ok)⟩

/-! Sums, negations and products (42_poly.md R151, R152) -/

/-- Settles O32: the results of the three functions are canonical and have the values of Mathlib's operations. -/
theorem paddPnegPmulInZp : Obligations.PaddPnegPmulInZp := by
  intro s d s1 s2 g h hz hg hh
  have M := zp_computesIn hz.2
  have hF := field_of_configOk (configOk_of_inZp hz)
  obtain ⟨G, hrg, hG, hGl, hGval⟩ := exists_readP_of_zpInput hz hg
  obtain ⟨H, hrh, hH, hHl, hHval⟩ := exists_readP_of_zpInput hz hh
  have hG512 := readP_length hrg
  have hops := ops_of_inZp hz
  rw [← hGval, ← hHval]
  refine ⟨?_, ?_, fun hl => ?_⟩
  · obtain ⟨hs, hsval⟩ := M.padd_spec hG.valid hH.valid
    rw [← hsval]
    exact exists_zpOutput_of_exec hz hs ((padd_length_le _ G H).trans (max_le hG512 (readP_length hrh)))
      (hops ▸ exec_padd hF hrg hrh)
  · obtain ⟨hn, hnval⟩ := M.pneg_spec hG.valid
    rw [← hnval]
    exact exists_zpOutput_of_exec hz hn ((pneg_length_le _ G).trans hG512) (hops ▸ exec_pneg hF hrg)
  · obtain ⟨hm, hmval⟩ := M.pmul_spec hG.valid hH.valid
    rw [← hmval]
    exact exists_zpOutput_of_exec hz hm ((pmul_length_le _ G H).trans (by omega)) (hops ▸ exec_pmul hF hrg hrh)

/-! Division (42_poly.md R157) -/

/-- Settles O33: the leading coefficient of the divisor has an inverse, so the loop ends with quotient and remainder. -/
theorem pdivInZpIsTheDivisionWithRemainder : Obligations.PdivInZpIsTheDivisionWithRemainder := by
  intro s d d2 s1 s2 g h hz hprime hd hg hh h0
  have M := zp_computesIn hz.2
  have hF := field_of_configOk (configOk_of_inZp hz)
  obtain ⟨G, hrg, hG, -, hGval⟩ := exists_readP_of_zpInput hz hg
  obtain ⟨H, hrh, hH, -, hHval⟩ := exists_readP_of_zpInput hz hh
  rw [← hHval, ne_eq, M.polyOf_eq_zero_iff hH] at h0
  rw [← hGval, ← hHval]
  have : Fact s.prime.toNat.Prime := ⟨hprime⟩
  obtain ⟨Q, R, hx, hQ, hR, hlt, heq⟩ := M.pdivmod_spec (zp_inverts hprime) hG hH h0
  obtain ⟨hQl, hRl⟩ := pdivmod_length_le _ hx
  have hQl := hQl.trans (readP_length hrg)
  have hRl := hRl.trans (readP_length hrg)
  rw [← ops_of_inZp hz] at hx
  have hQt := polyIs_complete (polyIs_writeP_ne (polyIs_writeP_same d hQ hQl) (by rwa [List.length_map]) hd hRl) .ok
  have hRt := polyIs_complete (polyIs_writeP_same (s := s.writeP d Q) d2 hR hRl) .ok
  exact ⟨_, _, _, exec_pdiv_of_ok hF hrg hrh hd hx hQl hRl, ⟨rfl, rfl, rfl, rfl, rfl, rfl⟩, zpOutput_of_polyIs hz.2 hQ hQt,
    zpOutput_of_polyIs hz.2 hR hRt, heq.symm, M.degree_lt_degree hR hH hlt⟩

/-! The gcd (42_poly.md R158, R159) -/

/-- Settles O34: the last nonzero row of the extended Euclidean algorithm, made monic; its coefficients fit. -/
theorem pgcdxInZpGivesBezout : Obligations.PgcdxInZpGivesBezout := by
  intro s d d2 d3 s1 s2 g h hz hprime hd hd3 hd23 hg hh
  have : Fact s.prime.toNat.Prime := ⟨hprime⟩
  have M := zp_computesIn hz.2
  have hF := field_of_configOk (configOk_of_inZp hz)
  obtain ⟨G, hrg, hG, -, hGval⟩ := exists_readP_of_zpInput hz hg
  obtain ⟨H, hrh, hH, -, hHval⟩ := exists_readP_of_zpInput hz hh
  rw [← hGval, ← hHval, M.polyOf_eq_zero_iff hG, ne_eq, M.polyOf_eq_zero_iff hG, M.polyOf_eq_zero_iff hH, ne_eq,
    M.polyOf_eq_zero_iff hH]
  constructor
  · intro h0
    obtain ⟨D, U, V, hx, ⟨hD, hU, hV, hbez⟩, hmonic, hdg, hdh⟩ := M.pgcdx_spec (zp_inverts hprime) hG hH h0
    obtain ⟨hDl, hUl, hVl⟩ := pgcdx_length_le (by norm_num) (readP_length hrg) (readP_length hrh) hx
    have hx' : pgcdx s.fieldCtx.ops G H = .ok (D, U, V) := by rwa [ops_of_inZp hz]
    have hgcd : exec (.pgcd d s1 s2) s = finish s (polyResult d (.ok D)) := by
      rw [exec_pgcd hF hrg hrh, pgcd_of_pgcdx hx']
    obtain ⟨t', ht', hc', hD'⟩ := exists_zpOutput_of_exec hz hD hDl hgcd
    have hDt := polyIs_complete (polyIs_writeP_ne (polyIs_writeP_ne (polyIs_writeP_same d hD hDl)
      (by rwa [List.length_map]) hd hUl) (by rwa [List.length_map]) hd3 hVl) .ok
    have hUt := polyIs_complete (polyIs_writeP_ne (polyIs_writeP_same (s := s.writeP d D) d2 hU hUl)
      (by rwa [List.length_map]) hd23 hVl) .ok
    have hVt := polyIs_complete (polyIs_writeP_same (s := (s.writeP d D).writeP d2 U) d3 hV hVl) .ok
    exact ⟨_, t', _, _, _, exec_pgcdx_of_ok hF hrg hrh hd hd3 hd23 hx' hDl hUl hVl, ⟨rfl, rfl, rfl, rfl, rfl, rfl⟩, ht', hc',
      zpOutput_of_polyIs hz.2 hD hDt, zpOutput_of_polyIs hz.2 hU hUt, zpOutput_of_polyIs hz.2 hV hVt, hD', hmonic, hbez.symm,
      hdg, hdh⟩
  · rintro rfl rfl
    obtain ⟨-, -, -, -, hgcd, hgcdx, -⟩ := divisionCommandsComplete s s.fieldCtx d d2 d3 s1 s2 [] [] hF hrg hrh
    exact ⟨hgcdx hd hd3 hd23 rfl rfl, hgcd rfl rfl⟩

/-! Evaluation and interpolation (42_poly.md R160, R161) -/

/-- Settles O35: the loop's value is Mathlib's evaluation. -/
theorem pevalInZpEvaluates : Obligations.PevalInZpEvaluates := by
  intro s d s1 s2 g x0 hz hg hx hlt
  have hF := field_of_configOk (configOk_of_inZp hz)
  obtain ⟨G, hrg, hG, -, hGval⟩ := exists_readP_of_zpInput hz hg
  obtain ⟨⟨v, hv, he⟩, hval⟩ := (zp_computesIn hz.2).peval_spec (isZpElem_natElem hlt) hG.valid
  have h := exec_peval (e := d) hF hrg (readE_of_isInt hz hx hlt)
  rw [ops_of_inZp hz, he] at h
  obtain ⟨t, ht, hc, hint⟩ := exists_isInt_of_exec (hv.trans s.prime.isLt) h
  rw [he, zpVal_natElem, zpVal_natElem, hGval] at hval
  exact ⟨t, v, ht, hc, hint, hv, hval⟩

/-- Settles O36: Lagrange's formula for distinct points; a repeated point makes a denominator 0K. -/
theorem pinterpInZpInterpolates : Obligations.PinterpInZpInterpolates := by
  intro s d xs ys hz hprime hxs hys
  have : Fact s.prime.toNat.Prime := ⟨hprime⟩
  have M := zp_computesIn hz.2
  have hF := field_of_configOk (configOk_of_inZp hz)
  have hA := readA_of_zpPoints hz hxs
  have hW := readW_of_zpWord hz hys
  obtain ⟨hn, hlen, -, hxb⟩ := hxs
  obtain ⟨-, -, -, hyb⟩ := hys
  constructor
  · intro hnd
    obtain ⟨G, hint, hG, heval⟩ := M.pinterp_spec (zp_inverts hprime) (isZpElem_map_natElem hxb) (isZpElem_map_natElem hyb)
      (hnd.map natElem_injective)
    have hGl := pinterp_length_le _ hint
    rw [List.length_map] at hGl heval
    have h := exec_pinterp (d := d) hF hA hW (shapeN_of hn)
    rw [ops_of_inZp hz, hint] at h
    obtain ⟨t, ht, hc, hout⟩ := exists_zpOutput_of_exec hz hG (by have := hn.2; omega) h
    refine ⟨t, _, ht, hc, hout, (M.degree_polyOf_lt G).trans_le (by exact_mod_cast hGl), fun j hj => ?_⟩
    rw [← zpVal_coef_map_natElem, ← zpVal_coef_map_natElem]
    exact heval j hj
  · intro hnd
    obtain ⟨-, -, hrep, -⟩ := evaluationDecodersComplete s s.fieldCtx d _ _ _ hF (shapeN_of hn) hA hW
    exact hrep fun h => hnd (h.of_map _)

/-! Modular powers (42_poly.md R162) -/

/-- Settles O37: square and multiply, with a remainder by h after every product. -/
theorem ppowmodInZpIsThePowerModH : Obligations.PpowmodInZpIsThePowerModH := by
  intro s d s1 s2 g h hz hprime hg hh h0 he
  have : Fact s.prime.toNat.Prime := ⟨hprime⟩
  have M := zp_computesIn hz.2
  have hF := field_of_configOk (configOk_of_inZp hz)
  obtain ⟨G, hrg, hG, -, hGval⟩ := exists_readP_of_zpInput hz hg
  obtain ⟨H, hrh, hH, -, hHval⟩ := exists_readP_of_zpInput hz hh
  rw [← hHval, ne_eq, M.polyOf_eq_zero_iff hH] at h0
  rw [← hGval, ← hHval]
  obtain ⟨hR, hlt, hval⟩ := M.powmodCore_spec (zp_inverts hprime) hH h0 hG s.exp.toInt.natAbs
  have hx := exec_ppowmod (d := d) hF hrg hrh he
  rw [ops_of_inZp hz, ppowmod_of_ne _ h0] at hx
  obtain ⟨t, ht, hc, hout⟩ := exists_zpOutput_of_exec hz hR (hlt.le.trans (readP_length hrh)) hx
  refine ⟨t, _, ht, hc, hout, M.degree_lt_degree hR hH hlt, ?_⟩
  rw [← AdjoinRoot.mk_eq_mk, map_pow, hval, show s.exp.toInt.natAbs = s.exp.toInt.toNat by omega]

/-! Rabin's test (42_poly.md R163, R164) -/

/-- Settles O39: Rabin's criterion over the field of p elements. -/
theorem pirredInZpTestsIrreducibility : Obligations.PirredInZpTestsIrreducibility := by
  intro s s1 g hz hprime hg h0
  have : Fact s.prime.toNat.Prime := ⟨hprime⟩
  have M := zp_computesIn hz.2
  have hF := field_of_configOk (configOk_of_inZp hz)
  obtain ⟨G, hrg, hG, -, hGval⟩ := exists_readP_of_zpInput hz hg
  rw [← hGval, ne_eq, M.polyOf_eq_zero_iff hG] at h0
  rw [← hGval]
  obtain ⟨b, hb, hirr⟩ := M.pirred_spec (zp_inverts hprime) hG h0 (card_of_inZp hz).symm
  rw [← ops_of_inZp hz] at hb
  refine ⟨_, exec_pirred_of_ok hF hrg hb, ⟨rfl, rfl, rfl, rfl, rfl, rfl⟩, fun h => ?_, fun h => ?_⟩
  · rw [hirr.2 h]; rfl
  · rw [Bool.eq_false_iff.2 (mt hirr.1 h)]; rfl

/-- Settles O38: degree 1 is irreducible, a nonzero constant is a unit, and the zero polynomial reads as []. -/
theorem pirredInZpCornerCases : Obligations.PirredInZpCornerCases := by
  intro s s1 g hz hprime hg
  have : Fact s.prime.toNat.Prime := ⟨hprime⟩
  have htest := pirredInZpTestsIrreducibility s s1 g hz hprime hg
  refine ⟨fun h1 => ?_, fun h0 => ?_, fun hzero => ?_⟩
  · obtain ⟨t, ht, hc, hirr, -⟩ := htest (Polynomial.ne_zero_of_degree_gt (n := 0) (by rw [h1]; exact zero_lt_one))
    exact ⟨t, ht, hc, hirr (Polynomial.irreducible_of_degree_eq_one h1)⟩
  · obtain ⟨t, ht, hc, -, hred⟩ := htest (Polynomial.degree_ne_bot.1 (by rw [h0]; exact WithBot.zero_ne_bot))
    exact ⟨t, ht, hc, hred fun h => h.not_isUnit (Polynomial.isUnit_iff_degree_eq_zero.2 h0)⟩
  · obtain ⟨G, hrg, hG, -, hGval⟩ := exists_readP_of_zpInput hz hg
    obtain rfl := ((zp_computesIn hz.2).polyOf_eq_zero_iff hG).1 (hGval.trans hzero)
    exact exec_pirred_of_error (field_of_configOk (configOk_of_inZp hz)) hrg (pirred_nil _ _)

end Sys2Proof.Machine
end

section
/-! PROOFS of the family 43_codec.md, first part: what the encoders and the BCH commands answer (43_codec.md R207 to R213, R221),
and that no codec result is too long for a polynomial register, whatever the field operations are (R225). -/

namespace Sys2Proof.Machine

/-! The commands, once their operands have been read -/

section
variable {s : State} {F : FieldCtx} {d s1 s2 : PReg} {n k : Nat} {a : Elem} {m G S : Poly} {xs ys : List Elem}
  (hF : s.field = .ok F)
include hF

theorem exec_encEval (hn : s.shapeN = .ok n) (hm : s.readP F s1 = .ok m) (hA : s.readA F n = .ok xs) :
    exec (.encEval s1) s = .next ((s.writeW (xs.map (peval F.ops m))).complete .ok) := by
  simp only [exec, execEncEval, hF, hn, hm, hA, ok_bind, finish_pure]; rfl

theorem exec_encGen_of_le (hn : s.shapeN = .ok n) (hm : s.readP F s1 = .ok m) (hG : s.readP F s2 = .ok G)
    (hl : (pmul F.ops m G).length ≤ n) :
    exec (.encGen s1 s2) s = .next ((s.writeW ((List.range n).map (coef F.ops (pmul F.ops m G)))).complete .ok) := by
  simp only [exec, execEncGen, hF, hn, hm, hG, ok_bind, if_neg (not_lt.2 hl), finish_pure]; rfl

theorem exec_encGen_of_gt (hn : s.shapeN = .ok n) (hm : s.readP F s1 = .ok m) (hG : s.readP F s2 = .ok G)
    (hl : n < (pmul F.ops m G).length) : exec (.encGen s1 s2) s = .next (s.complete .dim) := by
  simp only [exec, execEncGen, hF, hn, hm, hG, ok_bind, if_pos hl]; rfl

variable (hnk : s.shapeNK = .ok (n, k))
include hnk

theorem exec_genpoly (ha : s.readAlpha F = .ok a) :
    exec (.genpoly d) s = finish s (polyResult d (genPoly F.ops n k a s.powi.toInt)) := by
  simp only [exec, execGenpoly, polyResult, hF, hnk, ha, ok_bind]

theorem exec_synd_of_ok (ha : s.readAlpha F = .ok a) (hW : s.readW F n = .ok ys)
    (hS : syndromes F.ops n k a s.powi.toInt (receivedPoly F ys) = .ok S) :
    exec (.synd d) s = finish s (polyResult d (.ok (trim F.ops S))) := by
  simp only [exec, execSynd, polyResult, hF, hnk, ha, hW, hS, ok_bind]

theorem exec_synd_of_error (ha : s.readAlpha F = .ok a) (hW : s.readW F n = .ok ys) {c : ErrCode}
    (hS : syndromes F.ops n k a s.powi.toInt (receivedPoly F ys) = .error c) :
    exec (.synd d) s = .next (s.complete c) := by
  simp only [exec, execSynd, hF, hnk, ha, hW, hS, ok_bind, error_bind, finish_error]

theorem exec_elp (hS : s.readP F s1 = .ok S) (hl : (elpSolve F.ops S (maxErrors n k)).1.length ≤ 512) :
    exec (.elp d s1) s = .next (((s.writeP d (elpSolve F.ops S (maxErrors n k)).1).writeRes
      (elpSolve F.ops S (maxErrors n k)).2).complete .ok) := by
  simp only [exec, execElp, hF, hnk, hS, ok_bind, polyDest_of_le hl, finish_pure]; rfl

theorem exec_decBch (hG : s.readP F s1 = .ok G) (ha : s.readAlpha F = .ok a) (hW : s.readW F n = .ok ys) :
    exec (.decBch d s1) s =
      finish s (polyResult d (decodeBch F.ops n k G a s.powi.toInt (receivedPoly F ys))) := by
  simp only [exec, execDecBch, polyResult, hF, hnk, hG, ha, hW, ok_bind]

end

/-! Lengths of the results, whatever the field operations are (R225) -/

section
variable {α : Type} [DecidableEq α] (K : FieldOps α)

theorem genLoop_length_le (a : α) (count : Nat) : ∀ {j : Int} {G G' : List α}, genLoop K a count j G = .ok G' →
    G'.length ≤ G.length + count := by
  induction count with
  | zero => rintro j G _ ⟨⟩; exact le_rfl
  | succ count ih =>
    intro j G G' h
    unfold genLoop at h
    split at h
    · cases h
    · next v _ =>
      have hmul := pmul_length_le K G [K.neg v, K.one]
      simp only [List.length_cons, List.length_nil] at hmul
      exact (ih h).trans (by omega)

/-- The generator polynomial has at most n − k + 1 coefficients (R206). -/
theorem genPoly_length_le {n k : Nat} {a : α} {i : Int} {G : List α} (h : genPoly K n k a i = .ok G) :
    G.length ≤ n - k + 1 := by
  have := genLoop_length_le K a _ h
  rwa [List.length_singleton, add_comm] at this

theorem syndromes_length {n k : Nat} {a : α} {i : Int} {r S : List α} (h : syndromes K n k a i r = .ok S) :
    S.length = n - k := by
  rw [mapRaise_length h, List.length_range]

theorem solveInh_length (rows : List (List α)) (C : Nat) : (solveInh K rows C).1.length = C := by
  simp [solveInh]

/-- The error locator has at most t + 1 coefficients (R212). -/
theorem elpSolve_length_le (S : List α) (t : Nat) : (elpSolve K S t).1.length ≤ t + 1 := by
  induction t with
  | zero => exact le_rfl
  | succ t ih =>
    unfold elpSolve
    dsimp only
    split
    · refine (trim_length_le K _).trans ?_
      rw [List.length_cons, List.length_reverse, solveInh_length]
    · exact ih.trans (Nat.le_succ _)

omit [DecidableEq α] in
theorem errorWord_length (n : Nat) (J : List Nat) (Y : List α) : (errorWord K n J Y).length = n := by
  simp [errorWord]

theorem bchSteps_errorWord_length {n k : Nat} {a : α} {i : Int} {r : List α} {b : BchSteps α}
    (h : bchSteps K n k a i r = .ok b) : b.E.length = n := by
  unfold bchSteps at h
  split at h
  · cases h
  · dsimp only at h
    split at h
    · cases h
    · split at h
      · cases h
      · cases h; exact errorWord_length K n _ _

/-- The message of the BCH decoder has at most n coefficients, where the received polynomial has (R221). -/
theorem decodeBch_length_le {n k : Nat} {G : List α} {a : α} {i : Int} {r m : List α} (hr : r.length ≤ n)
    (h : decodeBch K n k G a i r = .ok m) : m.length ≤ n := by
  unfold decodeBch at h
  split at h
  · cases h
  · next b hb =>
    split at h
    · cases h
    · next q _ hqr =>
      cases h
      have hE := (trim_length_le K b.E).trans_eq (bchSteps_errorWord_length K hb)
      exact (pdivmod_length_le K hqr).1.trans ((psub_length_le K _ _).trans (max_le hr hE))

end

theorem maxErrors_le (n k : Nat) : maxErrors n k ≤ n := by unfold maxErrors; omega

/-- The received polynomial has at most n coefficients (R205). -/
theorem receivedPoly_length_le {s : State} {F : FieldCtx} {n : Nat} {ys : List Elem} (h : s.readW F n = .ok ys) :
    (receivedPoly F ys).length ≤ n :=
  (trim_length_le F.ops ys).trans_eq (by rw [mapRaise_length h, List.length_range])

/-! When the commands complete -/

/-- ShapeNK bounds n and k (10_state.md R38). -/
theorem shapeNK_ok {s : State} {n k : Nat} (h : s.shapeNK = .ok (n, k)) : n ≤ 256 ∧ k ≤ n := by
  unfold State.shapeNK at h
  split at h
  · cases h
  · next m hm =>
    split at h
    · next hk => cases h; exact ⟨(shapeN_ok hm).2.2, hk⟩
    · cases h

/-- Settles O40: ENC_EVAL writes the values, and ENC_GEN the coefficients of a product that is not longer than n. -/
theorem encodersComplete : Obligations.EncodersComplete := by
  intro s F s1 n m hF hn hm
  exact ⟨fun xs hA => exec_encEval hF hn hm hA,
    fun s2 G hG => ⟨exec_encGen_of_le hF hn hm hG, exec_encGen_of_gt hF hn hm hG⟩⟩

/-- Settles O42: each command ends with the result of its function, which fits, or with the code that function raises. -/
theorem bchCommandsComplete : Obligations.BchCommandsComplete := by
  intro s F d n k hF hnk
  obtain ⟨hn, hk⟩ := shapeNK_ok hnk
  have ht := maxErrors_le n k
  refine ⟨fun a ha => ?genpoly, fun a ys ha hW => ?synd, fun s1 S hS => ?elp, fun s1 G a ys hG ha hW => ?decBch⟩
  case genpoly =>
    have hexec := exec_genpoly (d := d) hF hnk ha
    have herr : ∀ {c}, genPoly F.ops n k a s.powi.toInt = .error c → exec (.genpoly d) s = .next (s.complete c) :=
      fun hc => by rw [hexec, hc, finish_polyResult_error]
    refine ⟨fun g hg => ?_, fun c hc => herr hc, ?_⟩
    · have := genPoly_length_le F.ops hg
      rw [hexec, hg, finish_polyResult_ok s d (by omega)]
    · rintro rfl hi hkn; exact herr (genPoly_zero F.ops hi hkn)
  case synd =>
    refine ⟨fun S hS => ?_, fun c hc => exec_synd_of_error hF hnk ha hW hc, ?_⟩
    · have := (trim_length_le F.ops S).trans_eq (syndromes_length F.ops hS)
      rw [exec_synd_of_ok hF hnk ha hW hS, finish_polyResult_ok s d (by omega)]
    · rintro rfl hi hkn; exact exec_synd_of_error hF hnk ha hW (syndromes_zero F.ops hi hkn _)
  case elp => exact exec_elp hF hnk hS ((elpSolve_length_le F.ops S _).trans (by omega))
  case decBch =>
    have hexec := exec_decBch (d := d) hF hnk hG ha hW
    have herr : ∀ {c}, decodeBch F.ops n k G a s.powi.toInt (receivedPoly F ys) = .error c →
        exec (.decBch d s1) s = .next (s.complete c) :=
      fun hc => by rw [hexec, hc, finish_polyResult_error]
    refine ⟨fun m hm => ?_, fun c hc => herr hc, fun h0 => herr (decodeBch_divZero F.ops _ h0)⟩
    have := decodeBch_length_le F.ops (receivedPoly_length_le hW) hm
    rw [hexec, hm, finish_polyResult_ok s d (by omega)]

/-! No command of the codec completes with DIM once its shape check has passed (R225; 60_exceptions.md R263) -/

/-- A computation that does not raise DIM. -/
def NoDim {β : Type} (x : Except ErrCode β) : Prop := x ≠ .error .dim

theorem noDim_ok {β : Type} (v : β) : NoDim (.ok v : Except ErrCode β) := nofun

theorem OnlyDivZero.noDim {β : Type} {x : Except ErrCode β} (h : OnlyDivZero x) : NoDim x :=
  fun hx => nomatch h _ hx

theorem noDim_bind {β γ : Type} {x : Except ErrCode β} {f : β → Except ErrCode γ} (hx : NoDim x)
    (hf : ∀ v, x = .ok v → NoDim (f v)) : NoDim (x >>= f) := by
  cases x with
  | error c => exact fun h => hx (congrArg _ (Except.error.inj h))
  | ok v => exact hf v rfl

theorem noDim_mapRaise {β γ : Type} {f : β → Except ErrCode γ} (hf : ∀ b, NoDim (f b)) (l : List β) :
    NoDim (mapRaise f l) := by
  induction l with
  | nil => exact noDim_ok _
  | cons b l ih =>
    unfold mapRaise
    split
    · next c hc => exact fun h => hf b (hc.trans (congrArg _ (Except.error.inj h)))
    · split
      · next c hc => exact fun h => ih (hc.trans (congrArg _ (Except.error.inj h)))
      · exact noDim_ok _

section
variable (s : State) (F : FieldCtx)

theorem noDim_field : NoDim s.field := by
  unfold State.field; split <;> exact nofun

theorem noDim_elemOfDigits (ds : List Nat) : NoDim (elemOfDigits F ds) := by
  unfold elemOfDigits; split <;> exact nofun

theorem noDim_readAlpha : NoDim (s.readAlpha F) := noDim_elemOfDigits F _

theorem noDim_readA (n : Nat) : NoDim (s.readA F n) := noDim_mapRaise (fun _ => noDim_elemOfDigits F _) _

theorem noDim_readW (n : Nat) : NoDim (s.readW F n) := noDim_mapRaise (fun _ => noDim_elemOfDigits F _) _

theorem noDim_readP (r : PReg) : NoDim (s.readP F r) := by
  unfold State.readP
  dsimp only
  split
  · exact nofun
  · split
    · next c hc =>
      exact fun h => noDim_mapRaise (fun _ => noDim_elemOfDigits F _) _ (hc.trans (congrArg _ (Except.error.inj h)))
    · exact noDim_ok _

end

section
variable {s t : State}

/-- The end of a command with one polynomial destination, for a result that fits. -/
theorem noDim_polyResult (d : PReg) {x : Except ErrCode Poly} (hx : OnlyDivZero x)
    (hfit : ∀ g, x = .ok g → g.length ≤ 512) : NoDim (polyResult d x) :=
  noDim_bind hx.noDim fun g hg => by rw [polyDest_of_le (hfit g hg)]; exact noDim_ok _

theorem noDim_bind_shapeN (h : ShapeN s) {β : Type} {f : Nat → Except ErrCode β} (hf : NoDim (f s.nlen.toNat)) :
    NoDim (s.shapeN >>= f) := by
  rw [shapeN_of h]; exact hf

theorem noDim_bind_shapeNK (h : ShapeNK s) {β : Type} {f : Nat × Nat → Except ErrCode β}
    (hf : NoDim (f (s.nlen.toNat, s.klen.toNat))) : NoDim (s.shapeNK >>= f) := by
  rw [shapeNK_of h]; exact hf

theorem err_ne_dim_of_finish {r : Except ErrCode (List Write)} (hr : NoDim r) (h : finish s r = .next t) : t.err ≠ .dim := by
  cases r with
  | error c => cases h; exact fun hc => hr (congrArg _ hc)
  | ok ws => cases h; exact nofun

end

section
variable {α : Type} [DecidableEq α] (K : FieldOps α)

theorem onlyDivZero_pdivmod (g h : List α) : OnlyDivZero (pdivmod K g h) := by
  unfold pdivmod
  split
  · exact onlyDivZero_error
  · exact onlyDivZero_ok _

theorem onlyDivZero_pinterp (xs ys : List α) : OnlyDivZero (pinterp K xs ys) := onlyDivZero_interpLoop K xs ys _ _

theorem onlyDivZero_genLoop (a : α) (count : Nat) : ∀ j G, OnlyDivZero (genLoop K a count j G) := by
  induction count with
  | zero => exact fun _ _ => onlyDivZero_ok _
  | succ count ih =>
    intro j G
    unfold genLoop
    split
    · next c h => rw [onlyDivZero_powK K _ _ c h]; exact onlyDivZero_error
    · exact ih _ _

theorem onlyDivZero_lakeySolve (n k : Nat) (xs ys : List α) : OnlyDivZero (lakeySolve K n k xs ys) := by
  unfold lakeySolve
  split
  · next c h => rw [onlyDivZero_pinterp K _ _ c h]; exact onlyDivZero_error
  · exact onlyDivZero_ok _

theorem onlyDivZero_decodeLa (n k : Nat) (xs ys : List α) : OnlyDivZero (decodeLa K n k xs ys) := by
  unfold decodeLa
  split
  · next c h => rw [onlyDivZero_lakeySolve K _ _ _ _ c h]; exact onlyDivZero_error
  · split
    · next c h => rw [onlyDivZero_pdivmod K _ _ c h]; exact onlyDivZero_error
    · exact onlyDivZero_ok _

theorem onlyDivZero_decodeEe (n k : Nat) (xs ys : List α) : OnlyDivZero (decodeEe K n k xs ys) := by
  unfold decodeEe
  split
  · next c h => rw [onlyDivZero_pinterp K _ _ c h]; exact onlyDivZero_error
  · dsimp only
    split
    · next c h => rw [onlyDivZero_pdivmod K _ _ c h]; exact onlyDivZero_error
    · exact onlyDivZero_ok _

theorem onlyDivZero_decodeBch (n k : Nat) (G : List α) (a : α) (i : Int) (r : List α) :
    OnlyDivZero (decodeBch K n k G a i r) := by
  unfold decodeBch
  split
  · next c h => rw [onlyDivZero_bchSteps K _ _ _ _ _ c h]; exact onlyDivZero_error
  · split
    · next c h => rw [onlyDivZero_pdivmod K _ _ c h]; exact onlyDivZero_error
    · exact onlyDivZero_ok _

end

section
variable {s t : State} {d d2 s1 : PReg}

theorem readA_length {F : FieldCtx} {n : Nat} {xs : List Elem} (h : s.readA F n = .ok xs) : xs.length = n := by
  rw [mapRaise_length h, List.length_range]

theorem execPinterp_err_ne_dim (hs : ShapeN s) (h : execPinterp d s = .next t) : t.err ≠ .dim :=
  err_ne_dim_of_finish (noDim_bind (noDim_field s) fun F _ => noDim_bind_shapeN hs <|
    noDim_bind (noDim_readA s F _) fun _ hA => noDim_bind (noDim_readW s F _) fun _ _ =>
    noDim_polyResult d (onlyDivZero_pinterp F.ops _ _) fun _ hg => by
      have := pinterp_length_le F.ops hg
      have := readA_length hA
      have := hs.2
      omega) h

variable (hs : ShapeNK s)
include hs

theorem execGenpoly_err_ne_dim (h : execGenpoly d s = .next t) : t.err ≠ .dim :=
  err_ne_dim_of_finish (noDim_bind (noDim_field s) fun F _ => noDim_bind_shapeNK hs <|
    noDim_bind (noDim_readAlpha s F) fun a _ =>
    noDim_polyResult d (onlyDivZero_genLoop F.ops a _ _ _) fun _ hg => by
      have := genPoly_length_le F.ops hg
      have := hs.1.2
      omega) h

theorem execSynd_err_ne_dim (h : execSynd d s = .next t) : t.err ≠ .dim :=
  err_ne_dim_of_finish (noDim_bind (noDim_field s) fun F _ => noDim_bind_shapeNK hs <|
    noDim_bind (noDim_readAlpha s F) fun a _ => noDim_bind (noDim_readW s F _) fun _ _ =>
    noDim_bind (onlyDivZero_syndromes F.ops _ _ a _ _).noDim fun S hS =>
    noDim_polyResult d (onlyDivZero_ok (trim F.ops S)) fun _ hg => by
      cases hg
      have := (trim_length_le F.ops S).trans_eq (syndromes_length F.ops hS)
      have := hs.1.2
      omega) h

theorem execElp_err_ne_dim (h : execElp d s1 s = .next t) : t.err ≠ .dim :=
  err_ne_dim_of_finish (noDim_bind (noDim_field s) fun F _ => noDim_bind_shapeNK hs <|
    noDim_bind (noDim_readP s F _) fun S _ => by
      have := elpSolve_length_le F.ops S (maxErrors s.nlen.toNat s.klen.toNat)
      have := maxErrors_le s.nlen.toNat s.klen.toNat
      have := hs.1.2
      dsimp only
      rw [polyDest_of_le (by omega)]
      exact noDim_ok _) h

theorem execLakey_err_ne_dim (h : execLakey d d2 s = .next t) : t.err ≠ .dim := by
  refine err_ne_dim_of_finish ?_ h
  split
  · exact nofun
  refine noDim_bind (noDim_field s) fun F _ => noDim_bind_shapeNK hs <|
    noDim_bind (noDim_readA s F _) fun _ _ => noDim_bind (noDim_readW s F _) fun _ _ =>
    noDim_bind (onlyDivZero_lakeySolve F.ops _ _ _ _).noDim fun sol hsol => ?_
  obtain ⟨-, -, he, hh⟩ := lakeySolve_lengths F.ops hsol
  have := maxErrors_le s.nlen.toNat s.klen.toNat
  have := hs.1.2
  rw [polyDest_of_le (by omega), polyDest_of_le (by omega)]
  exact noDim_ok _

theorem execDecLa_err_ne_dim (h : execDecLa d s = .next t) : t.err ≠ .dim :=
  err_ne_dim_of_finish (noDim_bind (noDim_field s) fun F _ => noDim_bind_shapeNK hs <|
    noDim_bind (noDim_readA s F _) fun _ hA => noDim_bind (noDim_readW s F _) fun _ _ =>
    noDim_polyResult d (onlyDivZero_decodeLa F.ops _ _ _ _) fun _ hm => by
      have := decodeLa_length_le F.ops hm
      have := maxErrors_le s.nlen.toNat s.klen.toNat
      have := readA_length hA
      have := hs.1.2
      omega) h

theorem execDecEe_err_ne_dim (h : execDecEe d s = .next t) : t.err ≠ .dim :=
  err_ne_dim_of_finish (noDim_bind (noDim_field s) fun F _ => noDim_bind_shapeNK hs <|
    noDim_bind (noDim_readA s F _) fun _ hA => noDim_bind (noDim_readW s F _) fun _ _ =>
    noDim_polyResult d (onlyDivZero_decodeEe F.ops _ _ _ _) fun _ hm => by
      have := decodeEe_length_le F.ops hm
      have := readA_length hA
      have := hs.1.2
      omega) h

theorem execDecBch_err_ne_dim (h : execDecBch d s1 s = .next t) : t.err ≠ .dim :=
  err_ne_dim_of_finish (noDim_bind (noDim_field s) fun F _ => noDim_bind_shapeNK hs <|
    noDim_bind (noDim_readP s F _) fun _ _ => noDim_bind (noDim_readAlpha s F) fun _ _ =>
    noDim_bind (noDim_readW s F _) fun _ hW =>
    noDim_polyResult d (onlyDivZero_decodeBch F.ops _ _ _ _ _ _) fun _ hm => by
      have := decodeBch_length_le F.ops (receivedPoly_length_le hW) hm
      have := hs.1.2
      omega) h

end

/-- Settles O20: no read and no function of these commands raises DIM, and their results fit a polynomial register. -/
theorem codecResultsAlwaysFit : Obligations.CodecResultsAlwaysFit := by
  rintro i s t h (⟨hi, hs⟩ | ⟨d, rfl, hs⟩)
  · cases i with
    | genpoly => exact execGenpoly_err_ne_dim hs h
    | synd => exact execSynd_err_ne_dim hs h
    | elp => exact execElp_err_ne_dim hs h
    | lakey => exact execLakey_err_ne_dim hs h
    | decLa => exact execDecLa_err_ne_dim hs h
    | decEe => exact execDecEe_err_ne_dim hs h
    | decBch => exact execDecBch_err_ne_dim hs h
    | _ => cases hi
  · exact execPinterp_err_ne_dim hs h

end Sys2Proof.Machine
end

section
/-! PROOFS of the family 43_codec.md, second part: what the elimination and the two solvers compute when the field operations
compute in a field whose nonzero elements they invert (43_codec.md R201 to R203). -/

namespace Sys2Proof.Machine

section
variable {α R : Type} [Field R] {K : FieldOps α} {Valid : α → Prop} {val : α → R}

/-! Rows -/

/-- A row of L valid entries. -/
structure IsRow (Valid : α → Prop) (L : Nat) (u : List α) : Prop where
  valid : ∀ c ∈ u, Valid c
  length : u.length = L

/-- The left-hand side of a row's equation in the first N unknowns. -/
def rowDot (K : FieldOps α) (val : α → R) (N : Nat) (u : List α) (z : Nat → R) : R :=
  ∑ c ∈ Finset.range N, val (coef K u c) * z c

/-- The row scaled so that its entry in column j is 1K (R201). -/
def scaledRow (K : FieldOps α) (j : Nat) (u : List α) : List α := u.map (K.mul (K.inv (coef K u j)))

/-- A row with a pivot has 1K in the pivot's column, one of the first m; a row without has 0K in each of them. -/
structure RowReduced (K : FieldOps α) (val : α → R) (m : Nat) (r : MatRow α) : Prop where
  pivot : ∀ c, r.pivot = some c → c < m ∧ val (coef K r.entries c) = 1
  free : r.pivot = none → ∀ c, c < m → val (coef K r.entries c) = 0

/-- Each of the two rows has 0K in the pivot's column of the other. -/
def Apart (K : FieldOps α) (val : α → R) (r u : MatRow α) : Prop :=
  (∀ c, r.pivot = some c → val (coef K u.entries c) = 0) ∧ ∀ c, u.pivot = some c → val (coef K r.entries c) = 0

/-- What the elimination of the first m columns leaves: a reduced row-echelon form up to row order (R201). -/
structure Reduced (K : FieldOps α) (Valid : α → Prop) (val : α → R) (L m : Nat) (rows : List (MatRow α)) : Prop where
  isRow : ∀ r ∈ rows, IsRow Valid L r.entries
  reduced : ∀ r ∈ rows, RowReduced K val m r
  apart : rows.Pairwise (Apart K val)

theorem apart_symm {r u : MatRow α} (h : Apart K val r u) : Apart K val u r := ⟨h.2, h.1⟩

theorem Reduced.apart_of_ne {L m : Nat} {rows : List (MatRow α)} (h : Reduced K Valid val L m rows) {r u : MatRow α}
    (hr : r ∈ rows) (hu : u ∈ rows) (hne : r ≠ u) : Apart K val r u := by
  have : Std.Symm (Apart K val) := ⟨fun _ _ => apart_symm⟩
  exact h.apart.forall hr hu hne

/-- The order of the rows does not matter. -/
theorem Reduced.perm {L m : Nat} {rows rows' : List (MatRow α)} (h : Reduced K Valid val L m rows) (hp : rows.Perm rows') :
    Reduced K Valid val L m rows' :=
  ⟨fun r hr => h.isRow r (hp.mem_iff.2 hr), fun r hr => h.reduced r (hp.mem_iff.2 hr),
    (hp.pairwise_iff apart_symm).1 h.apart⟩

variable (M : ComputesIn K Valid val) (hinv : ∀ a, Valid a → a ≠ K.zero → Inverts K Valid val a)

section
include M

omit M in
theorem val_inv_of_inverts {a : α} (h : Inverts K Valid val a) : val (K.inv a) = (val a)⁻¹ :=
  eq_inv_of_mul_eq_one_right h.2

/-- An eliminated row is the row minus its entry in column j times the pivot row. -/
theorem ComputesIn.eliminate_spec [DecidableEq α] {L : Nat} {p : List α} (hp : IsRow Valid L p) (j : Nat) {u : MatRow α}
    (hu : IsRow Valid L u.entries) :
    (eliminate K j p u).pivot = u.pivot ∧ IsRow Valid L (eliminate K j p u).entries ∧
      ∀ c, val (coef K (eliminate K j p u).entries c) =
        val (coef K u.entries c) - val (coef K u.entries j) * val (coef K p c) := by
  obtain ⟨hpv, hpl⟩ := hp
  obtain ⟨huv, hul⟩ := hu
  have hj := M.valid_coef huv j
  have hterm : ∀ {a b}, Valid a → Valid b → Valid (K.add a (K.mul (K.neg (coef K u.entries j)) b)) := fun ha hb =>
    M.valid_add ha (M.valid_mul (M.valid_neg hj) hb)
  unfold eliminate
  split
  · next h0 => exact ⟨rfl, ⟨huv, hul⟩, fun c => by rw [h0, M.val_zero, zero_mul, sub_zero]⟩
  · refine ⟨rfl, ⟨fun v hv => ?_, by simp [hul, hpl]⟩, fun c => ?_⟩
    · obtain ⟨i, hi, rfl⟩ := List.getElem_of_mem hv
      rw [List.length_zipWith] at hi
      rw [List.getElem_zipWith]
      exact hterm (huv _ (List.getElem_mem _)) (hpv _ (List.getElem_mem _))
    · by_cases hc : c < L
      · rw [coef_of_lt K _ c (by simp [hul, hpl, hc]), coef_of_lt K u.entries c (by omega), coef_of_lt K p c (by omega),
          List.getElem_zipWith, M.val_add (huv _ (List.getElem_mem _)) (M.valid_mul (M.valid_neg hj) (hpv _ (List.getElem_mem _))),
          M.val_mul (M.valid_neg hj) (hpv _ (List.getElem_mem _)), M.val_neg hj]
        ring
      · rw [coef_of_length_le K _ c (by simp [hul, hpl]; omega), coef_of_length_le K u.entries c (by omega),
          coef_of_length_le K p c (by omega), M.val_zero, mul_zero, sub_zero]

theorem ComputesIn.scaledRow_spec [DecidableEq α] {L : Nat} {u : List α} (hu : IsRow Valid L u) {j : Nat}
    (hi : Inverts K Valid val (coef K u j)) :
    IsRow Valid L (scaledRow K j u) ∧
      ∀ c, val (coef K (scaledRow K j u) c) = (val (coef K u j))⁻¹ * val (coef K u c) := by
  have hz : K.mul (K.inv (coef K u j)) K.zero = K.zero := (M.eq_zero_iff (M.valid_mul hi.1 M.valid_zero)).2 (by
    rw [M.val_mul hi.1 M.valid_zero, M.val_zero, mul_zero])
  refine ⟨⟨fun v hv => ?_, by rw [scaledRow, List.length_map, hu.length]⟩, fun c => ?_⟩
  · obtain ⟨a, ha, rfl⟩ := List.mem_map.1 hv
    exact M.valid_mul hi.1 (hu.valid a ha)
  · rw [← coef_trim K (scaledRow K j u), scaledRow, coef_trim_map hz, M.val_mul hi.1 (M.valid_coef hu.valid c), val_inv_of_inverts hi]

end

/-! One column (R201) -/

section
variable [DecidableEq α]

theorem isCandidate_iff (j : Nat) (r : MatRow α) :
    isCandidate K j r = true ↔ r.pivot = none ∧ coef K r.entries j ≠ K.zero := by
  rw [isCandidate, Bool.and_eq_true, beq_iff_eq, decide_eq_true_eq]

/-- A column without a candidate changes nothing; else one candidate becomes the pivot row and the others are eliminated. -/
theorem gaussColumn_cases (K : FieldOps α) (rows : List (MatRow α)) (j : Nat) :
    ((∀ r ∈ rows, ¬ isCandidate K j r = true) ∧ gaussColumn K rows j = rows) ∨
      ∃ r others, isCandidate K j r = true ∧ rows.Perm (r :: others) ∧ (gaussColumn K rows j).Perm
        ({ pivot := some j, entries := scaledRow K j r.entries } ::
          others.map (eliminate K j (scaledRow K j r.entries))) := by
  have hsplit := List.takeWhile_append_dropWhile (p := fun r => !isCandidate K j r) (l := rows)
  unfold gaussColumn
  dsimp only
  split
  · next hd =>
    rw [List.dropWhile_eq_nil_iff] at hd
    exact .inl ⟨fun r hr => by simpa using hd r hr, rfl⟩
  · next r after hd =>
    have hr : isCandidate K j r = true := by
      have hne : rows.dropWhile (fun r => !isCandidate K j r) ≠ [] := by rw [hd]; exact List.cons_ne_nil _ _
      have hhead := List.head_dropWhile_not (fun r => !isCandidate K j r) hne
      simp only [hd, List.head_cons] at hhead
      simpa using hhead
    rw [hd] at hsplit
    refine .inr ⟨r, rows.takeWhile (fun r => !isCandidate K j r) ++ after, hr, ?_, ?_⟩
    · exact (List.Perm.of_eq hsplit.symm).trans List.perm_middle
    · rw [List.map_append]; exact List.perm_middle

include M

/-- A column without a candidate is 0K in every row without a pivot. -/
theorem ComputesIn.reduced_of_not_isCandidate {L j : Nat} {rows : List (MatRow α)} (h : Reduced K Valid val L j rows)
    (hno : ∀ r ∈ rows, ¬ isCandidate K j r = true) : Reduced K Valid val L (j + 1) rows := by
  refine ⟨h.isRow, fun u hu => ⟨fun c hc => ?_, fun hn c hc => ?_⟩, h.apart⟩
  · obtain ⟨hlt, hone⟩ := (h.reduced u hu).pivot c hc
    exact ⟨by omega, hone⟩
  · rcases Nat.lt_succ_iff_lt_or_eq.1 hc with hlt | rfl
    · exact (h.reduced u hu).free hn c hlt
    · have hz : coef K u.entries c = K.zero := by
        by_contra h0; exact hno u hu ((isCandidate_iff c u).2 ⟨hn, h0⟩)
      rw [hz, M.val_zero]

include hinv

/-- One column of the elimination reduces one more column. -/
theorem ComputesIn.gaussColumn_reduced {L j : Nat} {rows : List (MatRow α)} (h : Reduced K Valid val L j rows) :
    Reduced K Valid val L (j + 1) (gaussColumn K rows j) := by
  rcases gaussColumn_cases K rows j with ⟨hno, he⟩ | ⟨r, others, hcand, hperm, hperm'⟩
  · rw [he]; exact M.reduced_of_not_isCandidate h hno
  · obtain ⟨hn, h0⟩ := (isCandidate_iff j r).1 hcand
    obtain ⟨hrow, hred, hap⟩ := h.perm hperm
    obtain ⟨hr, hothers⟩ := List.forall_mem_cons.1 hrow
    obtain ⟨hrred, hored⟩ := List.forall_mem_cons.1 hred
    rw [List.pairwise_cons] at hap
    have hi := hinv _ (M.valid_coef hr.valid j) h0
    obtain ⟨hp, hpval⟩ := M.scaledRow_spec hr hi
    have hne : val (coef K r.entries j) ≠ 0 := mt (M.eq_zero_iff (M.valid_coef hr.valid j)).2 h0
    have hpj : val (coef K (scaledRow K j r.entries) j) = 1 := by rw [hpval, inv_mul_cancel₀ hne]
    have hplt : ∀ c, c < j → val (coef K (scaledRow K j r.entries) c) = 0 := fun c hc => by
      rw [hpval, hrred.free hn c hc, mul_zero]
    have helim := fun u hu => M.eliminate_spec hp j (hothers u hu)
    -- The pivot row has 0K in the columns before j, so these stay as they are; column j is cleared.
    have hlt : ∀ u ∈ others, ∀ c, c < j →
        val (coef K (eliminate K j (scaledRow K j r.entries) u).entries c) = val (coef K u.entries c) := fun u hu c hc => by
      rw [(helim u hu).2.2, hplt c hc, mul_zero, sub_zero]
    have hj : ∀ u ∈ others, val (coef K (eliminate K j (scaledRow K j r.entries) u).entries j) = 0 := fun u hu => by
      rw [(helim u hu).2.2, hpj, mul_one, sub_self]
    refine Reduced.perm ⟨?_, ?_, ?_⟩ hperm'.symm
    · exact List.forall_mem_cons.2 ⟨hp, List.forall_mem_map.2 fun u hu => (helim u hu).2.1⟩
    · refine List.forall_mem_cons.2 ⟨⟨?_, nofun⟩, List.forall_mem_map.2 fun u hu => ⟨fun c hc => ?_, fun hn' c hc => ?_⟩⟩
      · rintro c ⟨⟩; exact ⟨Nat.lt_succ_self j, hpj⟩
      · obtain ⟨hcj, hone⟩ := (hored u hu).pivot c ((helim u hu).1 ▸ hc)
        exact ⟨by omega, by rw [hlt u hu c hcj, hone]⟩
      · rcases Nat.lt_succ_iff_lt_or_eq.1 hc with hcj | rfl
        · rw [hlt u hu c hcj, (hored u hu).free ((helim u hu).1 ▸ hn') c hcj]
        · exact hj u hu
    · refine List.pairwise_cons.2 ⟨List.forall_mem_map.2 fun u hu => ⟨?_, fun c hc => ?_⟩, List.pairwise_map.2 ?_⟩
      · rintro c ⟨⟩; exact hj u hu
      · exact hplt c ((hored u hu).pivot c ((helim u hu).1 ▸ hc)).1
      · refine hap.2.imp_of_mem fun {u v} hu hv huv => ⟨fun c hc => ?_, fun c hc => ?_⟩
        · rw [(helim u hu).1] at hc
          rw [hlt v hv c ((hored u hu).pivot c hc).1, huv.1 c hc]
        · rw [(helim v hv).1] at hc
          rw [hlt u hu c ((hored v hv).pivot c hc).1, huv.2 c hc]

/-- One column of the elimination keeps the solutions of the homogeneous system. -/
theorem ComputesIn.gaussColumn_solutions {L j : Nat} {rows : List (MatRow α)} (h : ∀ r ∈ rows, IsRow Valid L r.entries)
    (N : Nat) (z : Nat → R) : (∀ r ∈ gaussColumn K rows j, rowDot K val N r.entries z = 0) ↔
      ∀ r ∈ rows, rowDot K val N r.entries z = 0 := by
  rcases gaussColumn_cases K rows j with ⟨-, he⟩ | ⟨r, others, hcand, hperm, hperm'⟩
  · rw [he]
  · obtain ⟨-, h0⟩ := (isCandidate_iff j r).1 hcand
    obtain ⟨hr, hothers⟩ := List.forall_mem_cons.1 fun u hu => h u (hperm.mem_iff.2 hu)
    have hi := hinv _ (M.valid_coef hr.valid j) h0
    have hne : val (coef K r.entries j) ≠ 0 := mt (M.eq_zero_iff (M.valid_coef hr.valid j)).2 h0
    obtain ⟨hp, hpval⟩ := M.scaledRow_spec hr hi
    have hdot : rowDot K val N (scaledRow K j r.entries) z = 0 ↔ rowDot K val N r.entries z = 0 := by
      simp only [rowDot, hpval, mul_assoc, ← Finset.mul_sum, mul_eq_zero, inv_eq_zero, hne, false_or]
    have helim : ∀ u ∈ others, rowDot K val N (eliminate K j (scaledRow K j r.entries) u).entries z =
        rowDot K val N u.entries z - val (coef K u.entries j) * rowDot K val N (scaledRow K j r.entries) z := by
      intro u hu
      simp only [rowDot, (M.eliminate_spec hp j (hothers u hu)).2.2, sub_mul, mul_assoc, Finset.sum_sub_distrib,
        Finset.mul_sum]
    simp only [hperm.mem_iff, hperm'.mem_iff, List.forall_mem_cons, List.forall_mem_map, hdot]
    refine and_congr_right fun hr0 => forall₂_congr fun u hu => ?_
    rw [helim u hu, hdot.2 hr0, mul_zero, sub_zero]

/-! All columns (R201) -/

/-- The elimination gives a reduced form with the same solutions. -/
theorem ComputesIn.gauss_spec {L : Nat} {rows : List (List α)} (h : ∀ u ∈ rows, IsRow Valid L u) (C : Nat) :
    Reduced K Valid val L C (gauss K rows C) ∧ ∀ N z, (∀ r ∈ gauss K rows C, rowDot K val N r.entries z = 0) ↔
      ∀ u ∈ rows, rowDot K val N u z = 0 := by
  induction C with
  | zero =>
    have hfresh : gauss K rows 0 = rows.map freshRow := rfl
    rw [hfresh]
    refine ⟨⟨List.forall_mem_map.2 h, List.forall_mem_map.2 fun u _ => ⟨nofun, fun _ c hc => absurd hc c.not_lt_zero⟩, ?_⟩,
      fun N z => List.forall_mem_map⟩
    rw [List.pairwise_map]
    exact List.pairwise_of_forall fun _ _ => ⟨nofun, nofun⟩
  | succ C ih =>
    have hstep : gauss K rows (C + 1) = gaussColumn K (gauss K rows C) C := by
      simp only [gauss, List.range_succ, List.foldl_append, List.foldl_cons, List.foldl_nil]
    rw [hstep]
    exact ⟨M.gaussColumn_reduced hinv ih.1, fun N z => (M.gaussColumn_solutions hinv ih.1.isRow N z).trans (ih.2 N z)⟩

end

/-! Pivots -/

theorem isPivot_iff {rows : List (MatRow α)} {c : Nat} : isPivot rows c = true ↔ ∃ r ∈ rows, r.pivot = some c := by
  simp only [isPivot, List.any_eq_true, beq_iff_eq]

/-- The search for the pivot row of a column that has one finds it. -/
theorem find_pivot_of_isPivot {rows : List (MatRow α)} {c : Nat} (h : isPivot rows c = true) :
    ∃ r ∈ rows, r.pivot = some c ∧ rows.find? (fun r => r.pivot == some c) = some r := by
  cases hf : rows.find? (fun r => r.pivot == some c) with
  | none =>
    obtain ⟨r, hr, hc⟩ := isPivot_iff.1 h
    exact absurd (by simpa using hc) (List.find?_eq_none.1 hf r hr)
  | some r => exact ⟨r, List.mem_of_find?_eq_some hf, by simpa using List.find?_some hf, rfl⟩

theorem find_pivot_of_not_isPivot {rows : List (MatRow α)} {c : Nat} (h : isPivot rows c = false) :
    rows.find? (fun r => r.pivot == some c) = none :=
  List.find?_eq_none.2 fun r hr hc => by
    rw [isPivot_iff.2 ⟨r, hr, by simpa using hc⟩] at h; cases h

section
variable {L C : Nat} {rows : List (MatRow α)} (h : Reduced K Valid val L C rows)
include h

/-- In a reduced form a pivoted row has 0K in the pivot columns of the other rows. -/
theorem Reduced.pivot_entry {r : MatRow α} (hr : r ∈ rows) {c c' : Nat} (hc : r.pivot = some c) (hne : c' ≠ c)
    (hc' : isPivot rows c' = true) : val (coef K r.entries c') = 0 := by
  obtain ⟨u, hu, hpu⟩ := isPivot_iff.1 hc'
  have hru : r ≠ u := by rintro rfl; exact hne (Option.some.inj (hpu.symm.trans hc))
  exact (h.apart_of_ne hr hu hru).2 c' hpu

/-- The equation of a pivoted row in a reduced form: the pivoted unknown in terms of the free ones. -/
theorem Reduced.rowDot_pivot {r : MatRow α} (hr : r ∈ rows) {c : Nat} (hc : r.pivot = some c) (z : Nat → R) :
    rowDot K val C r.entries z =
      z c + ∑ c' ∈ Finset.range C with ¬ isPivot rows c' = true, val (coef K r.entries c') * z c' := by
  obtain ⟨hlt, hone⟩ := (h.reduced r hr).pivot c hc
  rw [rowDot, ← Finset.sum_filter_add_sum_filter_not _ fun c' => isPivot rows c' = true]
  congr 1
  rw [Finset.sum_eq_single_of_mem c (by simpa [hlt] using isPivot_iff.2 ⟨r, hr, hc⟩), hone, one_mul]
  intro c' hc' hne
  rw [h.pivot_entry hr hc hne (Finset.mem_filter.1 hc').2, zero_mul]

theorem Reduced.rowDot_free {r : MatRow α} (hr : r ∈ rows) (hn : r.pivot = none) (z : Nat → R) :
    rowDot K val C r.entries z = 0 :=
  Finset.sum_eq_zero fun c hc => by rw [(h.reduced r hr).free hn c (Finset.mem_range.1 hc), zero_mul]

/-- With every unknown pivoted, a row's equation is its unknown alone. -/
theorem Reduced.rowDot_pivot_of_full (hfull : ∀ c, c < C → isPivot rows c = true) {r : MatRow α} (hr : r ∈ rows) {c : Nat}
    (hc : r.pivot = some c) (z : Nat → R) : rowDot K val C r.entries z = z c := by
  rw [h.rowDot_pivot hr hc, Finset.filter_false_of_mem fun c' hc' => not_not.2 (hfull c' (Finset.mem_range.1 hc')),
    Finset.sum_empty, add_zero]

end

/-! The two solvers (R202, R203) -/

section
variable [DecidableEq α]

/-- The value of an unknown in the solution of solve_hom (R202). -/
noncomputable def homSolution (K : FieldOps α) (val : α → R) (rows : List (List α)) (C c : Nat) : R :=
  val (coef K (solveHom K rows C) c)

variable {L C : Nat} {rows : List (List α)} (h : ∀ u ∈ rows, IsRow Valid L u)
include M hinv h

theorem ComputesIn.solveHom_valid : ∀ v ∈ solveHom K rows C, Valid v := by
  obtain ⟨hM, -⟩ := M.gauss_spec hinv h C
  intro v hv
  obtain ⟨c, -, rfl⟩ := List.mem_map.1 hv
  split
  · exact M.valid_one
  · next r hf =>
    refine M.valid_neg (M.sumK_spec fun a ha => ?_).1
    obtain ⟨c', -, rfl⟩ := List.mem_map.1 ha
    exact M.valid_coef (hM.isRow r (List.mem_of_find?_eq_some hf)).valid c'

omit hinv h in
/-- A free unknown is 1K (R202). -/
theorem ComputesIn.homSolution_free {c : Nat} (hlt : c < C) (hc : isPivot (gauss K rows C) c = false) :
    homSolution K val rows C c = 1 := by
  rw [homSolution, solveHom, coef_map_range, if_pos hlt]
  simp only [find_pivot_of_not_isPivot hc, M.val_one]

/-- A pivoted unknown is what its row's equation says (R202). -/
theorem ComputesIn.homSolution_pivot {r : MatRow α} (hr : r ∈ gauss K rows C) {c : Nat} (hc : r.pivot = some c) :
    homSolution K val rows C c =
      -∑ c' ∈ Finset.range C with ¬ isPivot (gauss K rows C) c' = true, val (coef K r.entries c') := by
  obtain ⟨hM, -⟩ := M.gauss_spec hinv h C
  obtain ⟨r', hr', hc', hf⟩ := find_pivot_of_isPivot (isPivot_iff.2 ⟨r, hr, hc⟩)
  obtain rfl : r' = r := by
    by_contra hne
    have h0 := (hM.apart_of_ne hr hr' (Ne.symm hne)).1 c hc
    exact zero_ne_one (h0.symm.trans ((hM.reduced r' hr').pivot c hc').2)
  have hvalid := M.valid_coef (hM.isRow r' hr').valid
  have hlist : ∀ a ∈ ((List.range C).filter fun c' => !isPivot (gauss K rows C) c').map (coef K r'.entries), Valid a :=
    List.forall_mem_map.2 fun c' _ => hvalid c'
  obtain ⟨hsv, hsval⟩ := M.sumK_spec hlist
  rw [homSolution, solveHom, coef_map_range, if_pos ((hM.reduced r' hr).pivot c hc).1]
  simp only [hf]
  rw [M.val_neg hsv, hsval, List.map_map, ← List.sum_toFinset _ (List.nodup_range.filter _), List.toFinset_filter,
    List.toFinset_range]
  simp only [Function.comp_apply, Bool.not_eq_true', Bool.not_eq_true]

/-- solve_hom solves the homogeneous system (R202). -/
theorem ComputesIn.rowDot_homSolution {u : List α} (hu : u ∈ rows) : rowDot K val C u (homSolution K val rows C) = 0 := by
  obtain ⟨hM, hsol⟩ := M.gauss_spec hinv h C
  refine (hsol C _).1 (fun r hr => ?_) u hu
  cases hc : r.pivot with
  | none => exact hM.rowDot_free hr hc _
  | some c =>
    rw [hM.rowDot_pivot hr hc, M.homSolution_pivot hinv h hr hc, neg_add_eq_zero]
    refine Finset.sum_congr rfl fun c' hc' => ?_
    obtain ⟨hlt, hn⟩ := Finset.mem_filter.1 hc'
    rw [M.homSolution_free (Finset.mem_range.1 hlt) (by simpa using hn), mul_one]

/-- Every unknown is pivoted exactly when the homogeneous system has the zero solution alone. -/
theorem ComputesIn.all_isPivot_iff : (∀ c, c < C → isPivot (gauss K rows C) c = true) ↔
    ∀ z : Nat → R, (∀ u ∈ rows, rowDot K val C u z = 0) → ∀ c, c < C → z c = 0 := by
  obtain ⟨hM, hsol⟩ := M.gauss_spec hinv h C
  constructor
  · intro hfull z hz c hlt
    obtain ⟨r, hr, hc⟩ := isPivot_iff.1 (hfull c hlt)
    rw [← hM.rowDot_pivot_of_full hfull hr hc z]
    exact (hsol C z).2 hz r hr
  · intro hzero c hlt
    by_contra hc
    have h0 := hzero _ (fun u hu => M.rowDot_homSolution hinv h hu) c hlt
    rw [M.homSolution_free hlt (by simpa using hc)] at h0
    exact one_ne_zero h0

/-- solve_hom gives a nonzero solution where there is one (R202). -/
theorem ComputesIn.exists_homSolution_ne_zero {z : Nat → R} (hz : ∀ u ∈ rows, rowDot K val C u z = 0) {c : Nat} (hlt : c < C)
    (hc : z c ≠ 0) : ∃ c', c' < C ∧ homSolution K val rows C c' ≠ 0 := by
  have hfree : ¬ ∀ c, c < C → isPivot (gauss K rows C) c = true := fun hfull =>
    hc ((M.all_isPivot_iff hinv h).1 hfull z hz c hlt)
  push Not at hfree
  obtain ⟨c', hlt', hc'⟩ := hfree
  exact ⟨c', hlt', by rw [M.homSolution_free hlt' (by simpa using hc')]; exact one_ne_zero⟩

/-- solve_inh reports whether the homogeneous system has the zero solution alone (R203). -/
theorem ComputesIn.solveInh_full_iff : (solveInh K rows C).2 = true ↔
    ∀ z : Nat → R, (∀ u ∈ rows, rowDot K val C u z = 0) → ∀ c, c < C → z c = 0 := by
  rw [← M.all_isPivot_iff hinv h]
  simp only [solveInh, List.all_eq_true, List.mem_range]

theorem ComputesIn.solveInh_valid : ∀ v ∈ (solveInh K rows C).1, Valid v := by
  obtain ⟨hM, -⟩ := M.gauss_spec hinv h C
  intro v hv
  obtain ⟨c, -, rfl⟩ := List.mem_map.1 hv
  split
  · exact M.valid_zero
  · next r hf => exact M.valid_coef (hM.isRow r (List.mem_of_find?_eq_some hf)).valid C

/-- solve_inh gives the solution of a consistent system whose unknowns are all pivoted (R203). -/
theorem ComputesIn.solveInh_eq_of_full (hfull : (solveInh K rows C).2 = true) {z : Nat → R}
    (hz : ∀ u ∈ rows, rowDot K val C u z = val (coef K u C)) {c : Nat} (hlt : c < C) :
    val (coef K (solveInh K rows C).1 c) = z c := by
  obtain ⟨hM, hsol⟩ := M.gauss_spec hinv h C
  have hall : ∀ c, c < C → isPivot (gauss K rows C) c = true := by
    simpa only [solveInh, List.all_eq_true, List.mem_range] using hfull
  obtain ⟨r, hr, hc, hf⟩ := find_pivot_of_isPivot (hall c hlt)
  -- The solution with −1 in the augmented column solves the homogeneous system of C + 1 unknowns.
  have hdot : ∀ u, rowDot K val (C + 1) u (Function.update z C (-1)) = rowDot K val C u z - val (coef K u C) := fun u => by
    rw [rowDot, Finset.sum_range_succ, Function.update_self, mul_neg_one, ← sub_eq_add_neg, rowDot]
    congr 1
    refine Finset.sum_congr rfl fun c hc => ?_
    rw [Function.update_of_ne (Finset.mem_range.1 hc).ne]
  have hrow : rowDot K val (C + 1) r.entries (Function.update z C (-1)) = 0 :=
    (hsol _ _).2 (fun u hu => by rw [hdot, hz u hu, sub_self]) r hr
  rw [hdot, hM.rowDot_pivot_of_full hall hr hc, sub_eq_zero] at hrow
  rw [hrow, solveInh, coef_map_range, if_pos hlt]
  simp only [hf]

end

end

end Sys2Proof.Machine
end

section
/-! PROOFS of the family 43_codec.md, third part: what the generator polynomial, the syndromes and the two evaluation decoders
compute when the field operations compute in a field whose nonzero elements they invert (43_codec.md R204, R206, R210, R214 to
R218, R222). Every lemma is about any field operations. -/

namespace Sys2Proof.Machine

/-- Where every item has a value with a property, so has the whole list. -/
theorem exists_mapRaise_of_forall {β γ : Type} {f : β → Except ErrCode γ} {P : β → γ → Prop} {l : List β}
    (h : ∀ b ∈ l, ∃ v, f b = .ok v ∧ P b v) : ∃ vs, mapRaise f l = .ok vs ∧ List.Forall₂ P l vs := by
  induction l with
  | nil => exact ⟨[], rfl, .nil⟩
  | cons b l ih =>
    obtain ⟨⟨v, hv, hPv⟩, hl⟩ := List.forall_mem_cons.1 h
    obtain ⟨vs, hvs, hPvs⟩ := ih hl
    exact ⟨v :: vs, by simp only [mapRaise, hv, hvs], .cons hPv hPvs⟩

section
open Polynomial

/-! Polynomials that agree at points (R222) -/

section
variable {R : Type} [Field R]

theorem degree_mul_lt_of_lt {f g : R[X]} {a b : Nat} (hf : f.degree < a) (hg : g.degree < (b + 1 : Nat)) :
    (f * g).degree < (a + b : Nat) := by
  by_cases hg0 : g = 0
  · rw [hg0, mul_zero, degree_zero]; exact WithBot.bot_lt_coe _
  · rw [degree_mul, Nat.cast_add]
    have hg' : g.degree ≤ b := by
      rw [degree_eq_natDegree hg0] at hg ⊢
      norm_cast at hg ⊢
      omega
    exact WithBot.add_lt_add_of_lt_of_le (degree_ne_bot.2 hg0) hf hg'

variable {n : Nat} {x : Nat → R} (hx : Set.InjOn x (Finset.range n)) {g s : R[X]} {bad : Finset Nat}
  (hbad : bad ⊆ Finset.range n) (hgood : ∀ j, j < n → j ∉ bad → g.eval (x j) = s.eval (x j))
include hx hgood

include hbad in
/-- A combination of the interpolant and of the polynomial of all points that is shorter than the number of good points is the
same multiple of the message. -/
theorem eq_mul_of_key {u e h : R[X]} (hu : u = e * g + h * Lagrange.nodal (Finset.range n) x)
    (hdu : u.degree < (n - bad.card : Nat)) (hde : (s * e).degree < (n - bad.card : Nat)) : u = s * e := by
  have hsub : (Finset.range n \ bad : Finset Nat) ⊆ Finset.range n := Finset.sdiff_subset
  have hcard : (Finset.range n \ bad).card = n - bad.card := by
    rw [Finset.card_sdiff_of_subset hbad, Finset.card_range]
  rw [← sub_eq_zero]
  refine eq_zero_of_degree_lt_of_eval_index_eq_zero (Finset.range n \ bad) (hx.mono (Finset.coe_subset.2 hsub)) ?_ fun j hj => ?_
  · rw [hcard]; exact (degree_sub_le _ _).trans_lt (max_lt hdu hde)
  · obtain ⟨hjn, hjb⟩ := Finset.mem_sdiff.1 hj
    rw [hu, eval_sub, eval_add, eval_mul, eval_mul, eval_mul, Lagrange.eval_nodal_at_node hjn,
      hgood j (Finset.mem_range.1 hjn) hjb]
    ring

/-- The polynomial of the bad points solves the key equation: (s − g)·e vanishes at every point. -/
theorem exists_key (hg : g.degree < n) (hs : s.degree < n) {t : Nat} (ht : bad.card ≤ t) : ∃ h : R[X], h.degree < t ∧
    Lagrange.nodal bad x * g + h * Lagrange.nodal (Finset.range n) x = s * Lagrange.nodal bad x := by
  set w := Lagrange.nodal (Finset.range n) x with hw
  have hmonic : w.Monic := Lagrange.nodal_monic
  have hdw : w.degree = n := by rw [hw, Lagrange.degree_nodal, Finset.card_range]
  set f := (s - g) * Lagrange.nodal bad x with hf
  have hdf : f.degree < (n + t : Nat) := by
    refine degree_mul_lt_of_lt ((degree_sub_le _ _).trans_lt (max_lt hs hg)) ?_
    rw [Lagrange.degree_nodal]; exact_mod_cast Nat.lt_succ_of_le ht
  have hrem : f %ₘ w = 0 := by
    refine eq_zero_of_degree_lt_of_eval_index_eq_zero (Finset.range n) hx ?_ fun j hj => ?_
    · rw [Finset.card_range, ← hdw]; exact degree_modByMonic_lt f hmonic
    · have hval := congrArg (eval (x j)) (modByMonic_add_div f w)
      rw [eval_add, eval_mul, hw, Lagrange.eval_nodal_at_node hj, zero_mul, add_zero] at hval
      rw [hval, hf, eval_mul, eval_sub]
      by_cases hjb : j ∈ bad
      · rw [Lagrange.eval_nodal_at_node hjb, mul_zero]
      · rw [hgood j (Finset.mem_range.1 hj) hjb, sub_self, zero_mul]
  have hdiv := modByMonic_add_div f w
  rw [hrem, zero_add] at hdiv
  refine ⟨f /ₘ w, ?_, by linear_combination hdiv + hf⟩
  rw [← hdiv, mul_comm, degree_mul, hdw, add_comm n t, Nat.cast_add] at hdf
  exact (WithBot.add_lt_add_iff_right (WithBot.natCast_ne_bot n)).1 hdf

end

variable {α R : Type} [Field R] {K : FieldOps α} {Valid : α → Prop} {val : α → R}
  (M : ComputesIn K Valid val) (hinv : ∀ a, Valid a → a ≠ K.zero → Inverts K Valid val a)

/-! Powers, the generator polynomial and the syndromes (R206, R210) -/

section
variable [DecidableEq α]
include M

omit [DecidableEq α] in
/-- The factor x − v. -/
theorem ComputesIn.linear_spec {v : α} (hv : Valid v) :
    (∀ c ∈ [K.neg v, K.one], Valid c) ∧ polyOf val [K.neg v, K.one] = X - C (val v) := by
  refine ⟨by simp [M.valid_neg hv, M.valid_one], ?_⟩
  simp only [polyOf_cons, polyOf_nil, M.val_neg hv, M.val_one, map_neg, map_one]
  ring

include hinv

/-- pow_K with an exponent of either sign (41_field.md R128). -/
theorem ComputesIn.powK_spec {a : α} (ha : Valid a) {e : Int} (h : a ≠ K.zero ∨ 0 ≤ e) :
    ∃ v, powK K a e = .ok v ∧ Valid v ∧ val v = val a ^ e := by
  rcases le_or_gt 0 e with he | he
  · obtain ⟨hv, hval⟩ := M.powNat_spec ha e.natAbs
    refine ⟨_, powK_of_nonneg K he, hv, ?_⟩
    rw [hval, ← zpow_natCast, Int.natAbs_of_nonneg he]
  · have h0 : a ≠ K.zero := h.resolve_right (not_le.2 he)
    have hi := hinv a ha h0
    obtain ⟨hv, hval⟩ := M.powNat_spec hi.1 e.natAbs
    refine ⟨_, powK_of_neg K he h0, hv, ?_⟩
    rw [hval, val_inv_of_inverts hi, ← zpow_natCast, Int.ofNat_natAbs_of_nonpos he.le, inv_zpow', neg_neg]

/-- The loop multiplies G by the factors of its exponents. -/
theorem ComputesIn.genLoop_spec {a : α} (ha : Valid a) (count : Nat) : ∀ {j : Int} {G : List α}, IsPoly K Valid G →
    (a ≠ K.zero ∨ 0 ≤ j ∨ count = 0) → ∃ G', genLoop K a count j G = .ok G' ∧ IsPoly K Valid G' ∧
      polyOf val G' = polyOf val G * ∏ l ∈ Finset.range count, (X - C (val a ^ (j + (l : Int)))) := by
  induction count with
  | zero => exact fun {j G} hG _ => ⟨G, rfl, hG, by rw [Finset.prod_range_zero, mul_one]⟩
  | succ count ih =>
    intro j G hG h
    have h' : a ≠ K.zero ∨ 0 ≤ j := h.imp_right fun h => h.resolve_right (Nat.succ_ne_zero count)
    obtain ⟨v, hv, hvv, hval⟩ := M.powK_spec hinv ha h'
    obtain ⟨hlin, hlinval⟩ := M.linear_spec hvv
    obtain ⟨hm, hmval⟩ := M.pmul_spec hG.valid hlin
    obtain ⟨G', hG', hp, hpval⟩ := ih (j := j + 1) hm (h'.imp_right fun h => .inl (by omega))
    refine ⟨G', by simp only [genLoop, hv, hG'], hp, hpval.trans ?_⟩
    rw [hmval, hlinval, hval, Finset.prod_range_succ', Nat.cast_zero, add_zero, mul_assoc, mul_comm (X - C (val a ^ j))]
    simp only [Nat.cast_add, Nat.cast_one, add_assoc, add_comm (1 : Int)]

/-- Gen(n, k, α, i) is the product of x − α^j over its n − k exponents (R206). -/
theorem ComputesIn.genPoly_spec {a : α} (ha : Valid a) {n k : Nat} {i : Int} (h : a ≠ K.zero ∨ 0 ≤ i ∨ n - k = 0) :
    ∃ G, genPoly K n k a i = .ok G ∧ IsPoly K Valid G ∧
      polyOf val G = ∏ l ∈ Finset.range (n - k), (X - C (val a ^ (i + (l : Int)))) := by
  obtain ⟨h1, h1val⟩ := M.isPoly_one
  obtain ⟨G, hG, hp, hval⟩ := M.genLoop_spec hinv ha (n - k) h1 h
  exact ⟨G, hG, hp, by rw [hval, h1val, one_mul]⟩

/-- The syndromes are the values of the received polynomial (R210). -/
theorem ComputesIn.syndromes_spec {a : α} (ha : Valid a) {n k : Nat} {i : Int} (h : a ≠ K.zero ∨ 0 ≤ i ∨ n - k = 0) {r : List α}
    (hr : ∀ c ∈ r, Valid c) : ∃ S, syndromes K n k a i r = .ok S ∧ (∀ c ∈ S, Valid c) ∧ S.length = n - k ∧
      ∀ l, l < n - k → val (coef K S l) = (polyOf val r).eval (val a ^ (i + (l : Int))) := by
  obtain ⟨S, hS, hall⟩ := exists_mapRaise_of_forall
    (f := fun l : Nat => match powK K a (i + l) with | .error c => .error c | .ok v => .ok (peval K r v))
    (P := fun l c => Valid c ∧ val c = (polyOf val r).eval (val a ^ (i + (l : Int)))) (l := List.range (n - k)) (by
      intro l hl
      have hl := List.mem_range.1 hl
      obtain ⟨v, hv, hvv, hval⟩ := M.powK_spec hinv ha (e := i + l)
        (h.imp_right fun h => by rcases h with h | h <;> omega)
      obtain ⟨hp, hpval⟩ := M.peval_spec hvv hr
      exact ⟨_, by rw [hv], hp, by rw [hpval, hval]⟩)
  obtain ⟨hlen, hget⟩ := List.forall₂_iff_get.1 hall
  rw [List.length_range] at hlen
  have hrange : ∀ l (hl : l < S.length), Valid S[l] ∧ val S[l] = (polyOf val r).eval (val a ^ (i + (l : Int))) := by
    intro l hl
    simpa using hget l (by rw [List.length_range]; omega) hl
  refine ⟨S, hS, fun c hc => ?_, hlen.symm, fun l hl => ?_⟩
  · obtain ⟨l, hl, rfl⟩ := List.getElem_of_mem hc
    exact (hrange l hl).1
  · rw [coef_of_lt K S l (by omega)]
    exact (hrange l (by omega)).2

end

/-! The polynomial of the points (R204) -/

section
include M

omit M in
theorem map_coef_range (K : FieldOps α) (l : List α) : (List.range l.length).map (coef K l) = l := by
  apply List.ext_getElem (by simp)
  intro j _ hj
  rw [List.getElem_map, List.getElem_range, coef_of_lt K l j hj]

omit M in
theorem nodal_eq_lagrange (K : FieldOps α) (val : α → R) (l : List α) :
    nodal val l = Lagrange.nodal (Finset.range l.length) fun j => val (coef K l j) := by
  conv_lhs => rw [nodal, ← map_coef_range K l, List.map_map]
  rfl

/-- w(x) is the product of x − a_j over the points (R204). -/
theorem ComputesIn.zeroLocator_spec [DecidableEq α] {points : List α} (hp : ∀ a ∈ points, Valid a) :
    IsPoly K Valid (zeroLocator K points) ∧ polyOf val (zeroLocator K points) = nodal val points := by
  suffices h : ∀ {w : List α}, IsPoly K Valid w →
      IsPoly K Valid (points.foldl (fun w a => pmul K w [K.neg a, K.one]) w) ∧
        polyOf val (points.foldl (fun w a => pmul K w [K.neg a, K.one]) w) = polyOf val w * nodal val points by
    obtain ⟨h1, h1val⟩ := M.isPoly_one
    rw [zeroLocator, ← one_mul (nodal val points), ← h1val]
    exact h h1
  induction points with
  | nil => exact fun {w} hw => ⟨hw, (mul_one _).symm⟩
  | cons a points ih =>
    intro w hw
    obtain ⟨ha, hp⟩ := List.forall_mem_cons.1 hp
    obtain ⟨hlin, hlinval⟩ := M.linear_spec ha
    obtain ⟨hm, hmval⟩ := M.pmul_spec hw.valid hlin
    obtain ⟨h1, h2⟩ := ih hp hm
    refine ⟨h1, h2.trans ?_⟩
    rw [hmval, hlinval, mul_assoc]
    rfl

theorem ComputesIn.zeroLocator_ne_zero [DecidableEq α] {points : List α} (hp : ∀ a ∈ points, Valid a) :
    polyOf val (zeroLocator K points) ≠ 0 := by
  rw [(M.zeroLocator_spec hp).2, nodal_eq_lagrange K]
  exact Lagrange.nodal_monic.ne_zero

theorem ComputesIn.zeroLocator_degree [DecidableEq α] {points : List α} (hp : ∀ a ∈ points, Valid a) :
    IsPoly K Valid (zeroLocator K points) ∧ (polyOf val (zeroLocator K points)).degree = points.length ∧
      (zeroLocator K points).length = points.length + 1 := by
  obtain ⟨hw, hwval⟩ := M.zeroLocator_spec hp
  have hdeg : (polyOf val (zeroLocator K points)).degree = points.length := by
    rw [hwval, nodal_eq_lagrange K, Lagrange.degree_nodal, Finset.card_range]
  refine ⟨hw, hdeg, (zeroLocator_length_le K points).antisymm (not_lt.1 fun hlt => ?_)⟩
  exact (hdeg ▸ (M.length_le_iff hw points.length).1 (Nat.le_of_lt_succ hlt)).false

/-- Distinct points have distinct values. -/
theorem ComputesIn.injOn_coef {points : List α} (hp : ∀ a ∈ points, Valid a) (hnd : points.Nodup) :
    Set.InjOn (fun j => val (coef K points j)) (Finset.range points.length) := by
  intro i hi j hj he
  have hi := Finset.mem_range.1 hi
  have hj := Finset.mem_range.1 hj
  have he := M.val_inj (M.valid_coef hp i) (M.valid_coef hp j) he
  rw [coef_of_lt K _ i hi, coef_of_lt K _ j hj] at he
  exact hnd.getElem_inj_iff.1 he

variable [DecidableEq α]
include hinv

/-- The quotient of a multiple is the cofactor. -/
theorem ComputesIn.pdivmod_of_eq_mul {f g : List α} (hf : IsPoly K Valid f) (hg : IsPoly K Valid g) (hne : g ≠ []) {s : R[X]}
    (h : polyOf val f = s * polyOf val g) : ∃ q r, pdivmod K f g = .ok (q, r) ∧ IsPoly K Valid q ∧ polyOf val q = s := by
  obtain ⟨q, r, hx, hq, hr, hlt, heq⟩ := M.pdivmod_spec hinv hf hg hne
  have hrem : polyOf val r = (s - polyOf val q) * polyOf val g := by rw [sub_mul, ← h, ← heq]; ring
  have hr0 : polyOf val r = 0 :=
    eq_zero_of_dvd_of_degree_lt (hrem ▸ dvd_mul_left _ _) (M.degree_lt_degree hr hg hlt)
  have hg0 : polyOf val g ≠ 0 := mt (M.polyOf_eq_zero_iff hg).1 hne
  rw [hr0] at hrem
  exact ⟨q, r, hx, hq, (sub_eq_zero.1 ((mul_eq_zero.1 hrem.symm).resolve_right hg0)).symm⟩

end

/-! A received word of the evaluation code (R222) -/

/-- The word is within the radius of R222: distinct points, a message s of degree less than k, and the word is the value of s at
every point but at most t = ⌊(n−k)/2⌋ bad ones. -/
structure WithinRadius (K : FieldOps α) (Valid : α → Prop) (val : α → R) (k : Nat) (points word : List α) (s : R[X])
    (bad : Finset Nat) : Prop where
  valid_points : ∀ a ∈ points, Valid a
  valid_word : ∀ y ∈ word, Valid y
  nodup : points.Nodup
  k_le : k ≤ points.length
  degree : s.degree < k
  bad_subset : bad ⊆ Finset.range points.length
  bad_card : bad.card ≤ maxErrors points.length k
  right : ∀ j, j < points.length → j ∉ bad → s.eval (val (coef K points j)) = val (coef K word j)

section
variable [DecidableEq α] {k : Nat} {points word : List α} {s : R[X]} {bad : Finset Nat}
  (h : WithinRadius K Valid val k points word s bad)
include M h

include hinv in
/-- The interpolant of the word has at most n coefficients, and the values of s at the good points (R205). -/
theorem ComputesIn.exists_interpolant : ∃ g, pinterp K points word = .ok g ∧ IsPoly K Valid g ∧ g.length ≤ points.length ∧
    ∀ j, j < points.length → j ∉ bad → (polyOf val g).eval (val (coef K points j)) = s.eval (val (coef K points j)) := by
  obtain ⟨g, hg, hp, heval⟩ := M.pinterp_spec hinv h.valid_points h.valid_word h.nodup
  exact ⟨g, hg, hp, pinterp_length_le K hg, fun j hj hjb => (heval j hj).trans (h.right j hj hjb).symm⟩

variable {g : List α}
  (hgood : ∀ j, j < points.length → j ∉ bad → (polyOf val g).eval (val (coef K points j)) = s.eval (val (coef K points j)))
include hgood

/-- What both decoders divide: a combination of g and w of degree less than k + t is the multiple of s by the coefficient e of g,
where e has degree at most n − k − t. -/
theorem ComputesIn.eq_mul_of_combination {u e c : R[X]} (hu : u = e * polyOf val g + c * polyOf val (zeroLocator K points))
    (hdu : u.degree < (k + maxErrors points.length k : Nat))
    (hde : e.degree < (points.length - k - maxErrors points.length k + 1 : Nat)) : u = s * e := by
  have hk := h.k_le
  have hcard := h.bad_card
  have ht : k + maxErrors points.length k ≤ points.length - bad.card := by unfold maxErrors at *; omega
  have hsum : k + (points.length - k - maxErrors points.length k) ≤ points.length - bad.card := by
    unfold maxErrors at *; omega
  refine eq_mul_of_key (M.injOn_coef h.valid_points h.nodup) h.bad_subset hgood (h := c) ?_ (hdu.trans_le (by exact_mod_cast ht))
    ((degree_mul_lt_of_lt h.degree hde).trans_le (by exact_mod_cast hsum))
  rw [hu, (M.zeroLocator_spec h.valid_points).2, nodal_eq_lagrange K]

end

/-! The linear-algebra decoder (R214, R216) -/

/-- The unknowns of the key system: the coefficients of e, then those of h (R214). -/
noncomputable def keyVector (t : Nat) (e h : R[X]) (c : Nat) : R := if c < t + 1 then e.coeff c else h.coeff (c - (t + 1))

/-- A row of the key system (R214). -/
def keyRow (K : FieldOps α) (t : Nat) (g w : List α) (d : Nat) : List α :=
  (List.range (t + 1)).map (coefSub K g d) ++ (List.range t).map (coefSub K w d)

theorem keyRows_eq (K : FieldOps α) (n k : Nat) (g w : List α) : keyRows K n k g w =
    (List.range (n - k)).map fun l => keyRow K (maxErrors n k) g w (k + maxErrors n k + l) := rfl

theorem coef_append_left (K : FieldOps α) (u v : List α) {c : Nat} (hc : c < u.length) :
    coef K (u ++ v) c = coef K u c := List.getD_append u v K.zero c hc

theorem coef_append_right (K : FieldOps α) (u v : List α) (c : Nat) : coef K (u ++ v) (u.length + c) = coef K v c := by
  rw [coef, List.getD_append_right u v K.zero _ (Nat.le_add_right _ _), Nat.add_sub_cancel_left, coef]

section
include M

/-- A coefficient of a product with a factor of fewer than N ≤ d + 1 coefficients. -/
theorem ComputesIn.coeff_mul_polyOf (g : List α) {e : R[X]} {N d : Nat} (hN : N ≤ d + 1) (he : e.degree < N) :
    (e * polyOf val g).coeff d = ∑ j ∈ Finset.range N, val (coefSub K g d j) * e.coeff j := by
  rw [coeff_mul, Finset.Nat.sum_antidiagonal_eq_sum_range_succ_mk]
  refine ((Finset.sum_subset (Finset.range_mono hN) fun j _ hj => ?_).trans ?_).symm
  · rw [(degree_lt_iff_coeff_zero _ _).1 he j (by simpa using hj), mul_zero]
  · refine Finset.sum_congr rfl fun j hj => ?_
    rw [coefSub, if_pos (by have := Finset.mem_range.1 hj; omega), mul_comm, M.coeff_polyOf]

/-- The row of the key system for d says that the coefficient of x^d in g·e + w·h is 0 (R214). -/
theorem ComputesIn.rowDot_keyRow (g w : List α) {t d : Nat} (hd : t ≤ d) {e h : R[X]} (he : e.degree < (t + 1 : Nat))
    (hh : h.degree < t) : rowDot K val (2 * t + 1) (keyRow K t g w d) (keyVector t e h) =
      (e * polyOf val g + h * polyOf val w).coeff d := by
  rw [coeff_add, M.coeff_mul_polyOf g (by omega) he, M.coeff_mul_polyOf w (by omega) hh, rowDot,
    show 2 * t + 1 = t + 1 + t by ring, Finset.sum_range_add]
  congr 1
  · refine Finset.sum_congr rfl fun c hc => ?_
    have hc := Finset.mem_range.1 hc
    rw [keyRow, coef_append_left K _ _ (by simpa using hc), coef_map_range, if_pos hc, keyVector, if_pos hc]
  · refine Finset.sum_congr rfl fun c hc => ?_
    have hc := Finset.mem_range.1 hc
    have hright := coef_append_right K ((List.range (t + 1)).map (coefSub K g d)) ((List.range t).map (coefSub K w d)) c
    rw [List.length_map, List.length_range, coef_map_range, if_pos hc] at hright
    rw [keyRow, hright, keyVector, if_neg (by omega), Nat.add_sub_cancel_left]

theorem ComputesIn.isRow_keyRow {g w : List α} (hg : ∀ c ∈ g, Valid c) (hw : ∀ c ∈ w, Valid c) (t d : Nat) :
    IsRow Valid (2 * t + 1) (keyRow K t g w d) := by
  have hsub : ∀ {f : List α}, (∀ c ∈ f, Valid c) → ∀ j, Valid (coefSub K f d j) := fun hf j => by
    unfold coefSub; split
    · exact M.valid_coef hf _
    · exact M.valid_zero
  refine ⟨List.forall_mem_append.2 ⟨List.forall_mem_map.2 fun j _ => hsub hg j, List.forall_mem_map.2 fun j _ => hsub hw j⟩, ?_⟩
  rw [keyRow, List.length_append, List.length_map, List.length_map, List.length_range, List.length_range]
  omega

end

theorem rowDot_congr (K : FieldOps α) (val : α → R) {N : Nat} (u : List α) {z z' : Nat → R} (h : ∀ c, c < N → z c = z' c) :
    rowDot K val N u z = rowDot K val N u z' :=
  Finset.sum_congr rfl fun c hc => by rw [h c (Finset.mem_range.1 hc)]

theorem coef_take (K : FieldOps α) (u : List α) {t c : Nat} (hc : c < t) : coef K (u.take t) c = coef K u c := by
  rw [coef, coef, List.getD_eq_getElem?_getD, List.getD_eq_getElem?_getD, List.getElem?_take_of_lt hc]

theorem coef_drop (K : FieldOps α) (u : List α) (t c : Nat) : coef K (u.drop t) c = coef K u (t + c) := by
  rw [coef, coef, List.getD_eq_getElem?_getD, List.getD_eq_getElem?_getD, List.getElem?_drop]

section
variable [DecidableEq α]
include M

/-- The polynomials that lakey takes from the solution have the solution as their coefficients (R214). -/
theorem ComputesIn.keyVector_take_drop (z : List α) {t c : Nat} :
    keyVector t (polyOf val (trim K (z.take (t + 1)))) (polyOf val (trim K (z.drop (t + 1)))) c = val (coef K z c) := by
  rw [keyVector, M.polyOf_trim, M.polyOf_trim, M.coeff_polyOf, M.coeff_polyOf, coef_drop]
  split
  · next hc => rw [coef_take K z hc]
  · next hc => rw [Nat.add_sub_cancel' (not_lt.1 hc)]

omit [DecidableEq α] in
/-- A solution of the key system makes g·e + w·h shorter than k + t (R214). -/
theorem ComputesIn.degree_lt_of_keyRows {n k : Nat} {g w : List α} (hg : g.length ≤ n) (hw : w.length ≤ n + 1) {e h : R[X]}
    (he : e.degree < (maxErrors n k + 1 : Nat)) (hh : h.degree < maxErrors n k)
    (hsol : ∀ u ∈ keyRows K n k g w, rowDot K val (2 * maxErrors n k + 1) u (keyVector (maxErrors n k) e h) = 0) :
    (e * polyOf val g + h * polyOf val w).degree < (k + maxErrors n k : Nat) := by
  rw [keyRows_eq, List.forall_mem_map] at hsol
  refine (degree_lt_iff_coeff_zero _ _).2 fun d hd => ?_
  by_cases hdn : d < n + maxErrors n k
  · have hrow := hsol (d - (k + maxErrors n k)) (List.mem_range.2 (by omega))
    rwa [Nat.add_sub_cancel' hd, M.rowDot_keyRow g w (by omega) he hh] at hrow
  · have hgd := (M.degree_polyOf_lt g).trans_le (WithBot.coe_le_coe.2 hg)
    have hwd := (M.degree_polyOf_lt w).trans_le (WithBot.coe_le_coe.2 hw)
    have h1 := degree_mul_lt_of_lt hgd he
    have h2 := degree_mul_lt_of_lt hh hwd
    rw [mul_comm, add_comm n] at h1
    exact (degree_lt_iff_coeff_zero _ _).1 ((degree_add_le _ _).trans_lt (max_lt h1 h2)) d (by omega)

variable {k : Nat} {points word : List α} {s : R[X]} {bad : Finset Nat} (h : WithinRadius K Valid val k points word s bad)
include h

/-- Within the radius the key system has a nonzero solution: e vanishes at the bad points (R222). -/
theorem ComputesIn.exists_keyVector {g : List α} (hgl : g.length ≤ points.length)
    (hgood : ∀ j, j < points.length → j ∉ bad →
      (polyOf val g).eval (val (coef K points j)) = s.eval (val (coef K points j))) :
    ∃ z : Nat → R, (∀ u ∈ keyRows K points.length k g (zeroLocator K points),
      rowDot K val (2 * maxErrors points.length k + 1) u z = 0) ∧
      ∃ c, c < 2 * maxErrors points.length k + 1 ∧ z c ≠ 0 := by
  have hcard := h.bad_card
  have hk : (k : WithBot Nat) ≤ points.length := WithBot.coe_le_coe.2 h.k_le
  have hgd := (M.degree_polyOf_lt g).trans_le (WithBot.coe_le_coe.2 hgl)
  obtain ⟨c, hc, hkey⟩ := exists_key (M.injOn_coef h.valid_points h.nodup) hgood hgd (h.degree.trans_le hk) hcard
  rw [← nodal_eq_lagrange K, ← (M.zeroLocator_spec h.valid_points).2] at hkey
  set e := Lagrange.nodal bad fun j => val (coef K points j) with he
  have hed : e.degree < (maxErrors points.length k + 1 : Nat) := by
    rw [he, Lagrange.degree_nodal]; exact_mod_cast Nat.lt_succ_of_le hcard
  refine ⟨keyVector (maxErrors points.length k) e c, ?_, bad.card, by omega, ?_⟩
  · rw [keyRows_eq, List.forall_mem_map]
    intro l _
    rw [M.rowDot_keyRow _ _ (by omega) hed hc, hkey]
    exact (degree_lt_iff_coeff_zero _ _).1 (degree_mul_lt_of_lt h.degree hed) _ (by omega)
  · have hmonic : e.coeff bad.card = 1 := by
      rw [← Lagrange.natDegree_nodal (s := bad) (v := fun j => val (coef K points j))]
      exact Lagrange.nodal_monic.coeff_natDegree
    rw [keyVector, if_pos (Nat.lt_succ_of_le hcard), hmonic]
    exact one_ne_zero

/-- A nonzero solution of the key system has a nonzero e with g·e + w·h = s·e (R222). -/
theorem ComputesIn.key_of_solution {g e b : List α} (hgl : g.length ≤ points.length)
    (hgood : ∀ j, j < points.length → j ∉ bad →
      (polyOf val g).eval (val (coef K points j)) = s.eval (val (coef K points j)))
    (he : IsPoly K Valid e) (hel : e.length ≤ maxErrors points.length k + 1) (hb : IsPoly K Valid b)
    (hbl : b.length ≤ maxErrors points.length k)
    (hsol : ∀ u ∈ keyRows K points.length k g (zeroLocator K points), rowDot K val (2 * maxErrors points.length k + 1) u
      (keyVector (maxErrors points.length k) (polyOf val e) (polyOf val b)) = 0)
    {c : Nat} (hne : keyVector (maxErrors points.length k) (polyOf val e) (polyOf val b) c ≠ 0) : e ≠ [] ∧
      polyOf val e * polyOf val g + polyOf val b * polyOf val (zeroLocator K points) = s * polyOf val e := by
  have hk := h.k_le
  have ht : 2 * maxErrors points.length k ≤ points.length - k := by unfold maxErrors; omega
  have hed := (M.length_le_iff he _).1 hel
  have hdeg := M.degree_lt_of_keyRows hgl (zeroLocator_length_le K points) hed ((M.length_le_iff hb _).1 hbl) hsol
  have hmul := M.eq_mul_of_combination h hgood rfl hdeg (hed.trans_le (Nat.cast_le.2 (by omega)))
  refine ⟨fun he0 => hne ?_, hmul⟩
  -- With e = 0 also w·h = 0, so the solution would be 0.
  rw [he0, polyOf_nil, zero_mul, zero_add, mul_zero] at hmul
  rw [he0, (mul_eq_zero.1 hmul).resolve_right (M.zeroLocator_ne_zero h.valid_points)]
  unfold keyVector
  split <;> rfl

include hinv

/-- Within the radius the solution that lakey takes has a nonzero e with g·e + w·h = s·e (R214, R222). -/
theorem ComputesIn.lakeySolve_spec : ∃ sol, lakeySolve K points.length k points word = .ok sol ∧ IsPoly K Valid sol.g ∧
    IsPoly K Valid sol.w ∧ IsPoly K Valid sol.e ∧ IsPoly K Valid sol.h ∧ sol.e ≠ [] ∧
    polyOf val sol.e * polyOf val sol.g + polyOf val sol.h * polyOf val sol.w = s * polyOf val sol.e := by
  obtain ⟨g, hg, hgp, hgl, hgood⟩ := M.exists_interpolant hinv h
  obtain ⟨hw, -⟩ := M.zeroLocator_spec h.valid_points
  obtain ⟨y, hy, c, hc, hyc⟩ := M.exists_keyVector h hgl hgood
  have hisRow : ∀ u ∈ keyRows K points.length k g (zeroLocator K points),
      IsRow Valid (2 * maxErrors points.length k + 1) u := by
    rw [keyRows_eq]
    exact List.forall_mem_map.2 fun l _ => M.isRow_keyRow hgp.valid hw.valid _ _
  obtain ⟨c', hc', hne⟩ := M.exists_homSolution_ne_zero hinv hisRow hy hc hyc
  have hdot := fun u (hu : u ∈ keyRows K points.length k g (zeroLocator K points)) => M.rowDot_homSolution (C := 2 * maxErrors points.length k + 1)
    hinv hisRow hu
  have hvalid := M.solveHom_valid hinv hisRow (C := 2 * maxErrors points.length k + 1)
  have hlen := solveHom_length K (keyRows K points.length k g (zeroLocator K points)) (2 * maxErrors points.length k + 1)
  unfold homSolution at hne hdot
  generalize hz : solveHom K (keyRows K points.length k g (zeroLocator K points)) (2 * maxErrors points.length k + 1) = z
    at hne hdot hvalid hlen
  simp only [← M.keyVector_take_drop z (t := maxErrors points.length k)] at hne hdot
  have he : IsPoly K Valid (trim K (z.take (maxErrors points.length k + 1))) :=
    isPoly_trim fun v hv => hvalid v (List.mem_of_mem_take hv)
  have hb : IsPoly K Valid (trim K (z.drop (maxErrors points.length k + 1))) :=
    isPoly_trim fun v hv => hvalid v (List.mem_of_mem_drop hv)
  exact ⟨⟨g, zeroLocator K points, _, _⟩, by simp only [lakeySolve, hg, hz], hgp, hw, he, hb,
    M.key_of_solution h hgl hgood he ((trim_length_le K _).trans (by rw [List.length_take]; exact min_le_left _ _)) hb
      ((trim_length_le K _).trans (by rw [List.length_drop]; omega)) hdot hne⟩

/-- Within the radius the linear-algebra decoder answers the message (R216, R222). -/
theorem ComputesIn.decodeLa_spec :
    ∃ m, decodeLa K points.length k points word = .ok m ∧ IsPoly K Valid m ∧ polyOf val m = s := by
  obtain ⟨sol, hsol, hg, hw, he, hh, hne, hkey⟩ := M.lakeySolve_spec hinv h
  obtain ⟨hge, hgeval⟩ := M.pmul_spec hg.valid he.valid
  obtain ⟨hwh, hwhval⟩ := M.pmul_spec hw.valid hh.valid
  obtain ⟨hsum, hsumval⟩ := M.padd_spec hge.valid hwh.valid
  obtain ⟨q, r, hx, hq, hqval⟩ := M.pdivmod_of_eq_mul hinv hsum he hne (s := s) (by
    rw [hsumval, hgeval, hwhval, mul_comm, mul_comm (polyOf val sol.w), hkey])
  exact ⟨q, by simp only [decodeLa, hsol, hx], hq, hqval⟩

end

/-! The extended-Euclidean decoder (R217, R218) -/

/-- deg_u is k + t, whether n − k is even or odd (R217). -/
theorem degU_eq {n k : Nat} (hk : k ≤ n) : degU n k = k + maxErrors n k := by unfold degU maxErrors; omega

section
variable [DecidableEq α]
include M

/-- The Bézout coefficients of the next row. -/
theorem ComputesIn.euclidNext_sides {w g : List α} {prev cur : EuclidRow α} (hp : BezoutRow K Valid val w g prev)
    (hc : BezoutRow K Valid val w g cur) (hne : cur.rem ≠ []) (hinv : Inverts K Valid val (lc K cur.rem)) : ∃ q : R[X],
    polyOf val (euclidNext K prev cur).left = polyOf val prev.left - q * polyOf val cur.left ∧
      polyOf val (euclidNext K prev cur).right = polyOf val prev.right - q * polyOf val cur.right := by
  obtain ⟨hq, -⟩ := M.divCore_spec hp.rem hc.rem hne hinv
  obtain ⟨hql, hqlval⟩ := M.pmul_spec hq.valid hc.left.valid
  obtain ⟨hqr, hqrval⟩ := M.pmul_spec hq.valid hc.right.valid
  rw [euclidNext_eq]
  exact ⟨_, by rw [(M.psub_spec hp.left.valid hql.valid).2, hqlval], by rw [(M.psub_spec hp.right.valid hqr.valid).2, hqrval]⟩

omit M in
/-- Two successive rows of the recurrence on (w, g), w of degree n, while the remainder before the current one has degree at least
deg_u (R217): the current coefficient of g has degree at most n minus that of the remainder before it, and the two pairs of
coefficients are independent. -/
structure EeRows (K : FieldOps α) (Valid : α → Prop) (val : α → R) (w g : List α) (n du : Nat) (prev cur : EuclidRow α) :
    Prop where
  prevRow : BezoutRow K Valid val w g prev
  curRow : BezoutRow K Valid val w g cur
  fits : SideFits (n + 1) EuclidRow.right prev cur
  det : IsUnit (polyOf val prev.left * polyOf val cur.right - polyOf val cur.left * polyOf val prev.right)
  long : du + 1 ≤ prev.rem.length

include hinv

theorem ComputesIn.eeRows_next {w g : List α} {n du : Nat} {prev cur : EuclidRow α} (h : EeRows K Valid val w g n du prev cur)
    (hne : cur.rem ≠ []) (hlong : du + 1 ≤ cur.rem.length) : EeRows K Valid val w g n du cur (euclidNext K prev cur) ∧
      (euclidNext K prev cur).rem.length < cur.rem.length := by
  have hi := hinv _ (h.curRow.rem.valid_lc hne) (h.curRow.rem.lc_ne_zero hne)
  obtain ⟨hnext, hlt, -⟩ := M.euclidNext_spec h.prevRow h.curRow hne hi
  obtain ⟨q, hl, hr⟩ := M.euclidNext_sides h.prevRow h.curRow hne hi
  refine ⟨⟨h.curRow, hnext, sideFits_euclidNext (fun _ _ => rfl) h.fits hne, ?_, hlong⟩, hlt⟩
  rw [hl, hr]
  convert h.det.neg using 1
  ring

/-- The loop ends with the first remainder of degree less than deg_u (R217). -/
theorem ComputesIn.eeLoop_spec {w g : List α} {n du : Nat} (fuel : Nat) : ∀ {prev cur : EuclidRow α},
    EeRows K Valid val w g n du prev cur → cur.rem.length < fuel →
    ∃ prev', EeRows K Valid val w g n du prev' (eeLoop K du fuel prev cur) ∧
      (eeLoop K du fuel prev cur).rem.length ≤ du := by
  induction fuel with
  | zero => intro _ _ _ hf; omega
  | succ fuel ih =>
    intro prev cur h hf
    unfold eeLoop
    split
    · next hstop =>
      refine ⟨prev, h, ?_⟩
      rcases hstop with h0 | hlt
      · rw [h0]; exact Nat.zero_le _
      · omega
    · next hgo =>
      push Not at hgo
      obtain ⟨hnext, hlt⟩ := M.eeRows_next hinv h hgo.1 hgo.2
      exact ih hnext (by omega)

omit hinv in
/-- The first two rows of ee (R217). -/
theorem ComputesIn.eeRows_init {w g : List α} {n du : Nat} (hw : IsPoly K Valid w) (hwl : w.length = n + 1)
    (hg : IsPoly K Valid g) (hgl : g.length ≤ n) (hdu : du ≤ n) : EeRows K Valid val w g n du
      { rem := w, left := [K.one], right := [] } { rem := g, left := [], right := [K.one] } := by
  obtain ⟨h1, h1val⟩ := M.isPoly_one
  refine ⟨⟨hw, h1, isPoly_nil, ?_⟩, ⟨hg, isPoly_nil, h1, ?_⟩, ⟨Nat.zero_le _, Nat.le_add_left _ _, ?_, ?_⟩, ?_, ?_⟩
  · rw [h1val, polyOf_nil]; ring
  · rw [h1val, polyOf_nil]; ring
  · simp only [List.length_nil]; omega
  · simp only [List.length_singleton]; omega
  · rw [h1val, polyOf_nil, zero_mul, sub_zero, mul_one]; exact isUnit_one
  · dsimp only; omega

variable {k : Nat} {points word : List α} {s : R[X]} {bad : Finset Nat} (h : WithinRadius K Valid val k points word s bad)
include h

/-- The final row of ee: e1 ≠ 0 and u1 = s·e1 within the radius (R217, R222). -/
theorem ComputesIn.eeRow_spec {g : List α} (hg : IsPoly K Valid g) (hgl : g.length ≤ points.length)
    (hgood : ∀ j, j < points.length → j ∉ bad →
      (polyOf val g).eval (val (coef K points j)) = s.eval (val (coef K points j))) :
    ∃ row, eeRow K points.length k (zeroLocator K points) g = row ∧ IsPoly K Valid row.rem ∧ IsPoly K Valid row.right ∧
      row.right ≠ [] ∧ polyOf val row.rem = s * polyOf val row.right := by
  obtain ⟨hw, hwdeg, hwl⟩ := M.zeroLocator_degree h.valid_points
  have hk := h.k_le
  have ht : k + 2 * maxErrors points.length k ≤ points.length := by unfold maxErrors; omega
  have hinit := M.eeRows_init hw hwl hg hgl (du := degU points.length k) (by rw [degU_eq hk]; omega)
  obtain ⟨prev, hrows, hshort⟩ := M.eeLoop_spec hinv (g.length + 1) hinit (Nat.lt_succ_self _)
  rw [show eeLoop K (degU points.length k) (g.length + 1) _ _ = eeRow K points.length k (zeroLocator K points) g from rfl] at *
  generalize eeRow K points.length k (zeroLocator K points) g = row at hrows hshort
  obtain ⟨-, ⟨hrem, -, hright, hbez⟩, hfits, hdet, hlong⟩ := hrows
  rw [degU_eq hk] at hshort hlong
  have hroom := hfits.cur_room
  have hremd := (M.length_le_iff hrem _).1 hshort
  refine ⟨row, rfl, hrem, hright, fun h0 => ?_, ?_⟩
  · -- With e1 = 0 the remainder is a multiple of w shorter than w, so both coefficients would be 0.
    rw [h0, polyOf_nil, zero_mul, add_zero] at hbez
    have hrem0 : polyOf val row.rem = 0 := by
      refine eq_zero_of_dvd_of_degree_lt (hbez ▸ dvd_mul_left _ _) (hremd.trans_le ?_)
      rw [hwdeg]; exact Nat.cast_le.2 (by omega)
    have hw0 := M.zeroLocator_ne_zero h.valid_points
    rw [hrem0] at hbez
    rw [h0, polyOf_nil, mul_zero, (mul_eq_zero.1 hbez).resolve_right hw0, zero_mul, sub_zero] at hdet
    exact not_isUnit_zero hdet
  · refine M.eq_mul_of_combination h hgood (c := polyOf val row.left) (by rw [← hbez, add_comm]) hremd ?_
    exact (M.length_le_iff hright _).1 (by omega)

/-- Within the radius the extended-Euclidean decoder answers the message (R218, R222). -/
theorem ComputesIn.decodeEe_spec :
    ∃ m, decodeEe K points.length k points word = .ok m ∧ IsPoly K Valid m ∧ polyOf val m = s := by
  obtain ⟨g, hg, hgp, hgl, hgood⟩ := M.exists_interpolant hinv h
  obtain ⟨row, hrow, hrem, hright, hne, hmul⟩ := M.eeRow_spec hinv h hgp hgl hgood
  obtain ⟨q, r, hx, hq, hqval⟩ := M.pdivmod_of_eq_mul hinv hrem hright hne hmul
  exact ⟨q, by simp only [decodeEe, hg, hrow, hx], hq, hqval⟩

end

end

end Sys2Proof.Machine
end

section
/-! PROOFS of the family 43_codec.md, fourth part: what the steps of the BCH decoder compute when the field operations compute in
a field whose nonzero elements they invert (43_codec.md R212, R219 to R223). Every lemma is about any field operations. -/

namespace Sys2Proof.Machine

section
open Polynomial

/-! Sums of powers -/

section
variable {R : Type} [Field R] (T : Finset Nat) (c x : Nat → R)

/-- The sum of the l-th powers of the x_j with the weights c_j. -/
noncomputable def powerSum (l : Nat) : R := ∑ j ∈ T, c j * x j ^ l

theorem sum_powerSum_mul_coeff {P : R[X]} {v : Nat} (hP : P.degree < v) (a : Nat) :
    ∑ b ∈ Finset.range v, powerSum T c x (a + b) * P.coeff b = ∑ j ∈ T, c j * x j ^ a * P.eval (x j) := by
  have heval : ∀ y, P.eval y = ∑ b ∈ Finset.range v, P.coeff b * y ^ b := fun y => by
    by_cases hP0 : P = 0
    · simp [hP0]
    · exact eval_eq_sum_range' ((natDegree_lt_iff_degree_lt hP0).2 hP) y
  simp only [powerSum, Finset.sum_mul, heval, Finset.mul_sum]
  rw [Finset.sum_comm]
  refine Finset.sum_congr rfl fun j _ => Finset.sum_congr rfl fun b _ => ?_
  ring

variable {T c x}

/-- Weights of distinct x_j whose first sums of powers are 0 are 0. -/
theorem eq_zero_of_powerSum (hx : Set.InjOn x T) (h : ∀ a, a < T.card → powerSum T c x a = 0) {i : Nat} (hi : i ∈ T) :
    c i = 0 := by
  have hcard : 0 < T.card := Finset.card_pos.2 ⟨i, hi⟩
  have hsum := sum_powerSum_mul_coeff T c x (P := Lagrange.basis T x i) (v := T.card) (by
    rw [Lagrange.degree_basis hx hi]; exact Nat.cast_lt.2 (by omega)) 0
  rw [Finset.sum_eq_zero fun b hb => by rw [zero_add, h b (Finset.mem_range.1 hb), zero_mul],
    Finset.sum_eq_single_of_mem i hi fun j hj hji => by rw [Lagrange.eval_basis_of_ne hji.symm hj, mul_zero],
    Lagrange.eval_basis_self hx hi, pow_zero, mul_one, mul_one] at hsum
  exact hsum.symm

/-- The Hankel matrix of more rows than there are x_j maps the coefficients of the product of the X − x_j to 0 (R212). -/
theorem hankel_nodal {v : Nat} (hv : T.card < v) (a : Nat) :
    ∑ b ∈ Finset.range v, powerSum T c x (a + b) * (Lagrange.nodal T x).coeff b = 0 := by
  rw [sum_powerSum_mul_coeff T c x (by rw [Lagrange.degree_nodal]; exact Nat.cast_lt.2 hv)]
  exact Finset.sum_eq_zero fun j hj => by rw [Lagrange.eval_nodal_at_node hj, mul_zero]

theorem coeff_nodal_card : (Lagrange.nodal T x).coeff T.card = 1 := by
  rw [← Lagrange.natDegree_nodal (s := T) (v := x)]
  exact Lagrange.nodal_monic.coeff_natDegree

/-- The Hankel matrix with as many rows as there are x_j, of nonzero weights, is nonsingular (R212). -/
theorem eq_zero_of_hankel (hx : Set.InjOn x T) (hc : ∀ j ∈ T, c j ≠ 0) {z : Nat → R}
    (h : ∀ a, a < T.card → ∑ b ∈ Finset.range T.card, powerSum T c x (a + b) * z b = 0) {b : Nat} (hb : b < T.card) :
    z b = 0 := by
  set P : R[X] := ∑ b ∈ Finset.range T.card, monomial b (z b) with hP
  have hcoeff : ∀ b, b < T.card → P.coeff b = z b := fun b hb => by
    rw [hP, finsetSum_coeff, Finset.sum_eq_single_of_mem b (Finset.mem_range.2 hb) fun j _ hj => coeff_monomial_of_ne _ hj.symm,
      coeff_monomial_same]
  have hdeg : P.degree < T.card := by
    refine (degree_lt_iff_coeff_zero _ _).2 fun d hd => ?_
    rw [hP, finsetSum_coeff]
    exact Finset.sum_eq_zero fun j hj => coeff_monomial_of_ne _ (by have := Finset.mem_range.1 hj; omega)
  have heval : ∀ j ∈ T, P.eval (x j) = 0 := fun j hj => by
    have hz := eq_zero_of_powerSum (c := fun j => c j * P.eval (x j)) hx (fun a ha => ?_) hj
    · exact (mul_eq_zero.1 hz).resolve_left (hc j hj)
    · have hsum := sum_powerSum_mul_coeff T c x hdeg a
      rw [Finset.sum_congr rfl fun b hb => by rw [hcoeff b (Finset.mem_range.1 hb)], h a ha] at hsum
      rw [hsum]
      exact Finset.sum_congr rfl fun j _ => mul_right_comm _ _ _
  rw [← hcoeff b hb, eq_zero_of_degree_lt_of_eval_index_eq_zero T hx hdeg heval, coeff_zero]

end

variable {α R : Type} [Field R] {K : FieldOps α} {Valid : α → Prop} {val : α → R}
  (M : ComputesIn K Valid val) (hinv : ∀ a, Valid a → a ≠ K.zero → Inverts K Valid val a)

/-! The error locator (R212) -/

/-- Row a of the Hankel system (R212). -/
def hankelRow (K : FieldOps α) (S : List α) (v a : Nat) : List α :=
  (List.range v).map (fun b => coef K S (a + b)) ++ [K.neg (coef K S (v + a))]

theorem hankelRows_eq (K : FieldOps α) (S : List α) (v : Nat) : hankelRows K S v = (List.range v).map (hankelRow K S v) := rfl

theorem coef_hankelRow (K : FieldOps α) (S : List α) {v b : Nat} (a : Nat) (hb : b < v) :
    coef K (hankelRow K S v a) b = coef K S (a + b) := by
  rw [hankelRow, coef_append_left K _ _ (by simpa using hb), coef_map_range, if_pos hb]

theorem coef_hankelRow_self (K : FieldOps α) (S : List α) (v a : Nat) :
    coef K (hankelRow K S v a) v = K.neg (coef K S (v + a)) := by
  simpa [hankelRow] using coef_append_right K ((List.range v).map fun b => coef K S (a + b)) [K.neg (coef K S (v + a))] 0

section
include M

theorem ComputesIn.isRow_hankelRow {S : List α} (hS : ∀ c ∈ S, Valid c) (v a : Nat) :
    IsRow Valid (v + 1) (hankelRow K S v a) := by
  refine ⟨List.forall_mem_append.2 ⟨List.forall_mem_map.2 fun b _ => M.valid_coef hS _, ?_⟩, by simp [hankelRow]⟩
  simpa using M.valid_neg (M.valid_coef hS _)

/-- What the locator takes from the solution z: the reverse of the monic polynomial with the lower coefficients z (R212). -/
theorem ComputesIn.polyOf_locator [DecidableEq α] {z : List α} {P : R[X]} (hP : P.natDegree = z.length) (hm : P.Monic)
    (hz : ∀ b, b < z.length → val (coef K z b) = P.coeff b) : polyOf val (trim K (K.one :: z.reverse)) = P.reverse := by
  rw [M.polyOf_trim]
  ext d
  rw [M.coeff_polyOf, coeff_reverse, hP]
  rcases d with _ | d
  · rw [coef_cons_zero, M.val_one, revAt_le (Nat.zero_le _), Nat.sub_zero, ← hP, hm.coeff_natDegree]
  rw [coef_cons_succ]
  rcases Nat.lt_or_ge d z.length with hd | hd
  · rw [revAt_le hd, ← hz _ (by omega), coef_of_lt K _ d (by rwa [List.length_reverse]), List.getElem_reverse,
      coef_of_lt K _ _ (by omega)]
    congr 2
    omega
  · rw [coef_of_length_le K _ d (by rwa [List.length_reverse]), M.val_zero, revAt_eq_self_of_lt (by omega),
      coeff_eq_zero_of_natDegree_lt (by omega)]

variable {T : Finset Nat} {c x : Nat → R} (hx : Set.InjOn x T) (hc : ∀ j ∈ T, c j ≠ 0) {S : List α} (hS : ∀ c ∈ S, Valid c)

omit M in
/-- The homogeneous Hankel system of syndromes that are sums of powers. -/
theorem rowDot_hankelRow {v a : Nat} (hsum : ∀ l, l < 2 * v → val (coef K S l) = powerSum T c x l) (ha : a < v)
    (z : Nat → R) : rowDot K val v (hankelRow K S v a) z = ∑ b ∈ Finset.range v, powerSum T c x (a + b) * z b :=
  Finset.sum_congr rfl fun b hb => by
    have hb := Finset.mem_range.1 hb
    rw [coef_hankelRow K S a hb, hsum _ (by omega)]

variable [DecidableEq α]
include hinv hx hc hS

theorem ComputesIn.hankel_full_iff {v : Nat} (hv : T.card ≤ v) (hsum : ∀ l, l < 2 * v → val (coef K S l) = powerSum T c x l) :
    (solveInh K (hankelRows K S v) v).2 = true ↔ T.card = v := by
  rw [M.solveInh_full_iff hinv (L := v + 1) (by
    rw [hankelRows_eq]; exact List.forall_mem_map.2 fun a _ => M.isRow_hankelRow hS v a), hankelRows_eq]
  simp only [List.forall_mem_map, List.mem_range]
  constructor
  · intro hzero
    by_contra hne
    have hlt := lt_of_le_of_ne hv hne
    have h0 := hzero (Lagrange.nodal T x).coeff (fun a ha => by rw [rowDot_hankelRow hsum ha, hankel_nodal hlt]) T.card hlt
    rw [coeff_nodal_card] at h0
    exact one_ne_zero h0
  · rintro rfl z hz b hb
    exact eq_zero_of_hankel hx hc (fun a ha => by rw [← rowDot_hankelRow hsum ha, hz a ha]) hb

/-- The Hankel system with as many rows as there are x_j is solved by the lower coefficients of the product of the X − x_j. -/
theorem ComputesIn.hankel_solution {v : Nat} (hv : T.card = v) (hsum : ∀ l, l < 2 * v → val (coef K S l) = powerSum T c x l)
    {b : Nat} (hb : b < v) : val (coef K (solveInh K (hankelRows K S v) v).1 b) = (Lagrange.nodal T x).coeff b := by
  have hrows : ∀ u ∈ hankelRows K S v, IsRow Valid (v + 1) u := by
    rw [hankelRows_eq]; exact List.forall_mem_map.2 fun a _ => M.isRow_hankelRow hS _ a
  refine M.solveInh_eq_of_full hinv hrows ((M.hankel_full_iff hinv hx hc hS hv.le hsum).2 hv) ?_ hb
  rw [hankelRows_eq]
  refine List.forall_mem_map.2 fun a ha => ?_
  have ha := List.mem_range.1 ha
  have hker := hankel_nodal (T := T) (c := c) (x := x) (v := v + 1) (by omega) a
  rw [Finset.sum_range_succ, ← hv, coeff_nodal_card, mul_one, hv] at hker
  rw [rowDot_hankelRow hsum ha, coef_hankelRow_self, M.val_neg (M.valid_coef hS _), hsum _ (by omega), add_comm v]
  exact eq_neg_of_add_eq_zero_left hker

/-- elp finds ν as the number of the x_j, and the locator with their inverses as its roots, when the syndromes are their sums of
powers (R212). -/
theorem ComputesIn.elpSolve_spec (t : Nat) (ht : T.card ≤ t) (hsum : ∀ l, l < 2 * t → val (coef K S l) = powerSum T c x l) :
    ∃ loc, elpSolve K S t = (loc, T.card) ∧ IsPoly K Valid loc ∧ polyOf val loc = (Lagrange.nodal T x).reverse := by
  induction t with
  | zero =>
    obtain ⟨h1, h1val⟩ := M.isPoly_one
    have hT : T = ∅ := Finset.card_eq_zero.1 (Nat.le_zero.1 ht)
    refine ⟨[K.one], by rw [hT]; rfl, h1, ?_⟩
    rw [h1val, hT, Lagrange.nodal_empty, ← C_1, reverse_C]
  | succ v ih =>
    have hiff := M.hankel_full_iff hinv hx hc hS ht hsum
    by_cases hcard : T.card = v + 1
    · have hfull := hiff.2 hcard
      have hrows : ∀ u ∈ hankelRows K S (v + 1), IsRow Valid (v + 2) u := by
        rw [hankelRows_eq]; exact List.forall_mem_map.2 fun a _ => M.isRow_hankelRow hS _ a
      have hvalid := M.solveInh_valid hinv hrows (C := v + 1)
      have hlen := solveInh_length K (hankelRows K S (v + 1)) (v + 1)
      refine ⟨trim K (K.one :: (solveInh K (hankelRows K S (v + 1)) (v + 1)).1.reverse), ?_, ?_, ?_⟩
      · rw [hcard]
        unfold elpSolve
        simp only [hfull, if_true]
      · exact isPoly_trim (List.forall_mem_cons.2 ⟨M.valid_one, fun u hu => hvalid u (List.mem_reverse.1 hu)⟩)
      · exact M.polyOf_locator (by rw [Lagrange.natDegree_nodal, hlen, hcard]) Lagrange.nodal_monic fun b hb =>
          M.hankel_solution hinv hx hc hS hcard hsum (by rwa [hlen] at hb)
    · have hfull : (solveInh K (hankelRows K S (v + 1)) (v + 1)).2 = false := by
        rw [← Bool.not_eq_true]; exact mt hiff.1 hcard
      obtain ⟨loc, hloc, h⟩ := ih (by omega) fun l hl => hsum l (by omega)
      refine ⟨loc, ?_, h⟩
      rw [← hloc]
      conv_lhs => unfold elpSolve
      simp only [hfull, if_false, Bool.false_eq_true]

end

/-! The root search (R219) -/

theorem rootPositions_eq_filter [DecidableEq α] (K : FieldOps α) (a : α) (loc : List α) (p : Nat → Bool) {l : List Nat}
    (h : ∀ j ∈ l, ∃ v, powK K a (-(j : Int)) = .ok v ∧ (peval K loc v = K.zero ↔ p j = true)) :
    rootPositions K a loc l = .ok (l.filter p) := by
  induction l with
  | nil => rfl
  | cons j l ih =>
    obtain ⟨⟨v, hv, hp⟩, hl⟩ := List.forall_mem_cons.1 h
    simp only [rootPositions, hv, ih hl, hp, List.filter_cons]

theorem eval_inv_reverse_nodal {T : Finset Nat} {x : Nat → R} {y : R} (hy : y ≠ 0) :
    (Lagrange.nodal T x).reverse.eval y⁻¹ = 0 ↔ ∃ j ∈ T, y = x j := by
  have : Invertible y := invertibleOfNonzero hy
  have hrev := eval₂_reverse_eq_zero_iff (RingHom.id R) y (Lagrange.nodal T x)
  rw [invOf_eq_inv] at hrev
  refine hrev.trans ?_
  rw [← eval, Lagrange.eval_nodal, Finset.prod_eq_zero_iff]
  simp only [sub_eq_zero]

section
variable [DecidableEq α] {a : α} {n : Nat} {T : Finset Nat}
include M hinv

/-- The root search finds the positions j whose α^j is one of the x_j (R219). -/
theorem ComputesIn.rootPositions_spec (ha : Valid a) (h0 : a ≠ K.zero)
    (hx : Set.InjOn (fun j => val a ^ j) (Finset.range n)) (hT : T ⊆ Finset.range n) {loc : List α} (hloc : IsPoly K Valid loc)
    (hval : polyOf val loc = (Lagrange.nodal T fun j => val a ^ j).reverse) :
    rootPositions K a loc (List.range n) = .ok ((List.range n).filter (· ∈ T)) := by
  have hval0 : val a ≠ 0 := mt (M.eq_zero_iff ha).2 h0
  refine rootPositions_eq_filter K a loc _ fun j hj => ?_
  obtain ⟨v, hv, hvv, hvval⟩ := M.powK_spec hinv ha (e := -(j : Int)) (.inl h0)
  obtain ⟨hp, hpval⟩ := M.peval_spec hvv hloc.valid
  refine ⟨v, hv, ?_⟩
  rw [M.eq_zero_iff hp, hpval, hval, hvval, zpow_neg, zpow_natCast, eval_inv_reverse_nodal (pow_ne_zero j hval0),
    decide_eq_true_iff]
  refine ⟨fun ⟨m, hm, he⟩ => ?_, fun hm => ⟨j, hm, rfl⟩⟩
  rwa [hx (Finset.mem_range.2 (List.mem_range.1 hj)) (hT hm) he]

/-! The magnitudes (R220) -/

omit [DecidableEq α] M hinv in
theorem toFinset_filter_range (hT : T ⊆ Finset.range n) : ((List.range n).filter (· ∈ T)).toFinset = T := by
  ext j
  simpa using fun hj => Finset.mem_range.1 (hT hj)

omit [DecidableEq α] M hinv in
theorem length_filter_range (hT : T ⊆ Finset.range n) : ((List.range n).filter (· ∈ T)).length = T.card := by
  rw [← List.toFinset_card_of_nodup (List.nodup_range.filter _), toFinset_filter_range hT]

omit M hinv [DecidableEq α] in
/-- A sum over the listed positions, by the place in the list. -/
theorem sum_filter_range (hT : T ⊆ Finset.range n) (f : Nat → R) :
    ∑ m ∈ Finset.range ((List.range n).filter (· ∈ T)).length, f (((List.range n).filter (· ∈ T)).getD m 0) = ∑ j ∈ T, f j := by
  conv_rhs => rw [← toFinset_filter_range hT, List.sum_toFinset f (List.nodup_range.filter _), ← Fin.sum_univ_fun_getElem]
  rw [Finset.sum_range]
  exact Finset.sum_congr rfl fun m _ => by rw [List.getD_eq_getElem _ _ m.2]

omit [DecidableEq α] M hinv [Field R] in
/-- What is injective on the positions is so along the list of some of them. -/
theorem injOn_getD_filter_range {x : Nat → R} (hx : Set.InjOn x (Finset.range n)) :
    Set.InjOn (fun m => x (((List.range n).filter (· ∈ T)).getD m 0))
      (Finset.range ((List.range n).filter (· ∈ T)).length) := by
  have hnd : ((List.range n).filter (· ∈ T)).Nodup := List.nodup_range.filter _
  have hmem : ∀ j ∈ (List.range n).filter (· ∈ T), j ∈ Finset.range n := fun j hj =>
    Finset.mem_range.2 (List.mem_range.1 (List.mem_filter.1 hj).1)
  generalize (List.range n).filter (· ∈ T) = J at hnd hmem
  intro m hm m' hm' he
  have hm : m < J.length := Finset.mem_range.1 hm
  have hm' : m' < J.length := Finset.mem_range.1 hm'
  dsimp only at he
  rw [List.getD_eq_getElem _ _ hm, List.getD_eq_getElem _ _ hm'] at he
  exact hnd.getElem_inj_iff.1 (hx (hmem _ (List.getElem_mem hm)) (hmem _ (List.getElem_mem hm')) he)

omit M hinv [DecidableEq α] in
/-- The entry of the magnitude system at row l and position j, in the powers of α^j. -/
theorem zpow_add_mul {y : R} (hy : y ≠ 0) (i : Int) (l j : Nat) : y ^ ((i + l) * j) = y ^ (i * j) * (y ^ j) ^ l := by
  rw [add_mul, zpow_add₀ hy, ← pow_mul, ← zpow_natCast y (j * l), Nat.cast_mul, mul_comm (l : Int)]

omit M hinv [DecidableEq α] in
/-- The values of the error polynomial at the powers of α are sums of powers over its positions. -/
theorem eval_zpow_eq_powerSum {y : R} (hy : y ≠ 0) (E : R[X]) (i : Int) (l : Nat) :
    E.eval (y ^ (i + (l : Int))) = powerSum E.support (fun j => E.coeff j * y ^ (i * j)) (fun j => y ^ j) l := by
  rw [eval_eq_sum, sum_def, powerSum]
  refine Finset.sum_congr rfl fun j _ => ?_
  rw [← zpow_natCast (y ^ _) j, ← zpow_mul, zpow_add_mul hy, mul_assoc]

/-- The rows of the magnitude system (R220). -/
theorem ComputesIn.magnitudeRows_spec (ha : Valid a) (h0 : a ≠ K.zero) {S : List α} (hS : ∀ c ∈ S, Valid c) (i : Int)
    (J : List Nat) (v : Nat) : ∃ row : Nat → List α, magnitudeRows K a i S J v = .ok ((List.range v).map row) ∧
      ∀ l, IsRow Valid (J.length + 1) (row l) ∧ coef K (row l) J.length = coef K S l ∧
        ∀ m, m < J.length → val (coef K (row l) m) = val a ^ ((i + l) * (J.getD m 0 : Nat)) := by
  have hpow : ∀ e : Int, ∃ v, powK K a e = .ok v ∧ Valid v ∧ val v = val a ^ e := fun e => M.powK_spec hinv ha (.inl h0)
  choose pw hpw hvalid hval using hpow
  refine ⟨fun l => J.map (fun j : Nat => pw ((i + l) * j)) ++ [coef K S l], mapRaise_of_forall fun l _ => ?_, fun l => ⟨⟨?_, ?_⟩, ?_, ?_⟩⟩
  · rw [mapRaise_of_forall fun j _ => hpw _]
  · exact List.forall_mem_append.2 ⟨List.forall_mem_map.2 fun j _ => hvalid _, by simpa using M.valid_coef hS l⟩
  · simp
  · simpa using coef_append_right K (J.map fun j : Nat => pw ((i + l) * j)) [coef K S l] 0
  · intro m hm
    rw [coef_append_left K _ _ (by simpa using hm), coef_of_lt K _ m (by simpa using hm), List.getElem_map, hval,
      List.getD_eq_getElem _ _ hm]

/-- The magnitudes at the positions of the errors are the errors (R220). -/
theorem ComputesIn.magnitudes_spec (ha : Valid a) (h0 : a ≠ K.zero) (hx : Set.InjOn (fun j => val a ^ j) (Finset.range n))
    {E : R[X]} (hE : E.support ⊆ Finset.range n) {S : List α} (hS : ∀ c ∈ S, Valid c) {i : Int} {J : List Nat}
    (hJ : J = (List.range n).filter (· ∈ E.support))
    (hsum : ∀ l : Nat, l < J.length → val (coef K S l) = E.eval (val a ^ (i + (l : Int)))) :
    ∃ rows, magnitudeRows K a i S J J.length = .ok rows ∧ (∀ y ∈ (solveInh K rows J.length).1, Valid y) ∧
      ∀ m, m < J.length → val (coef K (solveInh K rows J.length).1 m) = E.coeff (J.getD m 0) := by
  have hval0 : val a ≠ 0 := mt (M.eq_zero_iff ha).2 h0
  obtain ⟨row, hrows, hrow⟩ := M.magnitudeRows_spec hinv ha h0 hS i J J.length
  have hisRow : ∀ u ∈ (List.range J.length).map row, IsRow Valid (J.length + 1) u :=
    List.forall_mem_map.2 fun l _ => (hrow l).1
  have hdot : ∀ l z, rowDot K val J.length (row l) z =
      powerSum (Finset.range J.length) (fun m => z m * val a ^ (i * (J.getD m 0 : Nat))) (fun m => val a ^ J.getD m 0) l :=
    fun l z => Finset.sum_congr rfl fun m hm => by
      rw [(hrow l).2.2 m (Finset.mem_range.1 hm), zpow_add_mul hval0]
      ring
  have hinj : Set.InjOn (fun m => val a ^ J.getD m 0) (Finset.range J.length) := hJ ▸ injOn_getD_filter_range hx
  have hfull : (solveInh K ((List.range J.length).map row) J.length).2 = true := by
    refine (M.solveInh_full_iff hinv hisRow).2 fun z hz m hm => ?_
    have hz0 := eq_zero_of_powerSum (c := fun m => z m * val a ^ (i * (J.getD m 0 : Nat))) hinj (fun l hl => by
      rw [Finset.card_range] at hl
      rw [← hdot, hz _ (List.mem_map_of_mem (List.mem_range.2 hl))]) (Finset.mem_range.2 hm)
    exact (mul_eq_zero.1 hz0).resolve_right (zpow_ne_zero _ hval0)
  refine ⟨_, hrows, M.solveInh_valid hinv hisRow, fun m hm => ?_⟩
  refine M.solveInh_eq_of_full hinv hisRow hfull (z := fun m => E.coeff (J.getD m 0)) (List.forall_mem_map.2 fun l hl => ?_) hm
  rw [hdot, (hrow l).2.1, hsum l (List.mem_range.1 hl), eval_zpow_eq_powerSum hval0, hJ]
  exact sum_filter_range hE fun j => E.coeff j * val a ^ (i * (j : Int)) * (val a ^ j) ^ l

end

section
variable [DecidableEq α]
include M

/-- The error word with the magnitudes of the errors at their positions is the error polynomial (R220). -/
theorem ComputesIn.polyOf_errorWord {n : Nat} {E : R[X]} (hE : E.support ⊆ Finset.range n) {J : List Nat} {Y : List α}
    (hlen : Y.length = J.length) (hJ : ∀ j ∈ E.support, j ∈ J)
    (hY : ∀ m, m < J.length → val (coef K Y m) = E.coeff (J.getD m 0)) : polyOf val (trim K (errorWord K n J Y)) = E := by
  rw [M.polyOf_trim]
  ext d
  rw [M.coeff_polyOf, errorWord, coef_map_range]
  split
  · split
    · next hnone =>
      rw [M.val_zero, eq_comm, ← notMem_support_iff]
      intro hd
      obtain ⟨m, hm, he⟩ := List.getElem_of_mem (hJ d hd)
      have hmem : (J[m], Y[m]) ∈ J.zip Y := List.mem_iff_getElem.2 ⟨m, by simp [hlen, hm], by simp⟩
      exact List.find?_eq_none.1 hnone _ hmem (by simpa using he)
    · next jy hsome =>
      obtain ⟨m, hm, rfl⟩ := List.getElem_of_mem (List.mem_of_find?_eq_some hsome)
      have hmJ : m < J.length := by simp at hm; omega
      have hd := List.find?_some hsome
      have hY := hY m hmJ
      rw [coef_of_lt K Y m (by omega), List.getD_eq_getElem _ _ hmJ] at hY
      simp only [List.getElem_zip, beq_iff_eq] at hd ⊢
      rw [hY, hd]
  · next hd =>
    rw [M.val_zero, eq_comm, ← notMem_support_iff]
    exact fun h => hd (Finset.mem_range.1 (hE h))

omit [DecidableEq α] in
theorem ComputesIn.valid_errorWord {n : Nat} {J : List Nat} {Y : List α} (hY : ∀ y ∈ Y, Valid y) :
    ∀ y ∈ errorWord K n J Y, Valid y := by
  refine List.forall_mem_map.2 fun j _ => ?_
  split
  · exact M.valid_zero
  · next jy hsome => exact hY _ (List.of_mem_zip (List.mem_of_find?_eq_some hsome)).2

/-! A received word of the BCH code (R223) -/

omit M in
/-- The word is within the radius of R223: α has distinct powers at the n positions, the generator G vanishes at its n − k powers,
and the word is a multiple s·G with an error E at no more than t = ⌊(n−k)/2⌋ positions. -/
structure BchRadius (K : FieldOps α) (Valid : α → Prop) (val : α → R) (n k : Nat) (G : List α) (a : α) (i : Int) (r : List α)
    (s E : R[X]) : Prop where
  valid_alpha : Valid a
  alpha_ne_zero : a ≠ K.zero
  injOn : Set.InjOn (fun j => val a ^ j) (Finset.range n)
  isPoly_gen : IsPoly K Valid G
  gen_ne_nil : G ≠ []
  gen_eval : ∀ l : Nat, l < n - k → (polyOf val G).eval (val a ^ (i + (l : Int))) = 0
  isPoly_word : IsPoly K Valid r
  word_eq : polyOf val r = s * polyOf val G + E
  support : E.support ⊆ Finset.range n
  card : E.support.card ≤ maxErrors n k

variable {n k : Nat} {G : List α} {a : α} {i : Int} {r : List α} {s E : R[X]} (h : BchRadius K Valid val n k G a i r s E)
include hinv h

/-- Within the radius the steps of the BCH decoder find the error (R221, R223). -/
theorem ComputesIn.bchSteps_spec : ∃ b, bchSteps K n k a i r = .ok b ∧ (∀ y ∈ b.E, Valid y) ∧ polyOf val (trim K b.E) = E := by
  have hval0 : val a ≠ 0 := mt (M.eq_zero_iff h.valid_alpha).2 h.alpha_ne_zero
  obtain ⟨S, hS, hSv, -, hSval⟩ := M.syndromes_spec hinv h.valid_alpha (n := n) (k := k) (i := i) (.inl h.alpha_ne_zero)
    h.isPoly_word.valid
  have hsynd : ∀ l : Nat, l < 2 * maxErrors n k → val (coef K S l) = E.eval (val a ^ (i + (l : Int))) := fun l hl => by
    have hl : l < n - k := by unfold maxErrors at hl; omega
    rw [hSval l hl, h.word_eq, eval_add, eval_mul, h.gen_eval l hl, mul_zero, zero_add]
  have hcard := h.card
  obtain ⟨loc, hloc, hlocp, hlocval⟩ := M.elpSolve_spec hinv (c := fun j => E.coeff j * val a ^ (i * (j : Int)))
    (x := fun j => val a ^ j) (h.injOn.mono (Finset.coe_subset.2 h.support))
    (fun j hj => mul_ne_zero (mem_support_iff.1 hj) (zpow_ne_zero _ hval0)) hSv (maxErrors n k) hcard
    (fun l hl => by rw [hsynd l hl, eval_zpow_eq_powerSum hval0])
  have hroots := M.rootPositions_spec hinv h.valid_alpha h.alpha_ne_zero h.injOn h.support hlocp hlocval
  have hJlen := length_filter_range h.support
  generalize hJ : (List.range n).filter (· ∈ E.support) = J at hroots hJlen
  obtain ⟨rows, hrows, hYv, hY⟩ := M.magnitudes_spec hinv h.valid_alpha h.alpha_ne_zero h.injOn h.support hSv hJ.symm
    (fun l hl => hsynd l (by omega))
  rw [hJlen] at hrows
  refine ⟨⟨S, loc, E.support.card, J, errorWord K n J (solveInh K rows J.length).1⟩, ?_, M.valid_errorWord hYv, ?_⟩
  · simp only [bchSteps, hS, hloc, hroots, hrows]
  · refine M.polyOf_errorWord h.support (solveInh_length K rows J.length) (fun j hj => ?_) hY
    rw [← hJ, List.mem_filter, List.mem_range]
    exact ⟨Finset.mem_range.1 (h.support hj), by simpa using hj⟩

/-- Within the radius the BCH decoder answers the message (R221, R223). -/
theorem ComputesIn.decodeBch_spec : ∃ m, decodeBch K n k G a i r = .ok m ∧ IsPoly K Valid m ∧ polyOf val m = s := by
  obtain ⟨b, hb, hEv, hE⟩ := M.bchSteps_spec hinv h
  obtain ⟨hsub, hsubval⟩ := M.psub_spec h.isPoly_word.valid (isPoly_trim (K := K) hEv).valid
  obtain ⟨q, rem, hx, hq, hqval⟩ := M.pdivmod_of_eq_mul hinv hsub h.isPoly_gen h.gen_ne_nil (s := s) (by
    rw [hsubval, hE, h.word_eq, add_sub_cancel_right])
  exact ⟨q, by simp only [decodeBch, hb, hx], hq, hqval⟩

end

end

end Sys2Proof.Machine
end

section
/-! PROOFS of the family 43_codec.md, fifth part: the codec commands over the words of Mathlib's ZMod (43_codec.md R206, R208 to R211,
R222, R223). -/

namespace Sys2Proof.Machine

open Polynomial

/-! The operands and the codeword (10_state.md R36, R46) -/

theorem readAlpha_of_zpAlpha {s : State} (hz : InZp s) {a : Nat} (h : ZpAlpha s a) :
    s.readAlpha s.fieldCtx = .ok (natElem a) := by
  obtain ⟨hdigits, hlt⟩ := h
  rw [State.readAlpha, hdigits, fieldCtx_of_inZp hz]
  simp [elemOfDigits, FieldCtx.digits, hlt, trim, natElem, zpOps]

theorem natElem_ne_zero {p a : Nat} (h : a ≠ 0) : natElem a ≠ (primeOps p).zero := fun h0 =>
  h (natElem_injective (h0.trans (by rfl : (primeOps p).zero = natElem 0)))

/-- W[0..] after a command wrote elements of Z/pZ there and completed. -/
theorem slotsAre_complete_writeW {s : State} {vs : List Elem} (h : ∀ v ∈ vs, IsZpElem s.prime.toNat v) :
    SlotsAre ((s.writeW vs).complete .ok) (wAddr 0) (vs.map elemNat) ∧ AllBelow s.prime.toNat (vs.map elemNat) := by
  have hb : AllBelow s.prime.toNat (vs.map elemNat) := fun n hn => by
    obtain ⟨v, hv, rfl⟩ := List.mem_map.1 hn
    obtain ⟨m, hm, rfl⟩ := h v hv
    rwa [elemNat_natElem]
  have hw := slotsAre_writeW s fun n hn => (hb n hn).trans s.prime.isLt
  rw [map_natElem_elemNat h] at hw
  exact ⟨fun c hc => IsInt.congr (hw c hc) (slotDigits_complete _ _ _), hb⟩

theorem completed_writeW (s : State) (vs : List Elem) : Completed s ((s.writeW vs).complete .ok) .ok :=
  ⟨rfl, rfl, rfl, rfl, rfl, rfl⟩

theorem getD_map_elemNat (p : Nat) (vs : List Elem) (j : Nat) :
    (((vs.map elemNat).getD j 0 : Nat) : ZMod p) = zpVal p (coef (primeOps p) vs j) := by
  rw [coef, List.getD_eq_getElem?_getD, List.getD_eq_getElem?_getD, List.getElem?_map]
  cases vs[j]? <;> rfl

theorem coeff_zpPoly {p : Nat} (hp : 2 ≤ p) (g : List Nat) (d : Nat) : (zpPoly p g).coeff d = (g.getD d 0 : Nat) := by
  rw [← polyOf_map_natElem, (zp_computesIn hp).coeff_polyOf, zpVal_coef_map_natElem]

/-! Encoding (R208, R209) -/

/-- Settles O43: the codeword's entries are the values of the message at the points. -/
theorem encEvalInZpEvaluatesAtThePoints : Obligations.EncEvalInZpEvaluatesAtThePoints := by
  intro s s1 g xs hz hg hxs
  have M := zp_computesIn hz.2
  obtain ⟨G, hrg, hG, -, hGval⟩ := exists_readP_of_zpInput hz hg
  have h := exec_encEval (field_of_configOk (configOk_of_inZp hz)) (shapeN_of hxs.1) hrg (readA_of_zpPoints hz hxs)
  obtain ⟨-, -, -, hb⟩ := hxs
  rw [ops_of_inZp hz] at h
  have hx := isZpElem_map_natElem hb
  obtain ⟨hw, hwb⟩ := slotsAre_complete_writeW (s := s) (List.forall_mem_map.2 fun x hxm => (M.peval_spec (hx x hxm) hG.valid).1)
  refine ⟨_, _, h, completed_writeW _ _, by simp, hw, hwb, fun j hj => ?_, fun a ha => ?_⟩
  · have hj' : j < (xs.map natElem).length := by rwa [List.length_map]
    rw [getD_map_elemNat, coef_of_lt _ _ j (by rwa [List.length_map]), List.getElem_map,
      (M.peval_spec (hx _ (List.getElem_mem hj')) hG.valid).2, hGval, ← zpVal_coef_map_natElem, coef_of_lt _ _ j hj']
  · exact s.byte_writeW_out _ a (.inr (by rwa [List.length_map, List.length_map]))

/-- Settles O44: the codeword's entries are the coefficients of the product. -/
theorem encGenInZpMultipliesByTheGenerator : Obligations.EncGenInZpMultipliesByTheGenerator := by
  intro s s1 s2 g h hz hn hg hh hl
  have M := zp_computesIn hz.2
  obtain ⟨G, hrg, hG, hGl, hGval⟩ := exists_readP_of_zpInput hz hg
  obtain ⟨H, hrh, hH, hHl, hHval⟩ := exists_readP_of_zpInput hz hh
  obtain ⟨hm, hmval⟩ := M.pmul_spec hG.valid hH.valid
  have hml : (pmul (primeOps s.prime.toNat) G H).length ≤ s.nlen.toNat := (pmul_length_le _ G H).trans (by omega)
  have hx := exec_encGen_of_le (field_of_configOk (configOk_of_inZp hz)) (shapeN_of hn) hrg hrh (by rwa [ops_of_inZp hz])
  rw [ops_of_inZp hz] at hx
  have hv : ∀ v ∈ (List.range s.nlen.toNat).map (coef (primeOps s.prime.toNat) (pmul (primeOps s.prime.toNat) G H)),
      IsZpElem s.prime.toNat v := List.forall_mem_map.2 fun d _ => M.valid_coef hm.valid d
  obtain ⟨hw, hwb⟩ := slotsAre_complete_writeW (s := s) hv
  refine ⟨_, _, hx, completed_writeW _ _, by simp, hw, hwb, ?_⟩
  rw [← hGval, ← hHval, ← hmval]
  ext d
  rw [coeff_zpPoly hz.2, getD_map_elemNat, coef_map_range, M.coeff_polyOf]
  split
  · rfl
  · rw [coef_of_length_le _ _ d (by omega)]

/-! The generator polynomial and the syndromes (R206, R210) -/

/-- Settles O45: the loop's factors are x − α^j for its exponents. -/
theorem genpolyInZpIsTheProductOfItsRoots : Obligations.GenpolyInZpIsTheProductOfItsRoots := by
  intro p hprime s d a hz hp hnk ha
  subst hp
  have M := zp_computesIn hz.2
  have hF := field_of_configOk (configOk_of_inZp hz)
  have hrα := readAlpha_of_zpAlpha hz ha
  have hn := (shapeNK_ok (shapeNK_of hnk)).1
  refine ⟨fun hok => ?_, fun h0 hi hk => ?_⟩
  · obtain ⟨G, hgen, hG, hGval⟩ := M.genPoly_spec (zp_inverts hprime.out) (isZpElem_natElem ha.2) (n := s.nlen.toNat)
      (k := s.klen.toNat) (i := s.powi.toInt) (hok.imp natElem_ne_zero (Or.imp_right fun h => by rw [h, Nat.sub_self]))
    have h := exec_genpoly (d := d) hF (shapeNK_of hnk) hrα
    rw [ops_of_inZp hz, hgen] at h
    rw [← zpVal_natElem, ← hGval]
    exact exists_zpOutput_of_exec hz hG (by have := genPoly_length_le _ hgen; omega) h
  · subst h0
    exact ((bchCommandsComplete s s.fieldCtx d _ _ hF (shapeNK_of hnk)).1 _ hrα).2.2 (by rw [ops_of_inZp hz]; rfl) hi hk

/-- Settles O46: the syndromes are the values of the received polynomial at the powers of α. -/
theorem syndInZpEvaluatesAtThePowers : Obligations.SyndInZpEvaluatesAtThePowers := by
  intro p hprime s d a ys hz hp hnk ha hys
  subst hp
  have M := zp_computesIn hz.2
  have hF := field_of_configOk (configOk_of_inZp hz)
  have hrα := readAlpha_of_zpAlpha hz ha
  have hW := readW_of_zpWord hz hys
  have hn := (shapeNK_ok (shapeNK_of hnk)).1
  obtain ⟨-, -, -, hyb⟩ := hys
  refine ⟨fun hok => ?_, fun h0 hi hk => ?_⟩
  · obtain ⟨S, hS, hSv, hSl, hSval⟩ := M.syndromes_spec (zp_inverts hprime.out) (isZpElem_natElem ha.2) (n := s.nlen.toNat)
      (k := s.klen.toNat) (i := s.powi.toInt) (hok.imp natElem_ne_zero (Or.imp_right fun h => by rw [h, Nat.sub_self]))
      (isPoly_trim (K := primeOps s.prime.toNat) (isZpElem_map_natElem hyb)).valid
    have h := exec_synd_of_ok (d := d) (S := S) hF (shapeNK_of hnk) hrα hW (by rwa [receivedPoly, ops_of_inZp hz])
    rw [ops_of_inZp hz] at h
    obtain ⟨t, ht, hc, hout⟩ := exists_zpOutput_of_exec hz (isPoly_trim hSv)
      ((trim_length_le _ S).trans (by omega)) h
    refine ⟨t, _, ht, hc, hout, fun l => ?_⟩
    rw [M.polyOf_trim, M.coeff_polyOf]
    split
    · next hl => rw [hSval l hl, M.polyOf_trim, polyOf_map_natElem, zpVal_natElem]
    · next hl => rw [coef_of_length_le _ _ l (by omega), M.val_zero]
  · subst h0
    exact ((bchCommandsComplete s s.fieldCtx d _ _ hF (shapeNK_of hnk)).2.1 _ _ hrα hW).2.2 (by rw [ops_of_inZp hz]; rfl) hi hk

/-! The evaluation decoders (R222) -/

theorem cast_foldr_eq_eval (p : Nat) (msg : List Nat) (x : Nat) :
    ((msg.foldr (fun c acc => c + x * acc) 0 : Nat) : ZMod p) = (zpPoly p msg).eval (x : ZMod p) := by
  rw [zpPoly_eq_polyOf]
  induction msg with
  | nil => rw [List.foldr_nil, Nat.cast_zero, polyOf_nil, eval_zero]
  | cons c msg ih =>
    rw [List.foldr_cons, Nat.cast_add, Nat.cast_mul, ih, polyOf_cons, eval_add, eval_C, eval_mul, eval_X]

theorem degree_zpPoly_lt {p : Nat} (hp : 2 ≤ p) (g : List Nat) : (zpPoly p g).degree < g.length := by
  rw [← polyOf_map_natElem]
  exact ((zp_computesIn hp).degree_polyOf_lt _).trans_eq (by rw [List.length_map])

/-- A word with at most t wrong positions is within the radius of the evaluation decoders. -/
theorem exists_withinRadius {s : State} [hp : Fact s.prime.toNat.Prime] {msg xs ys : List Nat} (hnk : ShapeNK s)
    (hxs : ZpPoints s xs) (hys : ZpWord s ys) (hnd : xs.Nodup) (hmsg : msg.length ≤ s.klen.toNat)
    (herr : errorCount s.prime.toNat msg xs ys ≤ maxErrors s.nlen.toNat s.klen.toNat) :
    ∃ bad, WithinRadius (primeOps s.prime.toNat) (IsZpElem s.prime.toNat) (zpVal s.prime.toNat) s.klen.toNat (xs.map natElem)
      (ys.map natElem) (zpPoly s.prime.toNat msg) bad := by
  obtain ⟨-, hlen, -, hxb⟩ := hxs
  obtain ⟨-, -, -, hyb⟩ := hys
  have hmap : (xs.map natElem).length = xs.length := List.length_map _
  rw [← hlen] at herr
  refine ⟨((List.range xs.length).filter fun j =>
    ys.getD j 0 % s.prime.toNat != msg.foldr (fun c acc => c + xs.getD j 0 * acc) 0 % s.prime.toNat).toFinset,
    { valid_points := isZpElem_map_natElem hxb
      valid_word := isZpElem_map_natElem hyb
      nodup := hnd.map natElem_injective
      k_le := by rw [hmap, hlen]; exact (shapeNK_ok (shapeNK_of hnk)).2
      degree := (degree_zpPoly_lt hp.out.two_le msg).trans_le (Nat.cast_le.2 hmsg)
      bad_subset := fun j hj => ?_
      bad_card := by rw [hmap]; exact (List.toFinset_card_le _).trans herr
      right := fun j hj hgood => ?_ }⟩
  · rw [List.mem_toFinset, List.mem_filter, List.mem_range] at hj
    rw [hmap]; exact Finset.mem_range.2 hj.1
  · rw [List.mem_toFinset, List.mem_filter, List.mem_range, not_and, bne_iff_ne, not_not] at hgood
    rw [zpVal_coef_map_natElem, zpVal_coef_map_natElem, ← cast_foldr_eq_eval]
    exact ((ZMod.natCast_eq_natCast_iff' _ _ _).2 (hgood (hmap ▸ hj))).symm

/-- Settles O47: the key equation of R214 finds the message within the radius. -/
theorem decLaInZpCorrectsUpToTErrors : Obligations.DecLaInZpCorrectsUpToTErrors := by
  intro s d msg xs ys hz hprime hnk hxs hys hnd hmsg _ herr
  have : Fact s.prime.toNat.Prime := ⟨hprime⟩
  have h := exec_decLa (d := d) (field_of_configOk (configOk_of_inZp hz)) (readA_of_zpPoints hz hxs) (readW_of_zpWord hz hys)
    (shapeNK_of hnk)
  obtain ⟨hn, -⟩ := shapeNK_ok (shapeNK_of hnk)
  obtain ⟨bad, hr⟩ := exists_withinRadius hnk hxs hys hnd hmsg herr
  obtain ⟨-, hlen, -, -⟩ := hxs
  obtain ⟨m, hm, hmp, hmval⟩ := (zp_computesIn hz.2).decodeLa_spec (zp_inverts hprime) hr
  have hml := decodeLa_length_le _ hm
  rw [List.length_map, hlen] at hm hml
  rw [ops_of_inZp hz, hm] at h
  rw [← hmval]
  exact exists_zpOutput_of_exec hz hmp (by have := maxErrors_le s.nlen.toNat s.klen.toNat; omega) h

/-- Settles O48: the extended-Euclidean recurrence of R217 finds the message within the radius. -/
theorem decEeInZpCorrectsUpToTErrors : Obligations.DecEeInZpCorrectsUpToTErrors := by
  intro s d msg xs ys hz hprime hnk hxs hys hnd hmsg _ herr
  have : Fact s.prime.toNat.Prime := ⟨hprime⟩
  have h := exec_decEe (d := d) (field_of_configOk (configOk_of_inZp hz)) (readA_of_zpPoints hz hxs) (readW_of_zpWord hz hys)
    (shapeNK_of hnk)
  obtain ⟨hn, -⟩ := shapeNK_ok (shapeNK_of hnk)
  obtain ⟨bad, hr⟩ := exists_withinRadius hnk hxs hys hnd hmsg herr
  obtain ⟨-, hlen, -, -⟩ := hxs
  obtain ⟨m, hm, hmp, hmval⟩ := (zp_computesIn hz.2).decodeEe_spec (zp_inverts hprime) hr
  have hml := decodeEe_length_le _ hm
  rw [List.length_map, hlen] at hm hml
  rw [ops_of_inZp hz, hm] at h
  rw [← hmval]
  exact exists_zpOutput_of_exec hz hmp (by omega) h

/-! The BCH decoder (R223) -/

/-- A polynomial has no more nonzero coefficients than its list has nonzero residues. -/
theorem card_support_zpPoly_le {p : Nat} (hp : 2 ≤ p) (es : List Nat) :
    (zpPoly p es).support.card ≤ (es.filter fun e => e % p != 0).length := by
  have hlist : (List.range es.length).map (fun j => es.getD j 0) = es := map_coef_range (zpOps p) es
  conv_rhs => rw [← hlist, List.filter_map, List.length_map]
  refine (Finset.card_le_card fun j hj => ?_).trans (List.toFinset_card_le _)
  rw [mem_support_iff, coeff_zpPoly hp, Ne, ZMod.natCast_eq_zero_iff, Nat.dvd_iff_mod_eq_zero] at hj
  have hlt : j < es.length := by
    by_contra hge
    rw [List.getD_eq_default _ _ (not_lt.1 hge), Nat.zero_mod] at hj
    exact hj rfl
  rw [List.mem_toFinset, List.mem_filter, List.mem_range, Function.comp_apply, bne_iff_ne]
  exact ⟨hlt, hj⟩

/-- A word that is a codeword with at most t errors is within the radius of the BCH decoder. -/
theorem bchRadius_of_zpWord {s : State} [hp : Fact s.prime.toNat.Prime] {a : Nat} {gen msg ys es : List Nat} {G : Poly}
    (ha : ZpAlpha s a) (ha0 : a ≠ 0)
    (hpow : ∀ i j : Nat, i < j → j < s.nlen.toNat → (a : ZMod s.prime.toNat) ^ i ≠ (a : ZMod s.prime.toNat) ^ j)
    (hG : IsPoly (primeOps s.prime.toNat) (IsZpElem s.prime.toNat) G)
    (hGval : polyOf (zpVal s.prime.toNat) G = zpPoly s.prime.toNat gen)
    (hgenval : zpPoly s.prime.toNat gen = ∏ l ∈ Finset.range (s.nlen.toNat - s.klen.toNat),
      (X - C ((a : ZMod s.prime.toNat) ^ (s.powi.toInt + (l : Int)))))
    (hys : ZpWord s ys) (hes : es.length ≤ s.nlen.toNat)
    (hcard : (es.filter fun e => e % s.prime.toNat != 0).length ≤ maxErrors s.nlen.toNat s.klen.toNat)
    (hword : zpPoly s.prime.toNat ys = zpPoly s.prime.toNat msg * zpPoly s.prime.toNat gen + zpPoly s.prime.toNat es) :
    BchRadius (primeOps s.prime.toNat) (IsZpElem s.prime.toNat) (zpVal s.prime.toNat) s.nlen.toNat s.klen.toNat G
      (natElem a) s.powi.toInt (trim (primeOps s.prime.toNat) (ys.map natElem)) (zpPoly s.prime.toNat msg)
      (zpPoly s.prime.toNat es) := by
  have M := zp_computesIn hp.out.two_le
  obtain ⟨-, -, -, hyb⟩ := hys
  exact
    { valid_alpha := isZpElem_natElem ha.2
      alpha_ne_zero := natElem_ne_zero ha0
      injOn := fun i hi j hj he => by
        rw [zpVal_natElem] at he
        rcases lt_trichotomy i j with hij | hij | hij
        · exact absurd he (hpow i j hij (Finset.mem_range.1 hj))
        · exact hij
        · exact absurd he.symm (hpow j i hij (Finset.mem_range.1 hi))
      isPoly_gen := hG
      gen_ne_nil := by
        rw [Ne, ← M.polyOf_eq_zero_iff hG, hGval, hgenval, Finset.prod_eq_zero_iff]
        rintro ⟨l, -, h0⟩
        exact X_sub_C_ne_zero _ h0
      gen_eval := fun l hl => by
        rw [hGval, hgenval, eval_prod, zpVal_natElem]
        exact Finset.prod_eq_zero (Finset.mem_range.2 hl) (by rw [eval_sub, eval_X, eval_C, sub_self])
      isPoly_word := isPoly_trim (isZpElem_map_natElem hyb)
      word_eq := by rw [M.polyOf_trim, polyOf_map_natElem, hGval, hword]
      support := fun j hj => by
        rw [Finset.mem_range]
        by_contra hge
        exact mem_support_iff.1 hj ((degree_lt_iff_coeff_zero _ _).1 (degree_zpPoly_lt hp.out.two_le es) j (by omega))
      card := (card_support_zpPoly_le hp.out.two_le es).trans hcard }

/-- Settles O49: the steps of R210, R212, R219 and R220 find the error within the radius. -/
theorem decBchInZpCorrectsUpToTErrors : Obligations.DecBchInZpCorrectsUpToTErrors := by
  intro p hprime s d s1 a gen msg ys es hz hp hnk ha ha0 hpow hgen hgenval hys hmsg hes hcard hword
  subst hp
  obtain ⟨G, hrg, hG, -, hGval⟩ := exists_readP_of_zpInput hz hgen
  have h := exec_decBch (d := d) (field_of_configOk (configOk_of_inZp hz)) (shapeNK_of hnk) hrg (readAlpha_of_zpAlpha hz ha)
    (readW_of_zpWord hz hys)
  obtain ⟨hn, -⟩ := shapeNK_ok (shapeNK_of hnk)
  rw [receivedPoly, ops_of_inZp hz] at h
  have hr := bchRadius_of_zpWord ha ha0 hpow hG hGval hgenval hys hes hcard hword
  obtain ⟨m, hm, hmp, hmval⟩ := (zp_computesIn hz.2).decodeBch_spec (zp_inverts hprime.out) hr
  have hml := decodeBch_length_le _ ((trim_length_le _ _).trans (by rw [List.length_map, hys.2.1])) hm
  rw [hm] at h
  rw [← hmval]
  exact exists_zpOutput_of_exec hz hmp (by omega) h

end Sys2Proof.Machine
end

section
/-! PROOFS of the family 60_exceptions.md: how every command completes, the word that does not decode, the checks of R268 in
their order, and the accesses that are bus errors. -/

namespace Sys2Proof.Machine

/-! Completion (60_exceptions.md R269, R270) -/

/-- However a command ends, it ends in a completion whose code is not the reserved one (R264, R270). -/
theorem exists_complete_of_ends {s : State} {o : Host.Outcome State Fault Refusal} (h : Ends s o) :
    ∃ (u : State) (c : ErrCode), o = .next (u.complete c) ∧ c ≠ .degenerate := by
  cases h with
  | error c hc => exact ⟨s, c, rfl, hc.2⟩
  | ok ws => exact ⟨s.commit ws, .ok, rfl, by decide⟩

/-- An end with an error code is the completion of the state itself (R269). -/
theorem eq_complete_of_ends {s t : State} (h : Ends s (.next t)) (ht : t.err ≠ .ok) : t = s.complete t.err := by
  cases h with
  | error c => rfl
  | ok ws => exact absurd rfl ht

/-- Settles O7: every end is a completion, and no command writes OVR, WIGN or LASTCMD. -/
theorem everyCommandCompletes : Obligations.EveryCommandCompletes := by
  intro i s
  obtain ⟨u, c, hu, hc⟩ := exists_complete_of_ends (exec_ends i s)
  have hsame := noCommandWritesTheControlRegisters i s _ hu
  exact ⟨u.complete c, c, hu, ⟨rfl, rfl, rfl, hsame.ovr, hsame.wign, hsame.lastcmd⟩, hc⟩

/-- Settles O8: only the end with an error code leaves ERR different from OK. -/
theorem anErrorWritesNothingButStatus : Obligations.AnErrorWritesNothingButStatus :=
  fun i s _ h ht => eq_complete_of_ends (h ▸ exec_ends i s) ht

/-! Steps (R260, R267, R274) -/

/-- The sequencer's turn answers a next state, whether it is idle or busy. -/
theorem exists_next_of_sequencerTurn (s : State) : ∃ t, sequencerTurn s = .next t := by
  rcases sequencerTurn_ends s with ⟨-, hidle⟩ | hends
  · exact ⟨s, hidle⟩
  · obtain ⟨u, c, hu, -⟩ := exists_complete_of_ends hends
    exact ⟨u.complete c, hu⟩

/-- Settles O9: an access and a power-on reset answer a next state by definition, the sequencer's turn by its two cases. -/
theorem nothingStopsTheMachine : Obligations.NothingStopsTheMachine := by
  intro s
  cases he : s.events with
  | nil => rw [step_nil he]; exact exists_next_of_sequencerTurn s
  | cons e rest =>
    rw [step_cons he]
    cases e with
    | bus t => exact ⟨_, rfl⟩
    | run => exact exists_next_of_sequencerTurn _
    | powerOn => exact ⟨_, rfl⟩

/-- A busy sequencer completes a word that R96 does not decode with ILLEGAL (R267). -/
theorem sequencerTurn_of_not_legalWord {s : State} {cw : Word} (hcw : ¬ LegalWord cw) (hs : s.seq = .busy cw) :
    sequencerTurn s = .next (s.complete .illegal) := by
  cases hd : decode cw with
  | ok i => exact absurd ((decodeAcceptsExactlyTheLegalWords cw).1 ⟨i, hd⟩) hcw
  | error e => exact sequencerTurn_illegal hs hd

/-- Settles O6: each of the three steps is the sequencer's turn on the word. -/
theorem illegalWordCompletesWithIllegal : Obligations.IllegalWordCompletesWithIllegal := by
  intro s cw rest hcw
  refine ⟨fun hs he => ?_, fun hs he => ?_, fun nbits => ?_⟩
  · rw [step_nil he, sequencerTurn_of_not_legalWord hcw hs]; rfl
  · rw [step_run he, sequencerTurn_of_not_legalWord (s := s.setEvents rest) hcw hs]; rfl
  · rw [step_withFetchWord, sequencerTurn_of_not_legalWord hcw (s.accept_seq cw)]; rfl

/-! The interrupt (R271) -/

/-- A command leaves the sequencer idle and DONE = 1, so that irq is IE. -/
theorem exec_raises_irq (i : Instr) (s : State) :
    ∃ t, exec i s = .next t ∧ t.seq = .idle ∧ t.done = true ∧ t.irq = s.ie := by
  obtain ⟨t, c, ht, ⟨-, hdone, hseq, -⟩, -⟩ := everyCommandCompletes i s
  refine ⟨t, ht, hseq, hdone, ?_⟩
  rw [State.irq, hdone, Bool.and_true, (noCommandWritesTheControlRegisters i s t ht).ie]

/-- Settles O54: a latched word runs its command or completes with ILLEGAL, and both raise the interrupt. -/
theorem completionRaisesTheInterrupt : Obligations.CompletionRaisesTheInterrupt := by
  refine ⟨fun s => Bool.and_eq_true_iff, fun i s => ?_, fun s cw hs => ?_⟩
  · obtain ⟨t, ht, -, hdone, hirq⟩ := exec_raises_irq i s
    exact ⟨t, ht, hdone, hirq⟩
  · cases hd : decode cw with
    | ok i => rw [sequencerTurn_busy hs hd]; exact exec_raises_irq i s
    | error e => exact ⟨_, sequencerTurn_illegal hs hd, rfl, rfl, Bool.and_true _⟩

/-! Bus errors (R280) -/

/-- Settles O55: serving such an access records the ERROR response alone. -/
theorem nonWordAccessIsABusError : Obligations.NonWordAccessIsABusError := by
  intro s a bits w rest h
  refine ⟨fun he => ?_, fun he => ?_⟩
  · rw [step_bus he, State.serve_read_error _ h]; rfl
  · rw [step_bus he, State.serve_write_error _ h]; rfl

/-! The checks before a command computes: steps 2 to 4 of R268 -/

/-- A check that a decoded command makes before it computes (R268, steps 2 to 4). -/
inductive Check where
  /-- ConfigValid (R265) -/
  | config
  /-- ShapeN (R263) -/
  | shapeN
  /-- ShapeNK (R263) -/
  | shapeNK
  /-- an operand is a reduced value (R266) -/
  | reduced (o : Operand)

/-- The state does not pass the check. -/
def Check.Fails (s : State) : Check → Prop
  | .config => ¬ ConfigOk s
  | .shapeN => ¬ ShapeN s
  | .shapeNK => ¬ ShapeNK s
  | .reduced o => o.Unreduced s

/-- The code of a check that fails (R263, R265, R266). -/
def Check.code : Check → ErrCode
  | .config => .config
  | .shapeN => .dim
  | .shapeNK => .dim
  | .reduced _ => .range

/-- The shape check of a command, if it has one (R263). -/
def shapeChecks (i : Instr) : List Check :=
  if needsShapeN i then [.shapeN] else if needsShapeNK i then [.shapeNK] else []

/-- The checks of a command other than NOP: CONFIG, the shape, and its operands in the order of R95 (R268). -/
def checks (i : Instr) : List Check := .config :: (shapeChecks i ++ (operands i).map .reduced)

/-- Among the listed checks the first one that fails decides the result. -/
def FirstFailureDecides (s : State) (r : Except ErrCode (List Write)) : List Check → Prop
  | [] => True
  | c :: cs => (c.Fails s → r = .error c.code) ∧ (¬ c.Fails s → FirstFailureDecides s r cs)

theorem FirstFailureDecides.append {s : State} {r : Except ErrCode (List Write)} {as bs : List Check}
    (h : FirstFailureDecides s r (as ++ bs)) (has : ∀ c ∈ as, ¬ c.Fails s) : FirstFailureDecides s r bs := by
  induction as with
  | nil => exact h
  | cons a as ih =>
    obtain ⟨ha, hrest⟩ := List.forall_mem_cons.1 has
    exact ih (h.2 ha) hrest

/-- Checks with one code: a failing one gives that code, whichever comes first. -/
theorem FirstFailureDecides.of_exists {s : State} {r : Except ErrCode (List Write)} {cs : List Check} {e : ErrCode}
    (h : FirstFailureDecides s r cs) (hcode : ∀ c ∈ cs, c.code = e) (hfail : ∃ c ∈ cs, c.Fails s) : r = .error e := by
  induction cs with
  | nil => obtain ⟨c, hc, -⟩ := hfail; cases hc
  | cons a cs ih =>
    obtain ⟨ha, hrest⟩ := List.forall_mem_cons.1 hcode
    by_cases hf : a.Fails s
    · exact ha ▸ h.1 hf
    · refine ih (h.2 hf) hrest ?_
      obtain ⟨c, hc, hcf⟩ := hfail
      rcases List.mem_cons.1 hc with rfl | hc
      · exact absurd hcf hf
      · exact ⟨c, hc, hcf⟩

section
variable {β : Type} {s : State} {cs : List Check}

theorem firstFailureDecides_bind {c : Check} {x : Except ErrCode β} {f : β → Except ErrCode (List Write)}
    (hfail : c.Fails s → x = .error c.code) (hpass : ¬ c.Fails s → ∃ v, x = .ok v ∧ FirstFailureDecides s (f v) cs) :
    FirstFailureDecides s (x >>= f) (c :: cs) := by
  refine ⟨fun hc => ?_, fun hc => ?_⟩
  · rw [hfail hc, error_bind]
  · obtain ⟨v, hv, hf⟩ := hpass hc
    rwa [hv, ok_bind]

theorem firstFailureDecides_field {f : FieldCtx → Except ErrCode (List Write)}
    (hf : ConfigOk s → FirstFailureDecides s (f s.fieldCtx) cs) : FirstFailureDecides s (s.field >>= f) (.config :: cs) :=
  firstFailureDecides_bind field_of_not_configOk fun h => ⟨_, field_of_configOk (not_not.1 h), hf (not_not.1 h)⟩

theorem firstFailureDecides_shapeN {f : Nat → Except ErrCode (List Write)}
    (hf : FirstFailureDecides s (f s.nlen.toNat) cs) : FirstFailureDecides s (s.shapeN >>= f) (.shapeN :: cs) :=
  firstFailureDecides_bind shapeN_of_not fun h => ⟨_, shapeN_of (not_not.1 h), hf⟩

theorem firstFailureDecides_shapeNK {f : Nat × Nat → Except ErrCode (List Write)}
    (hf : FirstFailureDecides s (f (s.nlen.toNat, s.klen.toNat)) cs) :
    FirstFailureDecides s (s.shapeNK >>= f) (.shapeNK :: cs) :=
  firstFailureDecides_bind shapeNK_of_not fun h => ⟨_, shapeNK_of (not_not.1 h), hf⟩

/-- A read that answers only a reduced operand and else raises RANGE checks that operand (R266). -/
theorem firstFailureDecides_read {o : Operand} {P : Prop} {x : Except ErrCode β} {f : β → Except ErrCode (List Write)}
    (hx : (∃ v, x = .ok v ∧ P) ∨ (x = .error .range ∧ o.Unreduced s)) (hP : P → ¬ o.Unreduced s)
    (hf : ∀ v, FirstFailureDecides s (f v) cs) : FirstFailureDecides s (x >>= f) (.reduced o :: cs) := by
  rcases hx with ⟨v, hv, hp⟩ | ⟨he, ho⟩
  · exact firstFailureDecides_bind (fun ho => absurd ho (hP hp)) fun _ => ⟨v, hv, hf v⟩
  · exact firstFailureDecides_bind (fun _ => he) fun hn => absurd ho hn

end

section
variable {s : State} (hc : ConfigOk s) {cs : List Check}
include hc

theorem firstFailureDecides_readE {r : EReg} {f : Elem → Except ErrCode (List Write)}
    (hf : ∀ v, FirstFailureDecides s (f v) cs) :
    FirstFailureDecides s (s.readE s.fieldCtx r >>= f) (.reduced (.e r) :: cs) :=
  firstFailureDecides_read (readE_cases hc r) not_not_intro hf

theorem firstFailureDecides_readP {r : PReg} {f : Poly → Except ErrCode (List Write)}
    (hf : ∀ g, FirstFailureDecides s (f g) cs) :
    FirstFailureDecides s (s.readP s.fieldCtx r >>= f) (.reduced (.p r) :: cs) :=
  firstFailureDecides_read (readP_cases hc r) not_not_intro hf

theorem firstFailureDecides_readAlpha {f : Elem → Except ErrCode (List Write)}
    (hf : ∀ v, FirstFailureDecides s (f v) cs) :
    FirstFailureDecides s (s.readAlpha s.fieldCtx >>= f) (.reduced .alpha :: cs) :=
  firstFailureDecides_read (readAlpha_cases hc) not_not_intro hf

theorem firstFailureDecides_readA {f : List Elem → Except ErrCode (List Write)}
    (hf : ∀ xs, FirstFailureDecides s (f xs) cs) :
    FirstFailureDecides s (s.readA s.fieldCtx s.nlen.toNat >>= f) (.reduced .points :: cs) :=
  firstFailureDecides_read (readSlots_cases hc aAddr _) (fun h ⟨j, hj, hn⟩ => hn (h j hj)) hf

theorem firstFailureDecides_readW {f : List Elem → Except ErrCode (List Write)}
    (hf : ∀ ys, FirstFailureDecides s (f ys) cs) :
    FirstFailureDecides s (s.readW s.fieldCtx s.nlen.toNat >>= f) (.reduced .word :: cs) :=
  firstFailureDecides_read (readSlots_cases hc wAddr _) (fun h ⟨j, hj, hn⟩ => hn (h j hj)) hf

end

/-- A well-formed command passes the destination check, which stands before all others (R268, step 1; log 13). -/
theorem firstFailureDecides_throw {s : State} {cs : List Check} {p : Prop} [Decidable p] {c : ErrCode}
    {r : Except ErrCode (List Write)} (hp : ¬ p) (hr : FirstFailureDecides s r cs) :
    FirstFailureDecides s (if p then throw c else r) cs := by
  rwa [if_neg hp]

/-- Every well-formed command but NOP makes its checks in the order of R268 before it computes. -/
theorem exec_eq_finish_checks {i : Instr} (s : State) (hwf : i.wf = true) (hi : i ≠ .nop) :
    ∃ r, exec i s = finish s r ∧ FirstFailureDecides s r (checks i) := by
  cases i with
  | nop => exact absurd rfl hi
  | fzero | fone => exact ⟨_, rfl, firstFailureDecides_field fun _ => trivial⟩
  | fneg | finv | fpow =>
    exact ⟨_, rfl, firstFailureDecides_field fun hc => firstFailureDecides_readE hc fun _ => trivial⟩
  | fadd | fmul =>
    exact ⟨_, rfl, firstFailureDecides_field fun hc => firstFailureDecides_readE hc fun _ =>
      firstFailureDecides_readE hc fun _ => trivial⟩
  | peval =>
    exact ⟨_, rfl, firstFailureDecides_field fun hc => firstFailureDecides_readP hc fun _ =>
      firstFailureDecides_readE hc fun _ => trivial⟩
  | pneg | preduce | pirred =>
    exact ⟨_, rfl, firstFailureDecides_field fun hc => firstFailureDecides_readP hc fun _ => trivial⟩
  | padd | pmul | pgcd | ppowmod =>
    exact ⟨_, rfl, firstFailureDecides_field fun hc => firstFailureDecides_readP hc fun _ =>
      firstFailureDecides_readP hc fun _ => trivial⟩
  | pdiv d d2 =>
    have hne : d ≠ d2 := bne_iff_ne.1 hwf
    exact ⟨_, rfl, firstFailureDecides_throw hne <| firstFailureDecides_field fun hc =>
      firstFailureDecides_readP hc fun _ => firstFailureDecides_readP hc fun _ => trivial⟩
  | pgcdx d d2 d3 =>
    have hne : ¬ (d = d2 ∨ d = d3 ∨ d2 = d3) := by simpa [Instr.wf, and_assoc] using hwf
    exact ⟨_, rfl, firstFailureDecides_throw hne <| firstFailureDecides_field fun hc =>
      firstFailureDecides_readP hc fun _ => firstFailureDecides_readP hc fun _ => trivial⟩
  | pinterp =>
    exact ⟨_, rfl, firstFailureDecides_field fun hc => firstFailureDecides_shapeN <|
      firstFailureDecides_readA hc fun _ => firstFailureDecides_readW hc fun _ => trivial⟩
  | encEval =>
    exact ⟨_, rfl, firstFailureDecides_field fun hc => firstFailureDecides_shapeN <|
      firstFailureDecides_readP hc fun _ => firstFailureDecides_readA hc fun _ => trivial⟩
  | encGen =>
    exact ⟨_, rfl, firstFailureDecides_field fun hc => firstFailureDecides_shapeN <|
      firstFailureDecides_readP hc fun _ => firstFailureDecides_readP hc fun _ => trivial⟩
  | genpoly =>
    exact ⟨_, rfl, firstFailureDecides_field fun hc => firstFailureDecides_shapeNK <|
      firstFailureDecides_readAlpha hc fun _ => trivial⟩
  | elp =>
    exact ⟨_, rfl, firstFailureDecides_field fun hc => firstFailureDecides_shapeNK <|
      firstFailureDecides_readP hc fun _ => trivial⟩
  | synd =>
    exact ⟨_, rfl, firstFailureDecides_field fun hc => firstFailureDecides_shapeNK <|
      firstFailureDecides_readAlpha hc fun _ => firstFailureDecides_readW hc fun _ => trivial⟩
  | decLa | decEe =>
    exact ⟨_, rfl, firstFailureDecides_field fun hc => firstFailureDecides_shapeNK <|
      firstFailureDecides_readA hc fun _ => firstFailureDecides_readW hc fun _ => trivial⟩
  | decBch =>
    exact ⟨_, rfl, firstFailureDecides_field fun hc => firstFailureDecides_shapeNK <|
      firstFailureDecides_readP hc fun _ => firstFailureDecides_readAlpha hc fun _ =>
      firstFailureDecides_readW hc fun _ => trivial⟩
  | lakey d d2 =>
    have hne : d ≠ d2 := bne_iff_ne.1 hwf
    exact ⟨_, rfl, firstFailureDecides_throw hne <| firstFailureDecides_field fun hc => firstFailureDecides_shapeNK <|
      firstFailureDecides_readA hc fun _ => firstFailureDecides_readW hc fun _ => trivial⟩

/-- The first check that fails gives its code, and nothing else changes (R268, R269). -/
theorem exec_of_first_failure {i : Instr} {s : State} {as cs : List Check} {c : Check} (hwf : i.wf = true) (hi : i ≠ .nop)
    (hchecks : checks i = as ++ c :: cs) (has : ∀ a ∈ as, ¬ a.Fails s) (hc : c.Fails s) :
    exec i s = .next (s.complete c.code) := by
  obtain ⟨r, hr, hfirst⟩ := exec_eq_finish_checks s hwf hi
  rw [hchecks] at hfirst
  rw [hr, (hfirst.append has).1 hc, finish_error]

/-- Settles O17: the configuration is the first check. -/
theorem invalidConfigurationGivesConfig : Obligations.InvalidConfigurationGivesConfig :=
  fun _ _ hwf hi hc => exec_of_first_failure (as := []) (c := .config) hwf hi rfl (List.forall_mem_nil _) hc

theorem shapeChecks_of_needsShapeN {i : Instr} (h : needsShapeN i = true) : shapeChecks i = [.shapeN] := if_pos h

theorem shapeChecks_of_needsShapeNK {i : Instr} (h : needsShapeNK i = true) : shapeChecks i = [.shapeNK] := by
  cases i with
  | genpoly | synd | elp | lakey | decLa | decEe | decBch => rfl
  | _ => cases h

/-- The shape check is the one after the configuration. -/
theorem exec_of_shapeCheck {i : Instr} {s : State} {c : Check} (hwf : i.wf = true) (hconfig : ConfigOk s)
    (hi : shapeChecks i = [c]) (hc : c.Fails s) : exec i s = .next (s.complete c.code) :=
  exec_of_first_failure (as := [.config]) hwf (by rintro rfl; cases hi) (by rw [checks, hi]; rfl)
    (List.forall_mem_singleton.2 (not_not_intro hconfig)) hc

/-- Settles O18: the shape check follows the configuration and comes before every operand. -/
theorem wrongShapeGivesDim : Obligations.WrongShapeGivesDim := by
  rintro i s hwf hconfig (⟨hi, hn⟩ | ⟨hi, hnk⟩)
  · exact exec_of_shapeCheck hwf hconfig (shapeChecks_of_needsShapeN hi) hn
  · exact exec_of_shapeCheck hwf hconfig (shapeChecks_of_needsShapeNK hi) hnk

theorem shapeChecks_pass {i : Instr} {s : State} (hn : needsShapeN i = true → ShapeN s)
    (hnk : needsShapeNK i = true → ShapeNK s) : ∀ c ∈ shapeChecks i, ¬ c.Fails s := by
  unfold shapeChecks
  split
  case isTrue h => exact List.forall_mem_singleton.2 (not_not_intro (hn h))
  case isFalse =>
    split
    case isTrue h => exact List.forall_mem_singleton.2 (not_not_intro (hnk h))
    case isFalse => exact List.forall_mem_nil _

/-- Settles O19: when the configuration and the shape pass, only checks of operands are left, and all of them give RANGE. -/
theorem unreducedOperandGivesRange : Obligations.UnreducedOperandGivesRange := by
  rintro i s hwf hconfig hn hnk ⟨o, ho, hunreduced⟩
  have hi : i ≠ .nop := by rintro rfl; cases ho
  obtain ⟨r, hr, hfirst⟩ := exec_eq_finish_checks s hwf hi
  have hreads : FirstFailureDecides s r ((operands i).map .reduced) :=
    (hfirst.2 (not_not_intro hconfig)).append (shapeChecks_pass hn hnk)
  have hrange : r = .error .range :=
    hreads.of_exists (List.forall_mem_map.2 fun _ _ => rfl) ⟨.reduced o, List.mem_map_of_mem ho, hunreduced⟩
  rw [hr, hrange, finish_error]
  rfl

end Sys2Proof.Machine
end

section
/-! PROOFS of the family 70_reset_and_hazards.md: the two resets, and what the host can do while a command is in flight. -/

namespace Sys2Proof.Machine

/-! The resets (70_reset_and_hazards.md R300 to R305) -/

/-- Settles O11: nothing is in flight, no byte is written and ERR is OK. -/
theorem resetHasTheInvariant : Obligations.ResetHasTheInvariant :=
  inv_of_idle ⟨Memory.nil_wf, List.forall_mem_nil _⟩ rfl (show ErrCode.ok ≠ .degenerate by decide)

/-- Settles O60: a power-on reset takes every register and the written bytes from the reset state. -/
theorem powerOnResetState : Obligations.PowerOnResetState := by
  refine ⟨fun s rest he => ⟨_, step_powerOn he, ?_⟩, ?_⟩
  · and_intros <;> rfl
  · and_intros <;> rfl

/-- A CTRL write with SRST = 1 is a soft reset, idle or busy (R300). -/
theorem State.writeReg_ctrl_reset (s : State) {w : Word} (hw : w.getLsbD 31 = true) : s.writeReg .ctrl w = s.softReset := by
  cases hs : s.seq with
  | idle => rw [State.writeReg_idle hs, State.writeIdle, State.writeCtrl_reset s hw]
  | busy cw => rw [State.writeReg_busy hs, State.writeBusy, State.writeCtrl_reset s hw]

theorem step_softReset {s : State} {w : Word} {rest : List Event} (hw : w.getLsbD 31 = true)
    (he : s.events = .bus (.write 0x00004 32 w) :: rest) :
    step s = .next ((s.setEvents rest).softReset.respond .writeOkay) := by
  rw [step_write (r := .ctrl) he rfl rfl, State.writeReg_ctrl_reset _ hw]

/-- A soft reset keeps the written bytes of E, A and W (R303). -/
theorem State.find_softReset_of_lt (s : State) {a : Nat} (ha : a < 0x10000) :
    Memory.find s.softReset.mem a = Memory.find s.mem a := by
  rw [State.softReset_mem, Memory.find_erase]
  exact if_pos (.inl ha)

/-- A soft reset leaves no byte of PC written (R304). -/
theorem State.find_softReset_of_pc (s : State) {a : Nat} (h1 : 0x10000 ≤ a) (h2 : a < 0x90000) :
    Memory.find s.softReset.mem a = none := by
  rw [State.softReset_mem, Memory.find_erase]
  exact if_neg (by simp only [pcAddr, pcSize]; omega)

/-- An unwritten byte of E, A or W has its free value from the last power-on reset, so a soft reset keeps it (R303). -/
theorem State.byte_softReset_of_lt (s : State) {a : Nat} (ha : a < 0x10000) : s.softReset.byte a = s.byte a := by
  have hunwritten : unwritten s.softReset a = unwritten s a := by
    unfold unwritten
    rw [if_pos ha, if_pos ha, State.softReset_powerOns]
  unfold State.byte
  rw [s.find_softReset_of_lt ha, hunwritten]

/-- Settles O59: the registers come from the reset state, and only the bytes of PC are erased. -/
theorem softResetState : Obligations.SoftResetState := by
  intro s w rest hw he
  refine ⟨_, step_softReset hw he, rfl, rfl, rfl, rfl, rfl, rfl, rfl, rfl, rfl, rfl, rfl, rfl, rfl, rfl, rfl, rfl, rfl,
    fun a ha => ⟨?written, ?byte⟩, fun a h1 h2 => ?pc⟩
  case written => exact (s.setEvents rest).find_softReset_of_lt ha
  case byte => exact (s.setEvents rest).byte_softReset_of_lt ha
  case pc => exact (s.setEvents rest).find_softReset_of_pc h1 h2

/-! Host writes while busy (70_reset_and_hazards.md R309, R310; 90_conflicts.md C7) -/

/-- Settles O51: CMD is the register at 0x00C, and a busy write to it is OVR. -/
theorem cmdWriteWhileBusyOnlySetsOvr : Obligations.CmdWriteWhileBusyOnlySetsOvr :=
  fun _ _ _ _ hs he => step_write_busy (r := .cmd) hs he rfl rfl

/-- The map has no register beside CTRL, STATUS and CMD that does more than WIGN while busy (R309). -/
theorem State.writeBusy_regAt_eq_setWign (s : State) (w : Word) {a : Nat} (hctrl : a ≠ 0x004) (hstatus : a ≠ 0x008)
    (hcmd : a ≠ 0x00C) : s.writeBusy w (regAt a) = s.setWign := by
  unfold regAt controlReg
  rw [if_neg hctrl, if_neg hstatus, if_neg hcmd]
  split_ifs <;> rfl

/-- Settles O52: the register at every other address sets WIGN alone. -/
theorem otherWritesWhileBusyOnlySetWign : Obligations.OtherWritesWhileBusyOnlySetWign := by
  intro s cw w a rest hs ha hctrl hstatus hcmd he
  rw [step_write_busy hs he ha rfl, State.writeBusy_regAt_eq_setWign _ w (BitVec.toNat_ne_iff_ne.2 hctrl)
    (BitVec.toNat_ne_iff_ne.2 hstatus) (BitVec.toNat_ne_iff_ne.2 hcmd)]
  rfl

/-! The command in flight (10_state.md R49; 70_reset_and_hazards.md R309) -/

/-- A state that differs at most in CTRL.IE, the event flags of STATUS and the bus response, none of which a command reads. -/
def DiffersInHostFlags (s t : State) : Prop :=
  ∃ ie done ovr wign response, t = { s with ie := ie, done := done, ovr := ovr, wign := wign, response := response }

theorem differsInHostFlags_respond (s : State) (r : BusResponse) : DiffersInHostFlags s (s.respond r) :=
  ⟨s.ie, s.done, s.ovr, s.wign, some r, rfl⟩

theorem DiffersInHostFlags.respond {s t : State} (h : DiffersInHostFlags s t) (r : BusResponse) :
    DiffersInHostFlags s (t.respond r) := by
  obtain ⟨ie, done, ovr, wign, -, rfl⟩ := h
  exact ⟨ie, done, ovr, wign, some r, rfl⟩

/-- While busy, every write but a soft reset changes at most the host's flags (R309, R310). -/
theorem differsInHostFlags_writeBusy {s : State} {cw w : Word} {r : Reg} (hs : s.seq = .busy cw)
    (hr : r = .ctrl → w.getLsbD 31 = false) : DiffersInHostFlags s (s.writeBusy w r) := by
  rcases State.writeBusy_not_reset hs hr with e | e | e | e <;> rw [e] <;> exact ⟨_, _, _, _, _, rfl⟩

/-- While busy, an aligned 32-bit write is a soft reset at CTRL, or changes at most the host's flags (R300, R309). -/
theorem serve_write_busy_cases {s : State} {cw : Word} (hs : s.seq = .busy cw) {a : BitVec 20} (ha : a.toNat % 4 = 0)
    (w : Word) :
    (a = 0x00004 ∧ w.getLsbD 31 = true ∧ s.serve (.write a 32 w) = s.softReset.respond .writeOkay) ∨
      DiffersInHostFlags s (s.serve (.write a 32 w)) := by
  rw [State.serve_write s ha]
  by_cases hreset : regAt a.toNat = .ctrl ∧ w.getLsbD 31 = true
  · obtain ⟨hctrl, hw⟩ := hreset
    rw [hctrl, State.writeReg_ctrl_reset s hw]
    exact .inl ⟨BitVec.eq_of_toNat_eq (regAt_eq_ctrl hctrl), hw, rfl⟩
  · rw [State.writeReg_busy hs]
    exact .inr ((differsInHostFlags_writeBusy hs fun hctrl =>
      Bool.eq_false_iff.2 fun hw => hreset ⟨hctrl, hw⟩).respond _)

/-- Everything serving one transaction can do while busy (R300, R309; 60_exceptions.md R280). -/
theorem serve_busy_cases {s : State} {cw : Word} (hs : s.seq = .busy cw) (t : BusAccess) :
    (∃ w : Word, t = .write 0x00004 32 w ∧ w.getLsbD 31 = true ∧ s.serve t = s.softReset.respond .writeOkay) ∨
      DiffersInHostFlags s (s.serve t) := by
  cases t with
  | read a bits =>
    right
    by_cases ha : a.toNat % 4 = 0 ∧ bits = 32
    · obtain ⟨ha, rfl⟩ := ha
      rw [State.serve_read s ha]
      exact differsInHostFlags_respond s _
    · rw [State.serve_read_error s (by omega)]
      exact differsInHostFlags_respond s _
  | write a bits w =>
    by_cases ha : a.toNat % 4 = 0 ∧ bits = 32
    · obtain ⟨ha, rfl⟩ := ha
      refine (serve_write_busy_cases hs ha w).imp_left ?_
      rintro ⟨rfl, hw, hserve⟩
      exact ⟨w, rfl, hw, hserve⟩
    · rw [State.serve_write_error s (by omega)]
      exact .inr (differsInHostFlags_respond s _)

/-- Settles O53: a soft reset leaves the sequencer idle, and the host's flags are no input of a command. -/
theorem hostCannotChangeInputsWhileBusy : Obligations.HostCannotChangeInputsWhileBusy := by
  intro s cw t hs
  rcases serve_busy_cases hs t with ⟨w, ht, hw, hserve⟩ | ⟨ie, done, ovr, wign, response, hserve⟩
  · rw [hserve]
    exact .inl ⟨⟨w, ht, hw⟩, rfl⟩
  · rw [hserve]
    exact .inr ⟨hs, rfl, rfl, rfl, rfl, rfl, rfl, rfl, rfl, rfl, rfl, rfl, fun b => rfl⟩

end Sys2Proof.Machine
end
